-- ==== Sys2Proof/Word.lean ====
section
/-! DEFINITION. The word types of the machine and their plainest arithmetic (spec R7, R49, R51, R54 to R57). -/

namespace Sys2Proof

/-- A scalar register or control register (R49, R60). -/
abbrev Word := BitVec 64

/-- A block of 4 KiB, little-endian: byte n is bits [8n+7:8n]. It is also the image of a vector register (R51). -/
abbrev Block := BitVec 32768

/-- A mask register: bit 64*row + col governs container (row, col) (R54). -/
abbrev Mask := BitVec 1024

/-- An accumulator tile: FP32 value z[m,n] at bits [32*(64*m+n)+31 : 32*(64*m+n)] (R55, R237). -/
abbrev Tile := BitVec 65536

/-- A scale register: byte n at bits [8n+7:8n] (R56). -/
abbrev Scales := BitVec 2048

/-- A row of a vector register or of a block: 256 bytes (R51). -/
abbrev Row := BitVec 2048

/-- A 128-bit register: h (R57) or g (R59), and RANDKEY (R73). -/
abbrev Quad := BitVec 128

/-- Number of bytes of a block (R10). -/
abbrev blockBytes : Nat := 4096

/-- Bytes of one stack's scratchpad: 24 MiB (R3). -/
abbrev spadBytes : Nat := 25165824

/-- Blocks of one stack's scratchpad (R81). -/
abbrev spadBlocks : Nat := 6144

end Sys2Proof
end

