-- ==== Sys2Proof/Types.lean ====
section
/-! DEFINITION. The data that steps carry: who executes a word, what a result writes, what an access does when it
performs, and what the outside world hands to the module. Plain data only. -/

namespace Sys2Proof

/-- The two context kinds of a row (R11). -/
inductive Kind where
  | p | q
  deriving DecidableEq, Repr

/-- The place of a word in its bundle, with the codes of TRAPINFO.SLOT (R79, R253). -/
inductive Slot where
  | header | scalar | vec0 | vec1 | matrix | peel0 | peel1 | nowhere
  deriving DecidableEq, Repr

/-- The code of a slot in TRAPINFO (R79). -/
def Slot.code : Slot → Nat
  | .header => 0 | .scalar => 1 | .vec0 => 2 | .vec1 => 3 | .matrix => 4 | .peel0 => 5 | .peel1 => 6 | .nowhere => 7

/-- The rank of a slot's write port (R47, R147). -/
def Slot.port (x : Slot) : Nat := x.code - 1

/-- Who executes: the row context (2*(16*die+row) + kind), the column, and the word's place. `timed` and `cmode` are
the values the bundle carries from its head issue (R23, R72); `seq` is the bundle's issue number in its context. -/
structure Cursor where
  ctx : Nat
  col : Nat
  slot : Slot
  bundle : Nat
  nw : Nat
  timed : Bool
  cmode : Bool
  seq : Nat
  deriving DecidableEq, Repr

/-- One register update of a result. `mask` selects the bits that are written (R54, R295). A control-register update
clears and then sets bits; it is made by SETC, SETB and CLRB (R61). -/
inductive RegWrite where
  | s (n : Nat) (x : Word)
  | p (n : Nat) (b : Bool)
  | v (n : Nat) (mask x : Block)
  | k (n : Nat) (mask x : Mask)
  | z (n : Nat) (x : Tile) (mask : Tile)
  | e (n : Nat) (mask x : Scales)
  | g (n : Nat) (x : Quad)
  | ctl (num : Nat) (clear set : Word)
  deriving DecidableEq, Repr

/-- A result on its way to its registers, an entry of an in-flight queue (R147). `id` lets a later memory read fill it
in; `delay` counts the cycles its landing has moved (R47); `reply` marks the result of a windowed G-op (R379) and `fifo` a row
that VFPOP took (R147, KIND 9). -/
structure Flight where
  id : Nat
  port : Nat
  writes : List RegWrite
  flags : BitVec 5
  delay : Nat
  reply : Bool
  fifo : Bool
  deriving DecidableEq, Repr

/-- A run of bytes read by a vector or matrix access: flat address, byte count, bit position in the destination. -/
structure Run where
  addr : Nat
  len : Nat
  pos : Nat
  deriving DecidableEq, Repr

/-- A run of bytes written: flat address, byte count, value. -/
structure Put where
  addr : Nat
  len : Nat
  val : Nat
  deriving DecidableEq, Repr

/-- The containers of one VSCADD that name one address, in ascending index, with their selected values (R324). -/
structure AddGroup where
  addr : Nat
  vals : List (BitVec 32)
  deriving DecidableEq, Repr

/-- The ring operations that act on a stack's state ring table (R164, R373 to R375). -/
inductive RingOp where
  | bind (q base slotBlk nSlot key job : Nat) (world : Bool)
  | adv (q pos : Nat) (pin : Bool)
  | roll (q pos : Nat)
  | fork (q src pos : Nat)
  | drop (q : Nat)
  | find (q pos d : Nat) (sel : Nat) (head : Bool)
  deriving DecidableEq, Repr

/-- What an access does in the cycle in which it performs (R91, R210). -/
inductive AccessOp where
  | load (addr n : Nat) (signed : Bool) (d : Nat)
  | store (put : Put)
  | amo (op addr : Nat) (w : Bool) (y cmp : Word) (d : Nat)
  | vload (tagged : Bool) (runs : List Run)
  | vstore (puts : List Put)
  | scatAdd (mode : BitVec 3) (groups : List AddGroup)
  | xverWrite (slot : Nat) (x : BitVec 32)
  | xverRead (slot d : Nat)
  | esld (d : Nat) (run : Run)
  | matRows (rows : List (Nat × Nat × Nat))
  | sendRow (addr row dstCtx dstCol due : Nat)
  | ring (stack : Nat) (op : RingOp)
  | launch (addr queue d : Nat)
  deriving DecidableEq, Repr

/-- An access waiting for its perform cycle; `id` names the result it fills (0 for none). -/
structure Access where
  id : Nat
  op : AccessOp
  deriving DecidableEq, Repr

/-- The array commands (R344, R346, R347). -/
inductive MatKind where
  | mma | mmaz | mmat | mmax | mwin | mcsr | mbsr | m24
  deriving DecidableEq, Repr

/-- An array command between its execution and its landing (R338, R341): operand rows captured so far, keyed by
side (0 A, 1 B, 2 metadata) times 2^20 plus row; `delay` counts the cycles its landing has waited for its port, `defer` is the
largest deferral of a row; `f0` is the frame-clock value of its execution cycle as its offsets count from it, `win` the sampled window, `occ` its array cycles, `last` the offset of the last of them,
`vals` the frame-clock values it reserves. `null` marks a command that its guard nullified: it reserves its cycles and does nothing else
(R341). -/
structure MatCmd where
  id : Nat
  kind : MatKind
  z : Nat
  fmt : Nat
  taps : Nat
  eA : Scales
  eB : Scales
  rows : List (Nat × Row)
  delay : Nat
  defer : Nat
  f0 : Int
  win : Nat
  occ : Nat
  last : Nat
  vals : List Int
  null : Bool
  deriving DecidableEq, Repr

/-- A hardware block of the world map (R165), also the target of a scrub (R150). -/
inductive HwBlock where
  | context (n : Nat) | slab (stack n : Nat) | channel (n : Nat) | peel (n : Nat) | link (n : Nat) | root (n : Nat)
  | vf (n : Nat)
  deriving DecidableEq, Repr

/-- Who enqueues a launch record (R139): the physical function, a virtual function, or a core by LAUNCH with the
context, the number of the landing that takes the outcome, and its scalar register (R396). -/
inductive Requester where
  | pf | vf (n : Nat) | core (ctx id d : Nat)
  deriving DecidableEq, Repr

/-- A management register without a row of its own in the table of operations (R61, R76, R138, R186, R428, R440). A counter's selection says whether secure firmware writes it: only that sets SEC (R186). -/
inductive MgmtReg where
  | queueCtl (q : Nat) | perfSelect (core i : Nat) (secure : Bool) | perfValue (core i : Nat) | powerLimit | sstep (ctx : Nat)
  | moduleNumber
  deriving DecidableEq, Repr

/-- The causes of hold ticks (R35). -/
inductive HoldCause where
  | thermal (sensor : Nat) | power | replay (ch : Nat) | regionScrub (ch : Nat) | reopen (job : Nat) | boundary
  deriving DecidableEq, Repr

/-- A remote access at its target (R109, R377). -/
inductive RemoteOp where
  | read (len : Nat)
  | write (len : Nat) (val : Nat)
  | amo (op : Nat) (w : Bool) (y cmp : Word)
  | merge (m l : BitVec 32) (o : Row) (port srcPort seq : Nat)
  | exchange (data : Block) (version : BitVec 32)
  deriving DecidableEq, Repr

/-- A remote access that has reached this module: issuing module and its entry, window offset, the operation, and for a
step-timed one its partition, its issue domain cycle and its rank in R211 at the source (R225). `beat` counts the beats that have
performed here (R109). -/
structure Remote where
  srcModule : Nat
  srcEntry : Nat
  secure : Bool
  offset : Nat
  op : RemoteOp
  step : Option (Nat × Nat × Nat)
  beat : Nat
  deriving DecidableEq, Repr

/-- What links carry (R149): a request, or for an entry of a module the reply or acknowledgement of one beat. `dig` is what the
beat's write adds to the DIGEST of the issuing job (R181). -/
inductive Payload where
  | request (r : Remote)
  | reply (entry : Nat) (data : Nat) (dig : Word)
  | ack (entry : Nat) (dig : Word)
  | nack (entry cause : Nat)
  deriving DecidableEq, Repr

/-- Why a failed remote access failed, as the issuer sees it (R109, R383). -/
inductive NackKind where
  | remote | world | data
  deriving DecidableEq, Repr

/-- Who reaches far memory from the host die: an application core, or a root port by DMA (R2, R422, R424). -/
inductive HostUnit where
  | hart (n : Nat) | rootPort (n : Nat)
  deriving DecidableEq, Repr

/-- An image of the boot store (R431). -/
structure BootImage where
  content : List (BitVec 8)
  key : List (BitVec 8)
  sig : List (BitVec 8)
  version : Word
  deriving DecidableEq, Repr

/-- A field of a frozen core's save area that the host may rewrite (R241). -/
inductive SaveField where
  | s (n : Nat) (x : Word) | p (n : Nat) (b : Bool) | v (n : Nat) (x : Block) | k (n : Nat) (x : Mask)
  | z (n : Nat) (x : Tile) | e (n : Nat) (x : Scales) | g (n : Nat) (x : Quad) | h (n : Nat) (x : Quad)
  | flags (x : BitVec 5) | round (x : BitVec 3) | arg (n : Nat) (x : Word)
  | other (block byte : Nat) (x : BitVec 8)
  deriving DecidableEq, Repr

/-- What the host, or secure firmware, writes into a save area or reads from it: the field, and who does it (R241, R434). -/
structure SaveEdit where
  secure : Bool
  read   : Bool
  field  : SaveField
  deriving DecidableEq, Repr

/-- What a root port has received: DMA, inside an IDE stream or not, with its address as the host IOMMU translated it; or a request of
a kind that the ports do not support (R425; log 113). -/
inductive RootReq where
  | dma (ide : Bool) | ats | peer
  deriving DecidableEq, Repr

/-- An access of the host die to far memory or the register window: the unit that makes it, whether it writes, and for a root port
what it received (R2, R422, R424, R425). -/
structure HostAccess where
  unit  : HostUnit
  write : Bool
  req   : RootReq
  deriving DecidableEq, Repr

/-- What a beat of a remote answer names: the global access table entry, and the change of DIGEST that the target's line reports
with it (R166, R181). -/
structure EntryAnswer where
  entry  : Nat
  digest : Word
  deriving DecidableEq, Repr

/-- The common fields of an instruction word: S (last word of its bundle), N and P (the guard) (R250, R251). -/
structure Hd where
  s : Bool
  n : Bool
  p : BitVec 3
  deriving DecidableEq, Repr

end Sys2Proof
end

