-- ==== Sys2Proof/Syntax.lean ====
section
/-! DEFINITION. The steps of the module, one constructor per row of spec/opcode_table.json (R264 for the words; the
events of spec/95_what_each_step_holds.md). A word carries the fields of its encoding, an event the data it acts on; an
event that names one numbered thing (a job, a context, a channel ...) takes the number from the state's `arg`. -/

namespace Sys2Proof

/-- Instruction words first, in the order of the opcode map (R264), then the events that have no encoding. -/
inductive Instr where
  | add (h : Hd) (d a b : BitVec 5) (w : Bool)
  | sub (h : Hd) (d a b : BitVec 5) (w : Bool)
  | mul (h : Hd) (d a b : BitVec 5) (w : Bool)
  | mulh (h : Hd) (d a b : BitVec 5) (w : Bool)
  | div (h : Hd) (d a b : BitVec 5) (w : Bool)
  | divu (h : Hd) (d a b : BitVec 5) (w : Bool)
  | rem (h : Hd) (d a b : BitVec 5) (w : Bool)
  | remu (h : Hd) (d a b : BitVec 5) (w : Bool)
  | and (h : Hd) (d a b : BitVec 5) (w : Bool)
  | or (h : Hd) (d a b : BitVec 5) (w : Bool)
  | xor (h : Hd) (d a b : BitVec 5) (w : Bool)
  | shl (h : Hd) (d a b : BitVec 5) (w : Bool)
  | shr (h : Hd) (d a b : BitVec 5) (w : Bool)
  | sar (h : Hd) (d a b : BitVec 5) (w : Bool)
  | min (h : Hd) (d a b : BitVec 5) (w : Bool)
  | max (h : Hd) (d a b : BitVec 5) (w : Bool)
  | clz (h : Hd) (d a : BitVec 5) (w : Bool)
  | popc (h : Hd) (d a : BitVec 5) (w : Bool)
  | addi (h : Hd) (d a : BitVec 5) (i : BitVec 8)
  | muli (h : Hd) (d a : BitVec 5) (i : BitVec 8)
  | andi (h : Hd) (d a : BitVec 5) (i : BitVec 8)
  | ori (h : Hd) (d a : BitVec 5) (i : BitVec 8)
  | xori (h : Hd) (d a : BitVec 5) (i : BitVec 8)
  | shli (h : Hd) (d a : BitVec 5) (i : BitVec 6)
  | shri (h : Hd) (d a : BitVec 5) (i : BitVec 6)
  | sari (h : Hd) (d a : BitVec 5) (i : BitVec 6)
  | li (h : Hd) (d : BitVec 5) (i : BitVec 16)
  | lis (h : Hd) (d : BitVec 5) (i : BitVec 16)
  | fadd (h : Hd) (d a b : BitVec 5) (w : Bool)
  | fsub (h : Hd) (d a b : BitVec 5) (w : Bool)
  | fmul (h : Hd) (d a b : BitVec 5) (w : Bool)
  | fma (h : Hd) (d a b : BitVec 5) (w : Bool)
  | fdiv (h : Hd) (d a b : BitVec 5) (w : Bool)
  | fsqrt (h : Hd) (d a : BitVec 5) (w : Bool)
  | fmin (h : Hd) (d a b : BitVec 5) (w : Bool)
  | fmax (h : Hd) (d a b : BitVec 5) (w : Bool)
  | fcvtif (h : Hd) (d a b : BitVec 5) (w : Bool)
  | fcvtfi (h : Hd) (d a b : BitVec 5) (w : Bool)
  | fcvtw (h : Hd) (d a : BitVec 5) (w : Bool)
  | fclass (h : Hd) (d a : BitVec 5) (w : Bool)
  | ld (h : Hd) (d a : BitVec 5) (i : BitVec 8)
  | lw (h : Hd) (d a : BitVec 5) (i : BitVec 8)
  | lwu (h : Hd) (d a : BitVec 5) (i : BitVec 8)
  | st (h : Hd) (d a : BitVec 5) (i : BitVec 8)
  | sw (h : Hd) (d a : BitVec 5) (i : BitVec 8)
  | amoadd (h : Hd) (o : BitVec 2) (d a b : BitVec 5) (w : Bool)
  | amoand (h : Hd) (o : BitVec 2) (d a b : BitVec 5) (w : Bool)
  | amoor (h : Hd) (o : BitVec 2) (d a b : BitVec 5) (w : Bool)
  | amoxor (h : Hd) (o : BitVec 2) (d a b : BitVec 5) (w : Bool)
  | amomin (h : Hd) (o : BitVec 2) (d a b : BitVec 5) (w : Bool)
  | amomax (h : Hd) (o : BitVec 2) (d a b : BitVec 5) (w : Bool)
  | amoswap (h : Hd) (o : BitVec 2) (d a b : BitVec 5) (w : Bool)
  | amocas (h : Hd) (o : BitVec 2) (d a b : BitVec 5) (w : Bool)
  | j (h : Hd) (i : BitVec 13)
  | jz (h : Hd) (a : BitVec 5) (i : BitVec 13)
  | jnz (h : Hd) (a : BitVec 5) (i : BitVec 13)
  | jp (h : Hd) (a : BitVec 5) (i : BitVec 13)
  | jany (s : Bool) (a : BitVec 5) (i : BitVec 13)
  | jall (s : Bool) (a : BitVec 5) (i : BitVec 13)
  | call (h : Hd) (a : BitVec 5) (i : BitVec 13)
  | ret (h : Hd) (a : BitVec 5)
  | loop (h : Hd) (a : BitVec 5) (i : BitVec 8)
  | loopi (h : Hd) (d a : BitVec 5) (i : BitVec 8)
  | lbrk (h : Hd)
  | peq (h : Hd) (d a b : BitVec 5) (w : Bool)
  | pne (h : Hd) (d a b : BitVec 5) (w : Bool)
  | plt (h : Hd) (d a b : BitVec 5) (w : Bool)
  | ple (h : Hd) (d a b : BitVec 5) (w : Bool)
  | pltu (h : Hd) (d a b : BitVec 5) (w : Bool)
  | pfeq (h : Hd) (d a b : BitVec 5) (w : Bool)
  | pflt (h : Hd) (d a b : BitVec 5) (w : Bool)
  | pand (h : Hd) (d a b : BitVec 5)
  | por (h : Hd) (d a b : BitVec 5)
  | pnot (h : Hd) (d a : BitVec 5)
  | vadd (h : Hd) (d a b : BitVec 4) (t k : BitVec 2)
  | vsub (h : Hd) (d a b : BitVec 4) (t k : BitVec 2)
  | vmul (h : Hd) (d a b : BitVec 4) (t k : BitVec 2)
  | vmin (h : Hd) (d a b : BitVec 4) (t k : BitVec 2)
  | vmax (h : Hd) (d a b : BitVec 4) (t k : BitVec 2)
  | vand (h : Hd) (d a b : BitVec 4) (t k : BitVec 2)
  | vor (h : Hd) (d a b : BitVec 4) (t k : BitVec 2)
  | vxor (h : Hd) (d a b : BitVec 4) (t k : BitVec 2)
  | vshl (h : Hd) (d a b : BitVec 4) (t k : BitVec 2)
  | vshr (h : Hd) (d a b : BitVec 4) (t k : BitVec 2)
  | vsar (h : Hd) (d a b : BitVec 4) (t k : BitVec 2)
  | vceq (h : Hd) (d a b : BitVec 4) (t k : BitVec 2)
  | vclt (h : Hd) (d a b : BitVec 4) (t k : BitVec 2)
  | vsel (h : Hd) (d a b : BitVec 4) (t k : BitVec 2)
  | vfadd (h : Hd) (d a b : BitVec 4) (t k : BitVec 2)
  | vfsub (h : Hd) (d a b : BitVec 4) (t k : BitVec 2)
  | vfmul (h : Hd) (d a b : BitVec 4) (t k : BitVec 2)
  | vfma (h : Hd) (d a b : BitVec 4) (t k : BitVec 2)
  | vfmin (h : Hd) (d a b : BitVec 4) (t k : BitVec 2)
  | vfmax (h : Hd) (d a b : BitVec 4) (t k : BitVec 2)
  | vfdiv (h : Hd) (d a b : BitVec 4) (t k : BitVec 2)
  | vfsqrt (h : Hd) (d a : BitVec 4) (t k : BitVec 2)
  | vfrsq (h : Hd) (d a : BitVec 4) (t k : BitVec 2)
  | vfexp2 (h : Hd) (d a : BitVec 4) (t k : BitVec 2)
  | vflog2 (h : Hd) (d a : BitVec 4) (t k : BitVec 2)
  | vfceq (h : Hd) (d a b : BitVec 4) (t k : BitVec 2)
  | vfclt (h : Hd) (d a b : BitVec 4) (t k : BitVec 2)
  | vfcle (h : Hd) (d a b : BitVec 4) (t k : BitVec 2)
  | vcvt (h : Hd) (d a b : BitVec 4) (t k : BitVec 2)
  | vcvti (h : Hd) (d a b : BitVec 4) (t k : BitVec 2)
  | vcvtf (h : Hd) (d a b : BitVec 4) (t k : BitVec 2)
  | vqmx (h : Hd) (d a b : BitVec 4) (t k : BitVec 2)
  | vdqmx (h : Hd) (d a b : BitVec 4) (t k : BitVec 2)
  | vrotr (h : Hd) (d a b : BitVec 4) (t k : BitVec 2)
  | vbcr (h : Hd) (d a b : BitVec 4) (t k : BitVec 2)
  | vsumr (h : Hd) (d a : BitVec 4) (b : Bool) (t k : BitVec 2)
  | vmaxr (h : Hd) (d a : BitVec 4) (b : Bool) (t k : BitVec 2)
  | vscanr (h : Hd) (d a : BitVec 4) (b : Bool) (t k : BitVec 2)
  | vlrecr (h : Hd) (d a b : BitVec 4) (t k : BitVec 2)
  | vrotc (h : Hd) (d a b : BitVec 4) (t k : BitVec 2)
  | vbcc (h : Hd) (d a b : BitVec 4) (t k : BitVec 2)
  | vsumc (h : Hd) (d a : BitVec 4) (b : Bool) (t k : BitVec 2)
  | vmaxc (h : Hd) (d a : BitVec 4) (b : Bool) (t k : BitVec 2)
  | vscanc (h : Hd) (d a : BitVec 4) (b : Bool) (t k : BitVec 2)
  | vtrn (h : Hd) (d a : BitVec 4) (t k : BitVec 2)
  | vmerge3 (h : Hd) (d a b : BitVec 4)
  | vtmask (h : Hd) (d a b : BitVec 4) (k : BitVec 2)
  | vsmx (h : Hd) (d a b : BitVec 4)
  | vld (h : Hd) (v : BitVec 4) (a : BitVec 5) (i : BitVec 4) (k : BitVec 2)
  | vst (h : Hd) (v : BitVec 4) (a : BitVec 5) (i : BitVec 4) (k : BitVec 2)
  | vldt (h : Hd) (v : BitVec 4) (a : BitVec 5) (i : BitVec 4) (k : BitVec 2)
  | vlds (h : Hd) (v : BitVec 4) (a : BitVec 5) (i : BitVec 3) (k : BitVec 2)
  | vsts (h : Hd) (v : BitVec 4) (a : BitVec 5) (i : BitVec 3) (k : BitVec 2)
  | vgath (h : Hd) (v : BitVec 4) (a : BitVec 5) (i : BitVec 4) (k : BitVec 2)
  | vscat (h : Hd) (v : BitVec 4) (a : BitVec 5) (i : BitVec 4) (k : BitVec 2)
  | vscatc (h : Hd) (v : BitVec 4) (a : BitVec 5) (i : BitVec 4) (k : BitVec 2)
  | vscadd (h : Hd) (v : BitVec 4) (a : BitVec 5) (i : BitVec 4) (k : BitVec 2)
  | visect (h : Hd) (d a b : BitVec 4)
  | vcomp (h : Hd) (d a : BitVec 4) (t k : BitVec 2)
  | vexpd (h : Hd) (d a : BitVec 4) (t k : BitVec 2)
  | vconf (h : Hd) (d a : BitVec 4) (t k : BitVec 2)
  | vsegs (h : Hd) (d a b : BitVec 4) (t k : BitVec 2)
  | vmov (h : Hd) (d a : BitVec 4) (t k : BitVec 2)
  | vmovx (h : Hd) (d a b : BitVec 4) (t k : BitVec 2)
  | vsplat (h : Hd) (d : BitVec 4) (i : BitVec 8) (t k : BitVec 2)
  | vins (h : Hd) (d a b : BitVec 4) (k : BitVec 2)
  | vext (h : Hd) (d a b : BitVec 4) (k : BitVec 2)
  | vrand (h : Hd) (d : BitVec 4) (k : BitVec 2)
  | kand (h : Hd) (d a b : BitVec 3)
  | kor (h : Hd) (d a b : BitVec 3)
  | kxor (h : Hd) (d a b : BitVec 3)
  | knot (h : Hd) (d a : BitVec 3)
  | kpop (h : Hd) (d a : BitVec 3)
  | kfirst (h : Hd) (d a : BitVec 3)
  | kset (h : Hd) (d : BitVec 3) (e : BitVec 5)
  | mma (h : Hd) (z : BitVec 2) (a b f : BitVec 5)
  | mmaz (h : Hd) (z : BitVec 2) (a b f : BitVec 5)
  | mmat (h : Hd) (z : BitVec 2) (a b f : BitVec 5)
  | mwin (h : Hd) (z : BitVec 2) (a b f : BitVec 5)
  | mmax (h : Hd) (z : BitVec 2) (a b f : BitVec 5)
  | mcsr (h : Hd) (z : BitVec 2) (a b f : BitVec 5)
  | mbsr (h : Hd) (z : BitVec 2) (a b f : BitVec 5)
  | m24 (h : Hd) (z : BitVec 2) (a b f : BitVec 5)
  | zrd (h : Hd) (z : BitVec 2) (b : BitVec 4) (f : BitVec 5)
  | zwr (h : Hd) (z : BitVec 2) (b : BitVec 4) (f : BitVec 5)
  | zclr (h : Hd) (z : BitVec 2)
  | esld (h : Hd) (z : BitVec 2) (a f : BitVec 5)
  | amode (h : Hd) (f : BitVec 5)
  | mshape (h : Hd) (a b f : BitVec 5)
  | xch (h : Hd) (x y : BitVec 5) (c : BitVec 6)
  | xchc (h : Hd) (x y v : BitVec 5)
  | xcht (h : Hd) (x y : BitVec 5) (c : BitVec 6)
  | xrot (h : Hd) (x : BitVec 5)
  | xver (h : Hd) (x y : BitVec 5)
  | xverRead (h : Hd) (x y : BitVec 5)
  | send (h : Hd) (x c : BitVec 5)
  | recv (h : Hd) (x : BitVec 4) (c : BitVec 5)
  | vfpush (h : Hd) (x c : BitVec 4)
  | vfpop (h : Hd) (x c : BitVec 4)
  | vffree (h : Hd) (x : BitVec 5)
  | dact (h : Hd) (c : BitVec 5) (i : BitVec 8)
  | drd (h : Hd) (c : BitVec 5)
  | dwr (h : Hd) (c : BitVec 5)
  | dpre (h : Hd) (c : BitVec 5) (i : BitVec 4)
  | dprea (h : Hd) (c : BitVec 5)
  | dref (h : Hd) (c : BitVec 5)
  | ssbind (h : Hd) (x y : BitVec 5) (c : BitVec 4)
  | ssadv (h : Hd) (y c : BitVec 5)
  | ssroll (h : Hd) (y : BitVec 5) (c : BitVec 4)
  | ssfork (h : Hd) (x y : BitVec 5) (c : BitVec 4)
  | ssdrop (h : Hd) (c : BitVec 4)
  | ssfind (h : Hd) (x y : BitVec 5) (c : BitVec 6)
  | gld (h : Hd) (x y : BitVec 5) (c : BitVec 2)
  | gst (h : Hd) (x y : BitVec 5) (c : BitVec 2)
  | gacq (h : Hd) (x y : BitVec 5)
  | grel (h : Hd) (x y : BitVec 5)
  | gamo (h : Hd) (x y : BitVec 5) (c : BitVec 6)
  | gmrg (h : Hd) (x : BitVec 3) (y : BitVec 5) (c : BitVec 4)
  | agset (h : Hd) (x y : BitVec 5) (c : BitVec 2)
  | agen (h : Hd) (x y : BitVec 5) (c : BitVec 2)
  | syscall (h : Hd) (i : BitVec 11)
  | trapi (h : Hd) (i : BitVec 11)
  | fence (h : Hd) (b : BitVec 5)
  | realign (h : Hd)
  | waitk (h : Hd) (a b : BitVec 5)
  | halt (h : Hd)
  | getc (h : Hd) (d : BitVec 5) (i : BitVec 11)
  | setc (h : Hd) (d : BitVec 5) (i : BitVec 11)
  | setb (h : Hd) (d : BitVec 5) (i : BitVec 11)
  | clrb (h : Hd) (d : BitVec 5) (i : BitVec 11)
  | launch (h : Hd) (d a b : BitVec 5)
  | yield (h : Hd) (i : BitVec 11)
  | hdr (s : Bool) (d : BitVec 10)
  | launchRecordWrite (who : Requester) (queue : Nat) (rec : BitVec 2048)
  | qmapWrite (vf : Nat) (x : Word)
  | registerWrite (r : MgmtReg) (x : Word)
  | scrubRequestEnqueue (b : HwBlock)
  | scrubComplete (b : HwBlock)
  | invalidateRangeEntry (job entry : Nat)
  | invalidatePage (job page : Nat)
  | worldMapWrite (b : HwBlock) (w : Bool)
  | tickRegisterWrite (x : Word)
  | svnCommit (v : Word)
  | mrExtend (n : Nat) (image : List (BitVec 8))
  | attestationRequest (vf : Option Nat) (job : Nat) (nonce : BitVec 512) (kem : Option (List (BitVec 8)))
  | linkUp (port peer : Nat)
  | domainAlignment (cycle : Word) (log2 : Nat) (parts : List (Nat × List Nat × Int))
  | linkKeyAgreement (port : Nat) (out : Bool) (secret : BitVec 256)
  | holdRunEnd (part : Nat) (c : HoldCause)
  | remoteAccessPerform (r : Remote)
  | resultLanding (f : Flight)
  | matrixResultLanding (m : MatCmd)
  | deferredAccessPerform (a : Access)
  | drdBeatArrival (ch peel burst q : Nat)
  | dwrBeatDelivery (ch peel burst q : Nat)
  | burstCheckFailure (ch burst lane : Nat) (write : Bool)
  | laneTestComplete (ch : Nat) (lanes : List Nat)
  | gOpReply (ctx col : Nat) (entry : EntryAnswer) (data : Nat)
  | remoteAcknowledge (ctx col : Nat) (entry : EntryAnswer)
  | remoteNack (ctx col entry : Nat) (k : NackKind)
  | flitAcknowledge (port seq : Nat)
  | mergeContributionArrival (r : Remote)
  | recvRowArrival (ctx col hop die t : Nat) (row : Row)
  | randkeyWrite (hi : Bool) (clear set : Word)
  | randposWrite (clear set : Word)
  | touchedClear (bits : BitVec 35)
  | amodeWrite (win : BitVec 2)
  | cmodeWrite (mode : Bool)
  | hostFarMemoryAccess (write : HostAccess) (addr len val : Nat)
  | domainWindowMapWrite (w : Nat) (entry : Option (Nat × Nat × Bool))
  | hostSaveAreaWrite (ctx col : Nat) (f : SaveEdit)
  | queueDisable
  | dispatchDecision
  | effectivePriorityRise
  | placement
  | rejectedRecordLeaves
  | jobStart
  | jobEnd
  | preemptionStop
  | preemptSaveComplete
  | hostContinue
  | hostEnd
  | jobRestart
  | hostEventHeadAdvance
  | waitingEventEntry
  | invalidateJob
  | invalidationComplete
  | tickPeriodChange
  | coldReset
  | warmReset
  | sensorSample
  | powerEstimate
  | thermalAlarm
  | moduleTrip
  | globalTick
  | realignRelease
  | domainStepBoundary
  | domainStepStart
  | boundaryHoldTimeout
  | watchdog
  | programRefreshDebtWrap
  | holdRefreshDebtWrap
  | guardSequenceComplete
  | unownedChannelRefresh
  | bankRefreshWindow
  | randomQueueRefill
  | exchangeBeatCrossing
  | xchtPairLanding
  | exchangeComplete
  | exchangeDeferredStart
  | dwrWriteStatus
  | burstReplay
  | translationWalkComplete
  | gOpDeferredIssue
  | releasePerform
  | flitReplay
  | recvRowMissing
  | rowVoteResult
  | fenceRelease
  | loopEnd
  | mshapeTakeEffect
  | singleStepTrap
  | touchedBitClear
  | amodeWindowChange
  | pgateCreqSet
  | pgateCreqClear
  | pgateSreqSet
  | pgateSreqClear
  | crownGateComplete
  | crownUngateComplete
  | stackGateComplete
  | stackUngateComplete
  | repairRecordCommit
  | regionScrubRun
  deriving DecidableEq, Repr

end Sys2Proof
end

