-- ==== Sys2Proof/WellFormed.lean ====
section
/-! DEFINITION. The field values that an instruction may hold beyond its encoding's shape: the values that the entries
mark illegal, and the cluster rule (R53, R189, R254, R261, R283, R290, R297, R311, R334, R352, R385, R388). -/

namespace Sys2Proof

/-- A predicate number in a 5-bit field (R261). -/
def isPred (x : BitVec 5) : Bool := decide (x.toNat < 8)

/-- A format code (R189). -/
def isFmt (f : BitVec 5) : Bool := decide (f.toNat < 10)

/-- Two vector registers of one cluster, or a register and the position that a mask destination carries (R53, R299). -/
def oneSide (x y : BitVec 4) : Bool := x.getLsbD 3 == y.getLsbD 3

/-- Every field value is one the entries allow. An event carries no field of an encoding. -/
def Instr.wellFormed : Instr → Bool
  | .add _ _ _ _ _ => true
  | .sub _ _ _ _ _ => true
  | .mul _ _ _ _ _ => true
  | .mulh _ _ _ _ _ => true
  | .div _ _ _ _ _ => true
  | .divu _ _ _ _ _ => true
  | .rem _ _ _ _ _ => true
  | .remu _ _ _ _ _ => true
  | .and _ _ _ _ _ => true
  | .or _ _ _ _ _ => true
  | .xor _ _ _ _ _ => true
  | .shl _ _ _ _ _ => true
  | .shr _ _ _ _ _ => true
  | .sar _ _ _ _ _ => true
  | .min _ _ _ _ _ => true
  | .max _ _ _ _ _ => true
  | .clz _ _ _ _ => true
  | .popc _ _ _ _ => true
  | .addi _ _ _ _ => true
  | .muli _ _ _ _ => true
  | .andi _ _ _ _ => true
  | .ori _ _ _ _ => true
  | .xori _ _ _ _ => true
  | .shli _ _ _ _ => true
  | .shri _ _ _ _ => true
  | .sari _ _ _ _ => true
  | .li _ _ _ => true
  | .lis _ _ _ => true
  | .fadd _ _ _ _ _ => true
  | .fsub _ _ _ _ _ => true
  | .fmul _ _ _ _ _ => true
  | .fma _ _ _ _ _ => true
  | .fdiv _ _ _ _ _ => true
  | .fsqrt _ _ _ _ => true
  | .fmin _ _ _ _ _ => true
  | .fmax _ _ _ _ _ => true
  | .fcvtif _ _ _ b _ => decide (b.toNat < 4)
  | .fcvtfi _ _ _ b _ => decide (b.toNat < 4)
  | .fcvtw _ _ _ _ => true
  | .fclass _ _ _ _ => true
  | .ld _ _ _ _ => true
  | .lw _ _ _ _ => true
  | .lwu _ _ _ _ => true
  | .st _ _ _ _ => true
  | .sw _ _ _ _ => true
  | .amoadd _ _ _ _ _ _ => true
  | .amoand _ _ _ _ _ _ => true
  | .amoor _ _ _ _ _ _ => true
  | .amoxor _ _ _ _ _ _ => true
  | .amomin _ _ _ _ _ _ => true
  | .amomax _ _ _ _ _ _ => true
  | .amoswap _ _ _ _ _ _ => true
  | .amocas _ _ _ _ _ _ => true
  | .j _ _ => true
  | .jz _ _ _ => true
  | .jnz _ _ _ => true
  | .jp _ a _ => isPred a
  | .jany _ a _ => isPred a
  | .jall _ a _ => isPred a
  | .call _ _ _ => true
  | .ret _ _ => true
  | .loop _ _ _ => true
  | .loopi _ _ _ _ => true
  | .lbrk _ => true
  | .peq _ d _ _ _ => isPred d
  | .pne _ d _ _ _ => isPred d
  | .plt _ d _ _ _ => isPred d
  | .ple _ d _ _ _ => isPred d
  | .pltu _ d _ _ _ => isPred d
  | .pfeq _ d _ _ _ => isPred d
  | .pflt _ d _ _ _ => isPred d
  | .pand _ d a b => isPred d && isPred a && isPred b
  | .por _ d a b => isPred d && isPred a && isPred b
  | .pnot _ d a => isPred d && isPred a
  | .vadd _ d a b _ _ => oneSide d a && oneSide d b
  | .vsub _ d a b _ _ => oneSide d a && oneSide d b
  | .vmul _ d a b _ _ => oneSide d a && oneSide d b
  | .vmin _ d a b _ _ => oneSide d a && oneSide d b
  | .vmax _ d a b _ _ => oneSide d a && oneSide d b
  | .vand _ d a b _ _ => oneSide d a && oneSide d b
  | .vor _ d a b _ _ => oneSide d a && oneSide d b
  | .vxor _ d a b _ _ => oneSide d a && oneSide d b
  | .vshl _ d a b _ _ => oneSide d a && oneSide d b
  | .vshr _ d a b _ _ => oneSide d a && oneSide d b
  | .vsar _ d a b _ _ => oneSide d a && oneSide d b
  | .vceq _ d a b _ _ => oneSide d a && oneSide d b
  | .vclt _ d a b _ _ => oneSide d a && oneSide d b
  | .vsel _ d a b _ _ => oneSide d a && oneSide d b
  | .vfadd _ d a b _ _ => oneSide d a && oneSide d b
  | .vfsub _ d a b _ _ => oneSide d a && oneSide d b
  | .vfmul _ d a b _ _ => oneSide d a && oneSide d b
  | .vfma _ d a b _ _ => oneSide d a && oneSide d b
  | .vfmin _ d a b _ _ => oneSide d a && oneSide d b
  | .vfmax _ d a b _ _ => oneSide d a && oneSide d b
  | .vfdiv _ d a b _ _ => oneSide d a && oneSide d b
  | .vfsqrt _ d a _ _ => oneSide d a
  | .vfrsq _ d a _ _ => oneSide d a
  | .vfexp2 _ d a _ _ => oneSide d a
  | .vflog2 _ d a _ _ => oneSide d a
  | .vfceq _ d a b _ _ => oneSide d a && oneSide d b
  | .vfclt _ d a b _ _ => oneSide d a && oneSide d b
  | .vfcle _ d a b _ _ => oneSide d a && oneSide d b
  | .vcvt _ d a b _ _ => oneSide d a && decide (b.toNat % 8 < 6)
  | .vcvti _ d a b _ _ => oneSide d a && decide (b.toNat < 8)
  | .vcvtf _ d a b _ _ => oneSide d a && decide (b.toNat % 8 < 6)
  | .vqmx _ d a b t k => oneSide d a && oneSide d b && decide (t ≠ 3#2) && decide (k ≠ 3#2) && decide (b ≠ d)
  | .vdqmx _ d a b t _ => oneSide d a && oneSide d b && decide (t ≠ 3#2)
  | .vrotr _ d a b _ _ => oneSide d a && oneSide d b
  | .vbcr _ d a b _ _ => oneSide d a && oneSide d b
  | .vsumr _ d a _ _ _ => oneSide d a
  | .vmaxr _ d a _ _ _ => oneSide d a
  | .vscanr _ d a _ _ _ => oneSide d a
  | .vlrecr _ d a b t _ => oneSide d a && oneSide d b && decide (t = 0#2 ∨ t = 3#2)
  | .vrotc _ d a b _ _ => oneSide d a && oneSide d b
  | .vbcc _ d a b _ _ => oneSide d a && oneSide d b
  | .vsumc _ d a _ _ _ => oneSide d a
  | .vmaxc _ d a _ _ _ => oneSide d a
  | .vscanc _ d a _ _ _ => oneSide d a
  | .vtrn _ d a _ _ => oneSide d a
  | .vmerge3 _ d a b => oneSide d a && oneSide d b && !(d.getLsbD 0) && !(a.getLsbD 0) && !(b.getLsbD 0)
  | .vtmask _ d a b _ => oneSide d a && oneSide d b
  | .vsmx _ d a b => oneSide d a && oneSide d b && b.getLsbD 0 && decide (d ≠ b)
  | .vld _ _ _ _ _ => true
  | .vst _ _ _ _ _ => true
  | .vldt _ _ a _ _ => decide (a ≠ 31#5)
  | .vlds _ _ _ _ _ => true
  | .vsts _ _ _ _ _ => true
  | .vgath _ v _ i _ => oneSide v i
  | .vscat _ v _ i _ => oneSide v i
  | .vscatc _ v _ i _ => oneSide v i
  | .vscadd _ v _ i _ => oneSide v i
  | .visect _ d a b => oneSide d a && oneSide d b && decide (d.toNat % 8 = 2 ∨ d.toNat % 8 = 4 ∨ d.toNat % 8 = 6)
  | .vcomp _ d a _ _ => oneSide d a
  | .vexpd _ d a _ _ => oneSide d a
  | .vconf _ d a t _ => oneSide d a && decide (t = 0#2 ∨ t = 3#2)
  | .vsegs _ d a b t _ => oneSide d a && oneSide d b && decide (t = 0#2 ∨ t = 3#2)
  | .vmov _ d a _ _ => oneSide d a
  | .vmovx _ d a b t _ => !(oneSide d a) && decide (t = 0#2 ∧ b = 0#4 ∨ t = 1#2)
  | .vsplat _ _ _ _ _ => true
  | .vins _ d a _ _ => oneSide d a
  | .vext _ d a _ _ => oneSide d a
  | .vrand _ _ _ => true
  | .kand _ _ _ _ => true
  | .kor _ _ _ _ => true
  | .kxor _ _ _ _ => true
  | .knot _ _ _ => true
  | .kpop _ _ _ => true
  | .kfirst _ _ _ => true
  | .kset _ _ _ => true
  | .mma _ _ _ _ f => isFmt f
  | .mmaz _ _ _ _ f => isFmt f
  | .mmat _ _ _ _ f => isFmt f
  | .mwin _ _ _ _ f => isFmt f && decide (f ≠ 1#5 ∧ f ≠ 6#5 ∧ f ≠ 7#5 ∧ f ≠ 8#5)
  | .mmax _ _ _ _ f => decide (6 ≤ f.toNat ∧ f.toNat ≤ 8)
  | .mcsr _ _ _ _ f => decide (f.toNat < 4)
  | .mbsr _ _ _ _ f => decide (f.toNat < 4)
  | .m24 _ _ _ _ f => decide (f = 2#5 ∨ f = 3#5 ∨ f = 4#5 ∨ f = 5#5 ∨ f = 9#5)
  | .zrd _ _ _ f => decide (f.toNat < 2)
  | .zwr _ _ _ f => decide (f.toNat < 2)
  | .zclr _ _ => true
  | .esld _ _ _ f => decide (f.toNat < 3)
  | .amode _ f => decide (f.toNat < 3)
  | .mshape _ _ _ f => decide (f.toNat < 8)
  | .xch _ _ _ _ => true
  | .xchc _ _ _ _ => true
  | .xcht _ x _ _ => decide (x ≠ 31#5)
  | .xrot _ _ => true
  | .xver _ _ _ => true
  | .xverRead _ _ _ => true
  | .send _ _ c => decide (c.toNat % 16 ≠ 0)
  | .recv _ _ c => decide (c.toNat % 16 ≠ 0)
  | .vfpush _ _ _ => true
  | .vfpop _ _ _ => true
  | .vffree _ _ => true
  | .dact _ _ _ => true
  | .drd _ _ => true
  | .dwr _ _ => true
  | .dpre _ _ _ => true
  | .dprea _ _ => true
  | .dref _ _ => true
  | .ssbind _ _ _ _ => true
  | .ssadv _ _ _ => true
  | .ssroll _ _ _ => true
  | .ssfork _ _ _ _ => true
  | .ssdrop _ _ => true
  | .ssfind _ _ y c => decide (c.toNat / 16 ≠ 3) && decide (y = 0#5 → c.toNat / 16 = 0)
  | .gld _ x _ c => !(c.getLsbD 0 && x.getLsbD 4)
  | .gst _ x _ c => !(c.getLsbD 0 && x.getLsbD 4)
  | .gacq _ _ _ => true
  | .grel _ _ _ => true
  | .gamo _ x _ c => decide (¬ (c.toNat % 8 = 7 ∧ x = 31#5))
  | .gmrg _ _ y _ => decide (y ≠ 31#5)
  | .agset _ _ _ _ => true
  | .agen _ _ _ _ => true
  | .syscall _ _ => true
  | .trapi _ _ => true
  | .fence _ b => decide (b.toNat < 5)
  | .realign _ => true
  | .waitk _ _ b => decide (b.toNat < 2)
  | .halt _ => true
  | .getc _ _ _ => true
  | .setc _ _ _ => true
  | .setb _ _ _ => true
  | .clrb _ _ _ => true
  | .launch _ _ _ _ => true
  | .yield _ _ => true
  | .hdr _ _ => true
  | .launchRecordWrite .. => true
  | .queueDisable => true
  | .qmapWrite .. => true
  | .registerWrite .. => true
  | .dispatchDecision => true
  | .effectivePriorityRise => true
  | .placement => true
  | .rejectedRecordLeaves => true
  | .jobStart => true
  | .jobEnd => true
  | .scrubRequestEnqueue .. => true
  | .scrubComplete .. => true
  | .preemptionStop => true
  | .preemptSaveComplete => true
  | .hostContinue => true
  | .hostEnd => true
  | .jobRestart => true
  | .hostEventHeadAdvance => true
  | .waitingEventEntry => true
  | .invalidateRangeEntry .. => true
  | .invalidatePage .. => true
  | .invalidateJob => true
  | .invalidationComplete => true
  | .worldMapWrite .. => true
  | .tickRegisterWrite .. => true
  | .tickPeriodChange => true
  | .coldReset => true
  | .warmReset => true
  | .svnCommit .. => true
  | .mrExtend .. => true
  | .attestationRequest .. => true
  | .linkUp .. => true
  | .domainAlignment .. => true
  | .linkKeyAgreement .. => true
  | .sensorSample => true
  | .powerEstimate => true
  | .thermalAlarm => true
  | .moduleTrip => true
  | .holdRunEnd .. => true
  | .globalTick => true
  | .realignRelease => true
  | .domainStepBoundary => true
  | .domainStepStart => true
  | .boundaryHoldTimeout => true
  | .watchdog => true
  | .programRefreshDebtWrap => true
  | .holdRefreshDebtWrap => true
  | .guardSequenceComplete => true
  | .unownedChannelRefresh => true
  | .bankRefreshWindow => true
  | .remoteAccessPerform .. => true
  | .randomQueueRefill => true
  | .resultLanding .. => true
  | .matrixResultLanding .. => true
  | .deferredAccessPerform .. => true
  | .exchangeBeatCrossing => true
  | .xchtPairLanding => true
  | .exchangeComplete => true
  | .exchangeDeferredStart => true
  | .drdBeatArrival .. => true
  | .dwrBeatDelivery .. => true
  | .dwrWriteStatus => true
  | .burstCheckFailure .. => true
  | .burstReplay => true
  | .laneTestComplete .. => true
  | .translationWalkComplete => true
  | .gOpDeferredIssue => true
  | .releasePerform => true
  | .gOpReply .. => true
  | .remoteAcknowledge .. => true
  | .remoteNack .. => true
  | .flitAcknowledge .. => true
  | .flitReplay => true
  | .mergeContributionArrival .. => true
  | .recvRowArrival .. => true
  | .recvRowMissing => true
  | .rowVoteResult => true
  | .fenceRelease => true
  | .loopEnd => true
  | .mshapeTakeEffect => true
  | .singleStepTrap => true
  | .randkeyWrite .. => true
  | .randposWrite .. => true
  | .touchedClear .. => true
  | .touchedBitClear => true
  | .amodeWrite .. => true
  | .amodeWindowChange => true
  | .cmodeWrite .. => true
  | .pgateCreqSet => true
  | .pgateCreqClear => true
  | .pgateSreqSet => true
  | .pgateSreqClear => true
  | .crownGateComplete => true
  | .crownUngateComplete => true
  | .stackGateComplete => true
  | .stackUngateComplete => true
  | .hostFarMemoryAccess .. => true
  | .domainWindowMapWrite .. => true
  | .repairRecordCommit => true
  | .regionScrubRun => true
  | .hostSaveAreaWrite .. => true

end Sys2Proof
end

