-- ==== Sys2Proof/Decode.lean ====
section
/-! DEFINITION. The decoder of an instruction word, total and rejecting by name (R250, R260 to R266), and after it the
encoder written from the same tables. -/

namespace Sys2Proof

/-- Why a word is no instruction (R257, R266). -/
inductive Reject where
  /-- A reserved major opcode. -/
  | major
  /-- A reserved FN value. -/
  | function
  /-- A nonzero unused field, or a guard on a word that has none (R262, R290). -/
  | unused
  /-- A field value that the format or entry marks illegal. -/
  | field
  deriving DecidableEq, Repr

/-- The S, N and P fields of a word (R250). -/
def hdOf (w : BitVec 32) : Hd := { s := w.getLsbD 31, n := w.getLsbD 24, p := w.extractLsb' 21 3 }

/-- The MAJ field (R250). -/
def majOf (w : BitVec 32) : Nat := (w.extractLsb' 25 6).toNat

/-- Scalar arithmetic, major 0x00 (R264). -/
def decode00 (h : Hd) (w : BitVec 32) : Except Reject Instr :=
  match (w.extractLsb' 16 5).toNat with
  | 0 => .ok (.add h (w.extractLsb' 11 5) (w.extractLsb' 6 5) (w.extractLsb' 1 5) (w.getLsbD 0))
  | 1 => .ok (.sub h (w.extractLsb' 11 5) (w.extractLsb' 6 5) (w.extractLsb' 1 5) (w.getLsbD 0))
  | 2 => .ok (.mul h (w.extractLsb' 11 5) (w.extractLsb' 6 5) (w.extractLsb' 1 5) (w.getLsbD 0))
  | 3 => .ok (.mulh h (w.extractLsb' 11 5) (w.extractLsb' 6 5) (w.extractLsb' 1 5) (w.getLsbD 0))
  | 4 => .ok (.div h (w.extractLsb' 11 5) (w.extractLsb' 6 5) (w.extractLsb' 1 5) (w.getLsbD 0))
  | 5 => .ok (.divu h (w.extractLsb' 11 5) (w.extractLsb' 6 5) (w.extractLsb' 1 5) (w.getLsbD 0))
  | 6 => .ok (.rem h (w.extractLsb' 11 5) (w.extractLsb' 6 5) (w.extractLsb' 1 5) (w.getLsbD 0))
  | 7 => .ok (.remu h (w.extractLsb' 11 5) (w.extractLsb' 6 5) (w.extractLsb' 1 5) (w.getLsbD 0))
  | 8 => .ok (.and h (w.extractLsb' 11 5) (w.extractLsb' 6 5) (w.extractLsb' 1 5) (w.getLsbD 0))
  | 9 => .ok (.or h (w.extractLsb' 11 5) (w.extractLsb' 6 5) (w.extractLsb' 1 5) (w.getLsbD 0))
  | 10 => .ok (.xor h (w.extractLsb' 11 5) (w.extractLsb' 6 5) (w.extractLsb' 1 5) (w.getLsbD 0))
  | 11 => .ok (.shl h (w.extractLsb' 11 5) (w.extractLsb' 6 5) (w.extractLsb' 1 5) (w.getLsbD 0))
  | 12 => .ok (.shr h (w.extractLsb' 11 5) (w.extractLsb' 6 5) (w.extractLsb' 1 5) (w.getLsbD 0))
  | 13 => .ok (.sar h (w.extractLsb' 11 5) (w.extractLsb' 6 5) (w.extractLsb' 1 5) (w.getLsbD 0))
  | 14 => .ok (.min h (w.extractLsb' 11 5) (w.extractLsb' 6 5) (w.extractLsb' 1 5) (w.getLsbD 0))
  | 15 => .ok (.max h (w.extractLsb' 11 5) (w.extractLsb' 6 5) (w.extractLsb' 1 5) (w.getLsbD 0))
  | 16 => if w.extractLsb' 1 5 = 0#5 then .ok (.clz h (w.extractLsb' 11 5) (w.extractLsb' 6 5) (w.getLsbD 0)) else .error .unused
  | 17 => if w.extractLsb' 1 5 = 0#5 then .ok (.popc h (w.extractLsb' 11 5) (w.extractLsb' 6 5) (w.getLsbD 0)) else .error .unused
  | _ => .error .function

/-- Immediate arithmetic, major 0x01 (R264). -/
def decode01 (h : Hd) (w : BitVec 32) : Except Reject Instr :=
  match (w.extractLsb' 18 3).toNat with
  | 0 => .ok (.addi h (w.extractLsb' 13 5) (w.extractLsb' 8 5) (w.extractLsb' 0 8))
  | 1 => .ok (.muli h (w.extractLsb' 13 5) (w.extractLsb' 8 5) (w.extractLsb' 0 8))
  | 2 => .ok (.andi h (w.extractLsb' 13 5) (w.extractLsb' 8 5) (w.extractLsb' 0 8))
  | 3 => .ok (.ori h (w.extractLsb' 13 5) (w.extractLsb' 8 5) (w.extractLsb' 0 8))
  | 4 => .ok (.xori h (w.extractLsb' 13 5) (w.extractLsb' 8 5) (w.extractLsb' 0 8))
  | 5 => if w.extractLsb' 6 2 = 0#2 then .ok (.shli h (w.extractLsb' 13 5) (w.extractLsb' 8 5) (w.extractLsb' 0 6)) else .error .unused
  | 6 => if w.extractLsb' 6 2 = 0#2 then .ok (.shri h (w.extractLsb' 13 5) (w.extractLsb' 8 5) (w.extractLsb' 0 6)) else .error .unused
  | _ => if w.extractLsb' 6 2 = 0#2 then .ok (.sari h (w.extractLsb' 13 5) (w.extractLsb' 8 5) (w.extractLsb' 0 6)) else .error .unused

/-- LI, major 0x02 (R264). -/
def decode02 (h : Hd) (w : BitVec 32) : Except Reject Instr :=
  .ok (.li h (w.extractLsb' 16 5) (w.extractLsb' 0 16))

/-- LIS, major 0x03 (R264). -/
def decode03 (h : Hd) (w : BitVec 32) : Except Reject Instr :=
  .ok (.lis h (w.extractLsb' 16 5) (w.extractLsb' 0 16))

/-- Scalar floating point, major 0x04 (R264). -/
def decode04 (h : Hd) (w : BitVec 32) : Except Reject Instr :=
  match (w.extractLsb' 16 5).toNat with
  | 0 => .ok (.fadd h (w.extractLsb' 11 5) (w.extractLsb' 6 5) (w.extractLsb' 1 5) (w.getLsbD 0))
  | 1 => .ok (.fsub h (w.extractLsb' 11 5) (w.extractLsb' 6 5) (w.extractLsb' 1 5) (w.getLsbD 0))
  | 2 => .ok (.fmul h (w.extractLsb' 11 5) (w.extractLsb' 6 5) (w.extractLsb' 1 5) (w.getLsbD 0))
  | 3 => .ok (.fma h (w.extractLsb' 11 5) (w.extractLsb' 6 5) (w.extractLsb' 1 5) (w.getLsbD 0))
  | 4 => .ok (.fdiv h (w.extractLsb' 11 5) (w.extractLsb' 6 5) (w.extractLsb' 1 5) (w.getLsbD 0))
  | 5 => if w.extractLsb' 1 5 = 0#5 then .ok (.fsqrt h (w.extractLsb' 11 5) (w.extractLsb' 6 5) (w.getLsbD 0)) else .error .unused
  | 6 => .ok (.fmin h (w.extractLsb' 11 5) (w.extractLsb' 6 5) (w.extractLsb' 1 5) (w.getLsbD 0))
  | 7 => .ok (.fmax h (w.extractLsb' 11 5) (w.extractLsb' 6 5) (w.extractLsb' 1 5) (w.getLsbD 0))
  | 8 => .ok (.fcvtif h (w.extractLsb' 11 5) (w.extractLsb' 6 5) (w.extractLsb' 1 5) (w.getLsbD 0))
  | 9 => .ok (.fcvtfi h (w.extractLsb' 11 5) (w.extractLsb' 6 5) (w.extractLsb' 1 5) (w.getLsbD 0))
  | 10 => if w.extractLsb' 1 5 = 0#5 then .ok (.fcvtw h (w.extractLsb' 11 5) (w.extractLsb' 6 5) (w.getLsbD 0)) else .error .unused
  | 11 => if w.extractLsb' 1 5 = 0#5 then .ok (.fclass h (w.extractLsb' 11 5) (w.extractLsb' 6 5) (w.getLsbD 0)) else .error .unused
  | _ => .error .function

/-- Loads and stores, major 0x05 (R264). -/
def decode05 (h : Hd) (w : BitVec 32) : Except Reject Instr :=
  match (w.extractLsb' 18 3).toNat with
  | 0 => .ok (.ld h (w.extractLsb' 13 5) (w.extractLsb' 8 5) (w.extractLsb' 0 8))
  | 1 => .ok (.lw h (w.extractLsb' 13 5) (w.extractLsb' 8 5) (w.extractLsb' 0 8))
  | 2 => .ok (.lwu h (w.extractLsb' 13 5) (w.extractLsb' 8 5) (w.extractLsb' 0 8))
  | 3 => .ok (.st h (w.extractLsb' 13 5) (w.extractLsb' 8 5) (w.extractLsb' 0 8))
  | 4 => .ok (.sw h (w.extractLsb' 13 5) (w.extractLsb' 8 5) (w.extractLsb' 0 8))
  | _ => .error .function

/-- Atomics, major 0x06 (R264). -/
def decode06 (h : Hd) (w : BitVec 32) : Except Reject Instr :=
  match (w.extractLsb' 18 3).toNat with
  | 0 => .ok (.amoadd h (w.extractLsb' 16 2) (w.extractLsb' 11 5) (w.extractLsb' 6 5) (w.extractLsb' 1 5) (w.getLsbD 0))
  | 1 => .ok (.amoand h (w.extractLsb' 16 2) (w.extractLsb' 11 5) (w.extractLsb' 6 5) (w.extractLsb' 1 5) (w.getLsbD 0))
  | 2 => .ok (.amoor h (w.extractLsb' 16 2) (w.extractLsb' 11 5) (w.extractLsb' 6 5) (w.extractLsb' 1 5) (w.getLsbD 0))
  | 3 => .ok (.amoxor h (w.extractLsb' 16 2) (w.extractLsb' 11 5) (w.extractLsb' 6 5) (w.extractLsb' 1 5) (w.getLsbD 0))
  | 4 => .ok (.amomin h (w.extractLsb' 16 2) (w.extractLsb' 11 5) (w.extractLsb' 6 5) (w.extractLsb' 1 5) (w.getLsbD 0))
  | 5 => .ok (.amomax h (w.extractLsb' 16 2) (w.extractLsb' 11 5) (w.extractLsb' 6 5) (w.extractLsb' 1 5) (w.getLsbD 0))
  | 6 => .ok (.amoswap h (w.extractLsb' 16 2) (w.extractLsb' 11 5) (w.extractLsb' 6 5) (w.extractLsb' 1 5) (w.getLsbD 0))
  | _ => .ok (.amocas h (w.extractLsb' 16 2) (w.extractLsb' 11 5) (w.extractLsb' 6 5) (w.extractLsb' 1 5) (w.getLsbD 0))

/-- Control transfers, major 0x07 (R264). -/
def decode07 (h : Hd) (w : BitVec 32) : Except Reject Instr :=
  match (w.extractLsb' 18 3).toNat with
  | 0 => if w.extractLsb' 13 5 = 0#5 then .ok (.j h (w.extractLsb' 0 13)) else .error .unused
  | 1 => .ok (.jz h (w.extractLsb' 13 5) (w.extractLsb' 0 13))
  | 2 => .ok (.jnz h (w.extractLsb' 13 5) (w.extractLsb' 0 13))
  | 3 => .ok (.jp h (w.extractLsb' 13 5) (w.extractLsb' 0 13))
  | 4 => if h.n = false ∧ h.p = 0#3 then .ok (.jany h.s (w.extractLsb' 13 5) (w.extractLsb' 0 13)) else .error .unused
  | 5 => if h.n = false ∧ h.p = 0#3 then .ok (.jall h.s (w.extractLsb' 13 5) (w.extractLsb' 0 13)) else .error .unused
  | 6 => .ok (.call h (w.extractLsb' 13 5) (w.extractLsb' 0 13))
  | _ => if w.extractLsb' 0 13 = 0#13 then .ok (.ret h (w.extractLsb' 13 5)) else .error .unused

/-- Loops, major 0x08 (R264). -/
def decode08 (h : Hd) (w : BitVec 32) : Except Reject Instr :=
  match (w.extractLsb' 18 3).toNat with
  | 0 => if w.extractLsb' 13 5 = 0#5 then .ok (.loop h (w.extractLsb' 8 5) (w.extractLsb' 0 8)) else .error .unused
  | 1 => .ok (.loopi h (w.extractLsb' 13 5) (w.extractLsb' 8 5) (w.extractLsb' 0 8))
  | 2 => if w.extractLsb' 0 18 = 0#18 then .ok (.lbrk h) else .error .unused
  | _ => .error .function

/-- Predicates, major 0x09 (R264). -/
def decode09 (h : Hd) (w : BitVec 32) : Except Reject Instr :=
  match (w.extractLsb' 16 5).toNat with
  | 0 => .ok (.peq h (w.extractLsb' 11 5) (w.extractLsb' 6 5) (w.extractLsb' 1 5) (w.getLsbD 0))
  | 1 => .ok (.pne h (w.extractLsb' 11 5) (w.extractLsb' 6 5) (w.extractLsb' 1 5) (w.getLsbD 0))
  | 2 => .ok (.plt h (w.extractLsb' 11 5) (w.extractLsb' 6 5) (w.extractLsb' 1 5) (w.getLsbD 0))
  | 3 => .ok (.ple h (w.extractLsb' 11 5) (w.extractLsb' 6 5) (w.extractLsb' 1 5) (w.getLsbD 0))
  | 4 => .ok (.pltu h (w.extractLsb' 11 5) (w.extractLsb' 6 5) (w.extractLsb' 1 5) (w.getLsbD 0))
  | 5 => .ok (.pfeq h (w.extractLsb' 11 5) (w.extractLsb' 6 5) (w.extractLsb' 1 5) (w.getLsbD 0))
  | 6 => .ok (.pflt h (w.extractLsb' 11 5) (w.extractLsb' 6 5) (w.extractLsb' 1 5) (w.getLsbD 0))
  | 7 => if w.extractLsb' 0 1 = 0#1 then .ok (.pand h (w.extractLsb' 11 5) (w.extractLsb' 6 5) (w.extractLsb' 1 5)) else .error .unused
  | 8 => if w.extractLsb' 0 1 = 0#1 then .ok (.por h (w.extractLsb' 11 5) (w.extractLsb' 6 5) (w.extractLsb' 1 5)) else .error .unused
  | 9 => if w.extractLsb' 0 6 = 0#6 then .ok (.pnot h (w.extractLsb' 11 5) (w.extractLsb' 6 5)) else .error .unused
  | _ => .error .function

/-- Vector integer, major 0x10 (R264). -/
def decode10 (h : Hd) (w : BitVec 32) : Except Reject Instr :=
  match (w.extractLsb' 16 5).toNat with
  | 0 => .ok (.vadd h (w.extractLsb' 12 4) (w.extractLsb' 8 4) (w.extractLsb' 4 4) (w.extractLsb' 2 2) (w.extractLsb' 0 2))
  | 1 => .ok (.vsub h (w.extractLsb' 12 4) (w.extractLsb' 8 4) (w.extractLsb' 4 4) (w.extractLsb' 2 2) (w.extractLsb' 0 2))
  | 2 => .ok (.vmul h (w.extractLsb' 12 4) (w.extractLsb' 8 4) (w.extractLsb' 4 4) (w.extractLsb' 2 2) (w.extractLsb' 0 2))
  | 3 => .ok (.vmin h (w.extractLsb' 12 4) (w.extractLsb' 8 4) (w.extractLsb' 4 4) (w.extractLsb' 2 2) (w.extractLsb' 0 2))
  | 4 => .ok (.vmax h (w.extractLsb' 12 4) (w.extractLsb' 8 4) (w.extractLsb' 4 4) (w.extractLsb' 2 2) (w.extractLsb' 0 2))
  | 5 => .ok (.vand h (w.extractLsb' 12 4) (w.extractLsb' 8 4) (w.extractLsb' 4 4) (w.extractLsb' 2 2) (w.extractLsb' 0 2))
  | 6 => .ok (.vor h (w.extractLsb' 12 4) (w.extractLsb' 8 4) (w.extractLsb' 4 4) (w.extractLsb' 2 2) (w.extractLsb' 0 2))
  | 7 => .ok (.vxor h (w.extractLsb' 12 4) (w.extractLsb' 8 4) (w.extractLsb' 4 4) (w.extractLsb' 2 2) (w.extractLsb' 0 2))
  | 8 => .ok (.vshl h (w.extractLsb' 12 4) (w.extractLsb' 8 4) (w.extractLsb' 4 4) (w.extractLsb' 2 2) (w.extractLsb' 0 2))
  | 9 => .ok (.vshr h (w.extractLsb' 12 4) (w.extractLsb' 8 4) (w.extractLsb' 4 4) (w.extractLsb' 2 2) (w.extractLsb' 0 2))
  | 10 => .ok (.vsar h (w.extractLsb' 12 4) (w.extractLsb' 8 4) (w.extractLsb' 4 4) (w.extractLsb' 2 2) (w.extractLsb' 0 2))
  | 11 => .ok (.vceq h (w.extractLsb' 12 4) (w.extractLsb' 8 4) (w.extractLsb' 4 4) (w.extractLsb' 2 2) (w.extractLsb' 0 2))
  | 12 => .ok (.vclt h (w.extractLsb' 12 4) (w.extractLsb' 8 4) (w.extractLsb' 4 4) (w.extractLsb' 2 2) (w.extractLsb' 0 2))
  | 13 => .ok (.vsel h (w.extractLsb' 12 4) (w.extractLsb' 8 4) (w.extractLsb' 4 4) (w.extractLsb' 2 2) (w.extractLsb' 0 2))
  | _ => .error .function

/-- Vector floating point, major 0x11 (R264). -/
def decode11 (h : Hd) (w : BitVec 32) : Except Reject Instr :=
  match (w.extractLsb' 16 5).toNat with
  | 0 => .ok (.vfadd h (w.extractLsb' 12 4) (w.extractLsb' 8 4) (w.extractLsb' 4 4) (w.extractLsb' 2 2) (w.extractLsb' 0 2))
  | 1 => .ok (.vfsub h (w.extractLsb' 12 4) (w.extractLsb' 8 4) (w.extractLsb' 4 4) (w.extractLsb' 2 2) (w.extractLsb' 0 2))
  | 2 => .ok (.vfmul h (w.extractLsb' 12 4) (w.extractLsb' 8 4) (w.extractLsb' 4 4) (w.extractLsb' 2 2) (w.extractLsb' 0 2))
  | 3 => .ok (.vfma h (w.extractLsb' 12 4) (w.extractLsb' 8 4) (w.extractLsb' 4 4) (w.extractLsb' 2 2) (w.extractLsb' 0 2))
  | 4 => .ok (.vfmin h (w.extractLsb' 12 4) (w.extractLsb' 8 4) (w.extractLsb' 4 4) (w.extractLsb' 2 2) (w.extractLsb' 0 2))
  | 5 => .ok (.vfmax h (w.extractLsb' 12 4) (w.extractLsb' 8 4) (w.extractLsb' 4 4) (w.extractLsb' 2 2) (w.extractLsb' 0 2))
  | 6 => .ok (.vfdiv h (w.extractLsb' 12 4) (w.extractLsb' 8 4) (w.extractLsb' 4 4) (w.extractLsb' 2 2) (w.extractLsb' 0 2))
  | 7 => if w.extractLsb' 4 4 = 0#4 then .ok (.vfsqrt h (w.extractLsb' 12 4) (w.extractLsb' 8 4) (w.extractLsb' 2 2) (w.extractLsb' 0 2)) else .error .unused
  | 8 => if w.extractLsb' 4 4 = 0#4 then .ok (.vfrsq h (w.extractLsb' 12 4) (w.extractLsb' 8 4) (w.extractLsb' 2 2) (w.extractLsb' 0 2)) else .error .unused
  | 9 => if w.extractLsb' 4 4 = 0#4 then .ok (.vfexp2 h (w.extractLsb' 12 4) (w.extractLsb' 8 4) (w.extractLsb' 2 2) (w.extractLsb' 0 2)) else .error .unused
  | 10 => if w.extractLsb' 4 4 = 0#4 then .ok (.vflog2 h (w.extractLsb' 12 4) (w.extractLsb' 8 4) (w.extractLsb' 2 2) (w.extractLsb' 0 2)) else .error .unused
  | 11 => .ok (.vfceq h (w.extractLsb' 12 4) (w.extractLsb' 8 4) (w.extractLsb' 4 4) (w.extractLsb' 2 2) (w.extractLsb' 0 2))
  | 12 => .ok (.vfclt h (w.extractLsb' 12 4) (w.extractLsb' 8 4) (w.extractLsb' 4 4) (w.extractLsb' 2 2) (w.extractLsb' 0 2))
  | 13 => .ok (.vfcle h (w.extractLsb' 12 4) (w.extractLsb' 8 4) (w.extractLsb' 4 4) (w.extractLsb' 2 2) (w.extractLsb' 0 2))
  | _ => .error .function

/-- Conversions, major 0x12 (R264). -/
def decode12 (h : Hd) (w : BitVec 32) : Except Reject Instr :=
  match (w.extractLsb' 16 5).toNat with
  | 0 => .ok (.vcvt h (w.extractLsb' 12 4) (w.extractLsb' 8 4) (w.extractLsb' 4 4) (w.extractLsb' 2 2) (w.extractLsb' 0 2))
  | 1 => .ok (.vcvti h (w.extractLsb' 12 4) (w.extractLsb' 8 4) (w.extractLsb' 4 4) (w.extractLsb' 2 2) (w.extractLsb' 0 2))
  | 2 => .ok (.vcvtf h (w.extractLsb' 12 4) (w.extractLsb' 8 4) (w.extractLsb' 4 4) (w.extractLsb' 2 2) (w.extractLsb' 0 2))
  | 3 => .ok (.vqmx h (w.extractLsb' 12 4) (w.extractLsb' 8 4) (w.extractLsb' 4 4) (w.extractLsb' 2 2) (w.extractLsb' 0 2))
  | 4 => .ok (.vdqmx h (w.extractLsb' 12 4) (w.extractLsb' 8 4) (w.extractLsb' 4 4) (w.extractLsb' 2 2) (w.extractLsb' 0 2))
  | _ => .error .function

/-- Row axis, major 0x13 (R264). -/
def decode13 (h : Hd) (w : BitVec 32) : Except Reject Instr :=
  match (w.extractLsb' 16 5).toNat with
  | 0 => .ok (.vrotr h (w.extractLsb' 12 4) (w.extractLsb' 8 4) (w.extractLsb' 4 4) (w.extractLsb' 2 2) (w.extractLsb' 0 2))
  | 1 => .ok (.vbcr h (w.extractLsb' 12 4) (w.extractLsb' 8 4) (w.extractLsb' 4 4) (w.extractLsb' 2 2) (w.extractLsb' 0 2))
  | 2 => if w.extractLsb' 5 3 = 0#3 then .ok (.vsumr h (w.extractLsb' 12 4) (w.extractLsb' 8 4) (w.getLsbD 4) (w.extractLsb' 2 2) (w.extractLsb' 0 2)) else .error .unused
  | 3 => if w.extractLsb' 5 3 = 0#3 then .ok (.vmaxr h (w.extractLsb' 12 4) (w.extractLsb' 8 4) (w.getLsbD 4) (w.extractLsb' 2 2) (w.extractLsb' 0 2)) else .error .unused
  | 4 => if w.extractLsb' 5 3 = 0#3 then .ok (.vscanr h (w.extractLsb' 12 4) (w.extractLsb' 8 4) (w.getLsbD 4) (w.extractLsb' 2 2) (w.extractLsb' 0 2)) else .error .unused
  | 5 => .ok (.vlrecr h (w.extractLsb' 12 4) (w.extractLsb' 8 4) (w.extractLsb' 4 4) (w.extractLsb' 2 2) (w.extractLsb' 0 2))
  | _ => .error .function

/-- Column axis, major 0x14 (R264). -/
def decode14 (h : Hd) (w : BitVec 32) : Except Reject Instr :=
  match (w.extractLsb' 16 5).toNat with
  | 0 => .ok (.vrotc h (w.extractLsb' 12 4) (w.extractLsb' 8 4) (w.extractLsb' 4 4) (w.extractLsb' 2 2) (w.extractLsb' 0 2))
  | 1 => .ok (.vbcc h (w.extractLsb' 12 4) (w.extractLsb' 8 4) (w.extractLsb' 4 4) (w.extractLsb' 2 2) (w.extractLsb' 0 2))
  | 2 => if w.extractLsb' 5 3 = 0#3 then .ok (.vsumc h (w.extractLsb' 12 4) (w.extractLsb' 8 4) (w.getLsbD 4) (w.extractLsb' 2 2) (w.extractLsb' 0 2)) else .error .unused
  | 3 => if w.extractLsb' 5 3 = 0#3 then .ok (.vmaxc h (w.extractLsb' 12 4) (w.extractLsb' 8 4) (w.getLsbD 4) (w.extractLsb' 2 2) (w.extractLsb' 0 2)) else .error .unused
  | 4 => if w.extractLsb' 5 3 = 0#3 then .ok (.vscanc h (w.extractLsb' 12 4) (w.extractLsb' 8 4) (w.getLsbD 4) (w.extractLsb' 2 2) (w.extractLsb' 0 2)) else .error .unused
  | 5 => if w.extractLsb' 4 4 = 0#4 then .ok (.vtrn h (w.extractLsb' 12 4) (w.extractLsb' 8 4) (w.extractLsb' 2 2) (w.extractLsb' 0 2)) else .error .unused
  | _ => .error .function

/-- Attention, major 0x15 (R264). -/
def decode15 (h : Hd) (w : BitVec 32) : Except Reject Instr :=
  match (w.extractLsb' 16 5).toNat with
  | 0 => if w.extractLsb' 0 4 = 0#4 then .ok (.vmerge3 h (w.extractLsb' 12 4) (w.extractLsb' 8 4) (w.extractLsb' 4 4)) else .error .unused
  | 1 => if w.extractLsb' 2 2 = 0#2 then .ok (.vtmask h (w.extractLsb' 12 4) (w.extractLsb' 8 4) (w.extractLsb' 4 4) (w.extractLsb' 0 2)) else .error .unused
  | 2 => if w.extractLsb' 0 4 = 0#4 then .ok (.vsmx h (w.extractLsb' 12 4) (w.extractLsb' 8 4) (w.extractLsb' 4 4)) else .error .unused
  | _ => .error .function

/-- Vector memory, major 0x16 (R264). -/
def decode16 (h : Hd) (w : BitVec 32) : Except Reject Instr :=
  match (w.extractLsb' 16 5).toNat with
  | 0 => if w.extractLsb' 0 1 = 0#1 then .ok (.vld h (w.extractLsb' 12 4) (w.extractLsb' 7 5) (w.extractLsb' 3 4) (w.extractLsb' 1 2)) else .error .unused
  | 1 => if w.extractLsb' 0 1 = 0#1 then .ok (.vst h (w.extractLsb' 12 4) (w.extractLsb' 7 5) (w.extractLsb' 3 4) (w.extractLsb' 1 2)) else .error .unused
  | 2 => if w.extractLsb' 0 1 = 0#1 then .ok (.vldt h (w.extractLsb' 12 4) (w.extractLsb' 7 5) (w.extractLsb' 3 4) (w.extractLsb' 1 2)) else .error .unused
  | 3 => if w.extractLsb' 0 1 = 0#1 ∧ w.extractLsb' 6 1 = 0#1 then .ok (.vlds h (w.extractLsb' 12 4) (w.extractLsb' 7 5) (w.extractLsb' 3 3) (w.extractLsb' 1 2)) else .error .unused
  | 4 => if w.extractLsb' 0 1 = 0#1 ∧ w.extractLsb' 6 1 = 0#1 then .ok (.vsts h (w.extractLsb' 12 4) (w.extractLsb' 7 5) (w.extractLsb' 3 3) (w.extractLsb' 1 2)) else .error .unused
  | 5 => if w.extractLsb' 0 1 = 0#1 then .ok (.vgath h (w.extractLsb' 12 4) (w.extractLsb' 7 5) (w.extractLsb' 3 4) (w.extractLsb' 1 2)) else .error .unused
  | 6 => if w.extractLsb' 0 1 = 0#1 then .ok (.vscat h (w.extractLsb' 12 4) (w.extractLsb' 7 5) (w.extractLsb' 3 4) (w.extractLsb' 1 2)) else .error .unused
  | 7 => if w.extractLsb' 0 1 = 0#1 then .ok (.vscatc h (w.extractLsb' 12 4) (w.extractLsb' 7 5) (w.extractLsb' 3 4) (w.extractLsb' 1 2)) else .error .unused
  | 8 => if w.extractLsb' 0 1 = 0#1 then .ok (.vscadd h (w.extractLsb' 12 4) (w.extractLsb' 7 5) (w.extractLsb' 3 4) (w.extractLsb' 1 2)) else .error .unused
  | _ => .error .function

/-- Sparse, major 0x17 (R264). -/
def decode17 (h : Hd) (w : BitVec 32) : Except Reject Instr :=
  match (w.extractLsb' 16 5).toNat with
  | 0 => if w.extractLsb' 0 4 = 0#4 then .ok (.visect h (w.extractLsb' 12 4) (w.extractLsb' 8 4) (w.extractLsb' 4 4)) else .error .unused
  | 1 => if w.extractLsb' 4 4 = 0#4 then .ok (.vcomp h (w.extractLsb' 12 4) (w.extractLsb' 8 4) (w.extractLsb' 2 2) (w.extractLsb' 0 2)) else .error .unused
  | 2 => if w.extractLsb' 4 4 = 0#4 then .ok (.vexpd h (w.extractLsb' 12 4) (w.extractLsb' 8 4) (w.extractLsb' 2 2) (w.extractLsb' 0 2)) else .error .unused
  | 3 => if w.extractLsb' 4 4 = 0#4 then .ok (.vconf h (w.extractLsb' 12 4) (w.extractLsb' 8 4) (w.extractLsb' 2 2) (w.extractLsb' 0 2)) else .error .unused
  | 4 => .ok (.vsegs h (w.extractLsb' 12 4) (w.extractLsb' 8 4) (w.extractLsb' 4 4) (w.extractLsb' 2 2) (w.extractLsb' 0 2))
  | _ => .error .function

/-- Moves, major 0x18 (R264). -/
def decode18 (h : Hd) (w : BitVec 32) : Except Reject Instr :=
  match (w.extractLsb' 16 5).toNat with
  | 0 => if w.extractLsb' 4 4 = 0#4 then .ok (.vmov h (w.extractLsb' 12 4) (w.extractLsb' 8 4) (w.extractLsb' 2 2) (w.extractLsb' 0 2)) else .error .unused
  | 1 => .ok (.vmovx h (w.extractLsb' 12 4) (w.extractLsb' 8 4) (w.extractLsb' 4 4) (w.extractLsb' 2 2) (w.extractLsb' 0 2))
  | 2 => .ok (.vsplat h (w.extractLsb' 12 4) (w.extractLsb' 4 8) (w.extractLsb' 2 2) (w.extractLsb' 0 2))
  | 3 => if w.extractLsb' 2 2 = 0#2 then .ok (.vins h (w.extractLsb' 12 4) (w.extractLsb' 8 4) (w.extractLsb' 4 4) (w.extractLsb' 0 2)) else .error .unused
  | 4 => if w.extractLsb' 2 2 = 0#2 then .ok (.vext h (w.extractLsb' 12 4) (w.extractLsb' 8 4) (w.extractLsb' 4 4) (w.extractLsb' 0 2)) else .error .unused
  | 5 => if w.extractLsb' 2 10 = 0#10 then .ok (.vrand h (w.extractLsb' 12 4) (w.extractLsb' 0 2)) else .error .unused
  | _ => .error .function

/-- Masks, major 0x19 (R264). -/
def decode19 (h : Hd) (w : BitVec 32) : Except Reject Instr :=
  match (w.extractLsb' 16 5).toNat with
  | 0 => if w.extractLsb' 0 7 = 0#7 then .ok (.kand h (w.extractLsb' 13 3) (w.extractLsb' 10 3) (w.extractLsb' 7 3)) else .error .unused
  | 1 => if w.extractLsb' 0 7 = 0#7 then .ok (.kor h (w.extractLsb' 13 3) (w.extractLsb' 10 3) (w.extractLsb' 7 3)) else .error .unused
  | 2 => if w.extractLsb' 0 7 = 0#7 then .ok (.kxor h (w.extractLsb' 13 3) (w.extractLsb' 10 3) (w.extractLsb' 7 3)) else .error .unused
  | 3 => if w.extractLsb' 0 10 = 0#10 then .ok (.knot h (w.extractLsb' 13 3) (w.extractLsb' 10 3)) else .error .unused
  | 4 => if w.extractLsb' 0 10 = 0#10 then .ok (.kpop h (w.extractLsb' 13 3) (w.extractLsb' 10 3)) else .error .unused
  | 5 => if w.extractLsb' 0 10 = 0#10 then .ok (.kfirst h (w.extractLsb' 13 3) (w.extractLsb' 10 3)) else .error .unused
  | 6 => if w.extractLsb' 0 2 = 0#2 ∧ w.extractLsb' 7 6 = 0#6 then .ok (.kset h (w.extractLsb' 13 3) (w.extractLsb' 2 5)) else .error .unused
  | _ => .error .function

/-- Dense matrix, major 0x20 (R264). -/
def decode20 (h : Hd) (w : BitVec 32) : Except Reject Instr :=
  match (w.extractLsb' 17 4).toNat with
  | 0 => .ok (.mma h (w.extractLsb' 15 2) (w.extractLsb' 10 5) (w.extractLsb' 5 5) (w.extractLsb' 0 5))
  | 1 => .ok (.mmaz h (w.extractLsb' 15 2) (w.extractLsb' 10 5) (w.extractLsb' 5 5) (w.extractLsb' 0 5))
  | 2 => .ok (.mmat h (w.extractLsb' 15 2) (w.extractLsb' 10 5) (w.extractLsb' 5 5) (w.extractLsb' 0 5))
  | 3 => .ok (.mwin h (w.extractLsb' 15 2) (w.extractLsb' 10 5) (w.extractLsb' 5 5) (w.extractLsb' 0 5))
  | 4 => .ok (.mmax h (w.extractLsb' 15 2) (w.extractLsb' 10 5) (w.extractLsb' 5 5) (w.extractLsb' 0 5))
  | _ => .error .function

/-- Sparse matrix, major 0x21 (R264). -/
def decode21 (h : Hd) (w : BitVec 32) : Except Reject Instr :=
  match (w.extractLsb' 17 4).toNat with
  | 0 => .ok (.mcsr h (w.extractLsb' 15 2) (w.extractLsb' 10 5) (w.extractLsb' 5 5) (w.extractLsb' 0 5))
  | 1 => .ok (.mbsr h (w.extractLsb' 15 2) (w.extractLsb' 10 5) (w.extractLsb' 5 5) (w.extractLsb' 0 5))
  | 2 => .ok (.m24 h (w.extractLsb' 15 2) (w.extractLsb' 10 5) (w.extractLsb' 5 5) (w.extractLsb' 0 5))
  | _ => .error .function

/-- Accumulator, major 0x22 (R264). -/
def decode22 (h : Hd) (w : BitVec 32) : Except Reject Instr :=
  match (w.extractLsb' 17 4).toNat with
  | 0 => if w.extractLsb' 9 6 = 0#6 then .ok (.zrd h (w.extractLsb' 15 2) (w.extractLsb' 5 4) (w.extractLsb' 0 5)) else .error .unused
  | 1 => if w.extractLsb' 9 6 = 0#6 then .ok (.zwr h (w.extractLsb' 15 2) (w.extractLsb' 5 4) (w.extractLsb' 0 5)) else .error .unused
  | 2 => if w.extractLsb' 0 15 = 0#15 then .ok (.zclr h (w.extractLsb' 15 2)) else .error .unused
  | 3 => if w.extractLsb' 5 5 = 0#5 then .ok (.esld h (w.extractLsb' 15 2) (w.extractLsb' 10 5) (w.extractLsb' 0 5)) else .error .unused
  | _ => .error .function

/-- Modes, major 0x23 (R264). -/
def decode23 (h : Hd) (w : BitVec 32) : Except Reject Instr :=
  match (w.extractLsb' 17 4).toNat with
  | 0 => if w.extractLsb' 5 12 = 0#12 then .ok (.amode h (w.extractLsb' 0 5)) else .error .unused
  | 1 => if w.extractLsb' 15 2 = 0#2 then .ok (.mshape h (w.extractLsb' 10 5) (w.extractLsb' 5 5) (w.extractLsb' 0 5)) else .error .unused
  | _ => .error .function

/-- Exchange, major 0x28 (R264). -/
def decode28 (h : Hd) (w : BitVec 32) : Except Reject Instr :=
  match (w.extractLsb' 16 5).toNat with
  | 0 => .ok (.xch h (w.extractLsb' 11 5) (w.extractLsb' 6 5) (w.extractLsb' 0 6))
  | 1 => if w.extractLsb' 0 1 = 0#1 then .ok (.xchc h (w.extractLsb' 11 5) (w.extractLsb' 6 5) (w.extractLsb' 1 5)) else .error .unused
  | 2 => .ok (.xcht h (w.extractLsb' 11 5) (w.extractLsb' 6 5) (w.extractLsb' 0 6))
  | 3 => if w.extractLsb' 0 11 = 0#11 then .ok (.xrot h (w.extractLsb' 11 5)) else .error .unused
  | 4 => if w.extractLsb' 1 5 = 0#5 then (if w.getLsbD 0 then .ok (.xverRead h (w.extractLsb' 11 5) (w.extractLsb' 6 5)) else .ok (.xver h (w.extractLsb' 11 5) (w.extractLsb' 6 5))) else .error .unused
  | _ => .error .function

/-- Transfer, major 0x29 (R264). -/
def decode29 (h : Hd) (w : BitVec 32) : Except Reject Instr :=
  match (w.extractLsb' 16 5).toNat with
  | 0 => if w.extractLsb' 5 6 = 0#6 then .ok (.send h (w.extractLsb' 11 5) (w.extractLsb' 0 5)) else .error .unused
  | 1 => if w.extractLsb' 5 6 = 0#6 ∧ w.extractLsb' 15 1 = 0#1 then .ok (.recv h (w.extractLsb' 11 4) (w.extractLsb' 0 5)) else .error .unused
  | 2 => if w.extractLsb' 4 7 = 0#7 ∧ w.extractLsb' 15 1 = 0#1 then .ok (.vfpush h (w.extractLsb' 11 4) (w.extractLsb' 0 4)) else .error .unused
  | 3 => if w.extractLsb' 4 7 = 0#7 ∧ w.extractLsb' 15 1 = 0#1 then .ok (.vfpop h (w.extractLsb' 11 4) (w.extractLsb' 0 4)) else .error .unused
  | 4 => if w.extractLsb' 0 11 = 0#11 then .ok (.vffree h (w.extractLsb' 11 5)) else .error .unused
  | _ => .error .function

/-- Memory commands, major 0x2A (R264). -/
def decode2A (h : Hd) (w : BitVec 32) : Except Reject Instr :=
  match (w.extractLsb' 18 3).toNat with
  | 0 => if w.extractLsb' 8 5 = 0#5 then .ok (.dact h (w.extractLsb' 13 5) (w.extractLsb' 0 8)) else .error .unused
  | 1 => if w.extractLsb' 0 13 = 0#13 then .ok (.drd h (w.extractLsb' 13 5)) else .error .unused
  | 2 => if w.extractLsb' 0 13 = 0#13 then .ok (.dwr h (w.extractLsb' 13 5)) else .error .unused
  | 3 => if w.extractLsb' 4 9 = 0#9 then .ok (.dpre h (w.extractLsb' 13 5) (w.extractLsb' 0 4)) else .error .unused
  | 4 => if w.extractLsb' 0 13 = 0#13 then .ok (.dprea h (w.extractLsb' 13 5)) else .error .unused
  | 5 => if w.extractLsb' 0 13 = 0#13 then .ok (.dref h (w.extractLsb' 13 5)) else .error .unused
  | _ => .error .function

/-- Starter, major 0x2B (R264). -/
def decode2B (h : Hd) (w : BitVec 32) : Except Reject Instr :=
  match (w.extractLsb' 16 5).toNat with
  | 0 => if w.extractLsb' 4 2 = 0#2 then .ok (.ssbind h (w.extractLsb' 11 5) (w.extractLsb' 6 5) (w.extractLsb' 0 4)) else .error .unused
  | 1 => if w.extractLsb' 5 1 = 0#1 ∧ w.extractLsb' 11 5 = 0#5 then .ok (.ssadv h (w.extractLsb' 6 5) (w.extractLsb' 0 5)) else .error .unused
  | 2 => if w.extractLsb' 4 2 = 0#2 ∧ w.extractLsb' 11 5 = 0#5 then .ok (.ssroll h (w.extractLsb' 6 5) (w.extractLsb' 0 4)) else .error .unused
  | 3 => if w.extractLsb' 4 2 = 0#2 then .ok (.ssfork h (w.extractLsb' 11 5) (w.extractLsb' 6 5) (w.extractLsb' 0 4)) else .error .unused
  | 4 => if w.extractLsb' 4 12 = 0#12 then .ok (.ssdrop h (w.extractLsb' 0 4)) else .error .unused
  | 5 => .ok (.ssfind h (w.extractLsb' 11 5) (w.extractLsb' 6 5) (w.extractLsb' 0 6))
  | _ => .error .function

/-- Global access, major 0x2C (R264). -/
def decode2C (h : Hd) (w : BitVec 32) : Except Reject Instr :=
  match (w.extractLsb' 16 5).toNat with
  | 0 => if w.extractLsb' 0 4 = 0#4 then .ok (.gld h (w.extractLsb' 11 5) (w.extractLsb' 6 5) (w.extractLsb' 4 2)) else .error .unused
  | 1 => if w.extractLsb' 0 4 = 0#4 then .ok (.gst h (w.extractLsb' 11 5) (w.extractLsb' 6 5) (w.extractLsb' 4 2)) else .error .unused
  | 2 => if w.extractLsb' 0 6 = 0#6 then .ok (.gacq h (w.extractLsb' 11 5) (w.extractLsb' 6 5)) else .error .unused
  | 3 => if w.extractLsb' 0 6 = 0#6 then .ok (.grel h (w.extractLsb' 11 5) (w.extractLsb' 6 5)) else .error .unused
  | 4 => .ok (.gamo h (w.extractLsb' 11 5) (w.extractLsb' 6 5) (w.extractLsb' 0 6))
  | 5 => if w.extractLsb' 4 2 = 0#2 ∧ w.extractLsb' 11 1 = 0#1 ∧ w.extractLsb' 15 1 = 0#1 then .ok (.gmrg h (w.extractLsb' 12 3) (w.extractLsb' 6 5) (w.extractLsb' 0 4)) else .error .unused
  | _ => .error .function

/-- Address generators, major 0x2D (R264). -/
def decode2D (h : Hd) (w : BitVec 32) : Except Reject Instr :=
  match (w.extractLsb' 16 5).toNat with
  | 0 => if w.extractLsb' 2 4 = 0#4 then .ok (.agset h (w.extractLsb' 11 5) (w.extractLsb' 6 5) (w.extractLsb' 0 2)) else .error .unused
  | 1 => if w.extractLsb' 2 4 = 0#4 then .ok (.agen h (w.extractLsb' 11 5) (w.extractLsb' 6 5) (w.extractLsb' 0 2)) else .error .unused
  | _ => .error .function

/-- System, major 0x38 (R264). -/
def decode38 (h : Hd) (w : BitVec 32) : Except Reject Instr :=
  match (w.extractLsb' 16 5).toNat with
  | 0 => if w.extractLsb' 11 5 = 0#5 then .ok (.syscall h (w.extractLsb' 0 11)) else .error .unused
  | 1 => if w.extractLsb' 11 5 = 0#5 then .ok (.trapi h (w.extractLsb' 0 11)) else .error .unused
  | 2 => if w.extractLsb' 0 1 = 0#1 ∧ w.extractLsb' 6 10 = 0#10 then .ok (.fence h (w.extractLsb' 1 5)) else .error .unused
  | 3 => if w.extractLsb' 0 16 = 0#16 then .ok (.realign h) else .error .unused
  | 4 => if w.extractLsb' 0 1 = 0#1 ∧ w.extractLsb' 11 5 = 0#5 then .ok (.waitk h (w.extractLsb' 6 5) (w.extractLsb' 1 5)) else .error .unused
  | 5 => if w.extractLsb' 0 16 = 0#16 then .ok (.halt h) else .error .unused
  | 6 => .ok (.getc h (w.extractLsb' 11 5) (w.extractLsb' 0 11))
  | 7 => .ok (.setc h (w.extractLsb' 11 5) (w.extractLsb' 0 11))
  | 8 => .ok (.setb h (w.extractLsb' 11 5) (w.extractLsb' 0 11))
  | 9 => .ok (.clrb h (w.extractLsb' 11 5) (w.extractLsb' 0 11))
  | 10 => if w.extractLsb' 0 1 = 0#1 then .ok (.launch h (w.extractLsb' 11 5) (w.extractLsb' 6 5) (w.extractLsb' 1 5)) else .error .unused
  | 11 => if w.extractLsb' 11 5 = 0#5 then .ok (.yield h (w.extractLsb' 0 11)) else .error .unused
  | _ => .error .function

/-- Header word, major 0x3F: P, N, FN and bits [18:10] are 0 (R257, R260). -/
def decode3F (h : Hd) (w : BitVec 32) : Except Reject Instr :=
  if h.n = false ∧ h.p = 0#3 ∧ w.extractLsb' 10 11 = 0#11 then .ok (.hdr h.s (w.extractLsb' 0 10)) else .error .unused

/-- The word's instruction by its major opcode, before the checks of field values (R264). -/
def decodeFields (w : BitVec 32) : Except Reject Instr :=
  match majOf w with
  | 0 => decode00 (hdOf w) w
  | 1 => decode01 (hdOf w) w
  | 2 => decode02 (hdOf w) w
  | 3 => decode03 (hdOf w) w
  | 4 => decode04 (hdOf w) w
  | 5 => decode05 (hdOf w) w
  | 6 => decode06 (hdOf w) w
  | 7 => decode07 (hdOf w) w
  | 8 => decode08 (hdOf w) w
  | 9 => decode09 (hdOf w) w
  | 16 => decode10 (hdOf w) w
  | 17 => decode11 (hdOf w) w
  | 18 => decode12 (hdOf w) w
  | 19 => decode13 (hdOf w) w
  | 20 => decode14 (hdOf w) w
  | 21 => decode15 (hdOf w) w
  | 22 => decode16 (hdOf w) w
  | 23 => decode17 (hdOf w) w
  | 24 => decode18 (hdOf w) w
  | 25 => decode19 (hdOf w) w
  | 32 => decode20 (hdOf w) w
  | 33 => decode21 (hdOf w) w
  | 34 => decode22 (hdOf w) w
  | 35 => decode23 (hdOf w) w
  | 40 => decode28 (hdOf w) w
  | 41 => decode29 (hdOf w) w
  | 42 => decode2A (hdOf w) w
  | 43 => decode2B (hdOf w) w
  | 44 => decode2C (hdOf w) w
  | 45 => decode2D (hdOf w) w
  | 56 => decode38 (hdOf w) w
  | 63 => decode3F (hdOf w) w
  | _ => .error .major

/-- The instruction of a word: its fields, then the field values each entry allows. -/
def decodeWord (w : BitVec 32) : Except Reject Instr :=
  match decodeFields w with
  | .error r => .error r
  | .ok i => if i.wellFormed then .ok i else .error .field

/-- The instruction whose bits spec/opcode_table.json numbers from 0 in the one word it gives every row. -/
def decodeTableWord (_nbits w : Nat) : Option Instr :=
  match decodeWord (BitVec.ofNat 32 w) with
  | .ok i => some i
  | .error _ => none

/-- One bit as a field. -/
def bit (b : Bool) : BitVec 1 := BitVec.ofBool b

/-- A word from S, MAJ, N, P and its body (R250). -/
def word (h : Hd) (maj : BitVec 6) (body : BitVec 21) : BitVec 32 :=
  bit h.s ++ (maj ++ (bit h.n ++ (h.p ++ body)))

/-- The word of an instruction (R260, R264); an event has none. -/
def encode : Instr → Option (BitVec 32)
  | .add h d a b w => some (word h 0#6 (0#5 ++ (d ++ (a ++ (b ++ (bit w))))))
  | .sub h d a b w => some (word h 0#6 (1#5 ++ (d ++ (a ++ (b ++ (bit w))))))
  | .mul h d a b w => some (word h 0#6 (2#5 ++ (d ++ (a ++ (b ++ (bit w))))))
  | .mulh h d a b w => some (word h 0#6 (3#5 ++ (d ++ (a ++ (b ++ (bit w))))))
  | .div h d a b w => some (word h 0#6 (4#5 ++ (d ++ (a ++ (b ++ (bit w))))))
  | .divu h d a b w => some (word h 0#6 (5#5 ++ (d ++ (a ++ (b ++ (bit w))))))
  | .rem h d a b w => some (word h 0#6 (6#5 ++ (d ++ (a ++ (b ++ (bit w))))))
  | .remu h d a b w => some (word h 0#6 (7#5 ++ (d ++ (a ++ (b ++ (bit w))))))
  | .and h d a b w => some (word h 0#6 (8#5 ++ (d ++ (a ++ (b ++ (bit w))))))
  | .or h d a b w => some (word h 0#6 (9#5 ++ (d ++ (a ++ (b ++ (bit w))))))
  | .xor h d a b w => some (word h 0#6 (10#5 ++ (d ++ (a ++ (b ++ (bit w))))))
  | .shl h d a b w => some (word h 0#6 (11#5 ++ (d ++ (a ++ (b ++ (bit w))))))
  | .shr h d a b w => some (word h 0#6 (12#5 ++ (d ++ (a ++ (b ++ (bit w))))))
  | .sar h d a b w => some (word h 0#6 (13#5 ++ (d ++ (a ++ (b ++ (bit w))))))
  | .min h d a b w => some (word h 0#6 (14#5 ++ (d ++ (a ++ (b ++ (bit w))))))
  | .max h d a b w => some (word h 0#6 (15#5 ++ (d ++ (a ++ (b ++ (bit w))))))
  | .clz h d a w => some (word h 0#6 (16#5 ++ (d ++ (a ++ (0#5 ++ (bit w))))))
  | .popc h d a w => some (word h 0#6 (17#5 ++ (d ++ (a ++ (0#5 ++ (bit w))))))
  | .addi h d a i => some (word h 1#6 (0#3 ++ (d ++ (a ++ i))))
  | .muli h d a i => some (word h 1#6 (1#3 ++ (d ++ (a ++ i))))
  | .andi h d a i => some (word h 1#6 (2#3 ++ (d ++ (a ++ i))))
  | .ori h d a i => some (word h 1#6 (3#3 ++ (d ++ (a ++ i))))
  | .xori h d a i => some (word h 1#6 (4#3 ++ (d ++ (a ++ i))))
  | .shli h d a i => some (word h 1#6 (5#3 ++ (d ++ (a ++ (0#2 ++ i)))))
  | .shri h d a i => some (word h 1#6 (6#3 ++ (d ++ (a ++ (0#2 ++ i)))))
  | .sari h d a i => some (word h 1#6 (7#3 ++ (d ++ (a ++ (0#2 ++ i)))))
  | .li h d i => some (word h 2#6 (d ++ i))
  | .lis h d i => some (word h 3#6 (d ++ i))
  | .fadd h d a b w => some (word h 4#6 (0#5 ++ (d ++ (a ++ (b ++ (bit w))))))
  | .fsub h d a b w => some (word h 4#6 (1#5 ++ (d ++ (a ++ (b ++ (bit w))))))
  | .fmul h d a b w => some (word h 4#6 (2#5 ++ (d ++ (a ++ (b ++ (bit w))))))
  | .fma h d a b w => some (word h 4#6 (3#5 ++ (d ++ (a ++ (b ++ (bit w))))))
  | .fdiv h d a b w => some (word h 4#6 (4#5 ++ (d ++ (a ++ (b ++ (bit w))))))
  | .fsqrt h d a w => some (word h 4#6 (5#5 ++ (d ++ (a ++ (0#5 ++ (bit w))))))
  | .fmin h d a b w => some (word h 4#6 (6#5 ++ (d ++ (a ++ (b ++ (bit w))))))
  | .fmax h d a b w => some (word h 4#6 (7#5 ++ (d ++ (a ++ (b ++ (bit w))))))
  | .fcvtif h d a b w => some (word h 4#6 (8#5 ++ (d ++ (a ++ (b ++ (bit w))))))
  | .fcvtfi h d a b w => some (word h 4#6 (9#5 ++ (d ++ (a ++ (b ++ (bit w))))))
  | .fcvtw h d a w => some (word h 4#6 (10#5 ++ (d ++ (a ++ (0#5 ++ (bit w))))))
  | .fclass h d a w => some (word h 4#6 (11#5 ++ (d ++ (a ++ (0#5 ++ (bit w))))))
  | .ld h d a i => some (word h 5#6 (0#3 ++ (d ++ (a ++ i))))
  | .lw h d a i => some (word h 5#6 (1#3 ++ (d ++ (a ++ i))))
  | .lwu h d a i => some (word h 5#6 (2#3 ++ (d ++ (a ++ i))))
  | .st h d a i => some (word h 5#6 (3#3 ++ (d ++ (a ++ i))))
  | .sw h d a i => some (word h 5#6 (4#3 ++ (d ++ (a ++ i))))
  | .amoadd h o d a b w => some (word h 6#6 (0#3 ++ (o ++ (d ++ (a ++ (b ++ (bit w)))))))
  | .amoand h o d a b w => some (word h 6#6 (1#3 ++ (o ++ (d ++ (a ++ (b ++ (bit w)))))))
  | .amoor h o d a b w => some (word h 6#6 (2#3 ++ (o ++ (d ++ (a ++ (b ++ (bit w)))))))
  | .amoxor h o d a b w => some (word h 6#6 (3#3 ++ (o ++ (d ++ (a ++ (b ++ (bit w)))))))
  | .amomin h o d a b w => some (word h 6#6 (4#3 ++ (o ++ (d ++ (a ++ (b ++ (bit w)))))))
  | .amomax h o d a b w => some (word h 6#6 (5#3 ++ (o ++ (d ++ (a ++ (b ++ (bit w)))))))
  | .amoswap h o d a b w => some (word h 6#6 (6#3 ++ (o ++ (d ++ (a ++ (b ++ (bit w)))))))
  | .amocas h o d a b w => some (word h 6#6 (7#3 ++ (o ++ (d ++ (a ++ (b ++ (bit w)))))))
  | .j h i => some (word h 7#6 (0#8 ++ i))
  | .jz h a i => some (word h 7#6 (1#3 ++ (a ++ i)))
  | .jnz h a i => some (word h 7#6 (2#3 ++ (a ++ i)))
  | .jp h a i => some (word h 7#6 (3#3 ++ (a ++ i)))
  | .jany s a i => some (word ⟨s, false, 0#3⟩ 7#6 (4#3 ++ (a ++ i)))
  | .jall s a i => some (word ⟨s, false, 0#3⟩ 7#6 (5#3 ++ (a ++ i)))
  | .call h a i => some (word h 7#6 (6#3 ++ (a ++ i)))
  | .ret h a => some (word h 7#6 (7#3 ++ (a ++ 0#13)))
  | .loop h a i => some (word h 8#6 (0#8 ++ (a ++ i)))
  | .loopi h d a i => some (word h 8#6 (1#3 ++ (d ++ (a ++ i))))
  | .lbrk h => some (word h 8#6 (524288#21))
  | .peq h d a b w => some (word h 9#6 (0#5 ++ (d ++ (a ++ (b ++ (bit w))))))
  | .pne h d a b w => some (word h 9#6 (1#5 ++ (d ++ (a ++ (b ++ (bit w))))))
  | .plt h d a b w => some (word h 9#6 (2#5 ++ (d ++ (a ++ (b ++ (bit w))))))
  | .ple h d a b w => some (word h 9#6 (3#5 ++ (d ++ (a ++ (b ++ (bit w))))))
  | .pltu h d a b w => some (word h 9#6 (4#5 ++ (d ++ (a ++ (b ++ (bit w))))))
  | .pfeq h d a b w => some (word h 9#6 (5#5 ++ (d ++ (a ++ (b ++ (bit w))))))
  | .pflt h d a b w => some (word h 9#6 (6#5 ++ (d ++ (a ++ (b ++ (bit w))))))
  | .pand h d a b => some (word h 9#6 (7#5 ++ (d ++ (a ++ (b ++ 0#1)))))
  | .por h d a b => some (word h 9#6 (8#5 ++ (d ++ (a ++ (b ++ 0#1)))))
  | .pnot h d a => some (word h 9#6 (9#5 ++ (d ++ (a ++ 0#6))))
  | .vadd h d a b t k => some (word h 16#6 (0#5 ++ (d ++ (a ++ (b ++ (t ++ k))))))
  | .vsub h d a b t k => some (word h 16#6 (1#5 ++ (d ++ (a ++ (b ++ (t ++ k))))))
  | .vmul h d a b t k => some (word h 16#6 (2#5 ++ (d ++ (a ++ (b ++ (t ++ k))))))
  | .vmin h d a b t k => some (word h 16#6 (3#5 ++ (d ++ (a ++ (b ++ (t ++ k))))))
  | .vmax h d a b t k => some (word h 16#6 (4#5 ++ (d ++ (a ++ (b ++ (t ++ k))))))
  | .vand h d a b t k => some (word h 16#6 (5#5 ++ (d ++ (a ++ (b ++ (t ++ k))))))
  | .vor h d a b t k => some (word h 16#6 (6#5 ++ (d ++ (a ++ (b ++ (t ++ k))))))
  | .vxor h d a b t k => some (word h 16#6 (7#5 ++ (d ++ (a ++ (b ++ (t ++ k))))))
  | .vshl h d a b t k => some (word h 16#6 (8#5 ++ (d ++ (a ++ (b ++ (t ++ k))))))
  | .vshr h d a b t k => some (word h 16#6 (9#5 ++ (d ++ (a ++ (b ++ (t ++ k))))))
  | .vsar h d a b t k => some (word h 16#6 (10#5 ++ (d ++ (a ++ (b ++ (t ++ k))))))
  | .vceq h d a b t k => some (word h 16#6 (11#5 ++ (d ++ (a ++ (b ++ (t ++ k))))))
  | .vclt h d a b t k => some (word h 16#6 (12#5 ++ (d ++ (a ++ (b ++ (t ++ k))))))
  | .vsel h d a b t k => some (word h 16#6 (13#5 ++ (d ++ (a ++ (b ++ (t ++ k))))))
  | .vfadd h d a b t k => some (word h 17#6 (0#5 ++ (d ++ (a ++ (b ++ (t ++ k))))))
  | .vfsub h d a b t k => some (word h 17#6 (1#5 ++ (d ++ (a ++ (b ++ (t ++ k))))))
  | .vfmul h d a b t k => some (word h 17#6 (2#5 ++ (d ++ (a ++ (b ++ (t ++ k))))))
  | .vfma h d a b t k => some (word h 17#6 (3#5 ++ (d ++ (a ++ (b ++ (t ++ k))))))
  | .vfmin h d a b t k => some (word h 17#6 (4#5 ++ (d ++ (a ++ (b ++ (t ++ k))))))
  | .vfmax h d a b t k => some (word h 17#6 (5#5 ++ (d ++ (a ++ (b ++ (t ++ k))))))
  | .vfdiv h d a b t k => some (word h 17#6 (6#5 ++ (d ++ (a ++ (b ++ (t ++ k))))))
  | .vfsqrt h d a t k => some (word h 17#6 (7#5 ++ (d ++ (a ++ (0#4 ++ (t ++ k))))))
  | .vfrsq h d a t k => some (word h 17#6 (8#5 ++ (d ++ (a ++ (0#4 ++ (t ++ k))))))
  | .vfexp2 h d a t k => some (word h 17#6 (9#5 ++ (d ++ (a ++ (0#4 ++ (t ++ k))))))
  | .vflog2 h d a t k => some (word h 17#6 (10#5 ++ (d ++ (a ++ (0#4 ++ (t ++ k))))))
  | .vfceq h d a b t k => some (word h 17#6 (11#5 ++ (d ++ (a ++ (b ++ (t ++ k))))))
  | .vfclt h d a b t k => some (word h 17#6 (12#5 ++ (d ++ (a ++ (b ++ (t ++ k))))))
  | .vfcle h d a b t k => some (word h 17#6 (13#5 ++ (d ++ (a ++ (b ++ (t ++ k))))))
  | .vcvt h d a b t k => some (word h 18#6 (0#5 ++ (d ++ (a ++ (b ++ (t ++ k))))))
  | .vcvti h d a b t k => some (word h 18#6 (1#5 ++ (d ++ (a ++ (b ++ (t ++ k))))))
  | .vcvtf h d a b t k => some (word h 18#6 (2#5 ++ (d ++ (a ++ (b ++ (t ++ k))))))
  | .vqmx h d a b t k => some (word h 18#6 (3#5 ++ (d ++ (a ++ (b ++ (t ++ k))))))
  | .vdqmx h d a b t k => some (word h 18#6 (4#5 ++ (d ++ (a ++ (b ++ (t ++ k))))))
  | .vrotr h d a b t k => some (word h 19#6 (0#5 ++ (d ++ (a ++ (b ++ (t ++ k))))))
  | .vbcr h d a b t k => some (word h 19#6 (1#5 ++ (d ++ (a ++ (b ++ (t ++ k))))))
  | .vsumr h d a b t k => some (word h 19#6 (2#5 ++ (d ++ (a ++ (0#3 ++ (bit b ++ (t ++ k)))))))
  | .vmaxr h d a b t k => some (word h 19#6 (3#5 ++ (d ++ (a ++ (0#3 ++ (bit b ++ (t ++ k)))))))
  | .vscanr h d a b t k => some (word h 19#6 (4#5 ++ (d ++ (a ++ (0#3 ++ (bit b ++ (t ++ k)))))))
  | .vlrecr h d a b t k => some (word h 19#6 (5#5 ++ (d ++ (a ++ (b ++ (t ++ k))))))
  | .vrotc h d a b t k => some (word h 20#6 (0#5 ++ (d ++ (a ++ (b ++ (t ++ k))))))
  | .vbcc h d a b t k => some (word h 20#6 (1#5 ++ (d ++ (a ++ (b ++ (t ++ k))))))
  | .vsumc h d a b t k => some (word h 20#6 (2#5 ++ (d ++ (a ++ (0#3 ++ (bit b ++ (t ++ k)))))))
  | .vmaxc h d a b t k => some (word h 20#6 (3#5 ++ (d ++ (a ++ (0#3 ++ (bit b ++ (t ++ k)))))))
  | .vscanc h d a b t k => some (word h 20#6 (4#5 ++ (d ++ (a ++ (0#3 ++ (bit b ++ (t ++ k)))))))
  | .vtrn h d a t k => some (word h 20#6 (5#5 ++ (d ++ (a ++ (0#4 ++ (t ++ k))))))
  | .vmerge3 h d a b => some (word h 21#6 (0#5 ++ (d ++ (a ++ (b ++ 0#4)))))
  | .vtmask h d a b k => some (word h 21#6 (1#5 ++ (d ++ (a ++ (b ++ (0#2 ++ k))))))
  | .vsmx h d a b => some (word h 21#6 (2#5 ++ (d ++ (a ++ (b ++ 0#4)))))
  | .vld h v a i k => some (word h 22#6 (0#5 ++ (v ++ (a ++ (i ++ (k ++ 0#1))))))
  | .vst h v a i k => some (word h 22#6 (1#5 ++ (v ++ (a ++ (i ++ (k ++ 0#1))))))
  | .vldt h v a i k => some (word h 22#6 (2#5 ++ (v ++ (a ++ (i ++ (k ++ 0#1))))))
  | .vlds h v a i k => some (word h 22#6 (3#5 ++ (v ++ (a ++ (0#1 ++ (i ++ (k ++ 0#1)))))))
  | .vsts h v a i k => some (word h 22#6 (4#5 ++ (v ++ (a ++ (0#1 ++ (i ++ (k ++ 0#1)))))))
  | .vgath h v a i k => some (word h 22#6 (5#5 ++ (v ++ (a ++ (i ++ (k ++ 0#1))))))
  | .vscat h v a i k => some (word h 22#6 (6#5 ++ (v ++ (a ++ (i ++ (k ++ 0#1))))))
  | .vscatc h v a i k => some (word h 22#6 (7#5 ++ (v ++ (a ++ (i ++ (k ++ 0#1))))))
  | .vscadd h v a i k => some (word h 22#6 (8#5 ++ (v ++ (a ++ (i ++ (k ++ 0#1))))))
  | .visect h d a b => some (word h 23#6 (0#5 ++ (d ++ (a ++ (b ++ 0#4)))))
  | .vcomp h d a t k => some (word h 23#6 (1#5 ++ (d ++ (a ++ (0#4 ++ (t ++ k))))))
  | .vexpd h d a t k => some (word h 23#6 (2#5 ++ (d ++ (a ++ (0#4 ++ (t ++ k))))))
  | .vconf h d a t k => some (word h 23#6 (3#5 ++ (d ++ (a ++ (0#4 ++ (t ++ k))))))
  | .vsegs h d a b t k => some (word h 23#6 (4#5 ++ (d ++ (a ++ (b ++ (t ++ k))))))
  | .vmov h d a t k => some (word h 24#6 (0#5 ++ (d ++ (a ++ (0#4 ++ (t ++ k))))))
  | .vmovx h d a b t k => some (word h 24#6 (1#5 ++ (d ++ (a ++ (b ++ (t ++ k))))))
  | .vsplat h d i t k => some (word h 24#6 (2#5 ++ (d ++ (i ++ (t ++ k)))))
  | .vins h d a b k => some (word h 24#6 (3#5 ++ (d ++ (a ++ (b ++ (0#2 ++ k))))))
  | .vext h d a b k => some (word h 24#6 (4#5 ++ (d ++ (a ++ (b ++ (0#2 ++ k))))))
  | .vrand h d k => some (word h 24#6 (5#5 ++ (d ++ (0#10 ++ k))))
  | .kand h d a b => some (word h 25#6 (0#5 ++ (d ++ (a ++ (b ++ 0#7)))))
  | .kor h d a b => some (word h 25#6 (1#5 ++ (d ++ (a ++ (b ++ 0#7)))))
  | .kxor h d a b => some (word h 25#6 (2#5 ++ (d ++ (a ++ (b ++ 0#7)))))
  | .knot h d a => some (word h 25#6 (3#5 ++ (d ++ (a ++ 0#10))))
  | .kpop h d a => some (word h 25#6 (4#5 ++ (d ++ (a ++ 0#10))))
  | .kfirst h d a => some (word h 25#6 (5#5 ++ (d ++ (a ++ 0#10))))
  | .kset h d e => some (word h 25#6 (6#5 ++ (d ++ (0#6 ++ (e ++ 0#2)))))
  | .mma h z a b f => some (word h 32#6 (0#4 ++ (z ++ (a ++ (b ++ f)))))
  | .mmaz h z a b f => some (word h 32#6 (1#4 ++ (z ++ (a ++ (b ++ f)))))
  | .mmat h z a b f => some (word h 32#6 (2#4 ++ (z ++ (a ++ (b ++ f)))))
  | .mwin h z a b f => some (word h 32#6 (3#4 ++ (z ++ (a ++ (b ++ f)))))
  | .mmax h z a b f => some (word h 32#6 (4#4 ++ (z ++ (a ++ (b ++ f)))))
  | .mcsr h z a b f => some (word h 33#6 (0#4 ++ (z ++ (a ++ (b ++ f)))))
  | .mbsr h z a b f => some (word h 33#6 (1#4 ++ (z ++ (a ++ (b ++ f)))))
  | .m24 h z a b f => some (word h 33#6 (2#4 ++ (z ++ (a ++ (b ++ f)))))
  | .zrd h z b f => some (word h 34#6 (0#4 ++ (z ++ (0#6 ++ (b ++ f)))))
  | .zwr h z b f => some (word h 34#6 (1#4 ++ (z ++ (0#6 ++ (b ++ f)))))
  | .zclr h z => some (word h 34#6 (2#4 ++ (z ++ 0#15)))
  | .esld h z a f => some (word h 34#6 (3#4 ++ (z ++ (a ++ (0#5 ++ f)))))
  | .amode h f => some (word h 35#6 (0#16 ++ f))
  | .mshape h a b f => some (word h 35#6 (4#6 ++ (a ++ (b ++ f))))
  | .xch h x y c => some (word h 40#6 (0#5 ++ (x ++ (y ++ c))))
  | .xchc h x y v => some (word h 40#6 (1#5 ++ (x ++ (y ++ (v ++ 0#1)))))
  | .xcht h x y c => some (word h 40#6 (2#5 ++ (x ++ (y ++ c))))
  | .xrot h x => some (word h 40#6 (3#5 ++ (x ++ 0#11)))
  | .xver h x y => some (word h 40#6 (4#5 ++ (x ++ (y ++ 0#6))))
  | .xverRead h x y => some (word h 40#6 (4#5 ++ (x ++ (y ++ 1#6))))
  | .send h x c => some (word h 41#6 (0#5 ++ (x ++ (0#6 ++ c))))
  | .recv h x c => some (word h 41#6 (2#6 ++ (x ++ (0#6 ++ c))))
  | .vfpush h x c => some (word h 41#6 (4#6 ++ (x ++ (0#7 ++ c))))
  | .vfpop h x c => some (word h 41#6 (6#6 ++ (x ++ (0#7 ++ c))))
  | .vffree h x => some (word h 41#6 (4#5 ++ (x ++ 0#11)))
  | .dact h c i => some (word h 42#6 (0#3 ++ (c ++ (0#5 ++ i))))
  | .drd h c => some (word h 42#6 (1#3 ++ (c ++ 0#13)))
  | .dwr h c => some (word h 42#6 (2#3 ++ (c ++ 0#13)))
  | .dpre h c i => some (word h 42#6 (3#3 ++ (c ++ (0#9 ++ i))))
  | .dprea h c => some (word h 42#6 (4#3 ++ (c ++ 0#13)))
  | .dref h c => some (word h 42#6 (5#3 ++ (c ++ 0#13)))
  | .ssbind h x y c => some (word h 43#6 (0#5 ++ (x ++ (y ++ (0#2 ++ c)))))
  | .ssadv h y c => some (word h 43#6 (32#10 ++ (y ++ (0#1 ++ c))))
  | .ssroll h y c => some (word h 43#6 (64#10 ++ (y ++ (0#2 ++ c))))
  | .ssfork h x y c => some (word h 43#6 (3#5 ++ (x ++ (y ++ (0#2 ++ c)))))
  | .ssdrop h c => some (word h 43#6 (16384#17 ++ c))
  | .ssfind h x y c => some (word h 43#6 (5#5 ++ (x ++ (y ++ c))))
  | .gld h x y c => some (word h 44#6 (0#5 ++ (x ++ (y ++ (c ++ 0#4)))))
  | .gst h x y c => some (word h 44#6 (1#5 ++ (x ++ (y ++ (c ++ 0#4)))))
  | .gacq h x y => some (word h 44#6 (2#5 ++ (x ++ (y ++ 0#6))))
  | .grel h x y => some (word h 44#6 (3#5 ++ (x ++ (y ++ 0#6))))
  | .gamo h x y c => some (word h 44#6 (4#5 ++ (x ++ (y ++ c))))
  | .gmrg h x y c => some (word h 44#6 (10#6 ++ (x ++ (0#1 ++ (y ++ (0#2 ++ c))))))
  | .agset h x y c => some (word h 45#6 (0#5 ++ (x ++ (y ++ (0#4 ++ c)))))
  | .agen h x y c => some (word h 45#6 (1#5 ++ (x ++ (y ++ (0#4 ++ c)))))
  | .syscall h i => some (word h 56#6 (0#10 ++ i))
  | .trapi h i => some (word h 56#6 (32#10 ++ i))
  | .fence h b => some (word h 56#6 (2048#15 ++ (b ++ 0#1)))
  | .realign h => some (word h 56#6 (196608#21))
  | .waitk h a b => some (word h 56#6 (128#10 ++ (a ++ (b ++ 0#1))))
  | .halt h => some (word h 56#6 (327680#21))
  | .getc h d i => some (word h 56#6 (6#5 ++ (d ++ i)))
  | .setc h d i => some (word h 56#6 (7#5 ++ (d ++ i)))
  | .setb h d i => some (word h 56#6 (8#5 ++ (d ++ i)))
  | .clrb h d i => some (word h 56#6 (9#5 ++ (d ++ i)))
  | .launch h d a b => some (word h 56#6 (10#5 ++ (d ++ (a ++ (b ++ 0#1)))))
  | .yield h i => some (word h 56#6 (352#10 ++ i))
  | .hdr s d => some (word ⟨s, false, 0#3⟩ 63#6 (0#11 ++ d))
  | .launchRecordWrite .. => none
  | .queueDisable => none
  | .qmapWrite .. => none
  | .registerWrite .. => none
  | .dispatchDecision => none
  | .effectivePriorityRise => none
  | .placement => none
  | .rejectedRecordLeaves => none
  | .jobStart => none
  | .jobEnd => none
  | .scrubRequestEnqueue .. => none
  | .scrubComplete .. => none
  | .preemptionStop => none
  | .preemptSaveComplete => none
  | .hostContinue => none
  | .hostEnd => none
  | .jobRestart => none
  | .hostEventHeadAdvance => none
  | .waitingEventEntry => none
  | .invalidateRangeEntry .. => none
  | .invalidatePage .. => none
  | .invalidateJob => none
  | .invalidationComplete => none
  | .worldMapWrite .. => none
  | .tickRegisterWrite .. => none
  | .tickPeriodChange => none
  | .coldReset => none
  | .warmReset => none
  | .svnCommit .. => none
  | .mrExtend .. => none
  | .attestationRequest .. => none
  | .linkUp .. => none
  | .domainAlignment .. => none
  | .linkKeyAgreement .. => none
  | .sensorSample => none
  | .powerEstimate => none
  | .thermalAlarm => none
  | .moduleTrip => none
  | .holdRunEnd .. => none
  | .globalTick => none
  | .realignRelease => none
  | .domainStepBoundary => none
  | .domainStepStart => none
  | .boundaryHoldTimeout => none
  | .watchdog => none
  | .programRefreshDebtWrap => none
  | .holdRefreshDebtWrap => none
  | .guardSequenceComplete => none
  | .unownedChannelRefresh => none
  | .bankRefreshWindow => none
  | .remoteAccessPerform .. => none
  | .randomQueueRefill => none
  | .resultLanding .. => none
  | .matrixResultLanding .. => none
  | .deferredAccessPerform .. => none
  | .exchangeBeatCrossing => none
  | .xchtPairLanding => none
  | .exchangeComplete => none
  | .exchangeDeferredStart => none
  | .drdBeatArrival .. => none
  | .dwrBeatDelivery .. => none
  | .dwrWriteStatus => none
  | .burstCheckFailure .. => none
  | .burstReplay => none
  | .laneTestComplete .. => none
  | .translationWalkComplete => none
  | .gOpDeferredIssue => none
  | .releasePerform => none
  | .gOpReply .. => none
  | .remoteAcknowledge .. => none
  | .remoteNack .. => none
  | .flitAcknowledge .. => none
  | .flitReplay => none
  | .mergeContributionArrival .. => none
  | .recvRowArrival .. => none
  | .recvRowMissing => none
  | .rowVoteResult => none
  | .fenceRelease => none
  | .loopEnd => none
  | .mshapeTakeEffect => none
  | .singleStepTrap => none
  | .randkeyWrite .. => none
  | .randposWrite .. => none
  | .touchedClear .. => none
  | .touchedBitClear => none
  | .amodeWrite .. => none
  | .amodeWindowChange => none
  | .cmodeWrite .. => none
  | .pgateCreqSet => none
  | .pgateCreqClear => none
  | .pgateSreqSet => none
  | .pgateSreqClear => none
  | .crownGateComplete => none
  | .crownUngateComplete => none
  | .stackGateComplete => none
  | .stackUngateComplete => none
  | .hostFarMemoryAccess .. => none
  | .domainWindowMapWrite .. => none
  | .repairRecordCommit => none
  | .regionScrubRun => none
  | .hostSaveAreaWrite .. => none

end Sys2Proof
end

