-- ==== Sys2Proof/Config.lean ====
section
/-! DEFINITION. What the spec leaves open: values no rule states, as constants with no body (log 6, log 8, log 9). A
statement holds for every value of these. -/

namespace Sys2Proof.Config

/-- Chip cycles a placement takes beyond the waits of R30 (R32 fixes no time), by a fresh number. -/
opaque placementTime : Nat → Nat
/-- Chip cycles the save of a frozen job takes, by a fresh number; the model keeps it within the 6,000 of R245. -/
opaque saveTime : Nat → Nat
/-- Chip cycles of a translation walk (R158), by a fresh number. -/
opaque walkTime : Nat → Nat
/-- The bytes of a save area field whose content the spec names and whose layout no rule states (R237, R239): 0 a pending MSHAPE
write, 1 the Q merge state, 2 a channel record, 3 and 4 the payload and flags of an array command (R341); by the content, packed. -/
opaque saveLayout : Nat → Nat → Nat
/-- The payload bytes of an in-flight result that waits for a memory access (R147, R237), by the number of its entry. -/
opaque saveOpen : Nat → Nat
/-- Chip cycles from a warm reset to the reload of the soft-repair registers (R430 fixes no time), by a fresh number. -/
opaque bootTime : Nat → Nat
/-- Plain contents of a far block of the secure world after a host-die write into its ciphertext, and the ciphertext of one
that no key encrypts any more (R424, R436), by a fresh number. -/
opaque cipher : Nat → Nat
/-- The failing lanes that a lane test finds (R130), by channel and chip cycle. -/
opaque failingLanes : Nat → Nat → List Nat
/-- Chip cycles a range-cache reload after an invalidation takes (R159), by a fresh number. -/
opaque reloadTime : Nat → Nat
/-- The link port that carries a request to a module (R166 names no route). -/
opaque route : Nat → Nat
/-- Under a thermal or power limit, whether a chip cycle of the run is free (R35); by partition and chip cycle. -/
opaque freeCycle : Nat → Nat → Bool
/-- A sensor's reading in tenths of its unit (R439), by sensor and chip cycle. -/
opaque reading : Nat → Nat → Nat
/-- The partition whose cores dominate a sensor's region (R35), by sensor, partition and chip cycle. -/
opaque dominates : Nat → Nat → Nat → Bool
/-- The partition that owns a scratchpad bank heated by another's cores (R35), by sensor, partition and chip cycle. -/
opaque heated : Nat → Nat → Nat → Bool
/-- The module power estimate in watts (R440), by chip cycle. -/
opaque power : Nat → Nat
/-- A partition has the largest share of the power estimate (R35), by partition and chip cycle. -/
opaque largestShare : Nat → Nat → Bool
/-- What of the DIGEST contributions of a job's remote writes without an answer has counted already (R74, R181), by a fresh number. -/
opaque remoteDigest : Nat → Word
/-- A byte of the register window outside the queue maps (R423), by a fresh number and its offset. -/
opaque windowByte : Nat → Nat → Nat
/-- The port numbers that go into a link key (R437 gives no form), by port and direction. -/
opaque portNumbers : Nat → Bool → List (BitVec 8)
/-- The device secret (R433), a fuse. -/
opaque deviceSecret : List (BitVec 8)
/-- The four fused key hashes, and whether the revocation fuse of each is intact (R431). -/
opaque keyHash : Nat → BitVec 512
opaque keyIntact : Nat → Bool
/-- The debug fuse (R434). -/
opaque debugFuse : Bool
/-- Boot ROM bytes (R430). -/
opaque bootRom : List (BitVec 8)
/-- ML-DSA-65 verification of a signature (FIPS 204, R431): key, message, signature. -/
opaque mlDsaVerify : List (BitVec 8) → List (BitVec 8) → List (BitVec 8) → Bool
/-- ML-DSA-65 KeyGen: the public key of a seed (FIPS 204, R433). -/
opaque mlDsaPublic : BitVec 256 → List (BitVec 8)
/-- The seed of the base key, derived from the device secret alone (R433 gives no derivation). -/
opaque baseSeed : BitVec 256
/-- ML-DSA-65 signature by the key pair of a seed (R433, R434): seed and message. -/
opaque mlDsaSign : BitVec 256 → List (BitVec 8) → BitVec 26472
/-- The XTS key pair of a secure job (R436), generated by the root of trust; by job number. -/
opaque xtsKey : Nat → BitVec 512

end Sys2Proof.Config
end

