-- ==== Sys2Proof/Machine/Table.lean ====
section
/-! DEFINITION. Sparse tables: the register files, slots, channels and other numbered things of the machine as plain
data in one canonical form. Keys rise, and no row holds the value an unlisted key reads as. -/

namespace Sys2Proof

/-- A finite table over numbered keys; every unlisted key reads as a default that each use names. -/
structure Tbl (β : Type) where
  rows : List (Nat × β)
  deriving DecidableEq, Repr

/-- The row of a key. -/
def rowsGet {β : Type} (d : β) : List (Nat × β) → Nat → β
  | [], _ => d
  | (k, v) :: r, n => if n = k then v else rowsGet d r n

/-- Put a row in its place among rising keys. -/
def rowsInsert {β : Type} : List (Nat × β) → Nat → β → List (Nat × β)
  | [], n, x => [(n, x)]
  | (k, v) :: r, n, x =>
    if n = k then (n, x) :: r else if n < k then (n, x) :: (k, v) :: r else (k, v) :: rowsInsert r n x

/-- Put a row into a rising list, leaving out a row that holds the default. -/
def rowsPut {β : Type} [DecidableEq β] (d : β) (l : List (Nat × β)) (n : Nat) (x : β) : List (Nat × β) :=
  if x = d then l.filter fun p => p.1 != n else rowsInsert l n x

/-- Keys rise strictly above a bound and no row holds the default. -/
def rowsWf {β : Type} [DecidableEq β] (d : β) : List (Nat × β) → Bool
  | [] => true
  | [(_, v)] => decide (v ≠ d)
  | (k, v) :: (k', v') :: r => decide (v ≠ d) && decide (k < k') && rowsWf d ((k', v') :: r)

namespace Tbl

/-- The empty table. -/
def empty {β : Type} : Tbl β := ⟨[]⟩

/-- The value of a key. -/
def get {β : Type} (d : β) (t : Tbl β) (n : Nat) : β := rowsGet d t.rows n

/-- The table with one key changed. -/
def put {β : Type} [DecidableEq β] (d : β) (t : Tbl β) (n : Nat) (x : β) : Tbl β := ⟨rowsPut d t.rows n x⟩

/-- The canonical form. -/
def wf {β : Type} [DecidableEq β] (d : β) (t : Tbl β) : Bool := rowsWf d t.rows

/-- Change every listed row. -/
def mapRows {β : Type} [DecidableEq β] (d : β) (t : Tbl β) (f : Nat → β → β) : Tbl β :=
  ⟨t.rows.foldr (fun r l => rowsPut d l r.1 (f r.1 r.2)) []⟩

end Tbl

end Sys2Proof
end

