-- ==== Sys2Proof/Machine/State.lean ====
section
/-! DEFINITION. The state of the whole module as plain data, the reasons a step can stop, and the state after reset.
Every field cites the rule that names it; fields marked MODEL are the model's own (log 1). -/

namespace Sys2Proof.Machine

open Sys2Proof

/-- Why a step stops with a fault. -/
inductive Fault where
  /-- Raised by a word executed for a row context that holds no job: no such execution exists (R11, R44).
  Safe: the model stops where the hardware does nothing. -/
  | noContext
  /-- Raised by a read or write of a flat address past the last far block: the spec gives no such place (R82).
  Safe: the model stops. -/
  | noAddress
  deriving DecidableEq, Repr

/-- Why a step refuses. -/
inductive Refusal where
  /-- Raised by an arm of Dispatch that has no meaning. Safe: the model stops. -/
  | notModelled (mnemonic : String)
  deriving DecidableEq, Repr

/-! ### Core and context registers -/

/-- Registers of one core for one context kind (R44). Defaults are the reset values. -/
structure CoreCtx where
  s : Tbl Word            -- s0-s31 (R49)
  p : BitVec 8            -- p0-p7, bit n = pn (R50)
  v : Tbl Block           -- v0-v15 (R51)
  k : Tbl Mask            -- k1-k7 (R54)
  z : Tbl Tile            -- z0-z3 (R55)
  e : Tbl Scales          -- e0-e3 (R56)
  h : Tbl Quad            -- h0-h7 (R57)
  g : Tbl Quad            -- g0-g3 (R59)
  pendH : List (Nat × Quad × Nat)  -- MSHAPE writes waiting: register, value, issue number of the bundle that sees it (R58)
  flags : BitVec 5        -- FLAGS (R67)
  round : BitVec 3        -- ROUND (R68)
  randKey : BitVec 128    -- RANDKEY (R73)
  randPos : Word          -- RANDPOS (R73)
  randFill : Nat          -- rows in the random-bits queue (R145)
  acqs : List Cursor      -- MODEL: acquires whose value has not returned (R221)
  deriving DecidableEq, Repr

/-- The registers after reset (R44, R48). -/
def CoreCtx.init : CoreCtx :=
  { s := .empty, p := 1#8, v := .empty, k := .empty, z := .empty, e := .empty, h := .empty, g := .empty, pendH := [],
    flags := 0#5, round := 0#3, randKey := 0#128, randPos := 0#64, randFill := 0, acqs := [] }

/-- A clock that a due cycle counts on: the chip cycle, a row's clock (R445), a partition's domain cycles (R34). -/
inductive Clk where
  | chip | row (n : Nat) | part (n : Nat)
  deriving DecidableEq, Repr

/-- MODEL. One pending piece of work: what happens, when, for whom, and the number it names. `ord` is the order of
its entry. -/
structure Sched where
  clk : Clk
  due : Nat
  ord : Nat
  cur : Cursor
  arg : Nat
  act : Instr
  deriving DecidableEq, Repr

/-- What a row context waits for before its next bundle (R25, R21, R390, R392, R398, R393). -/
inductive CtxWait where
  | none
  | realign (off : Nat)
  | waitTick (k : Word) (off : Nat)
  | waitStep (k : Word) (off : Nat)
  | vote (all : Bool) (target : Nat) (at_ : Nat) (seen : List Bool)
  | fence (scope : Nat) (at_ : Nat) (done : List (Nat × Nat))
  | yield (n : Nat)
  | halted
  deriving DecidableEq, Repr

/-- One level of the loop stack (R184). -/
structure LoopLvl where
  count : BitVec 32
  start : Nat
  stop : Nat
  deriving DecidableEq, Repr

/-- A bundle in the skew latches: head execution cycle, address and words (R19, R239). -/
structure Latch where
  at_ : Nat
  addr : Nat
  words : List (BitVec 32)
  deriving DecidableEq, Repr

/-- Occupancy of one unit of a row context by a bundle at the head core: unit, first cycle, cycles (R15, R259). From number 8 on it is
the landing cycle at a write port of a word that its guard nullified on the head core (R47). -/
structure Occ where
  unit : Nat
  from_ : Nat
  len : Nat
  deriving DecidableEq, Repr

/-- A write that waits for its acknowledgement: the TOUCHED bit of its slice and its number (R75). -/
structure Unacked where
  slice : Nat
  id : Nat
  deriving DecidableEq, Repr

/-- A vertical register FIFO (R142, R143). Times are domain cycles of the two ends. -/
structure Fifo where
  rows : List (Row × Int)   -- oldest first, with the push cycle
  pops : List Int           -- cycles of pops a producer may not see yet
  pushes : Nat
  popped : Nat
  deriving DecidableEq, Repr

/-- An empty FIFO. -/
def Fifo.init : Fifo := { rows := [], pops := [], pushes := 0, popped := 0 }

/-- MODEL. A freeze of one context (R233 to R240): the freeze point as domain and row-clock cycles, the work due after it
with REMAIN, the bits of FSTATE, the events it will post with their places (R141), whether the save has completed, the bytes of the
save slabs as the management core keeps them (R241), the restart cycle, the FIFOs a whole-stack gate emptied, by stack (R446), the
FIFOs that the context consumes, by stack, as they were at F (R235, R414),
and CMODE and the WIN of its stacks as captured at F (R74, R235). -/
structure Frz where
  f : Int
  rowF : Nat
  items : List (Nat × Sched)
  nextOff : Nat
  state : BitVec 5
  saved : Bool
  copy : List Host.Cell
  restart : Option Int
  ev : List (Nat × BitVec 512)
  fifo : List (Nat × Fifo)
  counts : List (Nat × Fifo)
  cmode : Bool
  wins : List (Nat × BitVec 2)
  deriving DecidableEq, Repr

/-- One row context (R45 context scope). -/
structure Ctx where
  job : Nat                -- 0: the context is free
  queue : BitVec 6
  prio : BitVec 3
  priv : Bool
  world : Bool
  timed : Bool             -- STATUS.TIMED (R23)
  res : Bool               -- STATUS.RES (R66)
  rowoff : BitVec 8        -- ROWOFF (R70)
  touched : BitVec 35      -- TOUCHED (R75)
  unacked : List Unacked
  clears : List (Nat × List Nat)  -- deferred clears: slice and the writes they wait for
  sstep : Bool             -- SSTEP.EN (R76)
  retrylim : BitVec 3      -- RETRYLIM (R77)
  trapinfo : Word          -- TRAPINFO (R79)
  args : Tbl Word          -- ARG0-ARG7 (R80)
  pc : Nat                 -- word address of the next bundle (R252)
  due : Nat                -- row-clock cycle at which it issues before its DELAY (R258)
  dueDelayed : Bool        -- MODEL: the DELAY of the next bundle is already in `due`
  rowDue : Bool            -- MODEL: `due` counts in the row clock alone, as a YIELD left it (R398)
  wait : CtxWait
  loops : List LoopLvl     -- top first (R184)
  latch : List Latch
  occ : List Occ
  seq : Nat                -- MODEL: bundles issued so far
  lastIssue : Int          -- domain cycle of the last issue (R43)
  haltAt : Option Nat      -- row-clock cycle at which core 15 executes HALT (R393)
  moved : Bool             -- MODEL: the bundle at issue took a transfer (R291)
  shapes : List Nat        -- MODEL: issue numbers at which an MSHAPE takes effect (R58)
  past : Option Nat        -- issue number of the bundle whose SYSCALL or TRAPI counts as executed (R231, FSTATE[3])
  since : Nat              -- row-clock cycle of its start or latest restart (R232)
  frz : Option Frz
  deriving DecidableEq, Repr

/-- A context before any placement (R60; CTXID, ROWOFF, ARG: log 1). -/
def Ctx.init : Ctx :=
  { job := 0, queue := 0#6, prio := 0#3, priv := false, world := false, timed := false, res := false, rowoff := 0#8,
    touched := 0#35, unacked := [], clears := [], sstep := false, retrylim := 3#3, trapinfo := 0#64, args := .empty,
    pc := 0, due := 0, dueDelayed := false, rowDue := false, wait := .none, loops := [], latch := [], occ := [], seq := 0,
    lastIssue := 0, haltAt := none, moved := false, shapes := [], past := none, since := 0, frz := none }

/-! ### Storage -/

/-- Metadata of an S slot (R85); the world bit of an unwritten slot is non-secure. -/
structure SlotMeta where
  lock : Bool
  world : Bool
  version : BitVec 32
  tag : BitVec 8
  deriving DecidableEq, Repr

/-- A scrubbed slot of the non-secure world (R85, R110). -/
def SlotMeta.init : SlotMeta := { lock := false, world := false, version := 0#32, tag := 0#8 }

/-- Metadata line of a T or F block (R89), as State's tables give it. -/
structure Line where
  version : BitVec 32
  world : Bool
  deriving DecidableEq, Repr

/-- A scrubbed metadata line (R110). -/
def Line.init : Line := { version := 0#32, world := false }

/-- A side of an exchange (R82, R358): the first slot of a scratchpad range, or the place of each block as translated
(R113, R153): T or F block numbers, or modules with window offsets. -/
inductive Side where
  | s (stack blk : Nat)
  | t (blks : List Nat)
  | f (blks : List Nat)
  | d (blks : List (Nat × Nat))
  deriving DecidableEq, Repr

/-- Progress of one peel's exchange engine (R238, R81). `base` is the row-clock cycle at which beat 0 of pair 0
crosses; `rd`, `wr` count bursts issued for the SN and SF side; `dl` counts beats delivered for each side. -/
structure Peel where
  kind : Nat
  state : Nat
  ptr : Nat
  sn : Word
  sf : Word
  a : Side
  b : Side
  n : Nat
  base : Nat
  start : Nat
  rdA : Nat
  rdB : Nat
  wrA : Nat
  wrB : Nat
  dlA : Nat
  dlB : Nat
  chA : Option Nat
  chB : Option Nat
  stA : List (Nat × BitVec 512)
  stB : List (Nat × BitVec 512)
  rdAt : List (Nat × Nat × Nat)   -- side, burst, channel clock of the DRD (R95)
  expect : BitVec 32              -- expected version of XCHC (R99)
  micro : Word                    -- microword of XCHT (R361)
  pair : List (Nat × BitVec 512 × BitVec 512)  -- beats an XCHT has read of its pair (R100)
  late : Nat                      -- cycles that its deferrals add to every later crossover (R104, R105)
  ent : Option Nat                -- outstanding global access table entry (R166)
  tags : List Nat                 -- the range entries and pages its translations came from (R159)
  cur : Cursor
  deriving DecidableEq, Repr

/-- An idle peel (R81). -/
def Peel.init : Peel :=
  { kind := 0, state := 0, ptr := 0, sn := 0#64, sf := 0#64, a := .s 0 0, b := .s 0 0, n := 0, base := 0, start := 0,
    rdA := 0, rdB := 0, wrA := 0, wrB := 0, dlA := 0, dlB := 0, chA := none, chB := none, stA := [], stB := [],
    rdAt := [], expect := 0#32, micro := 0#64, pair := [], late := 0, ent := none, tags := [],
    cur := { ctx := 0, col := 0, slot := .nowhere, bundle := 0, nw := 0, timed := false, cmode := false, seq := 0 } }

/-! ### Channels -/

/-- A burst that a command has issued, until its check has come (R129): its peel and its number there, the command's word, its
bank and row, the chip cycle of the command, the stamp of the exchange it belongs to, and of its beats that have crossed the number
and the two places. -/
structure Sent where
  peel : Nat
  burst : Nat
  write : Bool
  cur : Cursor
  bank : Nat
  row : Nat
  at_ : Nat
  xch : Cursor
  moved : List (Nat × Nat × Nat)
  deriving DecidableEq, Repr

/-- A burst under replay (R129, R185). -/
structure Replay where
  sent : Sent
  lane : Nat
  count : Nat
  lim : Nat
  further : Bool
  deriving DecidableEq, Repr

/-- A guard sequence under way on a channel (R123): the banks to re-open and whether it pays a withheld refresh. -/
structure Guard where
  rows : List (Nat × Nat)
  pays : Nat          -- 0 the hold debt, 1 the program debt of a Q owner, 2 the refresh a trap withheld (R121)
  doneAt : Nat        -- chip cycle at which it completes
  deriving DecidableEq, Repr

/-- One tower or far channel (R111). Deadlines are owner domain cycles on `clk`: a counter of R176 reads 0 when its
deadline is at or below `clk`. -/
structure Chan where
  owner : Option Nat              -- row context (R160)
  job : Nat
  world : Bool
  clk : Nat                       -- owner domain cycles so far (R176)
  rows : Tbl Nat                  -- bank to open row plus 1; 0 closed (R111)
  binds : List Nat                -- bound peels, oldest first (R115)
  actRw : Tbl Nat
  actPre : Tbl Nat
  preAct : Tbl Nat
  rwPre : Tbl Nat                 -- RWPRE as DWRs loaded it
  rdPre : Tbl Nat                 -- RWPRE as DRDs loaded it (R118: subcodes 0x0B and 0x0A)
  ccdl : Tbl Nat
  ccds : Nat
  rrd : Nat
  faw : Tbl Nat
  fawPtr : Nat
  wtr : Nat
  rtw : Nat
  rfc : Nat
  lastAct : Option Nat            -- bank of the last DACT (RRD, R176)
  lastGroup : Option Nat          -- bank group of the last DRD or DWR (CCDS, R176)
  lastPre : Nat                   -- deadline of PREACT of the last bank closed (R118)
  progDebt : Int                  -- -4 to 4 (R178)
  progPhase : Nat
  holdDebt : Nat                  -- 0 to 4 (R178)
  holdPhase : Nat
  overdue : Bool                  -- the wrap of R121 is waiting for the owner's next bundle
  guard : Option Guard
  replays : List Replay           -- bursts under replay, the one in hand first (R129)
  sent : List Sent                -- bursts issued whose check can still come (R129)
  corr : List Nat                 -- corrected codewords that wait for their row to close (R128)
  cmds : List (Nat × Nat × Nat × Nat)  -- commands of the last 65,536 cycles: kind, bank, chip cycle, partition (R117, R439)
  soft : BitVec 16                -- soft-repair register (R131)
  fuses : List (BitVec 7)         -- repair records, spare 0 first (R132)
  swaps : List (BitVec 7)         -- swaps in the log not yet committed
  lastScrub : Option Int          -- domain cycle of the last region scrub run (R35)
  deriving DecidableEq, Repr

/-- A channel without owner, all banks closed (R111). -/
def Chan.init : Chan :=
  { owner := none, job := 0, world := false, clk := 0, rows := .empty, binds := [], actRw := .empty, actPre := .empty,
    preAct := .empty, rwPre := .empty, rdPre := .empty, ccdl := .empty, ccds := 0, rrd := 0, faw := .empty, fawPtr := 0, wtr := 0,
    rtw := 0, rfc := 0, lastAct := none, lastGroup := none, lastPre := 0, progDebt := 0, progPhase := 0, holdDebt := 0,
    holdPhase := 0, overdue := false, guard := none, replays := [], sent := [], corr := [], cmds := [], soft := 0#16, fuses := [], swaps := [],
    lastScrub := none }

/-! ### Stacks -/

/-- A ring slot record (R163). `gone` marks a slot that SSROLL releases once its pin and references are gone (R164). -/
structure RingSlot where
  valid : Bool
  pin : Bool
  ref : Nat
  key : BitVec 32
  gone : Bool
  deriving DecidableEq, Repr

/-- A cleared ring slot. -/
def RingSlot.init : RingSlot := { valid := false, pin := false, ref := 0, key := 0#32, gone := false }

/-- A sequence entry of a state ring table (R162). `keep` is the reference kept after a fork has cleared (R164). -/
structure Ring where
  v : Bool
  job : Nat
  world : Bool
  forked : Bool
  fseq : Nat
  fslot : Nat
  head : Nat
  nslot : Nat
  slotblk : Nat
  base : Nat
  slots : Tbl RingSlot
  keep : Option (Nat × Nat)
  deriving DecidableEq, Repr

/-- An unbound entry. -/
def Ring.init : Ring :=
  { v := false, job := 0, world := false, forked := false, fseq := 0, fslot := 0, head := 0, nslot := 0, slotblk := 0,
    base := 0, slots := .empty, keep := none }

/-- A power gate of a stack or of its crown core (R413, R446): request, gated, the chip cycle a transition ends. -/
structure Gate where
  req : Bool
  gated : Bool
  gating : Bool
  ungating : Bool
  deriving DecidableEq, Repr

/-- One stack (R6): shared modes, FIFOs, rings, array reservations, refresh owed. -/
structure Stack where
  win : BitVec 2            -- AMODE.WIN (R71)
  force : BitVec 2          -- the window length in force for array commands (R71)
  crown : Gate              -- CREQ, CGATED
  whole : Gate              -- SREQ, SGATED
  up : Fifo
  down : Fifo
  rings : Tbl Ring
  arr : List Int            -- frame-clock values reserved (R338)
  owed : Tbl Int            -- refresh windows owed (below 0: paid ahead), per bank (R38)
  fixes : List Nat          -- codewords, and past 2^40 slots whose metadata, wait for their write-back (R107)
  paidHold : Tbl Nat        -- eighths of a refresh window paid in hold ticks (R38)
  deriving DecidableEq, Repr

/-- A stack after reset: WIN = 1 (R71). -/
def Stack.init : Stack :=
  { win := 1#2, force := 1#2, crown := ⟨false, false, false, false⟩, whole := ⟨false, false, false, false⟩,
    up := .init, down := .init, rings := .empty, arr := [], owed := .empty, fixes := [],
    paidHold := .empty }

/-! ### Partitions, jobs and queues -/

/-- One timing partition (R28). Its domain cycle count is `now - lag - base` (R38). -/
structure Part where
  live : Bool              -- holds a resident, frozen or pre-empted job
  lag : Nat
  base : Int
  tick : Word              -- TICK (R172)
  step : Word              -- STEP (R173)
  holds : Word             -- hold-tick counter (R174)
  still : Bool             -- MODEL: the clock stands in the present chip cycle (R34)
  causes : List HoldCause  -- hold run in force (R35)
  fresh : List HoldCause   -- causes detected in this cycle: they hold from the next
  limits : List (HoldCause × Nat)  -- limits exceeded, each with the chip cycle since which it has stayed so at the full rate (R36)
  boundary : Option Nat    -- chip cycle at which the boundary hold began (R42)
  ready : Nat              -- first chip cycle at which the boundary hold may end (R42)
  members : List Nat       -- other modules of the partition (R41)
  origin : Int             -- domain cycle at which step 0 began (R41)
  ran : Nat                -- MODEL: chip cycle of the latest domain cycle before the present chip cycle
  arrivals : List Remote   -- step-timed accesses of the step, to perform at its boundary (R225)
  olds : List (Nat × Block × BitVec 32)  -- MODEL: slots that step-timed exchanges of a boundary under way read, as the step left them (R359)
  deriving DecidableEq, Repr

/-- An empty partition. -/
def Part.init : Part :=
  { live := false, lag := 0, base := 0, tick := 0#64, step := 0#64, holds := 0#64, still := false, causes := [], fresh := [],
    limits := [], boundary := none, ready := 0, members := [], origin := 0, ran := 0, arrivals := [], olds := [] }

/-- The course of a job. -/
inductive JobState where
  | placing | waiting | running | frozen | saving | preempted | ending
  deriving DecidableEq, Repr

/-- A record held by a launch queue (R137); `id` is the MODEL's number of the enqueue. -/
structure QEntry where
  id : Nat
  record : BitVec 2048
  status : BitVec 8
  job : Nat
  deriving DecidableEq, Repr

/-- A launch queue (R138). -/
structure LQueue where
  part : BitVec 6
  secure : Bool
  priv : Bool
  en : Bool
  ents : List QEntry
  candSince : Option Nat   -- chip cycle since which its candidate waits (R29)
  deriving DecidableEq, Repr

/-- A disabled, empty queue (R133). -/
def LQueue.init : LQueue := { part := 0#6, secure := false, priv := false, en := false, ents := [], candSince := none }

/-- The selected record (R30): its queue, its job number or 0 for the queue's oldest queued record, and the chip cycle
since which it is a candidate. -/
structure Selected where
  queue : Nat
  job : Nat
  since : Nat
  deriving DecidableEq, Repr

/-- A scrub request (R150). `ext` holds the regions of a channel that it scrubs, each from its first flat block number to the
one past its last, with the world bit it leaves there (R110; log 33). -/
structure ScrubReq where
  blk : HwBlock
  started : Bool
  ext : List (Nat × Nat × Bool)
  deriving DecidableEq, Repr

/-! ### Global access and links -/

/-- An entry of an outstanding global access table (R166), with what its reply writes. -/
structure GEnt where
  gaddr : Word
  issue : BitVec 32
  kind : BitVec 8
  beats : Nat
  done : Nat
  state : BitVec 2          -- 0 free, 1 pending, 2 complete, 3 failed
  loc : BitVec 46
  dest : Nat                -- destination register number
  vec : Bool
  port : Nat                -- link port that carries it
  secure : Bool
  acq : Bool
  stepped : Bool
  cur : Cursor
  wr : Nat                  -- number of its TOUCHED write (R75), 0 for none
  data : Nat                -- MODEL: the bytes of a load that have come
  tags : List Nat           -- the range entry or page its translation came from (R159)
  deriving DecidableEq, Repr

/-- A free entry. -/
def GEnt.init : GEnt :=
  { gaddr := 0#64, issue := 0#32, kind := 0#8, beats := 0, done := 0, state := 0#2, loc := 0#46, dest := 0, vec := false,
    port := 0, secure := false, acq := false, stepped := false,
    cur := { ctx := 0, col := 0, slot := .nowhere, bundle := 0, nw := 0, timed := false, cmode := false, seq := 0 }, wr := 0, data := 0,
    tags := [] }

/-- A flit of 256 bytes in a retry buffer (R3, R149): its sequence number, what it carries and which of its `cnt` parts, the
chip cycle from which its acknowledgement is awaited, and its replays. -/
structure Flit where
  seq : Nat
  load : Payload
  idx : Nat
  cnt : Nat
  sentAt : Nat
  replays : Nat
  deriving DecidableEq, Repr

/-- A link port (R426, R437). -/
structure Port where
  up : Bool
  failed : Bool
  peer : Nat
  out : Option (BitVec 288)      -- key and salt in force, outwards and inwards
  inn : Option (BitVec 288)
  nextOut : Option (BitVec 288)  -- keys agreed, in force from the next step boundary
  nextIn : Option (BitVec 288)
  outAt : Nat                    -- sequence number of the first flit under the outward key in force (R437)
  buf : List Flit
  held : List (Payload × Nat × Nat)  -- flits held back by a full buffer, with their part and count (R149)
  nextSeq : Nat
  deriving DecidableEq, Repr

/-- A port that is down. -/
def Port.init : Port :=
  { up := false, failed := false, peer := 0, out := none, inn := none, nextOut := none, nextIn := none, outAt := 0, buf := [],
    held := [], nextSeq := 0 }

/-- A merge de-duplication entry (R167). -/
structure Dedup where
  src : Nat
  srcPort : Nat
  base : Nat
  win : BitVec 512
  at_ : Nat
  deriving DecidableEq, Repr

/-- What an untimed operation waits for (R354, R158, R166, R220, R122). -/
inductive WaitWhat where
  | exchange (p : Peel) (peel : Nat)
  | walk (word : Instr) (vals : List Word)
  | gop (word : Instr) (vals : List Word) (module phys : Nat) (tags : List Nat)
  | release (a : Access) (writes : List Nat)
  | command (word : Instr) (ch orig due : Nat)
  | grel (word : Instr) (vals : List Word) (module phys : Nat) (tags writes : List Nat)
  deriving DecidableEq, Repr

/-- An operation waiting, named by `id` in the event that ends the wait. -/
structure Waiting where
  id : Nat
  cur : Cursor
  what : WaitWhat
  deriving DecidableEq, Repr

/-- MODEL. The frozen record of one context that has left its row (R235, R237): its registers, peels, channels and
FIFO, from which a restart restores it. -/
structure Saved where
  ctx : Nat
  record : Ctx
  cores : List (Nat × CoreCtx)
  peels : List (Nat × Peel)
  chans : List (Nat × Chan)
  fifos : List (Nat × Fifo)
  gops : List (Nat × GEnt)
  waits : List Waiting
  deriving DecidableEq, Repr

/-- A placed job (R32, R65). -/
structure Job where
  record : BitVec 2048
  queue : Nat
  state : JobState
  part : Nat
  slabs : BitVec 24576     -- the slab bitmap read at placement (R134)
  extent : Nat             -- EXTENT of the image (R276)
  digest : Word            -- DIGEST (R74)
  digestPrev : Word        -- DIGEST at the start of the chip cycle (R74)
  meas : Option (BitVec 512)  -- job measurement (R435)
  key : Bool               -- the XTS key pair exists (R436)
  order : Nat              -- order of placement (R29)
  saved : List Saved
  trapped : Bool           -- frozen by a trap: restarts only on continue (R245)
  stop : Bool              -- a pre-emption was decided (R31, R245)
  deriving DecidableEq, Repr

/-- No job. -/
def Job.init : Job :=
  { record := 0#2048, queue := 0, state := .placing, part := 0, slabs := 0#24576, extent := 0, digest := 0#64,
    digestPrev := 0#64, meas := none, key := false, order := 0, saved := [], trapped := false, stop := false }

/-- A page cache entry (R158). -/
structure PageEnt where
  job : Nat
  size : Nat
  page : Nat
  pte : Word
  used : Nat
  deriving DecidableEq, Repr

/-- An invalidation under way (R159): the operations that still hold the old translation. -/
structure Inval where
  id : Nat
  holders : List Cursor
  deriving DecidableEq, Repr

/-- A ring log (R168, R169): newest last, at most its capacity. -/
structure Log where
  ents : List (BitVec 192)
  lost : BitVec 32
  deriving DecidableEq, Repr

/-- A performance counter (R186). -/
structure Perf where
  sel : BitVec 13
  val : BitVec 48
  deriving DecidableEq, Repr

/-- MODEL. A trap met while the present cycle is checked (R234). -/
structure Found where
  cls : Nat              -- 0 at execution, 1 deferred, 2 step, 3 watchdog, 4 stop
  cur : Cursor
  cause : Nat
  sub : Nat
  slot : Slot
  past : Bool
  ord : Nat
  act : Option Sched     -- the entry that met it
  deriving DecidableEq, Repr

/-- The state of the module. -/
structure State where
  now : Nat                       -- chip cycles since cold reset (R171)
  cycleBase : Word                -- CYCLE is this plus `now` (R41, R171)
  agenda : List Sched             -- MODEL: everything pending
  cur : Cursor                    -- MODEL: who executes
  arg : Nat                       -- MODEL: the number that the event under execution names
  ord : Nat                       -- MODEL: the entry under execution
  checked : Bool                  -- MODEL: the present cycle was checked for traps (R234)
  probe : Bool                    -- MODEL: the step only looks for traps
  found : List Found              -- MODEL: traps met by the check
  nextId : Nat                    -- MODEL: numbers for entries
  mark : Nat                      -- MODEL: `nextId` at the start of the present cycle (R104)
  banks : List (Nat × Cursor)     -- MODEL: banks whose access port served in the present cycle, and for which word (R18)
  exBanks : List (Nat × Nat)      -- MODEL: banks whose exchange port served in the present cycle, and the peel it served (R104)
  svc : List Nat                  -- MODEL: banks that served a remote beat in the present cycle (R109)
  ports_ : List Nat               -- MODEL: write ports that took a result in the present cycle (R47): 8*core + port
  free : Nat                      -- MODEL: counter of free values
  ctxs : Tbl Ctx
  cores : Tbl CoreCtx             -- key 16*ctx + col
  rowLag : Tbl Nat                -- chip cycles a row's clock stood still (R445)
  frames : Tbl (List (Nat × Int)) -- MODEL: per row, the frame clock less the row's clock, from which row-clock cycle on (R337)
  cmode : Tbl Bool                -- CMODE per cluster (R72)
  stack : Tbl Stack
  mem : List Host.Cell            -- S, T and F bytes at flat addresses (R82)
  slots : Tbl SlotMeta            -- key 6144*stack + block (R85)
  lines : Tbl (BitVec 32)         -- version words of T blocks, then F blocks (R89)
  lineWorld : List (Nat × Nat)    -- the blocks whose metadata line has world bit 1, as rising ranges (R89)
  bad : Tbl Nat                   -- mask of bad symbols per 32-byte codeword of flat memory (R107, R128)
  badMeta : Tbl Nat               -- mask of bad symbols per slot's metadata (R107)
  peels : Tbl Peel                -- key 2*(16*ctx + col) + peel
  gtab : Tbl GEnt                 -- key 64*(16*ctx + col) + entry (R166)
  chans : Tbl Chan
  parts : Tbl Part
  queues : Tbl LQueue
  selected : Option Selected
  placed : Bool                   -- MODEL: the placement of the selected record is under way
  rr : Tbl Nat                    -- queue last served plus 1, per level (R29)
  jobs : Tbl Job
  nextJob : BitVec 32             -- next job number (R65)
  jobOrder : Nat
  events : List (BitVec 512)      -- host event queue, oldest first (R140)
  waitEv : List (Nat × BitVec 512)  -- events waiting in the dispatcher, each with its place in its cycle (R141)
  lateEv : List (Nat × Nat)       -- MODEL: cause cycle and place of the events that entered last, in this cycle (R141)
  logKeys : List (Nat × Nat)      -- MODEL: log and place of the entries of this cycle (R168)
  dropped : Nat                   -- notices dropped (R141)
  scrubs : List ScrubReq          -- scrub queue (R150)
  scrubWait : List ScrubReq       -- releases waiting for room (R150)
  refused : List HwBlock          -- released or reassigned blocks not yet scrubbed (R150, R165)
  ranges : Tbl (Option (Nat × List (BitVec 256)))  -- range cache per row: job and entries 0-15 (R157)
  pages : Tbl (List PageEnt)      -- page cache per row (R158)
  invals : List Inval
  waiting : List Waiting
  world : Tbl Bool                -- world map (R165)
  dedup : Tbl (List Dedup)
  ports : Tbl Port
  arrayLog : Log
  busLog : Log
  spadLog : Log
  linkLog : Log
  secLog : Log
  perf : Tbl Perf                 -- key 8*core + counter (R186)
  tickLog2 : Nat                  -- LOG2 of the tick register (R429)
  tickNow : Nat                   -- the period in force, as its logarithm
  tickBusy : Bool
  powerLimit : BitVec 13          -- R440
  qmap : Tbl Word                 -- R423
  module : BitVec 14              -- R428
  winMap : Tbl (Option (Nat × Nat × Bool))  -- domain window map (R108)
  mrs : Tbl (BitVec 512)          -- MR0-MR7 (R432)
  svn : Word                      -- fused security version (R431)
  accepted : List Word            -- versions of accepted images (R431)
  bootA : List BootImage          -- boot store, copies A and B of stages 1-4 (R431)
  bootB : List BootImage
  reloading : Bool                -- the soft-repair registers are not reloaded yet after a warm reset (R132, R430)
  bootFail : Option Nat           -- stage at which boot stopped (R431)
  identity : BitVec 256           -- identity seed (R433)
  identityPub : List (BitVec 8)   -- identity public key (R433)
  identityCert : BitVec 26472     -- the base key's signature over it (R433)
  report : Option (BitVec 32768)  -- last attestation report given (R434)
  readBack : Tbl (Option Nat)     -- last value given to each host unit: harts, then root ports, and at 69 of a save area (R241, R424)
  mailbox : Nat                   -- last status that the management mailbox or the dispatcher returned: 0 done, else failure (R27, R422)
  secBox : Nat                    -- last status that the secure mailbox returned (R422)
  fromQueue : Tbl Nat             -- the launch queue, plus 1, that each job's record came from (R423)
  flowLow : Option Nat            -- chip cycle since which the flow is below 1.0 L/min (R441)
  deriving DecidableEq, Repr

/-- The cursor of nobody. -/
def Cursor.none : Cursor :=
  { ctx := 0, col := 0, slot := .nowhere, bundle := 0, nw := 0, timed := false, cmode := false, seq := 0 }

/-- An empty log. -/
def Log.init : Log := { ents := [], lost := 0#32 }

/-- The module right after a cold reset whose boot has completed (R430): every register at its reset value, every
memory scrubbed to 0 (R81, R110), every queue disabled and empty, nothing pending. Values the spec does not give are
those of log 1. -/
def State.reset : State :=
  { now := 0, cycleBase := 0#64, agenda := [], cur := Cursor.none, arg := 0, ord := 0, checked := false, probe := false,
    found := [], nextId := 1, mark := 1, banks := [], exBanks := [], svc := [], ports_ := [], free := 0, ctxs := .empty, cores := .empty, rowLag := .empty, frames := .empty, cmode := .empty,
    stack := .empty, mem := [], slots := .empty, lines := .empty, lineWorld := [], bad := .empty, badMeta := .empty, peels := .empty,
    gtab := .empty, chans := .empty, parts := .empty, queues := .empty, selected := none, placed := false, rr := .empty,
    jobs := .empty, nextJob := 1#32, jobOrder := 0, events := [], waitEv := [], lateEv := [], logKeys := [], dropped := 0, scrubs := [],
    scrubWait := [], refused := [], ranges := .empty, pages := .empty, invals := [], waiting := [], world := .empty,
    dedup := .empty, ports := .empty, arrayLog := .init, busLog := .init, spadLog := .init, linkLog := .init,
    secLog := .init, perf := .empty, tickLog2 := 10, tickNow := 10, tickBusy := false, powerLimit := 3000#13,
    qmap := .empty, module := 0#14, winMap := .empty, mrs := .empty, svn := 0#64, accepted := [], bootA := [],
    bootB := [], reloading := false, bootFail := none, identity := 0#256, identityPub := [], identityCert := 0#26472, report := none,
    readBack := .empty, mailbox := 0, secBox := 0, fromQueue := .empty,
    flowLow := none }

end Sys2Proof.Machine
end

