-- ==== Sys2Proof/Machine/Memory.lean ====
section
/-! DEFINITION. Flat memory: the bytes of every S slot, T block and F block at one address line, as a rising list of
bytes that are not 0 (R81, R82; an unlisted byte reads as 0, log 3). -/

namespace Sys2Proof.Machine

open Sys2Proof

/-- First flat address of the T blocks: the 256 scratchpads lie below it. -/
def tBase : Nat := 256 * 25165824
/-- First flat address of the F blocks. -/
def fBase : Nat := tBase + 100663296 * 4096
/-- First address past the F blocks (R82). -/
def memEnd : Nat := fBase + 536870912 * 4096

/-- The byte at an address; an unlisted one reads as 0. -/
def memByte : List Host.Cell → Nat → BitVec 8
  | [], _ => 0#8
  | (k, v) :: r, a => if a = k then v else if a < k then 0#8 else memByte r a

/-- The cells below an address. -/
def memBelow : List Host.Cell → Nat → List Host.Cell
  | [], _ => []
  | (k, v) :: r, a => if k < a then (k, v) :: memBelow r a else []

/-- The cells from an address on. -/
def memFrom : List Host.Cell → Nat → List Host.Cell
  | [], _ => []
  | (k, v) :: r, a => if k < a then memFrom r a else (k, v) :: r

/-- The cells of n bytes of a little-endian value, those that are 0 left out. -/
def cellsOf : Nat → Nat → Nat → List Host.Cell
  | 0, _, _ => []
  | n + 1, a, x =>
    let r := cellsOf n (a + 1) (x / 256)
    if x % 256 = 0 then r else (a, BitVec.ofNat 8 x) :: r

/-- Little-endian sum of the cells of a range that begins at an address. -/
def cellsVal (a : Nat) : List Host.Cell → Nat
  | [] => 0
  | (k, v) :: r => v.toNat * 2 ^ (8 * (k - a)) + cellsVal a r

/-- The n bytes at an address as a little-endian number (R7). -/
def memRead (m : List Host.Cell) (a n : Nat) : Nat := cellsVal a (memBelow (memFrom m a) (a + n))

/-- Write n bytes of a little-endian value at an address. -/
def memWrite (m : List Host.Cell) (a n x : Nat) : List Host.Cell :=
  memBelow m a ++ cellsOf n a x ++ memFrom m (a + n)

/-- Set every byte of a range to 0; an end before the start names an empty range. -/
def memClear (m : List Host.Cell) (a b : Nat) : List Host.Cell := memBelow m a ++ memFrom m (Nat.max a b)

/-- The cells rise strictly from a bound and none is 0. -/
def memWfFrom : Nat → List Host.Cell → Bool
  | _, [] => true
  | b, (k, v) :: r => decide (b ≤ k) && decide (v ≠ 0#8) && memWfFrom (k + 1) r

/-- The canonical form of memory. -/
def Memory.wf (m : List Host.Cell) : Bool := memWfFrom 0 m

/-- Flat address of a byte of a stack's scratchpad. -/
def spadAddr (stack off : Nat) : Nat := stack * 25165824 + off

/-- Flat address of a T block (R113). -/
def tAddr (b : Nat) : Nat := tBase + b * 4096
/-- Flat address of an F block. -/
def fAddr (b : Nat) : Nat := fBase + b * 4096

/-- Flat address of the first byte of a side's block j (R92); a D side has none here. -/
def sideAddr : Side → Nat → Nat
  | .s st b, j => spadAddr st ((b + j) * 4096)
  | .t bs, j => tAddr (bs.getD j 0)
  | .f bs, j => fAddr (bs.getD j 0)
  | .d _, _ => memEnd

/-- The address word of the line that holds a flat address (R179). -/
def lineWord (module : BitVec 14) (a : Nat) : Word :=
  let m : Word := (BitVec.setWidth 64 module) <<< 48
  if a < tBase then m ||| BitVec.ofNat 64 (a / 64)
  else if a < fBase then (1#64 <<< 62) ||| m ||| BitVec.ofNat 64 ((a - tBase) / 64)
  else (2#64 <<< 62) ||| m ||| BitVec.ofNat 64 ((a - fBase) / 64)

/-- The fixed finaliser of the digest (R180). -/
def mix (z : Word) : Word :=
  let z := (z ^^^ (z >>> 30)) * 0xBF58476D1CE4E5B9#64
  let z := (z ^^^ (z >>> 27)) * 0x94D049BB133111EB#64
  z ^^^ (z >>> 31)

/-- H of an address word and a line's contents (R180). -/
def lineHash (a : Word) (x : Nat) : Word :=
  (List.range 8).foldl (fun h j => mix (h ^^^ BitVec.ofNat 64 (x / 2 ^ (64 * j)))) (mix (a + 0x9E3779B97F4A7C15#64))

/-- The digest contribution of replacing memory m by m' on the lines from the one at flat line number l, k of them
(R181). -/
def digestOf (module : BitVec 14) (m m' : List Host.Cell) : Nat → Nat → Word
  | _, 0 => 0#64
  | l, k + 1 =>
    lineHash (lineWord module (64 * l)) (memRead m' (64 * l) 64)
      - lineHash (lineWord module (64 * l)) (memRead m (64 * l) 64) + digestOf module m m' (l + 1) k

end Sys2Proof.Machine
end

