-- ==== Sys2Proof/Machine/Ops.lean ====
section
/-! DEFINITION. The named operations over the state: places and clocks, registers, memory, pending work, events and
logs, and taking a trap (R233 to R249) with the return from one (R240). -/

namespace Sys2Proof.Machine

open Sys2Proof

/-! ### Places (R5, R6, R11, R12). A row context is numbered 2*(16*die + row) + kind. -/

/-- Row 16*die + row of a context. -/
def rowOf (c : Nat) : Nat := c / 2
/-- Row number 0-15. -/
def rowNo (c : Nat) : Nat := (c / 2) % 16
/-- Die of a context: 0 brim, 1 crown. -/
def dieOf (c : Nat) : Nat := c / 32
/-- A context is a Q context. -/
def isQ (c : Nat) : Bool := c % 2 == 1
/-- The stack of a core (R6). -/
def stackOf (c col : Nat) : Nat := 16 * rowNo c + col
/-- The P context of a stack's brim row. -/
def brimP (stack : Nat) : Nat := 2 * (stack / 16)
/-- The P context of a stack's crown row. -/
def crownP (stack : Nat) : Nat := 32 + 2 * (stack / 16)
/-- The key of a core's register set for one context. -/
def coreKey (c col : Nat) : Nat := 16 * c + col
/-- Number of a core on the module, for its performance counters: 16*(16*die + row) + col. -/
def coreNo (c col : Nat) : Nat := 16 * rowOf c + col
/-- The bits [30:0] of CORE (R64). -/
def coreBits (module : BitVec 14) (c col : Nat) : BitVec 31 :=
  module ++ (BitVec.ofNat 8 (stackOf c col) ++ (BitVec.ofNat 1 (dieOf c) ++ (BitVec.ofNat 4 (rowNo c) ++ BitVec.ofNat 4 col)))

namespace State

/-- A row context. -/
def ctx (s : State) (c : Nat) : Ctx := s.ctxs.get Ctx.init c
/-- The state with one row context replaced. -/
def setCtx (s : State) (c : Nat) (x : Ctx) : State := { s with ctxs := s.ctxs.put Ctx.init c x }
/-- The state with one row context changed. -/
def modCtx (s : State) (c : Nat) (f : Ctx → Ctx) : State := s.setCtx c (f (s.ctx c))
/-- A core's registers for a context. -/
def core (s : State) (c col : Nat) : CoreCtx := s.cores.get CoreCtx.init (coreKey c col)
/-- The state with one core's registers replaced. -/
def setCore (s : State) (c col : Nat) (x : CoreCtx) : State := { s with cores := s.cores.put CoreCtx.init (coreKey c col) x }
/-- The state with one core's registers changed. -/
def modCore (s : State) (c col : Nat) (f : CoreCtx → CoreCtx) : State := s.setCore c col (f (s.core c col))
/-- A stack's shared state. -/
def stackAt (s : State) (n : Nat) : Stack := s.stack.get Stack.init n
/-- The state with one stack changed. -/
def modStack (s : State) (n : Nat) (f : Stack → Stack) : State :=
  { s with stack := s.stack.put Stack.init n (f (s.stackAt n)) }
/-- A partition. -/
def part (s : State) (n : Nat) : Part := s.parts.get Part.init n
/-- The state with one partition changed. -/
def modPart (s : State) (n : Nat) (f : Part → Part) : State := { s with parts := s.parts.put Part.init n (f (s.part n)) }
/-- A job. -/
def job (s : State) (n : Nat) : Job := s.jobs.get Job.init n
/-- The state with one job changed. -/
def modJob (s : State) (n : Nat) (f : Job → Job) : State := { s with jobs := s.jobs.put Job.init n (f (s.job n)) }
/-- A channel. -/
def chan (s : State) (n : Nat) : Chan := s.chans.get Chan.init n
/-- The state with one channel changed. -/
def modChan (s : State) (n : Nat) (f : Chan → Chan) : State := { s with chans := s.chans.put Chan.init n (f (s.chan n)) }
/-- A peel's exchange engine. -/
def peel (s : State) (n : Nat) : Peel := s.peels.get Peel.init n
/-- The state with one peel changed. -/
def modPeel (s : State) (n : Nat) (f : Peel → Peel) : State := { s with peels := s.peels.put Peel.init n (f (s.peel n)) }
/-- A launch queue. -/
def queue (s : State) (n : Nat) : LQueue := s.queues.get LQueue.init n
/-- The state with one queue changed. -/
def modQueue (s : State) (n : Nat) (f : LQueue → LQueue) : State :=
  { s with queues := s.queues.put LQueue.init n (f (s.queue n)) }
/-- A link port. -/
def port (s : State) (n : Nat) : Port := s.ports.get Port.init n
/-- The state with one link port changed. -/
def modPort (s : State) (n : Nat) (f : Port → Port) : State := { s with ports := s.ports.put Port.init n (f (s.port n)) }
/-- An entry of an outstanding global access table (R166). -/
def gent (s : State) (n : Nat) : GEnt := s.gtab.get GEnt.init n
/-- The state with one entry changed. -/
def modGent (s : State) (n : Nat) (f : GEnt → GEnt) : State := { s with gtab := s.gtab.put GEnt.init n (f (s.gent n)) }
/-- An S slot's metadata. -/
def slot (s : State) (n : Nat) : SlotMeta := s.slots.get SlotMeta.init n
/-- The state with one slot's metadata changed. -/
def modSlot (s : State) (n : Nat) (f : SlotMeta → SlotMeta) : State :=
  { s with slots := s.slots.put SlotMeta.init n (f (s.slot n)) }
/-- Take the numbers from lo on and below hi out of rising ranges. -/
def rangeCut (lo hi : Nat) (l : List (Nat × Nat)) : List (Nat × Nat) :=
  l.flatMap fun r => if r.2 ≤ lo ∨ hi ≤ r.1 then [r]
    else (if r.1 < lo then [(r.1, lo)] else []) ++ (if hi < r.2 then [(hi, r.2)] else [])
/-- Put a range that meets none of them among rising ranges; it joins a range that ends or begins where it does. -/
def rangeAdd (lo hi : Nat) : List (Nat × Nat) → List (Nat × Nat)
  | [] => [(lo, hi)]
  | (a, b) :: r =>
    if b = lo then rangeAdd a hi r else if hi = a then (lo, b) :: r else if hi < a then (lo, hi) :: (a, b) :: r
    else (a, b) :: rangeAdd lo hi r
/-- The metadata line of a T block (its number) or of an F block (100,663,296 plus its number). -/
def line (s : State) (n : Nat) : Line :=
  { version := s.lines.get 0#32 n, world := s.lineWorld.any fun r => decide (r.1 ≤ n) && decide (n < r.2) }
/-- The state with the version word of one metadata line replaced. -/
def setLineVer (s : State) (n : Nat) (v : BitVec 32) : State := { s with lines := s.lines.put 0#32 n v }
/-- The state with the world bit of the metadata lines from lo on and below hi replaced. -/
def setLineWorld (s : State) (lo hi : Nat) (w : Bool) : State :=
  let r := rangeCut lo hi s.lineWorld
  { s with lineWorld := if w && decide (lo < hi) then rangeAdd lo hi r else r }
/-- A ring table entry. -/
def ring (s : State) (st q : Nat) : Ring := (s.stackAt st).rings.get Ring.init q
/-- The state with one ring table entry changed. -/
def modRing (s : State) (st q : Nat) (f : Ring → Ring) : State :=
  s.modStack st fun k => { k with rings := k.rings.put Ring.init q (f (k.rings.get Ring.init q)) }
/-- A performance counter. -/
def perfAt (s : State) (n : Nat) : Perf := s.perf.get ⟨0#13, 0#48⟩ n
/-- The state with one performance counter replaced. -/
def setPerf (s : State) (n : Nat) (x : Perf) : State := { s with perf := s.perf.put ⟨0#13, 0#48⟩ n x }

/-- A core's performance counters gain n events of a code by a context (R186). -/
def tally (s : State) (c col code n : Nat) : State :=
  if s.perf.rows = [] then s else
    (List.range 8).foldl (fun t i =>
      let k := 8 * coreNo c col + i
      let p := t.perfAt k
      let on := p.sel.getLsbD 8 && decide ((p.sel.extractLsb' 0 8).toNat = code) &&
        (if isQ c then p.sel.getLsbD 10 else p.sel.getLsbD 9) && (!(t.ctx c).world || p.sel.getLsbD 11)
      if on then
        let v := p.val.toNat + n
        t.setPerf k { sel := if 2 ^ 48 ≤ v then p.sel ||| 4096#13 else p.sel, val := BitVec.ofNat 48 v }
      else t) s

/-! ### Clocks -/

/-- CYCLE: the chip cycle counter (R69, R171). -/
def cycle (s : State) : Word := s.cycleBase + BitVec.ofNat 64 s.now
/-- A row's clock (R445). -/
def rowClk (s : State) (r : Nat) : Nat := s.now - s.rowLag.get 0 r
/-- A partition's running count: its domain cycle count plus its base. -/
def partClk (s : State) (p : Nat) : Nat := s.now - (s.part p).lag
/-- A partition's domain cycle count (R38). -/
def dom (s : State) (p : Nat) : Int := (s.partClk p : Int) - (s.part p).base
/-- The domain cycles of a partition since its step 0 began (R41, R173). -/
def stepDom (s : State) (p : Nat) : Int := s.dom p - (s.part p).origin
/-- What a clock reads now. -/
def clkNow (s : State) : Clk → Nat
  | .chip => s.now
  | .row r => s.rowClk r
  | .part p => s.partClk p
/-- The partition of a context's job. -/
def partOf (s : State) (c : Nat) : Nat := (s.job (s.ctx c).job).part
/-- The row clock of the executing row. -/
def clk (s : State) : Nat := s.rowClk (rowOf s.cur.ctx)
/-- A stack's frame clock (R38): the domain count of the brim row's P context, else the chip cycle count. -/
def frameClk (s : State) (st : Nat) : Int :=
  if (s.ctx (brimP st)).job ≠ 0 then s.dom (s.partOf (brimP st)) else (s.cycle.toNat : Int)
/-- The frame position of a stack n cycles from now (R38, R81). -/
def frameIn (s : State) (st n : Nat) : Nat := ((s.frameClk st + (n : Int)) % 4096).toNat

/-! ### Pending work -/

/-- Enter a piece of work n cycles from now on a clock. -/
def after (s : State) (k : Clk) (n : Nat) (c : Cursor) (a : Nat) (i : Instr) : State :=
  { s with agenda := s.agenda ++ [{ clk := k, due := s.clkNow k + n, ord := s.nextId, cur := c, arg := a, act := i }],
           nextId := s.nextId + 1 }
/-- Enter work for the executing core n row-clock cycles from its execution cycle. -/
def afterMe (s : State) (n a : Nat) (i : Instr) : State := s.after (.row (rowOf s.cur.ctx)) n s.cur a i
/-- Put the entry under execution back, n cycles on, in its old place among the entries. -/
def repost (s : State) (k : Clk) (n : Nat) (a : Nat) (i : Instr) : State :=
  { s with agenda := s.agenda ++ [{ clk := k, due := s.clkNow k + n, ord := s.ord, cur := s.cur, arg := a, act := i }] }
/-- Put the entry under execution back on the executing row's clock. -/
def repostMe (s : State) (n a : Nat) (i : Instr) : State := s.repost (.row (rowOf s.cur.ctx)) n a i
/-- A result of the executing word lands n cycles after execution, through the port of its slot (R47, R147). -/
def landId (s : State) (id n : Nat) (ws : List RegWrite) (fl : BitVec 5) : State :=
  s.afterMe n 0 (.resultLanding
    { id := id, port := s.cur.slot.port, writes := ws, flags := fl, delay := 0, reply := false, fifo := false })
/-- A result that needs no name. -/
def land (s : State) (n : Nat) (ws : List RegWrite) (fl : BitVec 5) : State := s.landId 0 n ws fl
/-- The next number for an entry. -/
def freshId (s : State) : Nat := s.nextId
/-- Take a number. -/
def bump (s : State) : State := { s with nextId := s.nextId + 1 }
/-- A fresh free value's number, and the state that has used it. -/
def takeFree (s : State) : Nat × State := (s.free, { s with free := s.free + 1 })
/-- Change the landing entries of one name. -/
def modFlight (s : State) (id : Nat) (f : Sched → Flight → Sched) : State :=
  { s with agenda := s.agenda.map fun e => match e.act with
      | .resultLanding x => if id ≠ 0 ∧ x.id = id then f e x else e
      | _ => e }
/-- Change the array commands of one name. -/
def modMat (s : State) (id : Nat) (f : Sched → MatCmd → Sched) : State :=
  { s with agenda := s.agenda.map fun e => match e.act with
      | .matrixResultLanding x => if id ≠ 0 ∧ x.id = id then f e x else e
      | _ => e }
/-- Remove the landing entries and array commands of one name. -/
def dropFlight (s : State) (id : Nat) : State :=
  { s with agenda := s.agenda.filter fun e => match e.act with
      | .resultLanding x => !(decide (id ≠ 0) && x.id == id)
      | .matrixResultLanding x => !(decide (id ≠ 0) && x.id == id)
      | _ => true }

/-! ### Register reads of the executing core (R46, R49, R50, R54) -/

/-- The executing core's registers. -/
def me (s : State) : CoreCtx := s.core s.cur.ctx s.cur.col
/-- Scalar n; s0 reads as 0. -/
def rs (s : State) (n : BitVec 5) : Word := if n = 0#5 then 0#64 else s.me.s.get 0#64 n.toNat
/-- Predicate n; p0 reads as 1. -/
def rp (s : State) (n : Nat) : Bool := n == 0 || s.me.p.getLsbD n
/-- Vector register n. -/
def rv (s : State) (n : Nat) : Block := s.me.v.get 0#32768 n
/-- Mask register n; k0 reads as all ones. -/
def rk (s : State) (n : Nat) : Mask := if n = 0 then BitVec.allOnes 1024 else s.me.k.get 0#1024 n
/-- Accumulator n. -/
def rz (s : State) (n : Nat) : Tile := s.me.z.get 0#65536 n
/-- Scale register n. -/
def re (s : State) (n : Nat) : Scales := s.me.e.get 0#2048 n
/-- Shape register n as the executing bundle sees it: the last pending write whose bundle has come, else the register
(R58). -/
def rh (s : State) (n : Nat) : Quad :=
  match (s.me.pendH.filter fun x => decide (x.1 = n) && decide (x.2.2 ≤ s.cur.seq)).getLast? with
  | some x => x.2.1
  | none => s.me.h.get 0#128 n
/-- Address generator n. -/
def rg (s : State) (n : Nat) : Quad := s.me.g.get 0#128 n
/-- The context under execution. -/
def myCtx (s : State) : Ctx := s.ctx s.cur.ctx
/-- The stack of the executing core. -/
def myStack (s : State) : Nat := stackOf s.cur.ctx s.cur.col
/-- The executing context obeys the timetable: a P context whose bundle carries TIMED = 1 (R16, R23). -/
def timed (s : State) : Bool := s.cur.timed && !(isQ s.cur.ctx)
/-- The guard of a word (R251). -/
def guard (s : State) (h : Hd) : Bool := s.rp h.p.toNat != h.n

/-! ### Register writes -/

/-- Make one register update of a core (R49, R50, R54, R295); the writes s0, p0 and k0 discard. -/
def CoreCtx.write (k : CoreCtx) : RegWrite → CoreCtx
  | .s n x => if n = 0 then k else { k with s := k.s.put 0#64 n x }
  | .p n b => if n = 0 then k else { k with p := (k.p &&& ~~~(1#8 <<< n)) ||| (if b then 1#8 <<< n else 0#8) }
  | .v n m x => { k with v := k.v.put 0#32768 n ((k.v.get 0#32768 n &&& ~~~m) ||| (x &&& m)) }
  | .k n m x => if n = 0 then k else { k with k := k.k.put 0#1024 n ((k.k.get 0#1024 n &&& ~~~m) ||| (x &&& m)) }
  | .z n x m => { k with z := k.z.put 0#65536 n ((k.z.get 0#65536 n &&& ~~~m) ||| (x &&& m)) }
  | .e n m x => { k with e := k.e.put 0#2048 n ((k.e.get 0#2048 n &&& ~~~m) ||| (x &&& m)) }
  | .g n x => { k with g := k.g.put 0#128 n x }
  | .ctl _ _ _ => k

/-! ### Memory -/

/-- The bytes of a flat range as a number. -/
def load (s : State) (a n : Nat) : Nat := memRead s.mem a n
/-- One byte of flat memory. -/
def byte (s : State) (a : Nat) : BitVec 8 := memByte s.mem a
/-- How many symbols a mask of bad symbols names. -/
def badCount (m : Nat) : Nat := ((List.range 40).filter fun i => m.testBit i).length
/-- The bad codewords that a read of a flat range meets, each with its mask of bad symbols (R107, R128). -/
def badRows (s : State) (a n : Nat) : List (Nat × Nat) :=
  s.bad.rows.filter fun r => decide (a / 32 ≤ r.1) && decide (r.1 ≤ (a + n - 1) / 32) && decide (n ≠ 0)
/-- A read meets an uncorrectable codeword: two or more bad symbols (R107). -/
def uncorrectable (s : State) (a n : Nat) : Bool := (s.badRows a n).any fun r => decide (2 ≤ badCount r.2)
/-- A write of a range renews the check bits of a codeword: one that it covers whole, or one whose other bytes can be
corrected (R81, R107). -/
def renews (a n : Nat) (r : Nat × Nat) : Bool :=
  (decide (a ≤ 32 * r.1) && decide (32 * r.1 + 32 ≤ a + n)) ||
    (decide (a < 32 * r.1 + 32) && decide (32 * r.1 < a + n) && decide (badCount r.2 < 2))
/-- Store bytes; the codewords written get fresh check bits (R81). -/
def store (s : State) (a n x : Nat) : State :=
  { s with mem := memWrite s.mem a n x, bad := ⟨s.bad.rows.filter fun r => !(renews a n r)⟩ }
/-- Store bytes on behalf of a job: its DIGEST gains the contribution of each line touched (R181). -/
def storeFor (s : State) (j a n x : Nat) : State :=
  let t := s.store a n x
  if j = 0 ∨ n = 0 then t else
    let l := a / 64
    let d := digestOf s.module s.mem t.mem l ((a + n - 1) / 64 - l + 1)
    t.modJob j fun b => { b with digest := b.digest + d }

/-! ### Logs and host events -/

/-- The place of an event or log entry with a reporting core among those of its chip cycle (R141): stack, die, P or Q, kind. -/
def corePlace (c col kind : Nat) : Nat := ((stackOf c col * 2 + dieOf c) * 2 + c % 2) * 256 + kind
/-- The place of an event with no reporting core: after those with one, by kind, then by a number of its kind (R141). -/
def unitPlace (kind sub : Nat) : Nat := 2 ^ 60 + kind * 2 ^ 50 + sub
/-- The cause's chip cycle of an event (R140). -/
def evCycle (e : BitVec 512) : Nat := (e.extractLsb' 192 64).toNat
/-- A notice, which a full queue drops: kind 0x04 or 0x06 (R141). -/
def evNotice (e : BitVec 512) : Bool := e.extractLsb' 0 8 == 4#8 || e.extractLsb' 0 8 == 6#8
/-- How many of the last places come after one. -/
def laterPlaces (l : List Nat) (k : Nat) : Nat := (l.reverse.takeWhile fun x => decide (k < x)).length
/-- A host event's words (R140). -/
def mkEvent (kind cause sub stat job : Nat) (info : Word) (wher : BitVec 31) (cyc tag : Word) (d5 d6 d7 : Word) :
    BitVec 512 :=
  d7 ++ (d6 ++ (d5 ++ (tag ++ (cyc ++ (BitVec.setWidth 64 wher ++ (info ++
    (BitVec.ofNat 32 job ++ (BitVec.ofNat 8 stat ++ (BitVec.ofNat 8 sub ++ (BitVec.ofNat 8 cause ++ BitVec.ofNat 8 kind))))))))))
/-- The event of lost notices enters as soon as an entry is free, ahead of all that wait (R140, R141). -/
def postLoss (s : State) : State :=
  if s.dropped ≠ 0 ∧ s.events.length < 4096 then
    { s with events := s.events ++ [mkEvent 7 0 0 0 0 0#64 0#31 s.cycle 0#64 (BitVec.ofNat 64 s.dropped) 0#64 0#64], dropped := 0,
             lateEv := [] }
  else s
/-- The cause cycles and places of events that are still to come: those of contexts whose save runs, of a stop that was decided and has
not taken effect, and of a step or a watchdog that shows in the next domain cycle (R43, R141, R234, R235, R244). A stop that is still
to take effect stands before every other event of its cycle. -/
def comingEvents (s : State) : List (Nat × Nat) :=
  let at_ := fun (n : Nat) => (s.cycleBase + BitVec.ofNat 64 n).toNat
  (s.ctxs.rows.flatMap fun r => match r.2.frz with
    | some f => f.ev.map fun x => (evCycle x.2, x.1)
    | none =>
      let p := (s.job r.2.job).part
      let x := s.part p
      if r.2.job ≠ 0 ∧ (s.job r.2.job).state = .running ∧ (s.now : Int) - x.lag - x.base - r.2.lastIssue = 16777216 then
        [(at_ (if x.still then x.ran else s.now), corePlace r.1 0 1)] else []) ++
  s.agenda.flatMap fun e => match e.act with
    | .preemptionStop => [(at_ (e.due - 16), 0)]
    | .singleStepTrap => [(at_ e.arg, corePlace e.cur.ctx e.cur.col 1)]
    | _ => []
/-- An event of an earlier cause, or of the same cycle and an earlier place, is still to come (R141). -/
def evBlocked (s : State) (k : Nat) (e : BitVec 512) : Bool := s.comingEvents.any fun x =>
  decide (x.1 < evCycle e) || (decide (x.1 = evCycle e) && decide (x.2 < k))
/-- An event enters the host queue, ahead of those of its own cycle whose place is later (R141). -/
def enterEvent (s : State) (k : Nat) (e : BitVec 512) : State :=
  let mine := (s.lateEv.reverse.takeWhile fun x => x.1 == evCycle e).reverse
  let n := laterPlaces (mine.map Prod.snd) k
  let m := s.events.length - n
  let j := s.lateEv.length - n
  { s with events := s.events.take m ++ e :: s.events.drop m, lateEv := s.lateEv.take j ++ (evCycle e, k) :: s.lateEv.drop j }
/-- The waiting events enter in their order as far as the queue has room and no earlier one is still to come; a notice that
finds the queue full is dropped and counted (R141). -/
def drainEvents : Nat → State → State
  | 0, s => s
  | n + 1, s0 =>
    let s := s0.postLoss
    match s.waitEv with
    | [] => s
    | (k, e) :: r =>
      if s.evBlocked k e then s
      else if s.events.length < 4096 then drainEvents n (enterEvent { s with waitEv := r } k e)
      else if evNotice e then drainEvents n { s with waitEv := r, dropped := s.dropped + 1 } else s
/-- The waiting events that can enter do. -/
def settleEvents (s : State) : State := drainEvents (s.waitEv.length + 1) s
/-- Insert an event among the waiting ones, by its cause's chip cycle and its place (R141). -/
def waitInsert (k : Nat) (e : BitVec 512) : List (Nat × BitVec 512) → List (Nat × BitVec 512)
  | [] => [(k, e)]
  | x :: r =>
    if evCycle e < evCycle x.2 ∨ (evCycle e = evCycle x.2 ∧ k < x.1) then (k, e) :: x :: r else x :: waitInsert k e r
/-- Post a host event with its place among those of its cycle (R141). -/
def post (s : State) (k : Nat) (e : BitVec 512) : State :=
  if 4096 ≤ s.events.length ∧ evNotice e then { s with dropped := s.dropped + 1 }
  else settleEvents { s with waitEv := waitInsert k e s.waitEv }
/-- Add an entry to a ring log of a capacity, ahead of its last n entries (R168). -/
def Log.add (l : Log) (cap n : Nat) (e : BitVec 192) : Log :=
  let m := l.ents.length - n
  let es := l.ents.take m ++ e :: l.ents.drop m
  if l.ents.length < cap then { l with ents := es } else { ents := es.drop 1, lost := l.lost + 1#32 }
/-- The places of the present cycle's entries of a log. -/
def logPlaces (s : State) (w : Nat) : List Nat := (s.logKeys.filter fun x => x.1 == w).map Prod.snd
/-- An entry of a place joins the present cycle's entries of a log. -/
def notePlace (s : State) (w k : Nat) : List (Nat × Nat) :=
  let l := s.logPlaces w
  let j := l.length - laterPlaces l k
  s.logKeys.filter (fun x => x.1 != w) ++ (l.take j ++ k :: l.drop j).map fun x => (w, x)
/-- A log entry from its word 0 (R168). -/
def logEntry (s : State) (w0 : Word) (job : Nat) : BitVec 192 := BitVec.ofNat 64 (job % 2 ^ 32) ++ (s.cycle ++ w0)
/-- The notice of a log entry of a place (R168): kind 0x06, with no reporting core. -/
def logNotice (s : State) (k : Nat) (e : BitVec 192) (job : Nat) : State :=
  s.post (unitPlace 6 k) (mkEvent 6 0 0 0 job 0#64 0#31 s.cycle ((s.job job).record.extractLsb' 704 64) (e.extractLsb' 0 64)
    (e.extractLsb' 64 64) (e.extractLsb' 128 64))
/-- The place of a log entry that names a stack; a memory's stack stands for the core (log 90). -/
def stackPlace (stack : Nat) : Nat := stack * 1024
/-- The place of a log entry that names a channel: the first stack of its owner's row, or behind all stacks (log 90). -/
def chanPlace (s : State) (ch : Nat) : Nat := match (s.chan ch).owner with
  | some c => corePlace c 0 0
  | none => 2 ^ 40 + ch
/-- Log a corrected or uncorrectable scratchpad codeword or metadata of a stack (R107, R168). -/
def logSpad (s : State) (stack : Nat) (w0 : Word) (job : Nat) : State :=
  let e := s.logEntry w0 job
  let k := stackPlace stack
  ({ s with spadLog := Log.add s.spadLog 1024 (laterPlaces (s.logPlaces 2) k) e, logKeys := s.notePlace 2 k }).logNotice k e job
/-- Log on the vertical bus of a channel (R129). -/
def logBus (s : State) (ch : Nat) (w0 : Word) (job : Nat) : State :=
  let e := s.logEntry w0 job
  let k := s.chanPlace ch
  ({ s with busLog := Log.add s.busLog 1024 (laterPlaces (s.logPlaces 1) k) e, logKeys := s.notePlace 1 k }).logNotice k e job
/-- Log an array error of a channel (R128). -/
def logArray (s : State) (ch : Nat) (w0 : Word) (job : Nat) : State :=
  let e := s.logEntry w0 job
  let k := s.chanPlace ch
  ({ s with arrayLog := Log.add s.arrayLog 1024 (laterPlaces (s.logPlaces 0) k) e, logKeys := s.notePlace 0 k }).logNotice k e job
/-- Log an event of a link port (R149, R168). A link serves no job: job number 0 (log 91). -/
def logLink (s : State) (port : Nat) (w0 : Word) : State :=
  let e := s.logEntry w0 0
  let k := 2 ^ 41 + port
  ({ s with linkLog := Log.add s.linkLog 1024 (laterPlaces (s.logPlaces 3) k) e, logKeys := s.notePlace 3 k }).logNotice k e 0
/-- Enter a world violation into the secure log (R169): STACK, DIE, COL and KIND of the offender, cycle, job. The bits of word
0 are the model's: STACK [13:6], DIE [5], COL [4:1], KIND [0] (log 92). -/
def logSecure (s : State) (c col job : Nat) : State :=
  let w0 : Word := BitVec.ofNat 64 (stackOf c col * 2 ^ 6 + dieOf c * 2 ^ 5 + col * 2 + c % 2)
  let k := corePlace c col 0
  { s with secLog := Log.add s.secLog 256 (laterPlaces (s.logPlaces 4) k) (s.logEntry w0 job), logKeys := s.notePlace 4 k }

end State

/-! ### Traps -/

/-- A trap a word meets: its cause (R231), its subcode (R232, R118), and whether a continue goes past the word. -/
structure Trap where
  cause : Nat
  sub : Nat
  past : Bool
  deriving DecidableEq, Repr

/-- A trap whose bundle is retried. -/
def Trap.of (cause sub : Nat) : Trap := { cause := cause, sub := sub, past := false }
/-- Illegal encoding. -/
def Trap.illegal : Trap := .of 1 0
/-- Privileged operation. -/
def Trap.privileged : Trap := .of 2 0
/-- Schedule fault of a subcode (R232). -/
def Trap.sched (sub : Nat) : Trap := .of 3 sub
/-- Memory timing fault of a subcode (R118). -/
def Trap.timing (sub : Nat) : Trap := .of 4 sub
/-- Translation fault. -/
def Trap.translation : Trap := .of 5 0
/-- World violation. -/
def Trap.world : Trap := .of 6 0
/-- Ring fault. -/
def Trap.ringFault : Trap := .of 9 0
/-- Channel not owned. -/
def Trap.channel : Trap := .of 10 0

/-- TRAPINFO of a trap (R79, R249: a world violation shows CAUSE 0xFF and nothing else). -/
def trapInfo (bundle : Nat) (slot : Slot) (die col sub cause : Nat) : Word :=
  if cause = 6 then 0xFF#64 else
    BitVec.ofNat 40 bundle ++ (BitVec.ofNat 3 slot.code ++ (BitVec.ofNat 1 die ++ (BitVec.ofNat 4 col ++
      (BitVec.ofNat 8 sub ++ BitVec.ofNat 8 cause))))

/-- A 64-bit word of a launch record. -/
def recWord (r : BitVec 2048) (byte : Nat) : Word := r.extractLsb' (8 * byte) 64
/-- IMAGE. -/
def recImage (r : BitVec 2048) : Nat := (recWord r 0x08).toNat

namespace State

/-- Work of a context that a freeze does not stop: DRAM beats already issued (R102, R236) and work on the chip clock. -/
def runsOn (e : Sched) : Bool := match e.act with
  | .drdBeatArrival .. | .dwrBeatDelivery .. | .dwrWriteStatus | .burstCheckFailure .. => true
  | _ => e.clk == .chip

/-- A row's clock stands in the present cycle: its P context's partition holds, or without one the partition of the Q context that
is alone in the row (R34, R445; log 93). -/
def rowStill (s : State) (r : Nat) : Bool :=
  if (s.ctx (2 * r)).job ≠ 0 then (s.part (s.partOf (2 * r))).still
  else decide ((s.ctx (2 * r + 1)).job ≠ 0) && (s.part (s.partOf (2 * r + 1))).still

/-- The word at a word address of a job's image, or none at or beyond its extent (R252, R276). -/
def imageWord (s : State) (j pc : Nat) : Option (BitVec 32) :=
  if (s.job j).extent ≤ 4 * pc then none
  else some (BitVec.ofNat 32 (s.load (fBase + recImage (s.job j).record + 4 * pc) 4))

/-- DELAY of a word that is a header (R258). -/
def delayOf (w : BitVec 32) : Nat := match decodeWord w with
  | .ok (.hdr _ d) => d.toNat
  | _ => 0

/-- DELAY of the bundle at a word address. -/
def delayAt (s : State) (j pc : Nat) : Nat := match s.imageWord j pc with
  | some w => delayOf w
  | none => 0

/-- The tick period in force. -/
def tickPeriod (s : State) : Nat := 2 ^ s.tickNow
/-- The row-clock cycle at which the end of a context's REALIGN or WAITK comes, once its tick or step has begun. -/
def releaseAt (s : State) (c : Nat) : Option Nat :=
  (s.agenda.find? fun e => e.act == .realignRelease && e.arg == c).map fun e => s.rowClk (rowOf c) + (e.due - s.clkNow e.clk)

/-- Cycles from F to the issue of a context's next bundle, its DELAY included, at least 1 (R239); F is bp domain and br row-clock
cycles ago. Where a vote, a FENCE or a YIELD leaves that issue open at F it reads 1 (log 32). -/
def nextOffOf (s : State) (c bp br : Nat) : Nat :=
  let x := s.ctx c
  let p := s.part (s.partOf c)
  let delay := if x.dueDelayed then 0 else s.delayAt x.job x.pc
  let f : Int := s.dom (s.partOf c) - (bp : Int)
  let next := fun (n : Nat) => ((n : Int) - f % (n : Int)).toNat
  match (if x.wait = .none then none else s.releaseAt c), x.wait with
  | some t, _ => Nat.max 1 (t + delay - (s.rowClk (rowOf c) - br))
  | _, .none => Nat.max 1 (x.due + delay - (s.rowClk (rowOf c) - br))
  | _, .realign off => next s.tickPeriod + off + delay
  | _, .waitTick k off => next s.tickPeriod + (k.toNat - (p.tick.toNat + 1)) * s.tickPeriod + off + delay
  | _, .waitStep k off => ((65536 : Int) - (f - p.origin) % 65536).toNat + (k.toNat - (p.step.toNat + 1)) * 65536 + off + delay
  | _, _ => 1

/-- The freeze of one context at its last cycle or `back` cycles ago (R233, R235): what is due after F leaves the
agenda with its REMAIN, and frees the array cycles it holds; a refill of the random-bits queue after F is none (R146); issued
DRAM beats go on in real time. In a hold tick the last cycle is the one before the hold. -/
def freezeCtx (s : State) (c back : Nat) (fstate : BitVec 5) : State :=
  let x := s.ctx c
  if x.job = 0 ∨ x.frz.isSome then s else
    let p := s.partOf c
    let bp := if (s.part p).still then 0 else back
    let br := if s.rowStill (rowOf c) then 0 else back
    let own := fun (e : Sched) => e.cur.ctx == c && e.cur != Cursor.none
    let mine := s.agenda.filter fun e => own e && !(runsOn e) && e.act != .singleStepTrap && e.act != .randomQueueRefill
    let items := mine.map fun e => (e.due - (s.clkNow e.clk - (match e.clk with | .row _ => br | _ => bp)), e)
    let rest := s.agenda.filter fun e => !(own e && (!(runsOn e) || e.act == .randomQueueRefill))
    let rest := rest.map fun e =>
      if own e && e.clk != .chip then { e with clk := .chip, due := s.now + (e.due - s.clkNow e.clk) } else e
    let f : Frz := { f := s.dom p - (bp : Int), rowF := s.rowClk (rowOf c) - br, items := items,
                     nextOff := s.nextOffOf c bp br, state := fstate, saved := false,
                     copy := [], restart := none, ev := [], fifo := [],
                     counts := if isQ c then [] else (List.range 16).map fun col =>
                       (stackOf c col, if dieOf c = 0 then (s.stackAt (stackOf c col)).down else (s.stackAt (stackOf c col)).up),
                     cmode := s.cmode.get false (rowNo c),
                     wins := if c < 32 ∧ !(isQ c) then
                       (List.range 16).map fun col => (stackOf c col, (s.stackAt (stackOf c col)).win) else [] }
    let free := mine.foldl (fun t e => match e.act with
      | .matrixResultLanding m => t.modStack (stackOf c e.cur.col) fun k =>
        { k with arr := k.arr.filter fun v => !(m.vals.contains v) }
      | _ => t) s
    -- the owner's channels take back the cycle after F: it counts for their other debt (R176, R178)
    let mineCh := fun (n : Nat) => (s.chan n).owner == some c
    let rest := if bp = 0 then rest else rest.filter fun e => !(e.act == .programRefreshDebtWrap && mineCh e.arg && decide (e.due ≤ s.now))
    let t : State := { free with agenda := rest }
    let t1 := if bp = 0 then t else (t.chans.rows.filter fun r => mineCh r.1).foldl (fun t r =>
      let ph := (r.2.holdPhase + 1) % 14040
      let u := t.modChan r.1 fun x => { x with clk := x.clk - bp, progPhase := (x.progPhase + 14040 - bp) % 14040, holdPhase := ph }
      if ph = 0 then u.after .chip 0 Cursor.none r.1 .holdRefreshDebtWrap else u) t
    t1.setCtx c { x with frz := some f }

/-- The resident contexts of a job, ascending brim before crown, row, P before Q (R234). -/
def ctxsOf (s : State) (j : Nat) : List Nat := (List.range 64).filter fun c => decide (j ≠ 0) && (s.ctx c).job == j

/-- The number of an event that names one context instead of a job. -/
def ofCtx (c : Nat) : Nat := 2 ^ 40 + c

/-- The restarts under way of some contexts are called off. -/
def dropRestart (s : State) (cs : List Nat) : State :=
  cs.foldl (fun t c => t.modCtx c fun x => { x with frz := x.frz.map fun f => { f with restart := none } })
    { s with agenda := s.agenda.filter fun e => !(e.act == .jobRestart && cs.any fun c => e.arg == ofCtx c) }

/-- A SYSCALL or TRAPI of a context counts as executed and its bundle has not issued again (R231). -/
def pastPending (x : Ctx) : Bool := x.past.any fun n => decide (x.seq < n)

/-- Freeze every context of a job as companions of one; they take its bits that tell a trap or a stop, and each shows whether a
word of its next bundle counts as executed (R233, R239, R420; log 34). -/
def freezeJob (s : State) (j back : Nat) (first : Nat) (bits : BitVec 5) : State :=
  (s.ctxsOf j).foldl (fun t c =>
    t.freezeCtx c back ((if c = first then bits else (bits &&& 3#5) ||| 16#5) ||| (if pastPending (t.ctx c) then 8#5 else 0#5)))
    (s.dropRestart (s.ctxsOf j))

/-- The refresh that the trap of R121 withholds: a wrap of the trapping cycle itself stays counted in the phase, and the guard
pays it in the freeze (R121). -/
def keepOverdue (s : State) (c : Nat) (t : State) : State :=
  (s.agenda.filter fun e => e.act == .programRefreshDebtWrap && decide (e.due ≤ s.now) && (s.chan e.arg).owner == some c &&
    decide ((s.chan e.arg).progDebt = 4)).foldl (fun t e => t.modChan e.arg fun x => { x with overdue := true, progPhase := 0 }) t

/-- The save of a frozen job runs for a time the spec leaves open within 6,000 chip cycles of F (R245); no shorter than
the bursts and records under way at F. -/
def startSave (s : State) (j : Nat) : State :=
  let (n, t) := s.takeFree
  t.after .chip (512 + Config.saveTime n % 4096) Cursor.none j .preemptSaveComplete

/-- USERTAG of a record (R134). -/
def recTagOf (r : BitVec 2048) : Word := r.extractLsb' 704 64

/-- Take a trap: freeze the job, write TRAPINFO of the trapping context, log a world violation, and start the save after
which the event is posted (R233, R234, R235, R249). `back` is 1 for a trap at F = t - 1. -/
def freezeTrap (s : State) (cur : Cursor) (t : Trap) (slot : Slot) (back : Nat) (at_ : Word) : State :=
  let c := cur.ctx
  let j := (s.ctx c).job
  if j = 0 ∨ (s.ctx c).frz.isSome then s else
    let info := trapInfo cur.bundle slot (dieOf c) cur.col t.sub t.cause
    let s0 := s.freezeJob j back c (if t.past then 9#5 else 1#5)
    let s1 := if t = .timing 13 then s.keepOverdue c s0 else s0
    let e := mkEvent 1 (if t.cause = 6 then 255 else t.cause) (if t.cause = 6 then 0 else t.sub) 0 j
      (if t.cause = 6 then 0#64 else info) (coreBits s.module c cur.col) at_ (recTagOf (s.job j).record) 0#64 0#64 0#64
    let s2 := s1.modCtx c fun x =>
      { x with trapinfo := info, past := if t.past then some cur.seq else x.past,
               frz := x.frz.map fun f => { f with ev := [(corePlace c cur.col 1, e)] } }
    let s3 := if t.cause = 6 then s2.logSecure c cur.col j else s2
    let s4 := (s3.modJob j fun b => { b with state := .saving, trapped := true }).tally c cur.col 0x0C 1
    s4.startSave j

/-- A word or an event meets a trap. While the cycle is only checked, the trap is noted; otherwise an execution trap
freezes the job at F = t - 1 (R234). A deferred trap is taken by the step that found it, after the failing event has
abandoned its operation (R242). -/
def trapAt (s : State) (deferred : Bool) (cur : Cursor) (slot : Slot) (t : Trap) : State :=
  if s.probe then
    { s with found := s.found ++ [{ cls := if deferred then 1 else 0, cur := cur, cause := t.cause, sub := t.sub, slot := slot,
                                    past := t.past, ord := s.ord, act := none }] }
  else if deferred then s else s.freezeTrap cur t slot 1 s.cycle

/-- The executing word takes a trap at its execution (R231). -/
def takeTrap (s : State) (t : Trap) : State := s.trapAt false s.cur s.cur.slot t

/-- A deferred trap of an operation, attributed to a cursor (R231, R242). A failure of data that reaches a frozen context
is taken in the first cycle after its restart (log 31). -/
def takeDeferred (s : State) (cur : Cursor) (slot : Slot) (cause sub : Nat) : State := match (s.ctx cur.ctx).frz with
  | none => s.trapAt true cur slot (.of cause sub)
  | some f =>
    let e : Sched := { clk := .row (rowOf cur.ctx), due := 0, ord := s.nextId, cur := { cur with slot := slot }, arg := 1,
                       act := .remoteNack cur.ctx cur.col 0 .data }
    if cause ≠ 7 then s
    else { s with nextId := s.nextId + 1 }.modCtx cur.ctx fun x => { x with frz := some { f with items := f.items ++ [(1, e)] } }

/-- R234: one trap comes before another of the same F. -/
def Found.before (a b : Found) : Bool :=
  let ka := (a.cls, a.cur.ctx, a.cur.col, a.cur.slot.code)
  let kb := (b.cls, b.cur.ctx, b.cur.col, b.cur.slot.code)
  decide (ka.1 < kb.1 ∨ (ka.1 = kb.1 ∧ (ka.2.1 < kb.2.1 ∨ (ka.2.1 = kb.2.1 ∧
    (ka.2.2.1 < kb.2.2.1 ∨ (ka.2.2.1 = kb.2.2.1 ∧ ka.2.2.2 < kb.2.2.2))))))

/-- The trap that is taken among those found (R234). -/
def firstFound : List Found → Option Found
  | [] => none
  | a :: r => match firstFound r with
    | none => some a
    | some b => if Found.before b a then some b else some a

/-! ### Early reads (R17, R379) -/

/-- A register a word reads. -/
inductive Reg where
  | s (n : Nat) | p (n : Nat) | v (n : Nat) | k (n : Nat) | z (n : Nat) | e (n : Nat) | g (n : Nat) | h (n : Nat)
  deriving DecidableEq, Repr

/-- The register an update writes. -/
def RegWrite.reg : RegWrite → Option Reg
  | .s n _ => some (.s n) | .p n _ => some (.p n) | .v n _ _ => some (.v n) | .k n _ _ => some (.k n)
  | .z n _ _ => some (.z n) | .e n _ _ => some (.e n) | .g n _ => some (.g n) | .ctl _ _ _ => none

/-- A register whose reads are never early: s0, p0 and k0 (R256). -/
def Reg.fixed : Reg → Bool
  | .s n => n == 0 | .p n => n == 0 | .k n => n == 0 | _ => false

/-- The register that an operation which waits will write: the destination of a G-op, or the p7 of an XCHC (R355, R377). -/
def waitDest : WaitWhat → Option Reg
  | .walk i _ | .gop i _ _ _ _ | .grel i _ _ _ _ _ => match i with
    | .gld _ d _ c => some (if c.getLsbD 0 then .v (d.toNat % 16) else .s d.toNat)
    | .gacq _ d _ => some (.s d.toNat)
    | .gamo _ d _ _ => some (.s d.toNat)
    | .xchc .. => some (.p 7)
    | _ => none
  | .exchange p _ => if p.kind = 2 then some (.p 7) else none
  | _ => none

/-- A pending entry of the executing core's table, of a step-timed or of a windowed G-op, has the register as its destination (R355,
R379). -/
def entryDest (s : State) (stepped : Bool) (r : Reg) : Bool := (List.range 64).any fun i =>
  let g := s.gent (64 * coreKey s.cur.ctx s.cur.col + i)
  g.state == 1#2 && g.stepped == stepped && decide (g.kind = 0#8 ∨ g.kind = 2#8 ∨ g.kind = 5#8) &&
    r == (if g.vec then .v g.dest else .s g.dest)

/-- A result for a register of the executing core is in flight: its landing is entered, a step-timed load's reply is still to come, or
it is the p7 of an XCHC whose first burst has not come (R17, R355). -/
def inFlight (s : State) (r : Reg) : Bool :=
  (s.agenda.any fun e => e.cur.ctx == s.cur.ctx && e.cur.col == s.cur.col && match e.act with
    | .resultLanding f => f.writes.any fun w => RegWrite.reg w == some r
    | .matrixResultLanding m => !m.null && r == .z m.z
    | _ => false) ||
  s.entryDest true r ||
  (r == .p 7 && ((List.range 2).any fun i =>
    let p := s.peel (2 * coreKey s.cur.ctx s.cur.col + i)
    p.kind == 2 && p.state == 0))

/-- A windowed G-op has the register as its destination and has not been placed: it is in its table, or waits for its walk, its
release or its entry (R158, R379). -/
def awaitsReply (s : State) (r : Reg) : Bool :=
  s.entryDest false r || s.waiting.any fun w =>
    w.cur.ctx == s.cur.ctx && w.cur.col == s.cur.col && waitDest w.what == some r

/-- The result of a windowed G-op for the register has come and is not placed yet (R379). -/
def lateReply (s : State) (r : Reg) : Bool := s.agenda.any fun e =>
  e.cur.ctx == s.cur.ctx && e.cur.col == s.cur.col && match e.act with
    | .resultLanding f => f.reply && f.writes.any fun w => RegWrite.reg w == some r
    | _ => false

/-- The early-read trap of the registers a word reads: never in a timed P context, but for the destination of a windowed
G-op (R17, R379). -/
def early (s : State) (rs : List Reg) : Option Trap :=
  if rs.any fun r => !r.fixed && ((!s.timed && s.inFlight r) || s.awaitsReply r || s.lateReply r) then some (.sched 1) else none

/-- A trap that hangs on the values of registers is met only where they are not early; else the early read comes in its own place of
R443 (log 29). -/
def known (s : State) (rs : List Reg) (t : Option Trap) : Option Trap := if (s.early rs).isSome then none else t

/-! ### The shape of a word -/

/-- A word on the executing core (R22, R251, R443): under a false guard nothing but the count of nullified words (R186); the first trap it meets; else its
effect. The guard is itself a read of p[P] (R277). A context that holds no job executes nothing. -/
def word (s : State) (h : Hd) (chk : State → Option Trap) (eff : State → State) : Host.Outcome State Fault Refusal :=
  if s.myCtx.job = 0 then .fault .noContext
  else if (s.early [.p h.p.toNat]).isSome then .next (s.takeTrap (.sched 1))
  else if s.guard h then
    match chk s with
    | some t => .next (s.takeTrap t)
    | none => .next (eff s)
  else .next (s.tally s.cur.ctx s.cur.col 6 1)

/-- A word that acts on the row: decided on the head core, no operation on the others (R387, R20). -/
def rowWord (s : State) (h : Hd) (chk : State → Option Trap) (eff : State → State) : Host.Outcome State Fault Refusal :=
  if s.myCtx.job = 0 then .fault .noContext
  else if s.cur.col ≠ 0 then .next s
  else s.word h chk eff

/-- A word whose control register may not be listed: an unlisted one is an illegal encoding whatever the guard (R22, R61). -/
def wordListed (s : State) (listed : Bool) (h : Hd) (chk : State → Option Trap) (eff : State → State) :
    Host.Outcome State Fault Refusal :=
  if s.myCtx.job = 0 then .fault .noContext
  else if listed then s.word h chk eff
  else .next (s.takeTrap .illegal)

/-- The first trap of a list of checks, in the order of R443. -/
def firstTrap : List (Option Trap) → Option Trap
  | [] => none
  | some t :: _ => some t
  | none :: r => firstTrap r

/-- The trap of the addresses of a word: a translation fault of any of them before a world violation of any other (R154, R443). -/
def addrTrap (l : List (Option Trap)) : Option Trap :=
  if l.contains (some .translation) then some .translation else firstTrap l

end State

end Sys2Proof.Machine
end

