-- ==== Sys2Proof/Machine/Flags.lean ====
section
/-! DEFINITION. Floating-point arithmetic and its flags (R187 to R209): values are exact dyadic numbers, and one function
rounds them. -/

namespace Sys2Proof.Machine

open Sys2Proof

/-! ### Flags (R67) and modes (R68) -/

/-- Invalid operation. -/
def flNV : BitVec 5 := 16#5
/-- Division by zero. -/
def flDZ : BitVec 5 := 8#5
/-- Overflow. -/
def flOF : BitVec 5 := 4#5
/-- Underflow. -/
def flUF : BitVec 5 := 2#5
/-- Inexact. -/
def flNX : BitVec 5 := 1#5
/-- A flag raised under a condition. -/
def flagIf (b : Bool) (f : BitVec 5) : BitVec 5 := if b then f else 0#5

/-- A rounding mode; SR carries the random value of its element (R193). -/
inductive RMode where
  | rne | rtz | rup | rdn | sr (u : Nat)
  deriving DecidableEq, Repr

/-- The mode of an operation that is no conversion: RNE while MODE = 4 (R68, R191). -/
def modeOf (m : BitVec 3) : RMode := match m.toNat with
  | 1 => .rtz | 2 => .rup | 3 => .rdn | _ => .rne
/-- The mode of a conversion (R191). -/
def cvtMode (m : BitVec 3) (u : Nat) : RMode := if m = 4#3 then .sr u else modeOf m

/-! ### Formats (R187) -/

/-- The floating-point formats. -/
inductive Fmt where
  | f32 | bf16 | f16 | f64 | e4m3 | e5m2
  deriving DecidableEq, Repr

namespace Fmt

/-- Exponent bits. -/
def eb : Fmt → Nat | .f32 => 8 | .bf16 => 8 | .f16 => 5 | .f64 => 11 | .e4m3 => 4 | .e5m2 => 5
/-- Fraction bits. -/
def fb : Fmt → Nat | .f32 => 23 | .bf16 => 7 | .f16 => 10 | .f64 => 52 | .e4m3 => 3 | .e5m2 => 2
/-- Bits in all. -/
def bits (f : Fmt) : Nat := 1 + f.eb + f.fb
/-- Exponent bias. -/
def bias (f : Fmt) : Nat := 2 ^ (f.eb - 1) - 1
/-- The sign bit's value. -/
def signBit (f : Fmt) (neg : Bool) : Nat := if neg then 2 ^ (f.bits - 1) else 0
/-- The code of the largest finite magnitude. -/
def maxCode (f : Fmt) : Nat := if f = .e4m3 then 0x7E else (2 ^ f.eb - 1) * 2 ^ f.fb - 1
/-- The code of +infinity; E4M3 has none. -/
def infCode (f : Fmt) : Nat := (2 ^ f.eb - 1) * 2 ^ f.fb
/-- The canonical NaN. -/
def nanCode (f : Fmt) : Nat := match f with
  | .e4m3 => 0x7F | .e5m2 => 0x7E | _ => (2 ^ f.eb - 1) * 2 ^ f.fb + 2 ^ (f.fb - 1)
/-- FP8: its NaNs are quiet and it saturates on overflow (R187, R192). -/
def isFp8 (f : Fmt) : Bool := f == .e4m3 || f == .e5m2

end Fmt

/-- A decoded value: a NaN (signalling or not), an infinity, or (-1)^neg * m * 2^e. -/
inductive Fp where
  | nan (sig : Bool)
  | inf (neg : Bool)
  | num (neg : Bool) (m : Nat) (e : Int)
  deriving DecidableEq, Repr

/-- Read a code of a format (R187). -/
def Fmt.dec (f : Fmt) (x : Nat) : Fp :=
  let neg := x.testBit (f.bits - 1)
  let mag := x % 2 ^ (f.bits - 1)
  let ex := mag / 2 ^ f.fb
  let fr := mag % 2 ^ f.fb
  if f = .e4m3 then
    if mag = 0x7F then .nan false
    else if ex = 0 then .num neg fr (1 - (f.bias : Int) - f.fb) else .num neg (2 ^ f.fb + fr) ((ex : Int) - f.bias - f.fb)
  else if ex = 2 ^ f.eb - 1 then
    if fr = 0 then .inf neg else .nan (!f.isFp8 && !(fr.testBit (f.fb - 1)))
  else if ex = 0 then .num neg fr (1 - (f.bias : Int) - f.fb)
  else .num neg (2 ^ f.fb + fr) ((ex : Int) - f.bias - f.fb)

namespace Fp

/-- A NaN. -/
def isNan : Fp → Bool | .nan _ => true | _ => false
/-- A signalling NaN. -/
def isSnan : Fp → Bool | .nan b => b | _ => false
/-- A zero. -/
def isZero : Fp → Bool | .num _ m _ => m == 0 | _ => false
/-- An infinity. -/
def isInf : Fp → Bool | .inf _ => true | _ => false
/-- The sign. -/
def sign : Fp → Bool | .nan _ => false | .inf b => b | .num b _ _ => b
/-- The negation, for a subtraction. -/
def neg : Fp → Fp | .nan b => .nan b | .inf b => .inf !b | .num b m e => .num (!b) m e

end Fp

/-! ### Rounding (R191 to R193, R196) -/

/-- Bring a magnitude m to units of 2^d of its own unit: the rounded count and whether it is inexact. -/
def quant (md : RMode) (neg : Bool) (m : Nat) (d : Int) : Nat × Bool :=
  if d ≤ 0 then (m * 2 ^ (-d).toNat, false) else
    let k := 2 ^ d.toNat
    let t := m / k
    let r := m % k
    let up := match md with
      | .rne => decide (k < 2 * r) || (decide (2 * r = k) && t % 2 == 1)
      | .rtz => false
      | .rup => !neg && decide (r ≠ 0)
      | .rdn => neg && decide (r ≠ 0)
      | .sr u => decide (2 ^ 16 ≤ 2 ^ 16 * r / k + u)
    (if up then t + 1 else t, decide (r ≠ 0))

/-- The result of an overflow (R192). -/
def overflowCode (f : Fmt) (md : RMode) (neg : Bool) : Nat :=
  f.signBit neg + (if f.isFp8 then f.maxCode else match md with
    | .rtz => f.maxCode
    | .rup => if neg then f.maxCode else f.infCode
    | .rdn => if neg then f.infCode else f.maxCode
    | _ => f.infCode)

/-- Round (-1)^neg * m * 2^e to a format, with its flags. -/
def roundFp (f : Fmt) (md : RMode) (neg : Bool) (m : Nat) (e : Int) : Nat × BitVec 5 :=
  if m = 0 then (f.signBit neg, 0#5) else
    let lg : Int := (Nat.log2 m : Int) + e
    let emin : Int := 1 - (f.bias : Int)
    let q0 : Int := lg - f.fb
    let q : Int := max q0 (emin - f.fb)
    let (t, nx) := quant md neg m (q - e)
    let code : Nat := (q + f.fb + f.bias - 1).toNat * 2 ^ f.fb + t
    if f.maxCode < code then (overflowCode f md neg, flOF ||| flNX)
    else
      let (t0, _) := quant md neg m (q0 - e)
      let tiny := decide (lg < emin - 1) || (decide (lg = emin - 1) && decide (t0 < 2 ^ (f.fb + 1)))
      (f.signBit neg + code, flagIf nx flNX ||| flagIf (nx && tiny) flUF)

/-- The canonical NaN with NV or without. -/
def nanRes (f : Fmt) (nv : Bool) : Nat × BitVec 5 := (f.nanCode, flagIf nv flNV)
/-- A signed infinity. -/
def infRes (f : Fmt) (neg : Bool) : Nat × BitVec 5 := (f.signBit neg + f.infCode, 0#5)

/-! ### Integer square root by Newton steps -/

/-- Newton steps from above. -/
def sqrtLoop (n : Nat) : Nat → Nat → Nat
  | 0, x => x
  | k + 1, x => let y := (x + n / x) / 2; if y < x then sqrtLoop n k y else x
/-- The largest r with r * r ≤ n. -/
def isqrt (n : Nat) : Nat := if n = 0 then 0 else sqrtLoop n (Nat.log2 n + 2) (2 ^ (Nat.log2 n / 2 + 1))

/-! ### Operations on decoded values -/

/-- The sign of an exact zero of a sum (R197). -/
def zeroSign (md : RMode) : Bool := md == .rdn

/-- Sum of two values rounded once (R195, R197). -/
def addFp (f : Fmt) (md : RMode) : Fp → Fp → Nat × BitVec 5
  | .nan a, y => nanRes f (a || y.isSnan)
  | x, .nan b => nanRes f (b || x.isSnan)
  | .inf a, .inf b => if a = b then infRes f a else nanRes f true
  | .inf a, _ => infRes f a
  | _, .inf b => infRes f b
  | .num a m e, .num b n g =>
    if m = 0 ∧ n = 0 then (f.signBit (if a = b then a else zeroSign md), 0#5) else
      let q := min e g
      let x : Int := (m * 2 ^ (e - q).toNat : Nat)
      let y : Int := (n * 2 ^ (g - q).toNat : Nat)
      let z := (if a then -x else x) + (if b then -y else y)
      if z = 0 then (f.signBit (zeroSign md), 0#5) else roundFp f md (decide (z < 0)) z.natAbs q

/-- The exact product of two values that are no NaN and not 0 times infinity. -/
def mulExact : Fp → Fp → Fp
  | .num a m e, .num b n g => .num (a != b) (m * n) (e + g)
  | x, y => .inf (x.sign != y.sign)

/-- 0 times infinity (R195). -/
def zeroInf (x y : Fp) : Bool := (x.isZero && y.isInf) || (x.isInf && y.isZero)

/-- Product rounded once. -/
def mulFp (f : Fmt) (md : RMode) (x y : Fp) : Nat × BitVec 5 :=
  if x.isNan || y.isNan then nanRes f (x.isSnan || y.isSnan)
  else if zeroInf x y then nanRes f true
  else match mulExact x y with
    | .num a m e => roundFp f md a m e
    | z => infRes f z.sign

/-- x * y + z rounded once (R191); 0 times infinity raises NV whatever the addend (R195). -/
def fmaFp (f : Fmt) (md : RMode) (x y z : Fp) : Nat × BitVec 5 :=
  if x.isNan || y.isNan then nanRes f (x.isSnan || y.isSnan || z.isSnan)
  else if zeroInf x y then nanRes f true
  else addFp f md (mulExact x y) z

/-- Quotient rounded once (R195). -/
def divFp (f : Fmt) (md : RMode) (x y : Fp) : Nat × BitVec 5 :=
  let s := x.sign != y.sign
  match x, y with
  | .nan a, y => nanRes f (a || y.isSnan)
  | x, .nan b => nanRes f (b || x.isSnan)
  | .inf _, .inf _ => nanRes f true
  | .inf _, _ => infRes f s
  | _, .inf _ => (f.signBit s, 0#5)
  | .num _ m e, .num _ n g =>
    if n = 0 then (if m = 0 then nanRes f true else (f.signBit s + f.infCode, flDZ))
    else if m = 0 then (f.signBit s, 0#5)
    else
      let k := f.fb + 5 + Nat.log2 n
      let p := m * 2 ^ k
      roundFp f md s (2 * (p / n) + (if p % n = 0 then 0 else 1)) (e - g - k - 1)

/-- Square root rounded once (R195, R301). -/
def sqrtFp (f : Fmt) (md : RMode) : Fp → Nat × BitVec 5
  | .nan a => nanRes f a
  | .inf a => if a then nanRes f true else infRes f false
  | .num a m e =>
    if m = 0 then (f.signBit a, 0#5) else if a then nanRes f true else
      let k := 2 * (f.fb + 5) + (e % 2).toNat
      let n := m * 2 ^ k
      let r := isqrt n
      roundFp f md false (2 * r + (if r * r = n then 0 else 1)) ((e - k) / 2 - 1)

/-- Reciprocal square root rounded once (R195, R301). -/
def rsqrtFp (f : Fmt) (md : RMode) : Fp → Nat × BitVec 5
  | .nan a => nanRes f a
  | .inf a => if a then nanRes f true else (0, 0#5)
  | .num a m e =>
    if m = 0 then (f.signBit a + f.infCode, flDZ) else if a then nanRes f true else
      let k0 := Nat.log2 m + 2 * (f.fb + 5)
      let k := k0 + ((e + k0) % 2).toNat
      let n := 2 ^ k / m
      let r := isqrt n
      let exact := decide (2 ^ k % m = 0) && decide (r * r = n)
      roundFp f md false (2 * r + (if exact then 0 else 1)) ((-e - k) / 2 - 1)

/-- Minimum (R195). -/
def minFp (f : Fmt) (x y : Nat) (less : Fp → Fp → Bool) : Nat × BitVec 5 :=
  let a := f.dec x
  let b := f.dec y
  let nv := flagIf (a.isSnan || b.isSnan) flNV
  if a.isNan && b.isNan then (f.nanCode, nv)
  else if a.isNan then (y, nv) else if b.isNan then (x, nv)
  else (if less b a then y else x, nv)

/-- Order of numbers and infinities, with -0 equal to +0. -/
def ltFp : Fp → Fp → Bool
  | .nan _, _ => false
  | _, .nan _ => false
  | .inf a, .inf b => a && !b
  | .inf a, _ => a
  | _, .inf b => !b
  | .num a m e, .num b n g =>
    let q := min e g
    let x : Int := (m * 2 ^ (e - q).toNat : Nat)
    let y : Int := (n * 2 ^ (g - q).toNat : Nat)
    decide ((if a then -x else x) < (if b then -y else y))

/-- The order of min and max, in which -0 lies below +0 (R195). -/
def ltZero (x y : Fp) : Bool := if x.isZero && y.isZero then x.sign && !y.sign else ltFp x y

/-- FMIN, VFMIN. -/
def fmin (f : Fmt) (x y : Nat) : Nat × BitVec 5 := minFp f x y ltZero
/-- FMAX, VFMAX and the nodes of max reductions (R208). -/
def fmax (f : Fmt) (x y : Nat) : Nat × BitVec 5 := minFp f x y (fun a b => ltZero b a)

/-- Equality, -0 equal to +0; NV for a signalling NaN only (R195, R302). -/
def feq (x y : Fp) : Bool × BitVec 5 :=
  if x.isNan || y.isNan then (false, flagIf (x.isSnan || y.isSnan) flNV) else (!(ltFp x y) && !(ltFp y x), 0#5)
/-- Less than; NV for any NaN. -/
def flt (x y : Fp) : Bool × BitVec 5 := if x.isNan || y.isNan then (false, flNV) else (ltFp x y, 0#5)
/-- Less than or equal; NV for any NaN. -/
def fle (x y : Fp) : Bool × BitVec 5 := if x.isNan || y.isNan then (false, flNV) else (!(ltFp y x), 0#5)

/-! ### 2^x and log2 x, correctly rounded (R300, R301) -/

/-- Lower and upper bounds of the product of the roots 2^(2^-i) over the set bits of a fraction of n bits, in units of
2^-W; `r` bounds the present root. -/
def expBits (w : Nat) (frac : Nat) : Nat → Nat × Nat → Nat × Nat → Nat × Nat
  | 0, _, acc => acc
  | n + 1, r, acc =>
    let r' := (isqrt (r.1 * 2 ^ w), isqrt (r.2 * 2 ^ w) + 1)
    let acc' := if frac.testBit n then (acc.1 * r'.1 / 2 ^ w, acc.2 * r'.2 / 2 ^ w + 1) else acc
    expBits w frac n r' acc'

/-- The floor of 2^(fr / 2^b) in units of 2^-120, for a fraction fr that is not 0: the value is irrational, so no floor is the
value itself. The bracket of `expBits` gives it; where the bracket holds a whole unit q, integer powers decide on which side of
q the value lies. -/
def expFloor (fr b : Nat) : Nat :=
  let w := 320
  let r := expBits w fr b (2 * 2 ^ w, 2 * 2 ^ w) (2 ^ w, 2 ^ w)
  let q := r.2 / 2 ^ 200
  if r.1 / 2 ^ 200 = q then q else if q ^ 2 ^ b ≤ 2 ^ (fr + 120 * 2 ^ b) then q else q - 1

/-- 2^x (R301). -/
def exp2Fp (f : Fmt) (md : RMode) (code : Nat) : Nat × BitVec 5 := match f.dec code with
  | .nan a => nanRes f a
  | .inf a => if a then (0, 0#5) else infRes f false
  | .num a m e =>
    if m = 0 then roundFp f md false 1 0
    else if 13 ≤ (Nat.log2 m : Int) + e then roundFp f md false 1 (if a then -8192 else 8192)
    else if (Nat.log2 m : Int) + e < -120 then roundFp f md false (if a then 2 ^ 100 - 1 else 2 ^ 100 + 1) (-100)
    else
      let b := (-e).toNat
      let x : Int := (m * 2 ^ e.toNat : Nat)
      let x : Int := if a then -x else x
      let n := x / 2 ^ b
      let fr := (x % 2 ^ b).toNat
      if fr = 0 then roundFp f md false 1 n
      else
        roundFp f md false (2 * expFloor fr b + 1) (n - 121)

/-- The next n bits of log2 (m / 2^l), after i bits acc, by integer powers: a bit is 1 where the value is not below what it
makes. -/
def logExact (m l : Nat) : Nat → Nat → Nat → Nat
  | 0, _, acc => acc
  | n + 1, i, acc =>
    logExact m l n (i + 1) (if 2 ^ (2 * acc + 1 + l * 2 ^ (i + 1)) ≤ m ^ 2 ^ (i + 1) then 2 * acc + 1 else 2 * acc)

/-- The next n bits of log2 (m / 2^l), after i bits acc; y brackets the number that is left, in units of 2^-w. Where the
bracket leaves a bit undecided, integer powers decide. -/
def logBits (w m l : Nat) : Nat → Nat → Nat × Nat → Nat → Nat
  | 0, _, _, acc => acc
  | n + 1, i, y, acc =>
    let lo := y.1 * y.1 / 2 ^ w
    let hi := y.2 * y.2 / 2 ^ w + 1
    if 2 ^ (w + 1) ≤ lo then logBits w m l n (i + 1) (lo / 2, hi / 2 + 1) (2 * acc + 1)
    else if hi < 2 ^ (w + 1) then logBits w m l n (i + 1) (lo, hi) (2 * acc)
    else logExact m l (n + 1) i acc

/-- log2 x (R301). -/
def log2Fp (f : Fmt) (md : RMode) (code : Nat) : Nat × BitVec 5 := match f.dec code with
  | .nan a => nanRes f a
  | .inf a => if a then nanRes f true else infRes f false
  | .num a m e =>
    if m = 0 then (f.signBit true + f.infCode, flDZ) else if a then nanRes f true else
      let l := Nat.log2 m
      let n : Int := (l : Int) + e
      if m = 2 ^ l then
        (if n = 0 then (0, 0#5) else roundFp f md (decide (n < 0)) n.natAbs 0)
      else
        let w := 600
        let y := m * 2 ^ (w - l)
        let z : Int := n * 2 ^ 200 + logBits w m l 200 0 (y, y) 0
        let mag := if 0 ≤ z then z.natAbs else z.natAbs - 1
        roundFp f md (decide (z < 0)) (2 * mag + 1) (-201)

/-! ### Conversions (R192, R303, R304) -/

/-- A value of one format to another; infinities to E4M3 give 448 with OF and NX (R192). -/
def cvtFp (g : Fmt) (md : RMode) : Fp → Nat × BitVec 5
  | .nan a => nanRes g a
  | .inf a => if g = .e4m3 then (g.signBit a + g.maxCode, flOF ||| flNX) else infRes g a
  | .num a m e => roundFp g md a m e

/-- A value to an integer of a range (R192, R304). -/
def cvtInt (lo hi : Int) (md : RMode) : Fp → Int × BitVec 5
  | .nan _ => (0, flNV)
  | .inf a => (if a then lo else hi, flNV)
  | .num a m e =>
    let (t, nx) := quant md a m (-e)
    let v : Int := if a then -(t : Int) else (t : Int)
    if v < lo then (lo, flNV) else if hi < v then (hi, flNV) else (v, flagIf nx flNX)

/-- An integer to a format. -/
def cvtFromInt (g : Fmt) (md : RMode) (x : Int) : Nat × BitVec 5 := roundFp g md (decide (x < 0)) x.natAbs 0

/-! ### Trees and scans (R201, R208, R209) -/

/-- One level of a tree: nodes (2j, 2j+1); an odd element passes up (R201). -/
def treeLevel {α : Type} (op : α → α → α) : List α → List α
  | a :: b :: r => op a b :: treeLevel op r
  | l => l

/-- The tree of a list, by levels of fuel. -/
def treeFold {α : Type} (op : α → α → α) : Nat → List α → List α
  | 0, l => l
  | n + 1, l => if l.length ≤ 1 then l else treeFold op n (treeLevel op l)

/-- The root of a tree of values that carry their flags. -/
def treeSum (op : Nat → Nat → Nat × BitVec 5) (l : List (Nat × BitVec 5)) : Nat × BitVec 5 :=
  ((treeFold (fun a b => let r := op a.1 b.1; (r.1, r.2 ||| a.2 ||| b.2)) l.length l).head?).getD (0, 0#5)

/-- One level of an inclusive scan at distance d (R209): every element from d on takes op of the element d before it and
its own; its flags join. The first d elements pass as they are, a NaN among them with its payload (log 89). -/
def scanLevel (op : Nat → Nat → Nat × BitVec 5) (d : Nat) (l : List (Nat × BitVec 5)) : List (Nat × BitVec 5) :=
  l.take d ++ List.zipWith (fun a b => let r := op a.1 b.1; (r.1, r.2 ||| a.2 ||| b.2)) l (l.drop d)

/-- An inclusive scan in n levels. -/
def scanAll (op : Nat → Nat → Nat × BitVec 5) (n : Nat) (l : List (Nat × BitVec 5)) : List (Nat × BitVec 5) :=
  (List.range n).foldl (fun a i => scanLevel op (2 ^ i) a) l

/-! ### Exact sums of the array (R200, R203) -/

/-- A signed dyadic number. -/
structure Dy where
  m : Int
  e : Int
  deriving DecidableEq, Repr

/-- Sum of dyadic numbers. -/
def Dy.add (x y : Dy) : Dy :=
  let q := min x.e y.e
  { m := x.m * 2 ^ (x.e - q).toNat + y.m * 2 ^ (y.e - q).toNat, e := q }

/-- The dyadic number of a finite value. -/
def Fp.dy : Fp → Dy
  | .num a m e => { m := if a then -(m : Int) else (m : Int), e := e }
  | _ => { m := 0, e := 0 }

/-- The accumulator after an exact-form command on one output element (R200, R203): the operand pairs and the FP32
accumulator. With a NaN operand only a signalling one raises NV (R200; log 21). -/
def exactAcc (prods : List (Fp × Fp)) (z : Nat) : Nat × BitVec 5 :=
  let zf := Fmt.f32.dec z
  let nan := zf.isNan || prods.any fun p => p.1.isNan || p.2.isNan
  if nan then nanRes .f32 (zf.isSnan || prods.any fun p => p.1.isSnan || p.2.isSnan)
  else if prods.any fun p => zeroInf p.1 p.2 then nanRes .f32 true
  else
    let xs := prods.map fun p => mulExact p.1 p.2
    let infs := (zf :: xs).filter Fp.isInf
    if infs ≠ [] then
      (if infs.all Fp.sign then infRes .f32 true
       else if infs.all fun x => !x.sign then infRes .f32 false else nanRes .f32 true)
    else
      let s := xs.foldl (fun a x => a.add x.dy) zf.dy
      if s.m = 0 then
        (Fmt.f32.signBit (zf.isZero && zf.sign && xs.all fun x => x.isZero && x.sign), 0#5)
      else roundFp .f32 .rne (decide (s.m < 0)) s.m.natAbs s.e

/-- The accumulator after a tree-form command on one output element (R201, R203): leaves rounded, the tree, and one
rounding with the accumulator; an exact-zero total is +0 unless accumulator and every product are -0. -/
def treeAcc (f : Fmt) (prods : List (Fp × Fp)) (z : Nat) : Nat × BitVec 5 :=
  let leaves := prods.map fun p => mulFp f .rne p.1 p.2
  let add := fun a b => addFp f .rne (f.dec a) (f.dec b)
  let t := treeSum add leaves
  let r := add z t.1
  (r.1, r.2 ||| t.2)

/-! ### Online softmax (R207) -/

/-- A binary FP32 operation in RNE on codes. -/
def add32 (x y : Nat) : Nat × BitVec 5 := addFp .f32 .rne (Fmt.f32.dec x) (Fmt.f32.dec y)
/-- Product in FP32. -/
def mul32 (x y : Nat) : Nat × BitVec 5 := mulFp .f32 .rne (Fmt.f32.dec x) (Fmt.f32.dec y)
/-- x - y in FP32. -/
def sub32 (x y : Nat) : Nat × BitVec 5 := addFp .f32 .rne (Fmt.f32.dec x) (Fmt.f32.dec y).neg

/-- Exp of R207. -/
def expS (x : Nat) : Nat × BitVec 5 :=
  let a := mul32 x 0x3FB8AA3B
  let b := exp2Fp .f32 .rne a.1
  (b.1, a.2 ||| b.2)

/-- Weight of R207. -/
def weightS (x m : Nat) : Nat × BitVec 5 := match Fmt.f32.dec x with
  | .inf true => (0, 0#5)
  | .inf false => (0x3F800000, 0#5)
  | _ =>
    let d := sub32 x m
    let w := expS d.1
    (w.1, d.2 ||| w.2)

/-- Combine of R207; a side of weight 0 is not read. -/
def combineS (wa xa wb xb : Nat) : Nat × BitVec 5 :=
  if (Fmt.f32.dec wa).isZero then mul32 wb xb
  else if (Fmt.f32.dec wb).isZero then mul32 wa xa
  else
    let a := mul32 wa xa
    let r := fmaFp .f32 .rne (Fmt.f32.dec wb) (Fmt.f32.dec xb) (Fmt.f32.dec a.1)
    (r.1, r.2 ||| a.2)

/-- Merge of R207 on one row: maximum, sum and the row's elements. -/
def mergeS (ma la : Nat) (oa : List Nat) (mb lb : Nat) (ob : List Nat) : (Nat × Nat × List Nat) × BitVec 5 :=
  let a := Fmt.f32.dec ma
  let b := Fmt.f32.dec mb
  let nan := Fmt.f32.nanCode
  if a.isNan || b.isNan then ((nan, nan, oa.map fun _ => nan), flagIf (a.isSnan || b.isSnan) flNV)
  else if a = .inf true ∧ b = .inf true then ((ma, 0, oa.map fun _ => 0), 0#5)
  else
    let m := (fmax .f32 ma mb).1
    let wa := weightS ma m
    let wb := weightS mb m
    let l := combineS wa.1 la wb.1 lb
    let o := List.zipWith (fun x y => combineS wa.1 x wb.1 y) oa ob
    ((m, l.1, o.map Prod.fst), o.foldl (fun f x => f ||| x.2) (wa.2 ||| wb.2 ||| l.2))

end Sys2Proof.Machine
end

