-- ==== Sys2Proof/Machine/Operands.lean ====
section
/-! DEFINITION. Operand forms: elements of registers, launch record fields, scratchpad addresses, banks and their
windows, locks, and translation (R51 to R54, R83, R84, R97, R103 to R105, R134, R152 to R158). -/

namespace Sys2Proof.Machine

open Sys2Proof

/-! ### Elements (R51, R52, R54) -/

/-- The integer kind of TY (R261): element width in bits. -/
def tyBits (t : BitVec 2) : Nat := match t.toNat with | 0 => 32 | 1 => 16 | 2 => 8 | _ => 64
/-- The floating kind of TY (R261). -/
def tyFmt (t : BitVec 2) : Fmt := match t.toNat with | 0 => .f32 | 1 => .bf16 | 2 => .f16 | _ => .f64
/-- Elements of a row. -/
def perRow (w : Nat) : Nat := 2048 / w
/-- Bit position of element j of row r. -/
def elemPos (w r j : Nat) : Nat := 2048 * r + w * j
/-- Element j of row r of a register image. -/
def elem (w : Nat) (v : Block) (r j : Nat) : Nat := (v.toNat >>> elemPos w r j) % 2 ^ w
/-- Row r of a register image. -/
def rowOfBlock (v : Block) (r : Nat) : Row := v.extractLsb' (2048 * r) 2048
/-- A number built from n fields of w bits. -/
def packFrom (w : Nat) (f : Nat → Nat) : Nat → Nat
  | 0 => 0
  | n + 1 => packFrom w f n + (f n % 2 ^ w) <<< (w * n)
/-- A register image from its elements. -/
def packBlock (w : Nat) (f : Nat → Nat → Nat) : Block :=
  BitVec.ofNat 32768 (packFrom w (fun t => f (t / perRow w) (t % perRow w)) (16 * perRow w))
/-- The mask bit that governs element j of row r (R54). -/
def sel (k : Mask) (w r j : Nat) : Bool := k.getLsbD (64 * r + w * j / 32)
/-- The bits of a register image that a mask selects under an element width. -/
def selBits (k : Mask) (w : Nat) : Block := packBlock w fun r j => if sel k w r j then 2 ^ w - 1 else 0
/-- A signed reading of a w-bit number. -/
def sx (w x : Nat) : Int := if x.testBit (w - 1) then (x : Int) - (2 ^ w : Nat) else x
/-- A w-bit code of an integer. -/
def code (w : Nat) (x : Int) : Nat := (x % (2 ^ w : Nat)).toNat
/-- A mask from the containers of a compare (R299): a bit for each container whose elements all hold; for 64-bit types
both bits of the pair. -/
def packMask (w : Nat) (f : Nat → Nat → Bool) : Mask :=
  BitVec.ofNat 1024 (packFrom 1 (fun t =>
    let r := t / 64
    let c := t % 64
    let b := if w = 64 then f r (c / 2) else (List.range (32 / w)).all fun i => f r (c * (32 / w) + i)
    if b then 1 else 0) 1024)
/-- OR of the flags of the selected elements. -/
def orFlags (l : List (BitVec 5)) : BitVec 5 := l.foldl (fun a b => a ||| b) 0#5
/-- Every flat position of a register under an element width, ascending. -/
def flats (w : Nat) : List (Nat × Nat) :=
  (List.range (16 * perRow w)).map fun t => (t / perRow w, t % perRow w)

/-! ### Launch record fields (R134, R135) -/

/-- ROWMASK. -/
def recRows (r : BitVec 2048) : BitVec 32 := r.extractLsb' 16 32
/-- KIND. -/
def recKind (r : BitVec 2048) : Nat := if r.getLsbD 11 then 1 else 0
/-- WORLD. -/
def recWorld (r : BitVec 2048) : Bool := r.getLsbD 12
/-- PRIO. -/
def recPrio (r : BitVec 2048) : Nat := (r.extractLsb' 8 3).toNat
/-- RTBASE. -/
def recRt (r : BitVec 2048) : Nat := (recWord r 0x10).toNat
/-- PTROOT. -/
def recPt (r : BitVec 2048) : Nat := (recWord r 0x18).toNat
/-- CHANMASK grants a channel. -/
def recChan (r : BitVec 2048) (c : Nat) : Bool := r.getLsbD (256 + c)
/-- SLABMAP. -/
def recSlabmap (r : BitVec 2048) : Nat := (recWord r 0x48).toNat
/-- SAVESLAB. -/
def recSave (r : BitVec 2048) : Nat := (recWord r 0x50).toNat % 128
/-- USERTAG. -/
def recTag (r : BitVec 2048) : Word := recWord r 0x58
/-- ARG n. -/
def recArg (r : BitVec 2048) (n : Nat) : Word := recWord r (0x60 + 8 * n)
/-- The row contexts of a record, ascending ROWMASK bit order (R12, R161). -/
def recCtxs (r : BitVec 2048) : List Nat :=
  ((List.range 32).filter fun i => (recRows r).getLsbD i).map fun i => 2 * i + recKind r
/-- The channels of a record. -/
def recChans (r : BitVec 2048) : List Nat := (List.range 288).filter (recChan r)

/-- The number of a hardware block in the world map (R165). -/
def hwKey : HwBlock → Nat
  | .context n => n
  | .slab st n => 64 + 96 * st + n
  | .channel n => 24640 + n
  | .peel n => 24928 + n
  | .link n => 25952 + n
  | .root n => 25970 + n
  | .vf n => 25974 + n

namespace State

/-- The world bit of a hardware block (R165). -/
def worldOf (s : State) (b : HwBlock) : Bool := s.world.get false (hwKey b)

/-! ### Scratchpad addresses (R83, R84) -/

/-- A slab of a stack for a context: of the other world (R165), granted, or outside the map (R83). -/
def slabTrap (s : State) (c stack slab : Nat) : Option Trap :=
  if s.worldOf (.slab stack slab) != (s.ctx c).world then some .world
  else if (s.job (s.ctx c).job).slabs.getLsbD (96 * stack + slab) then none else some .translation

/-- The stack and the byte offset that a scratchpad address names for the executing core (R83). -/
def spadForm (s : State) (ea : Word) : Except Trap (Nat × Nat) :=
  if !ea.getLsbD 63 then .error .translation
  else if ea.extractLsb' 33 30 ≠ 0#30 then .error .translation
  else
    let stack := if ea.getLsbD 32 then s.myStack else (ea.extractLsb' 24 8).toNat
    let off := (ea.extractLsb' 0 24).toNat
    if 0x1800000 ≤ off then .error .translation else .ok (stack, off)

/-- The flat address of an access of z bytes to the own stack's scratchpad, aligned to a power of two (R84, R286). -/
def ownAddr (s : State) (ea : Word) (align : Nat) : Except Trap Nat :=
  match s.spadForm ea with
  | .error t => .error t
  | .ok (st, off) =>
    if st ≠ s.myStack then .error .translation
    else if off % align ≠ 0 then .error .translation
    else match s.slabTrap s.cur.ctx st (off / 262144) with
      | some t => .error t
      | none => .ok (spadAddr st off)

/-! ### Banks and windows (R103 to R105) -/

/-- The bank index of a block (R103). -/
def bankQ (blk : Nat) : Nat := 8 * (blk % 2) + (blk / 2) % 8
/-- The slot (6144*stack + block) of a flat scratchpad address. -/
def slotOf (a : Nat) : Nat := a / 4096
/-- The bank (16*stack + q) of a slot. -/
def bankOfSlot (k : Nat) : Nat := 16 * (k / 6144) + bankQ (k % 6144)
/-- Cycles that a bank's window still takes n cycles from now (R105); 0 outside its windows. -/
def windowLeft (s : State) (bank n : Nat) : Nat :=
  let f := s.frameIn (bank / 16) n
  let d := (f + 4096 - 256 * (bank % 16)) % 4096
  if d < 8 then 8 - d else if 128 ≤ d ∧ d < 192 then 192 - d else 0

/-- The slots that a run of bytes touches. -/
def slotsOfRun (a n : Nat) : List Nat := if n = 0 then [] else
  (List.range ((a + n - 1) / 4096 - a / 4096 + 1)).map fun i => a / 4096 + i
/-- The slots an access touches through the access port. -/
def opSlots : AccessOp → List Nat
  | .load a n _ _ => slotsOfRun a n
  | .store p => slotsOfRun p.addr p.len
  | .amo _ a w _ _ _ => slotsOfRun a (if w then 8 else 4)
  | .vload _ rs => rs.flatMap fun r => slotsOfRun r.addr r.len
  | .vstore ps => ps.flatMap fun p => slotsOfRun p.addr p.len
  | .scatAdd _ gs => gs.flatMap fun g => slotsOfRun g.addr 4
  | .esld _ r => slotsOfRun r.addr r.len
  | .matRows rs => rs.flatMap fun r => slotsOfRun r.2.1 r.2.2
  | .sendRow a _ _ _ _ => slotsOfRun a 256
  | .xverWrite k _ => [k]
  | .xverRead k _ => [k]
  | .launch a _ _ => slotsOfRun a 256
  | .ring _ _ => []
/-- The banks an access uses. -/
def opBanks (o : AccessOp) : List Nat := ((opSlots o).map bankOfSlot).eraseDups

/-- The place of an executing word in the order of R211, keys 2 to 5. -/
def rank (c : Cursor) : Nat := ((c.slot.port * 2 + dieOf c.ctx) * 2 + c.ctx % 2) * 256 + stackOf c.ctx c.col

/-- A word comes before another of its core in program order (R212). -/
def poBefore (a b : Cursor) : Bool :=
  a.ctx == b.ctx && a.col == b.col && (decide (a.seq < b.seq) || (a.seq == b.seq && decide (a.slot.code < b.slot.code)))

/-- An access of a timed context. -/
def timedEntry (e : Sched) : Bool := e.cur.timed && !(isQ e.cur.ctx)
/-- The timed accesses in the agenda that use a bank in one of the given cycles (cycles from now, bank). -/
def clashes (s : State) (acc : List (Nat × Nat)) : List Sched := s.agenda.filter fun e => timedEntry e && match e.act with
  | .deferredAccessPerform a => acc.any fun x => decide (e.due = s.clkNow e.clk + x.1) && (opBanks a.op).contains x.2
  | _ => false
/-- An entry counts against the executing word: it was placed in an earlier cycle, or by an earlier-ranked word of
this one (R104). -/
def ahead (s : State) (e : Sched) : Bool := decide (e.ord < s.mark) || decide (rank e.cur < rank s.cur)
/-- The later-ranked words of this cycle whose placed accesses meet the executing word's take the bank conflict. -/
def blame (s : State) (acc : List (Nat × Nat)) : State :=
  if s.timed then
    ((s.clashes acc).filter fun e => !(s.ahead e)).foldl (fun t e => t.trapAt false e.cur e.cur.slot (.sched 3)) s
  else s

/-! ### Locks (R94, R97) -/

/-- Blocks of a side in slot numbers. -/
def sideHas (x : Side) (n k : Nat) : Bool := match x with
  | .s st b => decide (6144 * st + b ≤ k) && decide (k < 6144 * st + b + n)
  | _ => false
/-- The enabled stages of a microword (R361). -/
def stages (m : Word) : Nat :=
  (if m.extractLsb' 0 2 = 0#2 then 0 else 1) + (if m.extractLsb' 4 2 = 0#2 then 0 else 1) +
  (if m.extractLsb' 8 2 = 0#2 then 0 else 1)
/-- The row-clock cycle at which an S-S exchange of a peel completes (R93); none where it depends on commands. -/
def peelDone (p : Peel) : Option Nat :=
  match p.kind, p.chA, p.chB with
  | 1, none, none => some (p.base + 16 * p.n)
  | 3, none, none => some (p.base + 4 * stages p.micro + 16 * p.n)
  | 4, _, _ => some (p.base + 15)
  | _, _, _ => none
/-- A slot that a peel's exchange keeps locked n row-clock cycles from now. -/
def peelLocks (s : State) (row : Nat) (p : Peel) (k n : Nat) : Bool :=
  decide (p.kind ≠ 0) &&
  (sideHas p.a p.n k || sideHas p.b p.n k ||
    (decide (p.kind = 4) && match p.a with
      | .s st b => decide (k % 6144 = b) && decide (k / 6144 / 16 = st / 16)
      | _ => false)) &&
  (match peelDone p with | some d => decide (s.rowClk row + n < d) | none => true)
/-- A slot under exchange by the executing context, through whatever core (R320, R364). -/
def ctxLock (s : State) (k n : Nat) : Bool :=
  (List.range 32).any fun i => s.peelLocks (rowOf s.cur.ctx) (s.peel (32 * s.cur.ctx + i)) k n
/-- A slot under exchange by the executing context on the executing core. -/
def ownLock (s : State) (k n : Nat) : Bool :=
  (List.range 2).any fun i => s.peelLocks (rowOf s.cur.ctx) (s.peel (2 * coreKey s.cur.ctx s.cur.col + i)) k n
/-- The peels whose exchanges hold slots: those of resident contexts, and from number 4096 on those in the records of
pre-empted jobs (R89, R97, R242). -/
def allPeels (s : State) : List (Nat × Peel) :=
  s.peels.rows ++ s.jobs.rows.flatMap fun j => if j.2.state = .preempted then
    j.2.saved.flatMap fun v => (v.peels.filter fun q => decide (q.2.kind ≠ 0)).map fun q => (4096 + q.1, q.2) else []
/-- A slot on the local side of an S-D exchange (R97). -/
def remoteLock (s : State) (k : Nat) : Bool := s.allPeels.any fun r =>
  decide (r.2.kind = 5) && (sideHas r.2.a r.2.n k || sideHas r.2.b r.2.n k)

/-- The checks of timed accesses on their access ports at their perform cycles (cycles from now, slot): windows, then bank conflicts
(R18, R104, R105). -/
def portTrap (s : State) (acc : List (Nat × Nat)) : Option Trap :=
  let banks := (acc.map fun x => (x.1, bankOfSlot x.2)).eraseDups
  if banks.any fun x => decide (0 < s.windowLeft x.2 x.1) then some (.sched 4)
  else if (s.clashes banks).any s.ahead then some (.sched 3)
  else none
/-- The schedule-fault checks of accesses at their perform cycles (cycles from now, slot), in the order of R443: locks,
windows, bank conflicts; untimed contexts are only checked against their own exchanges (R97, R18). -/
def accessTrap (s : State) (acc : List (Nat × Nat)) : Option Trap :=
  if acc.any fun x => s.ownLock x.2 x.1 then some (.sched 10)
  else if !s.timed then none
  else if acc.any fun x => s.remoteLock x.2 then some (.sched 10)
  else s.portTrap acc
/-- Place the accesses of the executing word: the later-ranked words of this cycle they meet take the conflict. -/
def placeAcc (s : State) (acc : List (Nat × Nat)) : State := s.blame ((acc.map fun x => (x.1, bankOfSlot x.2)).eraseDups)

/-- Enter an access of the executing core that performs n cycles from its execution. -/
def access (s : State) (n id : Nat) (o : AccessOp) : State :=
  s.afterMe n 0 (.deferredAccessPerform { id := id, op := o })

/-! ### Translation (R152 to R158) -/

/-- A translated address: level (0 T, 1 F, 2 D), module and level physical address. -/
structure Xl where
  level : Nat
  module : Nat
  phys : Nat
  deriving DecidableEq, Repr

/-- A physical address within its level (R153). -/
def physOk (level phys : Nat) : Bool := match level with
  | 0 => decide (phys < 384 * 2 ^ 30)
  | 1 => decide (phys < 2048 * 2 ^ 30)
  | 2 => decide (phys < 2 ^ 30)
  | _ => false

/-- A permission that a use needs is missing (R154). -/
def lacks (r w er ew : Bool) : Bool := (r && !er) || (w && !ew)

/-- A range entry matches a virtual address (R153). -/
def entMatch (e : BitVec 256) (va : Nat) : Bool :=
  e.getLsbD 192 && decide ((e.extractLsb' 0 48).toNat ≤ va) && decide (va < (e.extractLsb' 64 48).toNat)
/-- Use of a matching range entry (R153, R154): the place, and whether the entry is of the other world. That check comes after every
0x05 that the use can meet. -/
def entUse (e : BitVec 256) (va : Nat) (r w world : Bool) : Except Trap (Xl × Bool) :=
  let base := (e.extractLsb' 0 48).toNat
  let offset := (e.extractLsb' 128 48).toNat
  let level := (e.extractLsb' 196 2).toNat
  let phys := va - base + offset
  if e.extractLsb' 212 44 ≠ 0#44 ∨ e.extractLsb' 176 16 ≠ 0#16 ∨ e.extractLsb' 112 16 ≠ 0#16 ∨ e.extractLsb' 48 16 ≠ 0#16
      ∨ level = 3 ∨ base % 4096 ≠ 0 ∨ (e.extractLsb' 64 48).toNat % 4096 ≠ 0 ∨ offset % 4096 ≠ 0 ∨ !(physOk level phys) then
    .error .translation
  else if lacks r w (e.getLsbD 193) (e.getLsbD 194) then .error .translation
  else .ok ({ level := level, module := (e.extractLsb' 198 14).toNat, phys := phys }, world != e.getLsbD 195)

/-- Range entry n of a table in far memory. -/
def rangeEnt (s : State) (rt n : Nat) : BitVec 256 := BitVec.ofNat 256 (s.load (fBase + rt + 32 * n) 32)
/-- The lowest-numbered matching entry among a list. -/
def rangeFind (es : List (BitVec 256)) (va : Nat) : Option (BitVec 256) := es.find? fun e => entMatch e va

/-- A leaf page table entry and the size of its page in address bits. -/
structure Leaf where
  pte : Word
  size : Nat
  deriving DecidableEq, Repr

/-- Use of a leaf (R154, R156), as of a range entry. -/
def leafUse (l : Leaf) (va : Nat) (r w world : Bool) : Except Trap (Xl × Bool) :=
  let level := (l.pte.extractLsb' 62 2).toNat
  let page := (l.pte.extractLsb' 9 39).toNat * 512
  let phys := page + va % 2 ^ l.size
  if level = 3 ∨ page % 2 ^ l.size ≠ 0 ∨ !(physOk level phys) then .error .translation
  else if lacks r w (l.pte.getLsbD 3) (l.pte.getLsbD 4) then .error .translation
  else .ok ({ level := level, module := (l.pte.extractLsb' 48 14).toNat, phys := phys }, world != l.pte.getLsbD 5)

/-- A walk from a node of a level (R155, R156). -/
def walkFrom (s : State) (va : Nat) : Nat → Nat → Except Trap Leaf
  | 0, node => step1 node 18 64 fun _ => .error .translation
  | n + 1, node => match n with
    | 0 => step1 node 24 64 fun a => if a % 512 ≠ 0 then .error .translation else walkFrom s va 0 a
    | 1 => step1 node 30 512 fun a => if a % 512 ≠ 0 then .error .translation else walkFrom s va 1 a
    | m + 2 => step1 node 39 512 fun a => if a % 4096 ≠ 0 then .error .translation else walkFrom s va (m + 2) a
where
  /-- One level: read the entry, deliver a leaf where the level may hold one, or go on. -/
  step1 (node sh cnt : Nat) (go : Nat → Except Trap Leaf) : Except Trap Leaf :=
    let e : Word := BitVec.ofNat 64 (s.load (fBase + node + 8 * (va / 2 ^ sh % cnt)) 8)
    if !e.getLsbD 0 ∨ e.extractLsb' 6 3 ≠ 0#3 ∨ e.getLsbD 1 then .error .translation
    else if e.getLsbD 2 then (if sh = 39 then .error .translation else .ok { pte := e, size := sh })
    else go ((e.extractLsb' 9 39).toNat * 512)

/-- The far addresses that a walk of the page table reads, from a node of a level. -/
def walkNodes (s : State) (va : Nat) : Nat → Nat → List Nat
  | 0, node => [node]
  | n + 1, node =>
    let sh := match n with | 0 => 24 | 1 => 30 | _ => 39
    let e : Word := BitVec.ofNat 64 (s.load (fBase + node + 8 * (va / 2 ^ sh % (if n = 0 then 64 else 512))) 8)
    if e.getLsbD 0 && !e.getLsbD 2 then node :: walkNodes s va n ((e.extractLsb' 9 39).toNat * 512) else [node]

/-- The page cache's answer for a job (R158). -/
def pageFind (s : State) (row job va : Nat) : Option PageEnt :=
  (s.pages.get [] row).find? fun p => p.job == job && decide (va / 2 ^ p.size = p.page)

/-- A pending reload of a cached range entry (R159). -/
def entReloading (s : State) (job n : Nat) : Bool := s.agenda.any fun e => match e.act with
  | .invalidateRangeEntry j m => j == job && m == n && e.clk == .chip && decide (e.arg = 1)
  | _ => false

/-- The row's range cache as a context uses it: only the job of the row's P context (R157, R158). -/
def rangeCache (s : State) (c : Nat) : Option (List (BitVec 256)) :=
  match s.ranges.get none (rowOf c) with
  | some (j, es) => if j = (s.ctx c).job then some es else none
  | none => none

/-- The entry of the range cache that a translation meets: the first that matches, an entry under reload matching as it is cached
or as it stands in its table (R153, R159). -/
def cacheFind (s : State) (c va : Nat) : Option Nat := match s.rangeCache c with
  | none => none
  | some es =>
    let j := (s.ctx c).job
    let rt := recRt (s.job j).record
    (List.range 16).find? fun n => entMatch (es.getD n 0#256) va || (s.entReloading j n && entMatch (s.rangeEnt rt n) va)

/-- The far addresses that a walk for a context reads: the entries of its range table that the cache does not hold, up to the one
that matches, and if none does the nodes of its page table (R158). -/
def walkReads (s : State) (c va : Nat) : List Nat :=
  let r := (s.job (s.ctx c).job).record
  let first := if (s.rangeCache c).isSome then 16 else 0
  let ents := (List.range (256 - first)).map fun i => first + i
  match ents.find? fun n => entMatch (s.rangeEnt (recRt r) n) va with
  | some n => [recRt r + 32 * first, recRt r + 32 * n]
  | none => [recRt r + 32 * first, recRt r + 32 * 255] ++ s.walkNodes va 3 (recPt r)

/-- A walk for a context cannot complete: the cached range entry that its address meets is being reloaded, or a far channel it
reads is owned (R159, R424). -/
def walkHeld (s : State) (c va : Nat) : Bool := match s.cacheFind c va with
  | some n => s.entReloading (s.ctx c).job n
  | none => (s.walkReads c va).any fun a => (s.chan (256 + a / 2 ^ 36)).owner.isSome

/-- What a translation finds; `alien` tells an entry of the other world (R154). -/
inductive XlRes where
  | done (x : Xl) (alien : Bool)
  | trap (t : Trap)
  | walk
  deriving DecidableEq, Repr

/-- Answer of an Except. -/
def XlRes.of : Except Trap (Xl × Bool) → XlRes
  | .ok x => .done x.1 x.2
  | .error t => .trap t

/-- Translate a job virtual address for the executing context (R157, R158): through the range cache, then the page
cache, else a walk; a timed context never walks, and an untimed one waits for an entry under reload (R159). -/
def xlate (s : State) (va : Nat) (r w : Bool) : XlRes :=
  let c := s.cur.ctx
  let x := s.ctx c
  match s.cacheFind c va with
  | some n =>
    if s.entReloading x.job n then (if s.timed then .trap .translation else .walk)
    else .of (entUse (((s.rangeCache c).getD []).getD n 0#256) va r w x.world)
  | none => cacheOrWalk s va r w x
where
  /-- The page cache, or a walk. -/
  cacheOrWalk (s : State) (va : Nat) (r w : Bool) (x : Ctx) : XlRes :=
    if s.timed then .trap .translation
    else match s.pageFind (rowOf s.cur.ctx) x.job va with
      | some p => .of (leafUse { pte := p.pte, size := p.size } va r w x.world)
      | none => .walk

/-- The result of a completed walk (R158): range entries the cache does not hold, then the page table. The leaf comes
with it where the page cache fills. -/
def walkResult (s : State) (c va : Nat) (r w : Bool) : XlRes × Option Leaf :=
  let x := s.ctx c
  let rec_ := (s.job x.job).record
  let first := if (s.rangeCache c).isSome then 16 else 0
  match rangeFind ((List.range (256 - first)).map fun i => s.rangeEnt (recRt rec_) (first + i)) va with
  | some e => (.of (entUse e va r w x.world), none)
  | none => match s.walkFrom va 3 (recPt rec_) with
    | .error t => (.trap t, none)
    | .ok l => (.of (leafUse l va r w x.world), some l)

/-- The number of a page among the tags of translations. -/
def pageTag (size page : Nat) : Nat := 256 + size * 2 ^ 40 + page
/-- Where the translation of an address comes from: its range entry, or its page with its size (R159). -/
def tagOf (s : State) (va : Nat) : List Nat :=
  let rt := recRt (s.job (s.ctx s.cur.ctx).job).record
  match s.cacheFind s.cur.ctx va with
  | some n => [n]
  | none => match s.pageFind (rowOf s.cur.ctx) (s.ctx s.cur.ctx).job va with
    | some p => [pageTag p.size p.page]
    | none => match (List.range 256).find? fun n => entMatch (s.rangeEnt rt n) va with
      | some n => [n]
      | none => match (s.walkResult s.cur.ctx va false false).2 with
        | some l => [pageTag l.size (va / 2 ^ l.size)]
        | none => []

/-- Fill the page cache of a row, replacing its least recently used entry of 64 (R158). -/
def pageFill (s : State) (row job va : Nat) (l : Leaf) : State :=
  let e : PageEnt := { job := job, size := l.size, page := va / 2 ^ l.size, pte := l.pte, used := s.now }
  let old := s.pages.get [] row
  let keep := if old.length < 64 then old else
    let m := old.foldl (fun a p => Nat.min a p.used) s.now
    match old.span fun p => p.used != m with
    | (a, b) => a ++ b.drop 1
  { s with pages := s.pages.put [] row (keep ++ [e]) }

/-- Mark a page cache entry as used now. -/
def pageTouch (s : State) (row job va : Nat) : State :=
  { s with pages := s.pages.put [] row ((s.pages.get [] row).map fun p =>
      if p.job = job ∧ va / 2 ^ p.size = p.page then { p with used := s.now } else p) }

/-- The block of a T or F address and its channel (R113). -/
def chanOf (level phys : Nat) : Nat :=
  if level = 0 then phys / 4096 / 393216 else 256 + phys / 4096 / 16777216

/-! ### Codewords and metadata read (R107) -/

/-- The lowest bad symbol of a mask, as the 5 bits of a log entry hold it (R168; log 91). -/
def badSymbol (m : Nat) : Nat := (((List.range 40).find? fun i => m.testBit i).getD 0) % 32
/-- A codeword, or past 2^40 a slot's metadata, that was corrected waits for its stack's next refresh of its bank (R107). -/
def askFix (s : State) (st x : Nat) : State :=
  s.modStack st fun k => { k with fixes := if k.fixes.contains x then k.fixes else k.fixes ++ [x] }
/-- Log the corrected and uncorrectable codewords that a read of a flat scratchpad range meets; corrected ones are written
back in their bank's next refresh window (R107, R168). -/
def noteSpad (s : State) (a n job : Nat) : State :=
  (s.badRows a n).foldl (fun t r =>
    let bad := decide (2 ≤ badCount r.2)
    let st := 32 * r.1 / 25165824
    let blk := 32 * r.1 % 25165824 / 4096
    let w0 : Word := BitVec.ofNat 64 (st * 2 ^ 56 + blk * 2 ^ 43 + r.1 % 128 * 2 ^ 36 + badSymbol r.2 * 2 ^ 31 +
      (if bad then 2 ^ 29 else 0))
    let u := t.logSpad st w0 job
    if bad ∨ 256 ≤ st then u else u.askFix st r.1) s
/-- The metadata of a slot cannot be corrected. -/
def metaBad (s : State) (slot : Nat) : Bool := decide (2 ≤ badCount (s.badMeta.get 0 slot))
/-- Log what a read of a slot's metadata meets, with codeword number 0 (log 91); a corrected one is written back in its bank's
next refresh window (R107, R168). -/
def noteMeta (s : State) (slot job : Nat) : State :=
  let m := s.badMeta.get 0 slot
  if m = 0 then s else
    let st := slot / 6144
    let bad := s.metaBad slot
    let w0 : Word := BitVec.ofNat 64 (st * 2 ^ 56 + slot % 6144 * 2 ^ 43 + badSymbol m * 2 ^ 31 + 2 ^ 30 + (if bad then 2 ^ 29 else 0))
    let u := s.logSpad st w0 job
    if bad then u else u.askFix st (2 ^ 40 + slot)
/-- A slot's metadata is written: it gets fresh check bits, unless it cannot be corrected (R81). -/
def renewMeta (s : State) (slot : Nat) : State :=
  if s.metaBad slot then s else { s with badMeta := s.badMeta.put 0 slot 0 }
/-- The job of the executing context. -/
def myJob (s : State) : Nat := s.myCtx.job

end State

end Sys2Proof.Machine
end

