-- ==== Sys2Proof/Machine/Words.lean ====
section
/-! DEFINITION. What the words of a bundle use: slots, units and occupancies, write ports, and the registers they read
and write (R15, R253, R256, R259, R277, R296, R316, R336, R355), and the checks on a bundle at its issue (R257). -/

namespace Sys2Proof.Machine

open Sys2Proof State

/-- What a word uses. `slot` is its slot kind (0 header, 1 scalar, 2 vector, 3 matrix, 4 peel), `units` the units with
occupancies (0 scalar, 1 divider, 2 and 3 vector, 4 array, 5 accumulator, 6 and 7 peel ports), `land` its landing offset
where fixed, `arr` the array cycles of an array command. -/
structure WordInfo where
  hd : Hd
  slot : Nat
  units : List (Nat × Nat)
  land : Option Nat
  arr : Option Nat
  rd : List Reg
  wr : List Reg
  deriving DecidableEq, Repr

/-- Array cycles of a dense command (R342). -/
def denseOcc (fmt : Nat) : Nat := match fmt with
  | 0 => 128 | 1 => 128 | 2 => 16 | 3 => 64 | 4 => 8 | 5 => 8 | 6 => 32 | 7 => 19 | 8 => 8 | _ => 32
/-- A microscaled format (R189). -/
def isMx (fmt : Nat) : Bool := fmt == 6 || fmt == 7 || fmt == 8
/-- A 64-bit TY. -/
def w64 (t : BitVec 2) : Bool := t == 3#2

namespace WordInfo

/-- Scalar register. -/
def S (n : BitVec 5) : Reg := .s n.toNat
/-- Vector register. -/
def V {n : Nat} (x : BitVec n) : Reg := .v x.toNat
/-- Mask register. -/
def K {n : Nat} (x : BitVec n) : Reg := .k x.toNat
/-- Accumulator. -/
def Z (x : BitVec 2) : Reg := .z x.toNat
/-- A scalar word with a result and the cycles it holds the divider (R277). -/
def sc (h : Hd) (land dv : Nat) (rd wr : List Reg) : Option WordInfo :=
  some { hd := h, slot := 1, units := if dv = 0 then [(0, 1)] else [(0, 1), (1, dv)], land := some land, arr := none,
         rd := rd, wr := wr }
/-- A scalar word without a timed result. -/
def sn (h : Hd) (rd wr : List Reg) : Option WordInfo :=
  some { hd := h, slot := 1, units := [(0, 1)], land := none, arr := none, rd := rd, wr := wr }
/-- A vector word with a result (R296, R316). -/
def ve (h : Hd) (pos land occ : Nat) (rd wr : List Reg) : Option WordInfo :=
  some { hd := h, slot := 2, units := [(2 + pos, occ)], land := some land, arr := none, rd := rd, wr := wr }
/-- A vector word without a result. -/
def vn (h : Hd) (pos occ : Nat) (rd : List Reg) : Option WordInfo :=
  some { hd := h, slot := 2, units := [(2 + pos, occ)], land := none, arr := none, rd := rd, wr := [] }
/-- An array command (R336, R342). -/
def ma (h : Hd) (occ : Nat) (rd wr : List Reg) : Option WordInfo :=
  some { hd := h, slot := 3, units := [(4, occ)], land := none, arr := some occ, rd := rd, wr := wr }
/-- An accumulator word with a result (R350). -/
def mc (h : Hd) (land occ : Nat) (rd wr : List Reg) : Option WordInfo :=
  some { hd := h, slot := 3, units := [(5, occ)], land := some land, arr := none, rd := rd, wr := wr }
/-- A mode word (R351). -/
def mn (h : Hd) (rd wr : List Reg) : Option WordInfo :=
  some { hd := h, slot := 3, units := [(5, 1)], land := none, arr := none, rd := rd, wr := wr }
/-- A peel word with a result at a fixed offset (R354, R355). -/
def pe (h : Hd) (pos land : Nat) (rd wr : List Reg) : Option WordInfo :=
  some { hd := h, slot := 4, units := [(6 + pos, 1)], land := some land, arr := none, rd := rd, wr := wr }
/-- A peel word without one. -/
def pn (h : Hd) (pos : Nat) (rd wr : List Reg) : Option WordInfo :=
  some { hd := h, slot := 4, units := [(6 + pos, 1)], land := none, arr := none, rd := rd, wr := wr }

end WordInfo

open WordInfo in
/-- What a word uses; `pos` is its vector position or its peel. Events use nothing. -/
def wordInfo (pos : Nat) : Instr → Option WordInfo
  | .add h d a b _ => sc h 1 0 [S a, S b] [S d]
  | .sub h d a b _ => sc h 1 0 [S a, S b] [S d]
  | .and h d a b _ => sc h 1 0 [S a, S b] [S d]
  | .or h d a b _ => sc h 1 0 [S a, S b] [S d]
  | .xor h d a b _ => sc h 1 0 [S a, S b] [S d]
  | .shl h d a b _ => sc h 1 0 [S a, S b] [S d]
  | .shr h d a b _ => sc h 1 0 [S a, S b] [S d]
  | .sar h d a b _ => sc h 1 0 [S a, S b] [S d]
  | .min h d a b _ => sc h 1 0 [S a, S b] [S d]
  | .max h d a b _ => sc h 1 0 [S a, S b] [S d]
  | .mul h d a b _ => sc h 3 0 [S a, S b] [S d]
  | .mulh h d a b _ => sc h 3 0 [S a, S b] [S d]
  | .div h d a b _ => sc h 14 4 [S a, S b] [S d]
  | .divu h d a b _ => sc h 14 4 [S a, S b] [S d]
  | .rem h d a b _ => sc h 14 4 [S a, S b] [S d]
  | .remu h d a b _ => sc h 14 4 [S a, S b] [S d]
  | .clz h d a _ => sc h 1 0 [S a] [S d]
  | .popc h d a _ => sc h 1 0 [S a] [S d]
  | .addi h d a _ => sc h 1 0 [S a] [S d]
  | .andi h d a _ => sc h 1 0 [S a] [S d]
  | .ori h d a _ => sc h 1 0 [S a] [S d]
  | .xori h d a _ => sc h 1 0 [S a] [S d]
  | .muli h d a _ => sc h 3 0 [S a] [S d]
  | .shli h d a _ => sc h 1 0 [S a] [S d]
  | .shri h d a _ => sc h 1 0 [S a] [S d]
  | .sari h d a _ => sc h 1 0 [S a] [S d]
  | .li h d _ => sc h 1 0 [] [S d]
  | .lis h d _ => sc h 1 0 [S d] [S d]
  | .fadd h d a b w => sc h (if w then 5 else 4) 0 [S a, S b] [S d]
  | .fsub h d a b w => sc h (if w then 5 else 4) 0 [S a, S b] [S d]
  | .fmul h d a b w => sc h (if w then 5 else 4) 0 [S a, S b] [S d]
  | .fmin h d a b w => sc h (if w then 5 else 4) 0 [S a, S b] [S d]
  | .fmax h d a b w => sc h (if w then 5 else 4) 0 [S a, S b] [S d]
  | .fma h d a b w => sc h (if w then 5 else 4) 0 [S a, S b, S d] [S d]
  | .fdiv h d a b w => sc h (if w then 22 else 14) (if w then 8 else 4) [S a, S b] [S d]
  | .fsqrt h d a w => sc h (if w then 22 else 14) (if w then 8 else 4) [S a] [S d]
  | .fcvtif h d a _ w => sc h (if w then 5 else 4) 0 [S a] [S d]
  | .fcvtfi h d a _ w => sc h (if w then 5 else 4) 0 [S a] [S d]
  | .fcvtw h d a w => sc h (if w then 5 else 4) 0 [S a] [S d]
  | .fclass h d a w => sc h (if w then 5 else 4) 0 [S a] [S d]
  | .ld h d a _ => sc h 4 0 [S a] [S d]
  | .lw h d a _ => sc h 4 0 [S a] [S d]
  | .lwu h d a _ => sc h 4 0 [S a] [S d]
  | .st h d a _ => sn h [S a, S d] []
  | .sw h d a _ => sn h [S a, S d] []
  | .amoadd h _ d a b _ => sc h 8 0 [S a, S b] [S d]
  | .amoand h _ d a b _ => sc h 8 0 [S a, S b] [S d]
  | .amoor h _ d a b _ => sc h 8 0 [S a, S b] [S d]
  | .amoxor h _ d a b _ => sc h 8 0 [S a, S b] [S d]
  | .amomin h _ d a b _ => sc h 8 0 [S a, S b] [S d]
  | .amomax h _ d a b _ => sc h 8 0 [S a, S b] [S d]
  | .amoswap h _ d a b _ => sc h 8 0 [S a, S b] [S d]
  | .amocas h _ d a b _ => sc h 8 0 [S a, S b, S d] [S d]
  | .j h _ => sn h [] []
  | .jz h a _ => sn h [S a] []
  | .jnz h a _ => sn h [S a] []
  | .jp h a _ => sn h [.p a.toNat] []
  | .jany s a _ => sn ⟨s, false, 0#3⟩ [.p a.toNat] []
  | .jall s a _ => sn ⟨s, false, 0#3⟩ [.p a.toNat] []
  | .call h a _ => sc h 1 0 [] [S a]
  | .ret h a => sn h [S a] []
  | .loop h a _ => sn h [S a] []
  | .loopi h _ _ _ => sn h [] []
  | .lbrk h => sn h [] []
  | .peq h d a b _ => sc h 1 0 [S a, S b] [.p d.toNat]
  | .pne h d a b _ => sc h 1 0 [S a, S b] [.p d.toNat]
  | .plt h d a b _ => sc h 1 0 [S a, S b] [.p d.toNat]
  | .ple h d a b _ => sc h 1 0 [S a, S b] [.p d.toNat]
  | .pltu h d a b _ => sc h 1 0 [S a, S b] [.p d.toNat]
  | .pfeq h d a b _ => sc h 1 0 [S a, S b] [.p d.toNat]
  | .pflt h d a b _ => sc h 1 0 [S a, S b] [.p d.toNat]
  | .pand h d a b => sc h 1 0 [.p a.toNat, .p b.toNat] [.p d.toNat]
  | .por h d a b => sc h 1 0 [.p a.toNat, .p b.toNat] [.p d.toNat]
  | .pnot h d a => sc h 1 0 [.p a.toNat] [.p d.toNat]
  | .vadd h d a b t k => ve h pos (if w64 t then 18 else 10) (if w64 t then 16 else 8) [V a, V b, K k] [V d]
  | .vsub h d a b t k => ve h pos (if w64 t then 18 else 10) (if w64 t then 16 else 8) [V a, V b, K k] [V d]
  | .vmul h d a b t k => ve h pos (if w64 t then 18 else 10) (if w64 t then 16 else 8) [V a, V b, K k] [V d]
  | .vmin h d a b t k => ve h pos (if w64 t then 18 else 10) (if w64 t then 16 else 8) [V a, V b, K k] [V d]
  | .vmax h d a b t k => ve h pos (if w64 t then 18 else 10) (if w64 t then 16 else 8) [V a, V b, K k] [V d]
  | .vand h d a b t k => ve h pos (if w64 t then 18 else 10) (if w64 t then 16 else 8) [V a, V b, K k] [V d]
  | .vor h d a b t k => ve h pos (if w64 t then 18 else 10) (if w64 t then 16 else 8) [V a, V b, K k] [V d]
  | .vxor h d a b t k => ve h pos (if w64 t then 18 else 10) (if w64 t then 16 else 8) [V a, V b, K k] [V d]
  | .vshl h d a b t k => ve h pos (if w64 t then 18 else 10) (if w64 t then 16 else 8) [V a, V b, K k] [V d]
  | .vshr h d a b t k => ve h pos (if w64 t then 18 else 10) (if w64 t then 16 else 8) [V a, V b, K k] [V d]
  | .vsar h d a b t k => ve h pos (if w64 t then 18 else 10) (if w64 t then 16 else 8) [V a, V b, K k] [V d]
  | .vfadd h d a b t k => ve h pos (if w64 t then 18 else 10) (if w64 t then 16 else 8) [V a, V b, K k] [V d]
  | .vfsub h d a b t k => ve h pos (if w64 t then 18 else 10) (if w64 t then 16 else 8) [V a, V b, K k] [V d]
  | .vfmul h d a b t k => ve h pos (if w64 t then 18 else 10) (if w64 t then 16 else 8) [V a, V b, K k] [V d]
  | .vfmin h d a b t k => ve h pos (if w64 t then 18 else 10) (if w64 t then 16 else 8) [V a, V b, K k] [V d]
  | .vfmax h d a b t k => ve h pos (if w64 t then 18 else 10) (if w64 t then 16 else 8) [V a, V b, K k] [V d]
  | .vsel h d a b t k => ve h pos (if w64 t then 18 else 10) (if w64 t then 16 else 8) [V a, V b, K k] [V d]
  | .vceq h d a b t k => ve h pos (if w64 t then 18 else 10) (if w64 t then 16 else 8) [V a, V b, K k] [.k (d.toNat % 8)]
  | .vclt h d a b t k => ve h pos (if w64 t then 18 else 10) (if w64 t then 16 else 8) [V a, V b, K k] [.k (d.toNat % 8)]
  | .vfceq h d a b t k => ve h pos (if w64 t then 18 else 10) (if w64 t then 16 else 8) [V a, V b, K k] [.k (d.toNat % 8)]
  | .vfclt h d a b t k => ve h pos (if w64 t then 18 else 10) (if w64 t then 16 else 8) [V a, V b, K k] [.k (d.toNat % 8)]
  | .vfcle h d a b t k => ve h pos (if w64 t then 18 else 10) (if w64 t then 16 else 8) [V a, V b, K k] [.k (d.toNat % 8)]
  | .vfma h d a b t k => ve h pos (if w64 t then 18 else 10) (if w64 t then 16 else 8) [V a, V b, V d, K k] [V d]
  | .vfdiv h d a b t k => ve h pos 24 (if w64 t then 16 else 8) [V a, V b, K k] [V d]
  | .vfsqrt h d a t k => ve h pos 24 (if w64 t then 16 else 8) [V a, K k] [V d]
  | .vfrsq h d a t k => ve h pos 24 (if w64 t then 16 else 8) [V a, K k] [V d]
  | .vfexp2 h d a t k => ve h pos 24 (if w64 t then 16 else 8) [V a, K k] [V d]
  | .vflog2 h d a t k => ve h pos 24 (if w64 t then 16 else 8) [V a, K k] [V d]
  | .vcvt h d a b t k => let x := w64 t || b.toNat % 8 == 3; ve h pos (if x then 18 else 10) (if x then 16 else 8) [V a, K k] [V d]
  | .vcvti h d a b t k => let x := w64 t || b.toNat % 4 == 3; ve h pos (if x then 18 else 10) (if x then 16 else 8) [V a, K k] [V d]
  | .vcvtf h d a b t k => let x := w64 t || b.toNat % 8 == 3; ve h pos (if x then 18 else 10) (if x then 16 else 8) [V a, K k] [V d]
  | .vqmx h d a b _ _ => ve h pos 10 8 [V a] [V d, V b]
  | .vdqmx h d a b _ k => ve h pos 10 8 [V a, V b, K k] [V d]
  | .vrotr h d a b t k => ve h pos 16 (if w64 t then 16 else 8) [V a, V b, K k] [V d]
  | .vbcr h d a b t k => ve h pos 16 (if w64 t then 16 else 8) [V a, V b, K k] [V d]
  | .vsumr h d a _ t k => ve h pos 16 (if w64 t then 16 else 8) [V a, K k] [V d]
  | .vmaxr h d a _ t k => ve h pos 16 (if w64 t then 16 else 8) [V a, K k] [V d]
  | .vscanr h d a _ t k => ve h pos 16 (if w64 t then 16 else 8) [V a, K k] [V d]
  | .vlrecr h d a b _ k => ve h pos 22 16 [V a, V b, V d, K k] [V d]
  | .vrotc h d a b t k => ve h pos 12 (if w64 t then 16 else 8) [V a, V b, K k] [V d]
  | .vbcc h d a b t k => ve h pos 12 (if w64 t then 16 else 8) [V a, V b, K k] [V d]
  | .vsumc h d a _ t k => ve h pos 12 (if w64 t then 16 else 8) [V a, K k] [V d]
  | .vmaxc h d a _ t k => ve h pos 12 (if w64 t then 16 else 8) [V a, K k] [V d]
  | .vscanc h d a _ t k => ve h pos 12 (if w64 t then 16 else 8) [V a, K k] [V d]
  | .vtrn h d a _ k => ve h pos 14 8 [V a, K k] [V d]
  | .vmerge3 h d a b => ve h pos 24 16 [V a, .v (a.toNat + 1), V b, .v (b.toNat + 1)] [V d, .v (d.toNat + 1)]
  | .vtmask h d a b k => ve h pos 10 8 [V a, V b, K k] [V d]
  | .vsmx h d a b => ve h pos 32 16 [V a, V b] [V d, V b]
  | .vld h v a _ k => ve h pos 20 16 [S a, K k] [V v]
  | .vst h v a _ k => vn h pos 16 [S a, V v, K k]
  | .vldt h v a _ k => ve h pos 20 16 [S a, .s (a.toNat + 1), K k] [V v]
  | .vlds h v a i k => ve h pos 20 16 [S a, .h i.toNat, K k] [V v]
  | .vsts h v a i k => vn h pos 16 [S a, V v, .h i.toNat, K k]
  | .vgath h v a i k => ve h pos 36 32 [S a, V i, K k] [V v]
  | .vscat h v a i k => vn h pos 32 [S a, V v, V i, K k]
  | .vscatc h v a i k => ve h pos 36 32 [S a, V v, V i, K k] [.p 6]
  | .vscadd h v a i k => vn h pos 32 [S a, V v, V i, K k]
  | .visect h d a b => ve h pos 16 8 [V a, V b] [.k (d.toNat % 8), .k (d.toNat % 8 + 1), .p 6]
  | .vcomp h d a _ k => ve h pos 16 8 [V a, K k] [V d]
  | .vexpd h d a _ k => ve h pos 16 8 [V a, K k] [V d]
  | .vconf h d a _ k => ve h pos 16 8 [V a, K k] [.k (d.toNat % 8)]
  | .vsegs h d a b _ k => ve h pos 22 16 [V a, V b, K k] [V d]
  | .vmov h d a _ k => ve h pos 6 4 [V a, K k] [V d]
  | .vmovx h d a _ t k => ve h pos 6 (if t = 0#2 then 4 else 1) [V a, K k] [V d]
  | .vsplat h d _ _ k => ve h pos 6 4 [K k] [V d]
  | .vins h d a _ k => ve h pos 6 1 [V a, K k] [V d]
  | .vext h d a _ k => ve h pos 6 4 [V a, K k] [V d]
  | .vrand h d k => ve h pos 18 2 [K k] [V d]
  | .kand h d a b => ve h pos 2 1 [K a, K b] [K d]
  | .kor h d a b => ve h pos 2 1 [K a, K b] [K d]
  | .kxor h d a b => ve h pos 2 1 [K a, K b] [K d]
  | .knot h d a => ve h pos 2 1 [K a] [K d]
  | .kpop h d a => ve h pos 2 1 [K a] [K d]
  | .kfirst h d a => ve h pos 2 1 [K a] [K d]
  | .kset h d e => ve h pos 2 1 [S e] [K d]
  | .mma h z a b f => ma h (denseOcc f.toNat) ([S a, S b] ++ (if isMx f.toNat then [.e 0, .e 1] else [])) [Z z]
  | .mmaz h z a b f => ma h (denseOcc f.toNat) ([S a, S b] ++ (if isMx f.toNat then [.e 0, .e 1] else [])) [Z z]
  | .mmat h z a b f => ma h (denseOcc f.toNat) ([S a, S b] ++ (if isMx f.toNat then [.e 0, .e 1] else [])) [Z z]
  | .mmax h z a b f => ma h (denseOcc f.toNat) [S a, S b, .e 2, .e 3] [Z z]
  | .mwin h z a b f => ma h (denseOcc f.toNat) [S a, S b, .h z.toNat] [Z z]
  | .mcsr h z a b _ => ma h 64 [S a, S b] [Z z]
  | .mbsr h z a b _ => ma h 64 [S a, S b] [Z z]
  | .m24 h z a b f => ma h (denseOcc f.toNat) [S a, S b] [Z z]
  | .zrd h z b _ => mc h 8 4 [Z z] [V b]
  | .zwr h z b _ => mc h 8 4 [V b] [Z z]
  | .zclr h z => mc h 2 1 [] [Z z]
  | .esld h z a _ => mc h 8 1 [S a] [.e z.toNat]
  | .amode h _ => mn h [] []
  | .mshape h a b f => mn h [S a, S b] [.h f.toNat]
  | .xch h x y _ => pn h pos [S x, S y] []
  | .xchc h x y v => pn h pos [S x, S y, S v] [.p 7]
  | .xcht h x y _ => pn h pos [S x, S y, .s (x.toNat + 1)] []
  | .xrot h x => pn h pos [S x] []
  | .xver h x y => pn h pos [S x, S y] []
  | .xverRead h x y => pe h pos 4 [S x] [S y]
  | .send h x _ => pn h pos [S x] []
  | .recv h x _ => pe h pos 20 [] [V x]
  | .vfpush h x _ => pn h pos [V x] []
  | .vfpop h x _ => pe h pos 4 [] [V x]
  | .vffree h x => pe h pos 2 [] [S x]
  | .dact h c _ => pn h pos [S c] []
  | .drd h c => pn h pos [S c] []
  | .dwr h c => pn h pos [S c] []
  | .dprea h c => pn h pos [S c] []
  | .dref h c => pn h pos [S c] []
  | .dpre h c _ => pn h pos [S c] []
  | .ssbind h x y _ => pn h pos [S x, S y] []
  | .ssadv h y _ => pn h pos [S y] []
  | .ssroll h y _ => pn h pos [S y] []
  | .ssfork h x y _ => pn h pos [S x, S y] []
  | .ssdrop h _ => pn h pos [] []
  | .ssfind h x y _ => pe h pos 4 [S y] [S x, .p 6]
  | .gld h x y c => pn h pos [S y] [if c.getLsbD 0 then V x else S x]
  | .gst h x y c => pn h pos [S y, if c.getLsbD 0 then V x else S x] []
  | .gacq h x y => pn h pos [S y] [S x]
  | .grel h x y => pn h pos [S x, S y] []
  | .gamo h x y c => pn h pos ([S x, S y] ++ (if c.toNat % 8 = 7 then [.s (x.toNat + 1)] else [])) [S x]
  | .gmrg h x y _ => pn h pos [.v (2 * x.toNat), .v (2 * x.toNat + 1), S y, .s (y.toNat + 1)] []
  | .agset h x y c => pe h pos 2 [S x, S y] [.g c.toNat]
  | .agen h x y c => pe h pos 2 [S y, .g c.toNat] [S x]
  | .syscall h _ => sn h [] []
  | .trapi h _ => sn h [] []
  | .fence h _ => sn h [] []
  | .yield h _ => sn h [] []
  | .realign h => sn h [] []
  | .waitk h a _ => sn h [S a] []
  | .halt h => sn h [] []
  | .getc h d _ => sc h 1 0 [] [S d]
  | .setc h d _ => sc h 1 0 [S d] []
  | .setb h d _ => sc h 1 0 [S d] []
  | .clrb h d _ => sc h 1 0 [S d] []
  | .launch h d a b => sc h 40 0 [S a, S b] [S d]
  | .hdr s _ => some { hd := ⟨s, false, 0#3⟩, slot := 0, units := [], land := none, arr := none, rd := [], wr := [] }
  | _ => none

/-- TIMED is cleared when the word issues (R23). -/
def clearsTimed : Instr → Bool
  | .jz .. | .jnz .. | .jp .. | .jany .. | .jall .. | .loop .. | .lbrk .. => true
  | .j h _ | .call h _ _ | .ret h _ => h.n || h.p != 0#3
  | _ => false

/-- The word may leave its successor's issue cycle open when it issues (R259). -/
def endsView (timed : Bool) : Instr → Bool
  | .j .. | .jz .. | .jnz .. | .jp .. | .jany .. | .jall .. | .call .. | .ret .. | .loop .. | .loopi .. | .lbrk ..
  | .halt .. => true
  | .fence .. => !timed
  | _ => false

/-- The slot kind a major opcode routes to (R253). -/
def majSlot (maj : Nat) : Option Nat :=
  if maj = 0x3F then some 0
  else if maj ≤ 0x09 ∨ maj = 0x38 then some 1
  else if 0x10 ≤ maj ∧ maj ≤ 0x19 then some 2
  else if 0x20 ≤ maj ∧ maj ≤ 0x23 then some 3
  else if 0x28 ≤ maj ∧ maj ≤ 0x2D then some 4
  else none

/-- The slot of the n-th word of a kind in its bundle. -/
def slotNth (kind n : Nat) : Slot := match kind with
  | 0 => .header | 1 => .scalar
  | 2 => if n = 0 then .vec0 else .vec1
  | 3 => .matrix
  | _ => if n = 0 then .peel0 else .peel1

/-- A placed word of a bundle: its slot, its position among its kind, and the instruction. -/
structure Placed where
  slot : Slot
  pos : Nat
  ins : Instr
  info : WordInfo
  deriving DecidableEq, Repr

/-- The numbers of R60. -/
def ctlExists (n : Nat) : Bool :=
  [0x000, 0x001, 0x002, 0x003, 0x004, 0x010, 0x011, 0x012, 0x013, 0x020, 0x021, 0x030, 0x031, 0x032, 0x040, 0x041, 0x050,
   0x051, 0x052, 0x060].contains n || (decide (0x070 ≤ n) && decide (n ≤ 0x077))
/-- A word that names a control register that R60 does not list: an illegal encoding (R61, R266, R394). -/
def unlisted : Instr → Bool
  | .getc _ _ i | .setc _ _ i | .setb _ _ i | .clrb _ _ i => !(ctlExists i.toNat)
  | _ => false

/-- The words of a bundle placed in order, up to the first offending one, whose slot comes with them (R257). -/
def placeWords (vecs : Nat) : List (BitVec 32) → Nat → List Nat → List Placed → List Placed × Option Slot
  | [], _, _, acc => (acc, none)
  | w :: r, idx, kinds, acc =>
    let maj := (w.extractLsb' 25 6).toNat
    match majSlot maj with
    | none => (acc, some .header)
    | some k =>
      let n := (kinds.filter (· == k)).length
      let lim := if k = 2 ∨ k = 4 then 2 else 1
      let late := kinds.any fun x => decide (k < x)
      -- a lone V or VM word names its position in bit 15; a K word alone takes position 0 (R254)
      let bit15 := if w.getLsbD 15 then 1 else 0
      let pos := if k = 2 then (if 2 ≤ vecs then n else if maj = 0x19 then 0 else bit15) else n
      let slot := slotNth k pos
      if k = 0 ∧ idx ≠ 0 then (acc, some .header)
      else if late ∨ lim ≤ n then (acc, some (slotNth k n))
      else if k = 2 ∧ maj ≠ 0x19 ∧ bit15 ≠ pos then (acc, some slot)
      else match decodeWord w with
        | .error _ => (acc, some slot)
        | .ok i => match wordInfo pos i with
          | none => (acc, some slot)
          | some inf =>
            -- a later word reads or writes a register an earlier one writes (R256)
            let dep := acc.any fun a => a.info.wr.any fun x =>
              !x.fixed && (inf.rd.contains x || inf.wr.contains x || x == .p inf.hd.p.toNat)
            if dep || unlisted i then (acc, some slot)
            else placeWords vecs r (idx + 1) (kinds ++ [k]) (acc ++ [{ slot := slot, pos := pos, ins := i, info := inf }])

/-- Check the form of a bundle's words (R252 to R257). -/
def bundleForm (ws : List (BitVec 32)) : List Placed × Option Slot :=
  placeWords (ws.filter fun w => majSlot (w.extractLsb' 25 6).toNat == some 2).length ws 0 [] []

end Sys2Proof.Machine
end

