-- ==== Sys2Proof/Machine/Array.lean ====
section
/-! DEFINITION. Array windows, reservations and landing cycles of array commands (R337, R338). -/

namespace Sys2Proof.Machine

open Sys2Proof State

/-- The window length of an AMODE value (R71). -/
def winLen (w : BitVec 2) : Nat := match w.toNat with | 0 => 8 | 1 => 16 | _ => 32

/-- What a command finds on the array: the offset of its last array cycle from its execution, the frame-clock values it
reserves, and whether a timed command meets 0x03, subcode 0x05. -/
structure ArrayRun where
  last : Nat
  vals : List Int
  bad : Bool
  deriving DecidableEq, Repr

/-- A die owns the window of a frame-clock value (R337). -/
def ownsFrame (die w : Nat) (f : Int) : Bool := decide ((f / (w : Int)) % 2 = (die : Int))

/-- Count array cycles from offset k on: `f0` is the frame-clock value of offset 0. A value that another command holds, or that this one
holds already, is reserved (R338). -/
def arrayLoop (die w occ : Nat) (f0 : Int) (held : List Int) : Nat → Nat → List Int → Bool → ArrayRun
  | 0, k, vals, bad => { last := k, vals := vals, bad := bad }
  | fuel + 1, k, vals, bad =>
    let f := f0 + (k : Int)
    if ownsFrame die w f then
      if held.contains f || vals.contains f then arrayLoop die w occ f0 held fuel (k + 1) vals true
      else if occ ≤ vals.length + 1 then { last := k, vals := vals ++ [f], bad := bad }
      else arrayLoop die w occ f0 held fuel (k + 1) (vals ++ [f]) bad
    else arrayLoop die w occ f0 held fuel (k + 1) vals bad

/-- Cycles in which a count of occ array cycles beside held ones must end: half of the cycles are owned. -/
def arrayFuel (w occ : Nat) (held : List Int) : Nat := 2 * (2 * occ + held.length) + 4 * w + 8

namespace State

/-- ArrayEnd of R338 from a frame-clock value f0 of the execution cycle: occ array cycles of a die from offset 2 + d under
a window length, beside the values held. -/
def arrayFrom (die w occ : Nat) (f0 : Int) (held : List Int) (d : Nat) : ArrayRun :=
  let f := f0 + 2 + (d : Int)
  let startBad := !(ownsFrame die w f) || held.contains f
  let r := arrayLoop die w occ f0 held (arrayFuel w occ held) (2 + d) [] false
  { r with bad := r.bad || startBad }

/-- What the frame clock of a row's stacks read more than the row's clock in a row-clock cycle (R337): the newest entry that
reaches back to it. -/
def frameOff (now : Int) (l : List (Nat × Int)) (t : Nat) : Int := match l.find? fun x => decide (x.1 ≤ t) with
  | some x => x.2
  | none => (l.getLast?.map Prod.snd).getD now

/-- The frame clock that a core of a context counts its present cycle from: as it read 2*col of the row's cycles ago (R337). -/
def frame0 (s : State) (c col : Nat) : Int :=
  let r := rowOf c
  let t := s.rowClk r
  let now := s.frameClk (stackOf c col)
  if col = 0 then now
  else frameOff (now - (t : Int)) (s.frames.get [] r) (t - 2 * col) + (t : Int) - 2 * (col : Int)

/-- The frame clocks of the rows as the cycle that begins sees them: a row notes a change of its distance from its own clock, as
long as a core of the row can still look back on it, with the one in force before; a row that stands or holds no context notes nothing
(R337). -/
def noteFrames (s : State) : Tbl (List (Nat × Int)) := (List.range 32).foldl (fun t r =>
  if (s.ctx (2 * r)).job = 0 ∧ (s.ctx (2 * r + 1)).job = 0 then t.put [] r []
  else if s.rowStill r then t
  else
    let now := s.rowClk r
    let off := s.frameClk (stackOf (2 * r) 0) - (now : Int)
    let l := t.get [] r
    if (l.head?.map Prod.snd) = some off then t
    else
      let young := l.takeWhile fun x => decide (now ≤ x.1 + 31)
      t.put [] r ((now, off) :: l.take (young.length + 1))) s.frames

/-- ArrayEnd of R338 for a core of a context: occ array cycles from offset 2 + d. -/
def arrayEnd (s : State) (c col d occ : Nat) : ArrayRun :=
  let k := s.stackAt (stackOf c col)
  arrayFrom (dieOf c) (winLen k.force) occ (s.frame0 c col) k.arr d

/-! ### Counting again (R202, R338) -/

/-- The array commands under way on a stack. -/
def cmdsOn (s : State) (st : Nat) : List (Sched × MatCmd) := s.agenda.filterMap fun e => match e.act with
  | .matrixResultLanding m => if stackOf e.cur.ctx e.cur.col = st then some (e, m) else none
  | _ => none

/-- A command counts the array cycles it has not counted yet again, from the frame clock as its core sees it, beside the values
held; its landing moves with the last of them (R338). -/
def recount (s : State) (held : List Int) (e : Sched) (m : MatCmd) : Sched × MatCmd :=
  let t := s.rowClk (rowOf e.cur.ctx)
  let te := e.due - (m.last + 31 + m.delay)
  let k := t - te
  let f0 := s.frame0 e.cur.ctx e.cur.col - (k : Int)
  let past := m.vals.filter fun v => decide (v < m.f0 + (k : Int)) && decide (m.f0 + 2 + (m.defer : Int) ≤ v)
  if m.occ ≤ past.length then (e, m)
  else
    let r := arrayLoop (dieOf e.cur.ctx) m.win m.occ f0 held (arrayFuel m.win m.occ held)
      (Nat.max (2 + m.defer) (Nat.min k (m.last + 1))) past false
    let n : MatCmd := { m with f0 := f0, last := r.last, vals := r.vals }
    ({ e with due := te + r.last + 31 + m.delay, act := .matrixResultLanding n }, n)

/-- Insert a command by the order of entry. -/
def cmdInsert (x : Sched × MatCmd) : List (Sched × MatCmd) → List (Sched × MatCmd)
  | [] => [x]
  | y :: r => if x.1.ord < y.1.ord then x :: y :: r else y :: cmdInsert x r

/-- Count the named commands of a stack again, in the order in which they were issued, beside the values that the others hold
(R202, R338). -/
def rebook (s : State) (st : Nat) (which : Sched → Bool) : State :=
  let all := s.cmdsOn st
  let again := (all.filter fun x => which x.1).foldl (fun l x => cmdInsert x l) []
  let kept := (s.stackAt st).arr.filter fun v => !(again.any fun x => x.2.vals.contains v)
  let r := again.foldl (fun a x =>
    let y := s.recount a.1 x.1 x.2
    (a.1 ++ y.2.vals, a.2 ++ [y.1])) (kept, ([] : List Sched))
  { s.modStack st fun k => { k with arr := r.1 } with
    agenda := s.agenda.map fun e => (r.2.find? fun x => x.ord == e.ord && match e.act with
      | .matrixResultLanding _ => true
      | _ => false).getD e }

/-- A command's next array cycle does not find the frame clock where it counted on it: the frame clock or the row stood (R337,
R338). -/
def slipped (s : State) (e : Sched) (m : MatCmd) : Bool :=
  let k := s.rowClk (rowOf e.cur.ctx) - (e.due - (m.last + 31 + m.delay))
  decide (k ≤ m.last) && decide (s.frame0 e.cur.ctx e.cur.col ≠ m.f0 + (k : Int)) && !(s.rowStill (rowOf e.cur.ctx))

/-- The array commands of every stack whose frame clock moved otherwise than they counted on, and the untimed ones behind them,
count again (R337, R338). -/
def slipArrays (s : State) : State :=
  let slips := s.agenda.filter fun e => match e.act with
    | .matrixResultLanding m => s.slipped e m
    | _ => false
  (slips.map fun e => stackOf e.cur.ctx e.cur.col).eraseDups.foldl (fun t st =>
    let mine := slips.filter fun e => stackOf e.cur.ctx e.cur.col == st
    t.rebook st fun e => mine.any fun x => x.ord == e.ord || (!(timedEntry e) && decide (x.ord < e.ord))) s

/-- Array cycles that the pending commands of a core count in the present cycle (R186). -/
def arrayBusy (s : State) (c col : Nat) : Bool := s.agenda.any fun e => e.cur.ctx == c && e.cur.col == col && match e.act with
  | .matrixResultLanding m => !m.null && m.vals.contains (s.frame0 c col)
  | _ => false

/-- Cycles from now to the first domain cycle of the next step (R173, R225). -/
def toStep (s : State) (c : Nat) : Nat := (65536 - s.stepDom (s.partOf c) % 65536).toNat

/-- Domain cycles from one (of count d, and of count sd since step 0) to the first of the step that follows an operation's issue
(R225, R359). -/
def stepAfter (d sd : Int) (issue : BitVec 32) : Int :=
  let age : Nat := (BitVec.ofInt 32 d - issue).toNat
  ((sd - age) / 65536 + 1) * 65536 - sd

/-- Taps of a window walk (R57, R346). -/
def tapsOf (h : Quad) : Nat :=
  let f0 := (h.extractLsb' 88 4).toNat
  let f1 := (h.extractLsb' 92 4).toNat
  (if f0 = 0 then 16 else f0) * (if f1 = 0 then 16 else f1)

/-- The array cycles a command takes; those of MWIN depend on its shape register (R336, R346). -/
def arrayCycles (s : State) (i : Instr) (occ : Nat) : Nat := match i with
  | .mwin _ z _ _ _ => tapsOf (s.rh z.toNat) * Nat.max occ 16
  | _ => occ

/-- The units that a placed word occupies and for how long (R259, R336). -/
def unitsOf (s : State) (p : Placed) : List (Nat × Nat) := match p.info.arr with
  | some occ => [(4, s.arrayCycles p.ins occ)]
  | none => p.info.units

/-- The landing offset of a placed word through its port, where it is fixed at issue (R47, R338, R355). -/
def landOf (s : State) (c col : Nat) (p : Placed) : Option Nat := match p.info.arr with
  | some occ => some ((s.arrayEnd c col 0 (s.arrayCycles p.ins occ)).last + 31)
  | none => match p.ins with
    | .gld _ _ _ x => if x.getLsbD 1 then some (s.toStep c + if x.getLsbD 0 then 48 else 32) else none
    | _ => p.info.land

/-- The write ports that results of a context are due through, each with its cycles from now, as the head core's results show them; a
delayed result, and the p7 of an XCHC, whose cycle its DRD fixes, come only where the question is about Q (R15, R47, R355). A word
that its guard nullified on the head core counts whatever the guards of cores 1 to 15 are: at the issue of a later word they may be
still to come (log 109). -/
def portsDue (s : State) (c : Nat) (late : Bool) : List (Nat × Nat) :=
  let r := Clk.row (rowOf c)
  (s.agenda.filterMap fun e =>
    if e.cur.ctx ≠ c ∨ e.cur.col ≠ 0 ∨ e.clk ≠ r then none else match e.act with
      | .resultLanding f =>
        if f.writes = [] || (!late && (f.reply || decide (f.delay ≠ 0)))
        then none else some (f.port, e.due - s.rowClk (rowOf c))
      | .matrixResultLanding m =>
        if m.null || (!late && decide (m.delay ≠ 0 ∨ m.defer ≠ 0)) then none else some (e.cur.slot.port, e.due - s.rowClk (rowOf c))
      | _ => none) ++
  ((s.ctx c).occ.filterMap fun o =>
    if 8 ≤ o.unit ∧ s.rowClk (rowOf c) ≤ o.from_ then some (o.unit - 8, o.from_ - s.rowClk (rowOf c)) else none) ++
  (if !late then [] else s.agenda.filterMap fun e => match e.act with
    | .drdBeatArrival _ k burst q =>
      let p := s.peel k
      if p.kind = 2 ∧ p.state = 0 ∧ burst = 0 ∧ q = 3 ∧ p.cur.ctx = c ∧ p.cur.col = 0 then
        some (p.cur.slot.port, e.due + 1 - s.clkNow e.clk) else none
    | _ => none) ++
  (List.range 64).filterMap fun i =>
    let g := s.gent (64 * coreKey c 0 + i)
    if g.state = 1#2 ∧ g.stepped ∧ g.kind = 0#8 then
      some (g.cur.slot.port, (stepAfter (s.dom (s.partOf c)) (s.stepDom (s.partOf c)) g.issue + if g.vec then 48 else 32).toNat)
    else none

end State

end Sys2Proof.Machine
end

