-- ==== Sys2Proof/Machine/Fetch.lean ====
section
/-! DEFINITION. Fetching a bundle and deciding when and whether it issues: the image, DELAY, occupancy, write ports and
the merge of P and Q (R15, R47, R252 to R259, R276). -/

namespace Sys2Proof.Machine

open Sys2Proof State

/-- What a fetch delivers. -/
inductive Fetched where
  | words (ws : List (BitVec 32))
  | beyond
  | endless
  deriving DecidableEq, Repr

namespace State

/-- Collect the words of a bundle (R252). -/
def fetchFrom (s : State) (j : Nat) : Nat → Nat → List (BitVec 32) → Fetched
  | 0, _, _ => .endless
  | n + 1, pc, acc => match s.imageWord j pc with
    | none => .beyond
    | some w => if w.getLsbD 31 then .words (acc ++ [w]) else fetchFrom s j n (pc + 1) (acc ++ [w])

/-- The bundle at a word address. -/
def fetchBundle (s : State) (j pc : Nat) : Fetched := s.fetchFrom j 7 pc []

/-- The row-clock cycle at which a context issues its next bundle unless it slips (R258). -/
def issueAt (s : State) (c : Nat) : Nat :=
  let x := s.ctx c
  x.due + (if x.dueDelayed then 0 else s.delayAt x.job x.pc)

/-- The cursor of a context's head core for the bundle about to issue. -/
def headCur (s : State) (c : Nat) (slot : Slot) (nw : Nat) : Cursor :=
  let x := s.ctx c
  { ctx := c, col := 0, slot := slot, bundle := x.pc, nw := nw, timed := x.timed, cmode := s.cmode.get false (rowNo c),
    seq := x.seq + 1 }

/-! ### Occupancy and ports (R257, R259, R47) -/

/-- A unit of a placed word is still occupied at a cycle. -/
def unitBusy (s : State) (occ : List Occ) (t : Nat) (p : Placed) : Bool :=
  (s.unitsOf p).any fun u => occ.any fun o => decide (o.unit = u.1) && decide (o.from_ ≤ t) && decide (t < o.from_ + o.len)
/-- The result of a placed word would land in a cycle already taken at its port. -/
def portBusy (s : State) (c : Nat) (due : List (Nat × Nat)) (p : Placed) : Bool :=
  match s.landOf c 0 p with
  | some n => due.contains (p.slot.port, n)
  | none => false

/-- The slot of the first offending word of a P bundle (R257). -/
def offending (s : State) (c : Nat) (r : List Placed × Option Slot) : Option Slot :=
  let x := s.ctx c
  let t := s.rowClk (rowOf c)
  let due := s.portsDue c false
  match (if isQ c then none else r.1.find? fun p => s.unitBusy x.occ t p || s.portBusy c due p) with
  | some p => some p.slot
  | none => r.2

/-! ### The merge stage (R15, R259) -/

/-- Row-clock cycles from now to the first domain cycle strictly later that is a multiple of a period. -/
def toMultiple (s : State) (c period : Nat) : Nat :=
  let d := s.dom (s.partOf c)
  ((period : Int) - d % (period : Int)).toNat
/-- The cycle at which a context issues its next bundle, where that is fixed: its start, its wait's end, or its due cycle (R25, R258,
R392). -/
def waitTarget (s : State) (c : Nat) : Option Nat :=
  let x := s.ctx c
  let t := s.rowClk (rowOf c)
  let p := s.part (s.partOf c)
  let tick := s.toMultiple c s.tickPeriod
  let step := s.toStep c
  match (if x.wait = .none then none else s.releaseAt c), x.wait with
  | some e, _ => some (e + s.delayAt x.job x.pc)
  | _, .none =>
    if (s.job x.job).state = .running then some (s.issueAt c)
    else (s.agenda.find? fun e => e.act == .jobStart && e.arg == x.job).map fun e =>
      t + (e.due - s.clkNow e.clk) + x.rowoff.toNat + s.delayAt x.job x.pc
  | _, .realign off => some (t + tick + off + s.delayAt x.job x.pc)
  | _, .waitTick k off =>
    some (t + tick + (k.toNat - (p.tick.toNat + 1)) * s.tickPeriod + off + s.delayAt x.job x.pc)
  | _, .waitStep k off => some (t + step + (k.toNat - (p.step.toNat + 1)) * 65536 + off + s.delayAt x.job x.pc)
  | _, _ => none

/-- The cycle in which the n-th multiple of a period comes, n at least 1, strictly later than dt cycles from now; d is the count as it
stands and k0 how many multiples it has counted. A target count k puts it off as far as that count needs. -/
def multipleAfter (d : Int) (dt period k0 : Nat) (k : Option Nat) : Nat :=
  let p : Int := period
  let seen := ((d + (dt : Int)) / p - d / p).toNat
  dt + (p - (d + (dt : Int)) % p).toNat + (match k with | some k => (k - (k0 + seen + 1)) * period | none => 0)

/-- The cycle at which the wait that a bundle begins at cycle t leaves its row, without the DELAY of the next bundle; none where it begins
no wait. The guards, and the count of a WAITK, are taken as the head core's registers stand (log 110). -/
def waitOf (s : State) (c t : Nat) (ps : List Placed) : Option Nat :=
  let x := s.ctx c
  let dt := t - s.rowClk (rowOf c)
  let q := s.part (s.partOf c)
  let tick := fun (k : Option Nat) => s.rowClk (rowOf c) + multipleAfter (s.dom (s.partOf c)) dt s.tickPeriod q.tick.toNat k + x.rowoff.toNat
  ps.findSome? fun p => match p.ins with
    | .yield h i => if s.guard h then some (t + 1 + i.toNat) else none
    | .realign h => if s.guard h then some (tick none) else none
    | .waitk h a b =>
      if !s.guard h then none
      else if b.getLsbD 0 then
        some (s.rowClk (rowOf c) + multipleAfter (s.stepDom (s.partOf c)) dt 65536 q.step.toNat (some (s.rs a).toNat) + x.rowoff.toNat)
      else some (tick (some (s.rs a).toNat))
    | _ => none

/-- A bundle holds a REALIGN or WAITK whose guard holds as the head core's registers stand: the next bundle is on the timetable. -/
def setsTimed (s : State) (ps : List Placed) : Bool := ps.any fun p => match p.ins with
  | .realign h | .waitk h _ _ => s.guard h
  | _ => false

/-- P's bundles in view from an issue cycle on, the first of them timed or not: the occupancies of their words and the issue cycle of the
last. The cursor is the head core's of the first of them. -/
def viewLoop (s : State) (c : Nat) (stop : Nat) : Nat → Bool → Nat → Nat → List Occ → List Occ × Nat
  | 0, _, _, t, acc => (acc, t)
  | fuel + 1, timed, pc, t, acc =>
    let x := s.ctx c
    match s.fetchBundle x.job pc with
    | .words ws =>
      let ps := (bundleForm ws).1
      let acc := acc ++ ps.flatMap fun p => (s.unitsOf p).map fun u => { unit := u.1, from_ := t, len := u.2 }
      if stop < t ∨ ps.any (fun p => endsView timed p.ins) ∨ x.loops.any (fun l => l.stop = pc) then (acc, t)
      else
        let n := pc + ws.length
        viewLoop { s with cur := { s.cur with seq := s.cur.seq + 1 } } c stop fuel
          (s.setsTimed ps || (timed && !(ps.any fun p => clearsTimed p.ins))) n
          ((s.waitOf c t ps).getD (t + 1) + s.delayAt x.job n) acc
    | _ => (acc, t)

/-- The bundle that a context issues in the present cycle leaves its successor's issue cycle open: it transfers control or ends a
loop's body (R259). -/
def viewEnds (s : State) (p : Nat) : Bool :=
  let x := s.ctx p
  match x.latch.getLast? with
  | some l => decide (l.at_ = s.rowClk (rowOf p)) &&
    ((bundleForm l.words).1.any (fun w => endsView x.timed w.ins) ||
      s.agenda.any fun e => e.act == .loopEnd && e.cur.ctx == p)
  | none => false

/-- P's words in view and the issue cycle of the last P bundle in view, as far as a cycle (R259). None where nothing of
P constrains Q. -/
def pView (s : State) (p : Nat) (upTo : Nat) : Option (List Occ × Nat) :=
  let x := s.ctx p
  let t := s.rowClk (rowOf p)
  if x.job = 0 ∨ x.haltAt.isSome then none
  else if x.frz.isSome then some ([], t + 4096)
  else if s.viewEnds p then some ([], t)
  else match s.waitTarget p with
    | none => some ([], t)
    | some at_ =>
      let back := match x.wait with | .realign _ | .waitTick .. | .waitStep .. => true | _ => false
      let r := ({ s with cur := s.headCur p .nowhere 0 }).viewLoop p upTo (upTo - t + 2) (x.timed || back) x.pc at_ []
      some (r.1, Nat.min r.2 (t + 65536))

/-- Q's bundle fits into the present cycle (R15). -/
def qFits (s : State) (c : Nat) (ps : List Placed) : Bool :=
  let p := c - 1
  let t := s.rowClk (rowOf c)
  let occ := (s.ctx c).occ ++ (s.ctx p).occ
  let due := s.portsDue c true ++ s.portsDue p true
  let us := ps.flatMap fun w => s.unitsOf w
  let endOf := us.foldl (fun a u => Nat.max a (t + u.2 - 1)) t
  !(ps.any fun w => s.unitBusy occ t w || s.portBusy c due w) &&
  match s.pView p endOf with
  | none => true
  | some (words, last) =>
    decide (us = [] ∨ endOf ≤ last) &&
    !(us.any fun u => words.any fun o => decide (o.unit = u.1) && decide (o.from_ < t + u.2) && decide (t < o.from_ + o.len))

/-- A context may issue in the present cycle, leaving aside the merge: its job runs, it waits for nothing, its cycle has
come, and both its row's clock and its own partition's advance (R14, R34, R445). -/
def mayIssue (s : State) (c : Nat) : Bool :=
  let x := s.ctx c
  decide (x.job ≠ 0) && (s.job x.job).state == .running && x.frz.isNone && x.haltAt.isNone && x.wait == .none &&
  !(s.part (s.job x.job).part).still && !(s.rowStill (rowOf c)) && decide (s.issueAt c ≤ s.rowClk (rowOf c))

/-- A context issues in the present cycle. -/
def issues (s : State) (c : Nat) : Bool :=
  s.mayIssue c && (if isQ c then
    (match s.fetchBundle (s.ctx c).job (s.ctx c).pc with
      | .words ws =>
        let s' := { s with cur := s.headCur c .nowhere ws.length }
        let r := bundleForm ws
        r.2.isSome || s'.qFits c r.1
      | _ => true) else true)

/-- The first context that issues in the present cycle, P before Q in each row (R15). -/
def issuer (s : State) : Option Nat := (List.range 64).find? fun c => s.issues c

/-! ### Issue -/

/-- Enter a placed word for a column, 2 cycles a column later (R19). -/
def enterWord (s : State) (c nw : Nat) (p : Placed) (col : Nat) : State :=
  s.after (.row (rowOf c)) (2 * col) { s.headCur c p.slot nw with col := col } 0 p.ins

/-- The landing cycle that a word nullified on the head core keeps at its port: on another core its guard may hold (R47; log 109). -/
def nullPort (s : State) (c t : Nat) (p : Placed) : List Occ :=
  if p.info.hd.p = 0#3 ∨ s.guard p.info.hd then [] else match s.landOf c 0 p with
    | some n => [{ unit := 8 + p.slot.port, from_ := t + n, len := 1 }]
    | none => []

/-- Issue a placed bundle of nw words: its words enter every core but for the head core's first word, which runs at
once; units, ports and latches fill; the next bundle follows in the next cycle (R19, R47, R258, R259). The cursor is the head
core's. -/
def issueWords (s : State) (c : Nat) (ws : List (BitVec 32)) (ps : List Placed) : State :=
  let x := s.ctx c
  let t := s.rowClk (rowOf c)
  let nw := ws.length
  let entries := (ps.drop 1).map (fun p => (p, 0)) ++
    (List.range 15).flatMap fun i => ps.map fun p => (p, i + 1)
  let s1 := entries.foldl (fun a e => a.enterWord c nw e.1 e.2) s
  let inLoop := match x.loops with
    | l :: _ => l.stop == x.pc && !(ps.any fun p => match p.ins with
        | .loop .. | .loopi .. | .lbrk .. | .jany .. | .jall .. => true | _ => false)
    | [] => false
  let s2 := if inLoop then s1.after (.row (rowOf c)) 0 (s.headCur c .nowhere nw) c .loopEnd else s1
  let s3 := if x.sstep then s2.after (.part (s.partOf c)) 1 (s.headCur c .nowhere nw) s.now .singleStepTrap else s2
  let s4 := if x.shapes.contains (x.seq + 1) then
      (List.range 16).foldl (fun a col =>
        a.after (.row (rowOf c)) (2 * col) { s.headCur c .nowhere nw with col := col } 0 .mshapeTakeEffect) s3
    else s3
  let shapes := (x.shapes.filter fun n => decide (x.seq + 1 < n)) ++
    (if ps.any fun p => match p.ins with | .mshape .. => true | _ => false then [x.seq + 4] else [])
  let keepLatch := x.latch.filter fun l => decide (t < l.at_ + 31)
  let oldLatch := (x.latch.filter fun l => decide (l.at_ + 31 ≤ t)).getLast?.toList
  s4.setCtx c { x with
    pc := x.pc + nw, due := t + 1, dueDelayed := false, rowDue := false, seq := x.seq + 1, moved := false, shapes := shapes,
    timed := x.timed && !(ps.any fun p => clearsTimed p.ins),
    lastIssue := s.dom (s.partOf c),
    latch := oldLatch ++ keepLatch ++ [{ at_ := t, addr := x.pc, words := ws }],
    occ := (x.occ.filter fun o => decide (t < o.from_ + o.len)) ++
      ps.flatMap fun p => ((s.unitsOf p).map fun u => { unit := u.1, from_ := t, len := u.2 }) ++ s.nullPort c t p }

/-- The address of the bundle that a core of a context last executed before the present cycle, since start or restart, or
of its next one (R232: an unmatched receive freezes at the cycle before its arrival). -/
def lastBundleOf (s : State) (c col : Nat) : Nat :=
  let x := s.ctx c
  match (x.latch.filter fun l => decide (x.since ≤ l.at_ + 2 * col) && decide (l.at_ + 2 * col < s.rowClk (rowOf c))).getLast? with
  | some l => l.addr
  | none => match x.latch.find? fun l => decide (x.since ≤ l.at_) with
    | some l => l.addr
    | none => x.pc

/-- What an issue attempt comes to. -/
inductive IssueRes where
  | trap (slot : Slot) (t : Trap)
  | go (ws : List (BitVec 32)) (ps : List Placed)
  deriving DecidableEq, Repr

/-- A channel that a P context owns has a withheld refresh: its next bundle traps, but for a wrap of this very cycle that a
DREF of the bundle on the head core meets first (R121, R178). The executing cursor is the head core's. -/
def overdueOf (s : State) (c : Nat) (ps : List Placed) : Bool :=
  !(isQ c) && s.chans.rows.any fun r => r.2.owner == some c && r.2.overdue &&
    !(decide (r.2.progPhase = 0) && ps.any fun p => match p.ins with
      | .dref h x => s.guard h && decide ((s.rs x).toNat = r.1)
      | _ => false)

/-- Check the bundle a context is about to issue (R121, R252, R257). -/
def checkIssue (s : State) (c : Nat) : IssueRes :=
  let x := s.ctx c
  match s.fetchBundle x.job x.pc with
  | .beyond => .trap .header .translation
  | .endless => .trap .header .illegal
  | .words ws =>
    let s' := { s with cur := s.headCur c .nowhere ws.length }
    let r := bundleForm ws
    match s'.offending c r with
    | some slot => .trap slot .illegal
    | none => if s'.overdueOf c r.1 then .trap .nowhere (.timing 13) else .go ws r.1

end State

end Sys2Proof.Machine
end

