-- ==== Sys2Proof/Machine/ScalarMem.lean ====
section
/-! DEFINITION. Scalar loads, stores and atomics: majors 0x05 and 0x06 (R285 to R288), and the condition of a release
(R220). -/

namespace Sys2Proof.Machine

open Sys2Proof State

/-- The trap of a failed address. -/
def trapOf {α : Type} : Except Trap α → Option Trap
  | .error t => some t
  | .ok _ => none

/-- The value of an address that was found good; the checks come first. -/
def valOf (x : Except Trap Nat) : Nat := match x with
  | .ok a => a
  | .error _ => 0

/-! ### Releases (R218, R220) -/

/-- The writes issued by a context to slices whose TOUCHED bit is set, by number (R220). -/
def touchedWrites (s : State) (c : Nat) : List Nat :=
  (((s.ctx c).unacked.filter fun u => (s.ctx c).touched.getLsbD u.slice).map Unacked.id)

/-- A write still waits for its acknowledgement. -/
def anyUnacked (s : State) (c : Nat) (ws : List Nat) : Bool := (s.ctx c).unacked.any fun u => ws.contains u.id

/-- An access is a memory event (R210, R366, R396); an operation on a state ring table is none. -/
def isEvent : AccessOp → Bool
  | .ring .. => false
  | _ => true

/-- A release of a core may perform: every earlier event has performed, every earlier exchange has completed, and the
named writes are acknowledged (R220). -/
def relReady (s : State) (cur : Cursor) (writes : List Nat) : Bool :=
  !(s.agenda.any fun e => poBefore e.cur cur && match e.act with
      | .deferredAccessPerform a => isEvent a.op
      | .releasePerform => true
      | _ => false) &&
  !(s.waiting.any fun w => poBefore w.cur cur && match w.what with
      | .command .. => false
      | _ => true) &&
  !(s.peels.rows.any fun r => decide (r.2.kind ≠ 0) && poBefore r.2.cur cur) &&
  !(s.gtab.rows.any fun r => r.2.state == 1#2 && poBefore r.2.cur cur) &&
  !(anyUnacked s cur.ctx writes)

/-! ### Loads and stores, major 0x05 (R285, R286) -/

/-- The effective address s[A] + SX(I8) * z. -/
def memEa (s : State) (a : BitVec 5) (i : BitVec 8) (z : Nat) : Word := s.rs a + i.signExtend 64 * BitVec.ofNat 64 z

/-- The checks of a scalar access of z bytes that performs n cycles on: its address, its registers, a lock or a release's
condition, its slot (R218, R286, R443). -/
def scalarAccess (s : State) (ea : Word) (z n : Nat) (a : BitVec 5) (rest : List Reg) (held : Bool) : Option Trap :=
  firstTrap [s.known [.s a.toNat] (trapOf (s.ownAddr ea z)), s.early (.s a.toNat :: rest), if held then some (.sched 10) else none,
    s.accessTrap [(n, slotOf (valOf (s.ownAddr ea z)))]]

/-- A scalar load of z bytes: it performs at e + 2 and lands at e + 4 (R285). -/
def scalarLoad (h : Hd) (d a : BitVec 5) (i : BitVec 8) (z : Nat) (signed : Bool) (s : State) :
    Host.Outcome State Fault Refusal :=
  s.word h (fun s => scalarAccess s (memEa s a i z) z 2 a [] false) fun s =>
    let f := valOf (s.ownAddr (memEa s a i z) z)
    let id := s.freshId
    ((s.bump.placeAcc [(2, slotOf f)]).access 2 id (.load f z signed d.toNat)).landId id 4 [.s d.toNat 0#64] 0#5

/-- A scalar store of z bytes: it performs at e + 2 (R285). -/
def scalarStore (h : Hd) (d a : BitVec 5) (i : BitVec 8) (z : Nat) (s : State) : Host.Outcome State Fault Refusal :=
  s.word h (fun s => scalarAccess s (memEa s a i z) z 2 a [.s d.toNat] false) fun s =>
    let f := valOf (s.ownAddr (memEa s a i z) z)
    (s.placeAcc [(2, slotOf f)]).access 2 0 (.store { addr := f, len := z, val := (s.rs d).toNat % 2 ^ (8 * z) })

/-- LD: s[D] := mem64[ea] (R285). -/
def execLd (h : Hd) (d a : BitVec 5) (i : BitVec 8) (s : State) : Host.Outcome State Fault Refusal :=
  scalarLoad h d a i 8 false s

/-- LW: s[D] := SX(mem32[ea]) (R285). -/
def execLw (h : Hd) (d a : BitVec 5) (i : BitVec 8) (s : State) : Host.Outcome State Fault Refusal :=
  scalarLoad h d a i 4 true s

/-- LWU: s[D] := ZX(mem32[ea]) (R285). -/
def execLwu (h : Hd) (d a : BitVec 5) (i : BitVec 8) (s : State) : Host.Outcome State Fault Refusal :=
  scalarLoad h d a i 4 false s

/-- ST: mem64[ea] := s[D] (R285). -/
def execSt (h : Hd) (d a : BitVec 5) (i : BitVec 8) (s : State) : Host.Outcome State Fault Refusal :=
  scalarStore h d a i 8 s

/-- SW: mem32[ea] := bits [31:0] of s[D] (R285). -/
def execSw (h : Hd) (d a : BitVec 5) (i : BitVec 8) (s : State) : Host.Outcome State Fault Refusal :=
  scalarStore h d a i 4 s

/-! ### Atomics, major 0x06 (R287, R288) -/

/-- The ordering field has a release part. -/
def isRel (o : BitVec 2) : Bool := o.getLsbD 1
/-- The ordering field has an acquire part. -/
def isAcq (o : BitVec 2) : Bool := o.getLsbD 0

/-- The value an atomic operation leaves, or none where it writes nothing (R287). -/
def amoResult (op w : Nat) (old y cmp : Nat) : Option Nat := match op with
  | 0 => some ((old + y) % 2 ^ w)
  | 1 => some (old &&& y)
  | 2 => some (old ||| y)
  | 3 => some (old ^^^ y)
  | 4 => some (if sx w y < sx w old then y else old)
  | 5 => some (if sx w old < sx w y then y else old)
  | 6 => some y
  | _ => if old = cmp then some y else none

/-- An AMO: the read and the write perform as one event at e + 4, the old value lands at e + 8. A release of an untimed
context is held until R220 is satisfied; in a timed context it is a check (R218). An acquire of an untimed context holds
back the later accesses of its core until its value has returned (R221). -/
def amoWord (h : Hd) (op : Nat) (o : BitVec 2) (d a b : BitVec 5) (w : Bool) (s : State) :
    Host.Outcome State Fault Refusal :=
  let z := if w then 8 else 4
  s.word h (fun s => scalarAccess s (s.rs a) z 4 a ([.s b.toNat] ++ if op = 7 then [.s d.toNat] else [])
      (s.timed && isRel o && !(relReady s s.cur (touchedWrites s s.cur.ctx)))) fun s =>
    let f := valOf (s.ownAddr (s.rs a) z)
    let id := s.freshId
    let acc : AccessOp := .amo op f w (s.rs b) (s.rs d) d.toNat
    let s1 := s.bump.placeAcc [(4, slotOf f)]
    let s2 := if isAcq o && !s.timed then s1.modCore s.cur.ctx s.cur.col fun k => { k with acqs := k.acqs ++ [s.cur] } else s1
    let hold : Waiting := { id := id, cur := s.cur, what := .release { id := id, op := acc } (touchedWrites s s.cur.ctx) }
    let s3 := if isRel o && !s.timed then ({ s2 with waiting := s2.waiting ++ [hold] }).afterMe 4 id .releasePerform
      else s2.access 4 id acc
    s3.landId id 8 [.s d.toNat 0#64] 0#5

/-- AMOADD: memory becomes (old + y) mod 2^w (R287). -/
def execAmoadd (h : Hd) (o : BitVec 2) (d a b : BitVec 5) (w : Bool) (s : State) : Host.Outcome State Fault Refusal :=
  amoWord h 0 o d a b w s

/-- AMOAND: memory becomes old AND y (R287). -/
def execAmoand (h : Hd) (o : BitVec 2) (d a b : BitVec 5) (w : Bool) (s : State) : Host.Outcome State Fault Refusal :=
  amoWord h 1 o d a b w s

/-- AMOOR: memory becomes old OR y (R287). -/
def execAmoor (h : Hd) (o : BitVec 2) (d a b : BitVec 5) (w : Bool) (s : State) : Host.Outcome State Fault Refusal :=
  amoWord h 2 o d a b w s

/-- AMOXOR: memory becomes old XOR y (R287). -/
def execAmoxor (h : Hd) (o : BitVec 2) (d a b : BitVec 5) (w : Bool) (s : State) : Host.Outcome State Fault Refusal :=
  amoWord h 3 o d a b w s

/-- AMOMIN: memory becomes the signed minimum (R287). -/
def execAmomin (h : Hd) (o : BitVec 2) (d a b : BitVec 5) (w : Bool) (s : State) : Host.Outcome State Fault Refusal :=
  amoWord h 4 o d a b w s

/-- AMOMAX: memory becomes the signed maximum (R287). -/
def execAmomax (h : Hd) (o : BitVec 2) (d a b : BitVec 5) (w : Bool) (s : State) : Host.Outcome State Fault Refusal :=
  amoWord h 5 o d a b w s

/-- AMOSWAP: memory becomes y (R287). -/
def execAmoswap (h : Hd) (o : BitVec 2) (d a b : BitVec 5) (w : Bool) (s : State) : Host.Outcome State Fault Refusal :=
  amoWord h 6 o d a b w s

/-- AMOCAS: memory becomes y when the old value equals s[D], else no write (R287). -/
def execAmocas (h : Hd) (o : BitVec 2) (d a b : BitVec 5) (w : Bool) (s : State) : Host.Outcome State Fault Refusal :=
  amoWord h 7 o d a b w s

end Sys2Proof.Machine
end

