-- ==== Sys2Proof/Machine/Crypto.lean ====
section
/-! DEFINITION. The ciphers and the hash that the spec names by their standards: AES (FIPS 197), XTS (IEEE 1619) and
SHAKE256 (FIPS 202). Their tables are taken from the standards (log 9). -/

namespace Sys2Proof.Machine

open Sys2Proof

/-! ### AES (R145, R436, R437) -/

/-- The S-box, entry n at bits [8n+7:8n]. -/
def aesSbox : BitVec 2048 :=
  0x16BB54B00F2D99416842E6BF0D89A18CDF2855CEE9871E9B948ED9691198F8E19E1DC186B95735610EF6034866B53E708A8BBD4B1F74DDE8C6B4A61C2E2578BA08AE7A65EAF4566CA94ED58D6D37C8E779E4959162ACD3C25C2406490A3A32E0DB0B5EDE14B8EE4688902A22DC4F816073195D643D7EA7C41744975FEC130CCDD2F3FF1021DAB6BCF5389D928F40A351A89F3C507F02F94585334D43FBAAEFD0CF584C4A39BECB6A5BB1FC20ED00D153842FE329B3D63B52A05A6E1B1A2C830975B227EBE28012079A059618C323C7041531D871F1E5A534CCF73F362693FDB7C072A49CAFA2D4ADF04759FA7DC982CA76ABD7FE2B670130C56F6BF27B777C63#2048
/-- S-box entry of a byte. -/
def sbox (b : Nat) : Nat := (aesSbox.toNat >>> (8 * b)) % 256
/-- Multiplication by x in GF(2^8). -/
def xtime (b : Nat) : Nat := if 128 ≤ b then ((2 * b) % 256).xor 0x1B else 2 * b
/-- Bytes of a number, lowest first. -/
def leBytes : Nat → Nat → List Nat
  | 0, _ => []
  | n + 1, x => x % 256 :: leBytes n (x / 256)
/-- The number of bytes, lowest first. -/
def ofLe : List Nat → Nat
  | [] => 0
  | b :: r => b + 256 * ofLe r
/-- Byte-wise exclusive OR. -/
def xorBytes (a b : List Nat) : List Nat := List.zipWith Nat.xor a b
/-- The n-th byte of a list. -/
def nth (l : List Nat) (n : Nat) : Nat := l.getD n 0

/-- Expand a key of nk words to a list of 4-byte words: i is the number of words there are, rcon the next constant. -/
def aesExpand (nk : Nat) : Nat → Nat → Nat → List (List Nat) → List (List Nat)
  | 0, _, _, ws => ws
  | k + 1, i, rcon, ws =>
    let t := ws.getD (i - 1) []
    let t' := if i % nk = 0 then
        xorBytes [sbox (nth t 1), sbox (nth t 2), sbox (nth t 3), sbox (nth t 0)] [rcon, 0, 0, 0]
      else if nk > 6 ∧ i % nk = 4 then t.map sbox else t
    aesExpand nk k (i + 1) (if i % nk = 0 then xtime rcon else rcon) (ws ++ [xorBytes (ws.getD (i - nk) []) t'])
/-- The words of a key given as bytes. -/
def keyWords : List Nat → List (List Nat)
  | a :: b :: c :: d :: r => [a, b, c, d] :: keyWords r
  | _ => []
/-- Round keys of 16 bytes for a 16- or 32-byte key. -/
def aesKeys (key : List Nat) : List (List Nat) :=
  let nk := key.length / 4
  let ws := aesExpand nk (4 * (nk + 7) - nk) nk 1 (keyWords key)
  (List.range (nk + 7)).map fun r => (ws.getD (4 * r) []) ++ (ws.getD (4 * r + 1) []) ++ (ws.getD (4 * r + 2) []) ++
    (ws.getD (4 * r + 3) [])
/-- ShiftRows over a column-major state. -/
def shiftRows (s : List Nat) : List Nat :=
  (List.range 16).map fun i => nth s ((4 * ((i / 4 + i % 4) % 4)) + i % 4)
/-- MixColumns of one column. -/
def mixCol (a b c d : Nat) : List Nat :=
  let m := fun (p q r t : Nat) => (xtime p).xor ((xtime q).xor (q.xor (r.xor t)))
  [m a b c d, m b c d a, m c d a b, m d a b c]
/-- MixColumns. -/
def mixColumns (s : List Nat) : List Nat :=
  (List.range 4).flatMap fun c => mixCol (nth s (4 * c)) (nth s (4 * c + 1)) (nth s (4 * c + 2)) (nth s (4 * c + 3))
/-- The rounds after the first key addition. -/
def aesRounds : List (List Nat) → List Nat → List Nat
  | [], s => s
  | [k], s => xorBytes (shiftRows (s.map sbox)) k
  | k :: r, s => aesRounds r (xorBytes (mixColumns (shiftRows (s.map sbox))) k)
/-- AES encryption of a 16-byte block. -/
def aesEncrypt (key block : List Nat) : List Nat := match aesKeys key with
  | [] => block
  | k :: r => aesRounds r (xorBytes block k)

/-- Row n of the random-bits queue of a key (R145). -/
def randRow (key : BitVec 128) (n : Nat) : Row :=
  let k := leBytes 16 key.toNat
  BitVec.ofNat 2048 (ofLe ((List.range 16).flatMap fun j => aesEncrypt k (leBytes 16 (16 * (n % 2 ^ 64) + j))))

/-- XTS: the tweak times x. -/
def xtsDouble (t : Nat) : Nat := if 2 ^ 127 ≤ t then ((2 * t) % 2 ^ 128).xor 0x87 else 2 * t
/-- XTS-AES-256 encryption of n 16-byte blocks under a 64-byte key pair and a sector number. -/
def xtsEncrypt (key : List Nat) (sector : Nat) (data : List Nat) : List Nat :=
  let k1 := key.take 32
  let t0 := ofLe (aesEncrypt (key.drop 32) (leBytes 16 sector))
  ((List.range (data.length / 16)).foldl (fun (a : List Nat × Nat) i =>
    let t := leBytes 16 a.2
    let b := (data.drop (16 * i)).take 16
    (a.1 ++ xorBytes (aesEncrypt k1 (xorBytes b t)) t, xtsDouble a.2)) ([], t0)).1

/-! ### SHAKE256 (R431 to R435) -/

/-- Round constants, 64 bits each. -/
def keccakRc : BitVec 1536 :=
  0x8000000080008008000000008000000180000000000080808000000080008081800000008000000A000000000000800A8000000000000080800000000000800280000000000080038000000000008089800000000000008B000000008000808B000000008000000A00000000800080090000000000000088000000000000008A800000000000800980000000800080810000000080000001000000000000808B8000000080008000800000000000808A00000000000080820000000000000001#1536
/-- Rotation offsets of lane x + 5y. -/
def keccakRho : List Nat := [0, 1, 62, 28, 27, 36, 44, 6, 55, 20, 3, 10, 43, 25, 39, 41, 45, 15, 21, 8, 18, 2, 61, 56, 14]
/-- Rotation of a 64-bit lane. -/
def rotl (x n : Nat) : Nat := ((x <<< n) % 2 ^ 64) ||| (x >>> (64 - n))
/-- One round on 25 lanes. -/
def keccakRound (a : List Nat) (r : Nat) : List Nat :=
  let c := (List.range 5).map fun x =>
    (nth a x).xor ((nth a (x + 5)).xor ((nth a (x + 10)).xor ((nth a (x + 15)).xor (nth a (x + 20)))))
  let d := (List.range 5).map fun x => (nth c ((x + 4) % 5)).xor (rotl (nth c ((x + 1) % 5)) 1)
  let t := (List.range 25).map fun i => (nth a i).xor (nth d (i % 5))
  -- lane (x, y) after the rotation comes from (x', y') with x = y', y = 2x' + 3y'
  let b := (List.range 25).map fun i =>
    let x := i % 5
    let y := i / 5
    let sx := (x + 3 * y) % 5
    let src := sx + 5 * x
    rotl (nth t src) (nth keccakRho src)
  let e := (List.range 25).map fun i =>
    let y5 := i / 5 * 5
    (nth b i).xor (((2 ^ 64 - 1).xor (nth b (y5 + (i + 1) % 5))) &&& nth b (y5 + (i + 2) % 5))
  match e with
  | e0 :: er => e0.xor ((keccakRc.toNat >>> (64 * r)) % 2 ^ 64) :: er
  | [] => []
/-- The permutation. -/
def keccakF (a : List Nat) : List Nat := (List.range 24).foldl keccakRound a
/-- Absorb a block of 136 bytes. -/
def absorb (a : List Nat) (blk : List Nat) : List Nat :=
  keccakF ((List.range 25).map fun i => if i < 17 then (nth a i).xor (ofLe ((blk.drop (8 * i)).take 8)) else nth a i)
/-- Absorb a padded message. -/
def absorbAll : Nat → List Nat → List Nat → List Nat
  | 0, a, _ => a
  | n + 1, a, m => absorbAll n (absorb a (m.take 136)) (m.drop 136)
/-- The first 64 bytes of SHAKE256 of a message. -/
def shake256 (m : List Nat) : BitVec 512 :=
  let q := 136 - m.length % 136
  let pad := if q = 1 then [0x9F] else 0x1F :: (List.replicate (q - 2) 0 ++ [0x80])
  let p := m ++ pad
  let a := absorbAll (p.length / 136) (List.replicate 25 0) p
  BitVec.ofNat 512 (ofLe ((a.take 8).flatMap fun l => leBytes 8 l))

end Sys2Proof.Machine
end

