-- ==== Sys2Proof/Machine/Scalar.lean ====
section
/-! DEFINITION. Scalar arithmetic, constants, floating point and predicates: majors 0x00 to 0x04 and 0x09 (R277 to R284,
R293). -/

namespace Sys2Proof.Machine

open Sys2Proof State

/-! ### Shared operations -/

/-- A scalar word that reads registers and lands one result (R277). -/
def scalarWord (h : Hd) (lat : Nat) (rd : List Reg) (res : State → List RegWrite × BitVec 5) (s : State) :
    Host.Outcome State Fault Refusal :=
  s.word h (fun s => s.early rd) fun s => s.land lat (res s).1 (res s).2

/-- A scalar word whose result goes to s[d] and raises no flag. -/
def scalarInt (h : Hd) (lat : Nat) (d : BitVec 5) (rd : List Reg) (x : State → Word) (s : State) :
    Host.Outcome State Fault Refusal :=
  scalarWord h lat rd (fun s => ([.s d.toNat (x s)], 0#5)) s

/-- An operation at width W: 64 bits, or on bits [31:0] with a sign-extended result (R277). -/
def atWidth (w : Bool) (f : (n : Nat) → BitVec n → BitVec n → BitVec n) (x y : Word) : Word :=
  if w then f 64 x y else (f 32 (x.setWidth 32) (y.setWidth 32)).signExtend 64

/-- High half of the signed product (R278). -/
def mulHigh (n : Nat) (x y : BitVec n) : BitVec n := BitVec.ofInt n ((x.toInt * y.toInt) / 2 ^ n)
/-- Signed quotient (R279). -/
def divS (n : Nat) (x y : BitVec n) : BitVec n := if y = 0#n then BitVec.allOnes n else x.sdiv y
/-- Unsigned quotient (R279). -/
def divU (n : Nat) (x y : BitVec n) : BitVec n := if y = 0#n then BitVec.allOnes n else x.udiv y
/-- Signed remainder (R279). -/
def remS (n : Nat) (x y : BitVec n) : BitVec n := if y = 0#n then x else x.srem y
/-- Unsigned remainder (R279). -/
def remU (n : Nat) (x y : BitVec n) : BitVec n := if y = 0#n then x else x.umod y
/-- Left shift by y mod n. -/
def shlMod (n : Nat) (x y : BitVec n) : BitVec n := x <<< (y.toNat % n)
/-- Logical right shift by y mod n. -/
def shrMod (n : Nat) (x y : BitVec n) : BitVec n := x >>> (y.toNat % n)
/-- Arithmetic right shift by y mod n. -/
def sarMod (n : Nat) (x y : BitVec n) : BitVec n := x.sshiftRight (y.toNat % n)
/-- Signed minimum. -/
def minS (n : Nat) (x y : BitVec n) : BitVec n := if y.slt x then y else x
/-- Signed maximum. -/
def maxS (n : Nat) (x y : BitVec n) : BitVec n := if x.slt y then y else x
/-- Leading zero bits, 0 to n. -/
def leadingZeros (n : Nat) (x : BitVec n) : Nat := if x = 0#n then n else n - 1 - Nat.log2 x.toNat
/-- Number of 1 bits. -/
def onesCount (n : Nat) (x : BitVec n) : Nat := ((List.range n).filter fun i => x.getLsbD i).length

/-! ### Integer register arithmetic, major 0x00 (R278) -/

/-- ADD: (x + y) mod 2^w (R278). -/
def execAdd (h : Hd) (d a b : BitVec 5) (w : Bool) (s : State) : Host.Outcome State Fault Refusal :=
  scalarInt h 1 d [.s a.toNat, .s b.toNat] (fun s => atWidth w (fun _ x y => x + y) (s.rs a) (s.rs b)) s

/-- SUB: (x - y) mod 2^w (R278). -/
def execSub (h : Hd) (d a b : BitVec 5) (w : Bool) (s : State) : Host.Outcome State Fault Refusal :=
  scalarInt h 1 d [.s a.toNat, .s b.toNat] (fun s => atWidth w (fun _ x y => x - y) (s.rs a) (s.rs b)) s

/-- MUL: the low w bits of the product (R278). -/
def execMul (h : Hd) (d a b : BitVec 5) (w : Bool) (s : State) : Host.Outcome State Fault Refusal :=
  scalarInt h 3 d [.s a.toNat, .s b.toNat] (fun s => atWidth w (fun _ x y => x * y) (s.rs a) (s.rs b)) s

/-- MULH: the high w bits of the signed product (R278). -/
def execMulh (h : Hd) (d a b : BitVec 5) (w : Bool) (s : State) : Host.Outcome State Fault Refusal :=
  scalarInt h 3 d [.s a.toNat, .s b.toNat] (fun s => atWidth w mulHigh (s.rs a) (s.rs b)) s

/-- DIV: the signed quotient (R278, R279). -/
def execDiv (h : Hd) (d a b : BitVec 5) (w : Bool) (s : State) : Host.Outcome State Fault Refusal :=
  scalarInt h 14 d [.s a.toNat, .s b.toNat] (fun s => atWidth w divS (s.rs a) (s.rs b)) s

/-- DIVU: the unsigned quotient (R278, R279). -/
def execDivu (h : Hd) (d a b : BitVec 5) (w : Bool) (s : State) : Host.Outcome State Fault Refusal :=
  scalarInt h 14 d [.s a.toNat, .s b.toNat] (fun s => atWidth w divU (s.rs a) (s.rs b)) s

/-- REM: the signed remainder (R278, R279). -/
def execRem (h : Hd) (d a b : BitVec 5) (w : Bool) (s : State) : Host.Outcome State Fault Refusal :=
  scalarInt h 14 d [.s a.toNat, .s b.toNat] (fun s => atWidth w remS (s.rs a) (s.rs b)) s

/-- REMU: the unsigned remainder (R278, R279). -/
def execRemu (h : Hd) (d a b : BitVec 5) (w : Bool) (s : State) : Host.Outcome State Fault Refusal :=
  scalarInt h 14 d [.s a.toNat, .s b.toNat] (fun s => atWidth w remU (s.rs a) (s.rs b)) s

/-- AND (R278). -/
def execAnd (h : Hd) (d a b : BitVec 5) (w : Bool) (s : State) : Host.Outcome State Fault Refusal :=
  scalarInt h 1 d [.s a.toNat, .s b.toNat] (fun s => atWidth w (fun _ x y => x &&& y) (s.rs a) (s.rs b)) s

/-- OR (R278). -/
def execOr (h : Hd) (d a b : BitVec 5) (w : Bool) (s : State) : Host.Outcome State Fault Refusal :=
  scalarInt h 1 d [.s a.toNat, .s b.toNat] (fun s => atWidth w (fun _ x y => x ||| y) (s.rs a) (s.rs b)) s

/-- XOR (R278). -/
def execXor (h : Hd) (d a b : BitVec 5) (w : Bool) (s : State) : Host.Outcome State Fault Refusal :=
  scalarInt h 1 d [.s a.toNat, .s b.toNat] (fun s => atWidth w (fun _ x y => x ^^^ y) (s.rs a) (s.rs b)) s

/-- SHL: left shift by y mod w (R278). -/
def execShl (h : Hd) (d a b : BitVec 5) (w : Bool) (s : State) : Host.Outcome State Fault Refusal :=
  scalarInt h 1 d [.s a.toNat, .s b.toNat] (fun s => atWidth w shlMod (s.rs a) (s.rs b)) s

/-- SHR: right shift by y mod w, zeros entering (R278). -/
def execShr (h : Hd) (d a b : BitVec 5) (w : Bool) (s : State) : Host.Outcome State Fault Refusal :=
  scalarInt h 1 d [.s a.toNat, .s b.toNat] (fun s => atWidth w shrMod (s.rs a) (s.rs b)) s

/-- SAR: right shift by y mod w, copies of the top bit entering (R278). -/
def execSar (h : Hd) (d a b : BitVec 5) (w : Bool) (s : State) : Host.Outcome State Fault Refusal :=
  scalarInt h 1 d [.s a.toNat, .s b.toNat] (fun s => atWidth w sarMod (s.rs a) (s.rs b)) s

/-- MIN: signed minimum (R278). -/
def execMin (h : Hd) (d a b : BitVec 5) (w : Bool) (s : State) : Host.Outcome State Fault Refusal :=
  scalarInt h 1 d [.s a.toNat, .s b.toNat] (fun s => atWidth w minS (s.rs a) (s.rs b)) s

/-- MAX: signed maximum (R278). -/
def execMax (h : Hd) (d a b : BitVec 5) (w : Bool) (s : State) : Host.Outcome State Fault Refusal :=
  scalarInt h 1 d [.s a.toNat, .s b.toNat] (fun s => atWidth w maxS (s.rs a) (s.rs b)) s

/-- CLZ: leading zero bits of x (R278). -/
def execClz (h : Hd) (d a : BitVec 5) (w : Bool) (s : State) : Host.Outcome State Fault Refusal :=
  scalarInt h 1 d [.s a.toNat]
    (fun s => atWidth w (fun n x _ => BitVec.ofNat n (leadingZeros n x)) (s.rs a) 0#64) s

/-- POPC: number of 1 bits of x (R278). -/
def execPopc (h : Hd) (d a : BitVec 5) (w : Bool) (s : State) : Host.Outcome State Fault Refusal :=
  scalarInt h 1 d [.s a.toNat]
    (fun s => atWidth w (fun n x _ => BitVec.ofNat n (onesCount n x)) (s.rs a) 0#64) s

/-! ### Immediates and constants, majors 0x01 to 0x03 (R280, R281) -/

/-- ADDI: s[A] + SX(I8) (R280). -/
def execAddi (h : Hd) (d a : BitVec 5) (i : BitVec 8) (s : State) : Host.Outcome State Fault Refusal :=
  scalarInt h 1 d [.s a.toNat] (fun s => s.rs a + i.signExtend 64) s

/-- MULI: the low 64 bits of s[A] * SX(I8) (R280). -/
def execMuli (h : Hd) (d a : BitVec 5) (i : BitVec 8) (s : State) : Host.Outcome State Fault Refusal :=
  scalarInt h 3 d [.s a.toNat] (fun s => s.rs a * i.signExtend 64) s

/-- ANDI (R280). -/
def execAndi (h : Hd) (d a : BitVec 5) (i : BitVec 8) (s : State) : Host.Outcome State Fault Refusal :=
  scalarInt h 1 d [.s a.toNat] (fun s => s.rs a &&& i.signExtend 64) s

/-- ORI (R280). -/
def execOri (h : Hd) (d a : BitVec 5) (i : BitVec 8) (s : State) : Host.Outcome State Fault Refusal :=
  scalarInt h 1 d [.s a.toNat] (fun s => s.rs a ||| i.signExtend 64) s

/-- XORI (R280). -/
def execXori (h : Hd) (d a : BitVec 5) (i : BitVec 8) (s : State) : Host.Outcome State Fault Refusal :=
  scalarInt h 1 d [.s a.toNat] (fun s => s.rs a ^^^ i.signExtend 64) s

/-- SHLI (R280). -/
def execShli (h : Hd) (d a : BitVec 5) (i : BitVec 6) (s : State) : Host.Outcome State Fault Refusal :=
  scalarInt h 1 d [.s a.toNat] (fun s => s.rs a <<< i.toNat) s

/-- SHRI (R280). -/
def execShri (h : Hd) (d a : BitVec 5) (i : BitVec 6) (s : State) : Host.Outcome State Fault Refusal :=
  scalarInt h 1 d [.s a.toNat] (fun s => s.rs a >>> i.toNat) s

/-- SARI (R280). -/
def execSari (h : Hd) (d a : BitVec 5) (i : BitVec 6) (s : State) : Host.Outcome State Fault Refusal :=
  scalarInt h 1 d [.s a.toNat] (fun s => (s.rs a).sshiftRight i.toNat) s

/-- LI: SX(I16) (R281). -/
def execLi (h : Hd) (d : BitVec 5) (i : BitVec 16) (s : State) : Host.Outcome State Fault Refusal :=
  scalarInt h 1 d [] (fun _ => i.signExtend 64) s

/-- LIS: s[D] * 2^16 + I16 mod 2^64 (R281). -/
def execLis (h : Hd) (d : BitVec 5) (i : BitVec 16) (s : State) : Host.Outcome State Fault Refusal :=
  scalarInt h 1 d [.s d.toNat] (fun s => (s.rs d) <<< 16 ||| i.setWidth 64) s

/-! ### Floating point, major 0x04 (R282 to R284) -/

/-- The format of W (R282). -/
def wFmt (w : Bool) : Fmt := if w then .f64 else .f32
/-- A register's code in the format of W: bits [31:0] for f32. -/
def fcode (w : Bool) (x : Word) : Nat := x.toNat % 2 ^ (wFmt w).bits
/-- A register's value in the format of W. -/
def fval (w : Bool) (x : Word) : Fp := (wFmt w).dec (fcode w x)

/-- A floating word with one result in s[d] (R282). -/
def scalarFp (h : Hd) (lat : Nat) (d : BitVec 5) (rd : List Reg) (f : State → Nat × BitVec 5) (s : State) :
    Host.Outcome State Fault Refusal :=
  scalarWord h lat rd (fun s => ([.s d.toNat (BitVec.ofNat 64 (f s).1)], (f s).2)) s

/-- Latency of an ordinary floating word (R282). -/
def fpLat (w : Bool) : Nat := if w then 5 else 4

/-- The core's random-bits queue holds fewer rows than a word needs: 0x03, subcode 0x08 (R146). -/
def randTrap (s : State) (n : Nat) : Option Trap := if s.me.randFill < n then some (.sched 8) else none
/-- Deliver n rows of the core's random-bits queue (R145, R182). -/
def popRand (s : State) (n : Nat) : State := s.modCore s.cur.ctx s.cur.col fun k =>
  { k with randPos := k.randPos + BitVec.ofNat 64 n, randFill := k.randFill - n }
/-- The k-th row the queue delivers next. -/
def nextRand (s : State) (k : Nat) : Row := randRow s.me.randKey (s.me.randPos.toNat + k)

/-- A scalar conversion: in SR mode it pops one row and takes bits [15:0] (R193, R283). -/
def scalarCvt (h : Hd) (lat : Nat) (d : BitVec 5) (rd : List Reg) (f : State → RMode → Word × BitVec 5) (s : State) :
    Host.Outcome State Fault Refusal :=
  let sr := s.me.round == 4#3
  s.word h (fun s => firstTrap [s.early rd, if sr then randTrap s 1 else none]) fun s =>
    let u := if sr then (nextRand s 0).toNat % 65536 else 0
    let r := f s (cvtMode s.me.round u)
    (if sr then popRand s 1 else s).land lat [.s d.toNat r.1] r.2

/-- FADD: Round(A + B) (R282). -/
def execFadd (h : Hd) (d a b : BitVec 5) (w : Bool) (s : State) : Host.Outcome State Fault Refusal :=
  scalarFp h (fpLat w) d [.s a.toNat, .s b.toNat] (fun s => addFp (wFmt w) (modeOf s.me.round) (fval w (s.rs a)) (fval w (s.rs b))) s

/-- FSUB: Round(A - B) (R282). -/
def execFsub (h : Hd) (d a b : BitVec 5) (w : Bool) (s : State) : Host.Outcome State Fault Refusal :=
  scalarFp h (fpLat w) d [.s a.toNat, .s b.toNat] (fun s => addFp (wFmt w) (modeOf s.me.round) (fval w (s.rs a)) (fval w (s.rs b)).neg) s

/-- FMUL: Round(A * B) (R282). -/
def execFmul (h : Hd) (d a b : BitVec 5) (w : Bool) (s : State) : Host.Outcome State Fault Refusal :=
  scalarFp h (fpLat w) d [.s a.toNat, .s b.toNat] (fun s => mulFp (wFmt w) (modeOf s.me.round) (fval w (s.rs a)) (fval w (s.rs b))) s

/-- FMA: Round(A * B + D), one rounding (R282). -/
def execFma (h : Hd) (d a b : BitVec 5) (w : Bool) (s : State) : Host.Outcome State Fault Refusal :=
  scalarFp h (fpLat w) d [.s a.toNat, .s b.toNat, .s d.toNat] (fun s => fmaFp (wFmt w) (modeOf s.me.round) (fval w (s.rs a)) (fval w (s.rs b)) (fval w (s.rs d))) s

/-- FDIV: Round(A / B) (R282). -/
def execFdiv (h : Hd) (d a b : BitVec 5) (w : Bool) (s : State) : Host.Outcome State Fault Refusal :=
  scalarFp h (if w then 22 else 14) d [.s a.toNat, .s b.toNat] (fun s => divFp (wFmt w) (modeOf s.me.round) (fval w (s.rs a)) (fval w (s.rs b))) s

/-- FSQRT: the rounded square root of A (R282). -/
def execFsqrt (h : Hd) (d a : BitVec 5) (w : Bool) (s : State) : Host.Outcome State Fault Refusal :=
  scalarFp h (if w then 22 else 14) d [.s a.toNat] (fun s => sqrtFp (wFmt w) (modeOf s.me.round) (fval w (s.rs a))) s

/-- FMIN: minimum under R195 (R282). -/
def execFmin (h : Hd) (d a b : BitVec 5) (w : Bool) (s : State) : Host.Outcome State Fault Refusal :=
  scalarFp h (fpLat w) d [.s a.toNat, .s b.toNat] (fun s => fmin (wFmt w) (fcode w (s.rs a)) (fcode w (s.rs b))) s

/-- FMAX: maximum under R195 (R282). -/
def execFmax (h : Hd) (d a b : BitVec 5) (w : Bool) (s : State) : Host.Outcome State Fault Refusal :=
  scalarFp h (fpLat w) d [.s a.toNat, .s b.toNat] (fun s => fmax (wFmt w) (fcode w (s.rs a)) (fcode w (s.rs b))) s

/-- The integer that a source register holds under the kind of field B (R283). -/
def intOfKind (b : BitVec 5) (x : Word) : Int := match b.toNat with
  | 0 => x.toInt
  | 1 => x.toNat
  | 2 => (x.setWidth 32).toInt
  | _ => (x.setWidth 32).toNat
/-- The range of the kind of field B. -/
def kindRange (b : BitVec 5) : Int × Int := match b.toNat with
  | 0 => (-2 ^ 63, 2 ^ 63 - 1)
  | 1 => (0, 2 ^ 64 - 1)
  | 2 => (-2 ^ 31, 2 ^ 31 - 1)
  | _ => (0, 2 ^ 32 - 1)

/-- FCVTIF: integer of the kind to the suffix's format, rounded (R283). -/
def execFcvtif (h : Hd) (d a b : BitVec 5) (w : Bool) (s : State) : Host.Outcome State Fault Refusal :=
  scalarCvt h (fpLat w) d [.s a.toNat] (fun s md =>
    let r := cvtFromInt (wFmt w) md (intOfKind b (s.rs a))
    (BitVec.ofNat 64 r.1, r.2)) s

/-- FCVTFI: the suffix's format to an integer of the kind, rounded; int32 results are sign-extended, uint32 results
zero-extended (R283). -/
def execFcvtfi (h : Hd) (d a b : BitVec 5) (w : Bool) (s : State) : Host.Outcome State Fault Refusal :=
  scalarCvt h (fpLat w) d [.s a.toNat] (fun s md =>
    let r := cvtInt (kindRange b).1 (kindRange b).2 md (fval w (s.rs a))
    (BitVec.ofInt 64 r.1, r.2)) s

/-- FCVTW: with suffix f64, f32 to f64; with suffix f32, f64 to f32, rounded (R282, R283). -/
def execFcvtw (h : Hd) (d a : BitVec 5) (w : Bool) (s : State) : Host.Outcome State Fault Refusal :=
  scalarCvt h (fpLat w) d [.s a.toNat] (fun s md =>
    let r := cvtFp (wFmt w) md (fval (!w) (s.rs a))
    (BitVec.ofNat 64 r.1, r.2)) s

/-- The class bit of a code (R284). -/
def classBit (f : Fmt) (x : Nat) : Nat := match f.dec x with
  | .nan true => 8
  | .nan false => 9
  | .inf true => 0
  | .inf false => 7
  | .num neg m _ =>
    if m = 0 then (if neg then 3 else 4)
    else if m < 2 ^ f.fb then (if neg then 2 else 5)
    else (if neg then 1 else 6)

/-- FCLASS: the class mask of A; it raises no flag (R284). -/
def execFclass (h : Hd) (d a : BitVec 5) (w : Bool) (s : State) : Host.Outcome State Fault Refusal :=
  scalarFp h (fpLat w) d [.s a.toNat] (fun s => (2 ^ classBit (wFmt w) (fcode w (s.rs a)), 0#5)) s

/-! ### Predicates, major 0x09 (R293) -/

/-- A word that lands a predicate. -/
def predWord (h : Hd) (d : BitVec 5) (rd : List Reg) (f : State → Bool × BitVec 5) (s : State) :
    Host.Outcome State Fault Refusal :=
  scalarWord h 1 rd (fun s => ([.p d.toNat (f s).1], (f s).2)) s

/-- A compare at width W. -/
def cmpWidth (w : Bool) (f : (n : Nat) → BitVec n → BitVec n → Bool) (x y : Word) : Bool :=
  if w then f 64 x y else f 32 (x.setWidth 32) (y.setWidth 32)

/-- PEQ: x = y (R293). -/
def execPeq (h : Hd) (d a b : BitVec 5) (w : Bool) (s : State) : Host.Outcome State Fault Refusal :=
  predWord h d [.s a.toNat, .s b.toNat] (fun s => (cmpWidth w (fun _ x y => x == y) (s.rs a) (s.rs b), 0#5)) s

/-- PNE: x differs from y (R293). -/
def execPne (h : Hd) (d a b : BitVec 5) (w : Bool) (s : State) : Host.Outcome State Fault Refusal :=
  predWord h d [.s a.toNat, .s b.toNat] (fun s => (cmpWidth w (fun _ x y => x != y) (s.rs a) (s.rs b), 0#5)) s

/-- PLT: x < y, signed (R293). -/
def execPlt (h : Hd) (d a b : BitVec 5) (w : Bool) (s : State) : Host.Outcome State Fault Refusal :=
  predWord h d [.s a.toNat, .s b.toNat] (fun s => (cmpWidth w (fun _ x y => x.slt y) (s.rs a) (s.rs b), 0#5)) s

/-- PLE: x ≤ y, signed (R293). -/
def execPle (h : Hd) (d a b : BitVec 5) (w : Bool) (s : State) : Host.Outcome State Fault Refusal :=
  predWord h d [.s a.toNat, .s b.toNat] (fun s => (cmpWidth w (fun _ x y => x.sle y) (s.rs a) (s.rs b), 0#5)) s

/-- PLTU: x < y, unsigned (R293). -/
def execPltu (h : Hd) (d a b : BitVec 5) (w : Bool) (s : State) : Host.Outcome State Fault Refusal :=
  predWord h d [.s a.toNat, .s b.toNat] (fun s => (cmpWidth w (fun _ x y => x.ult y) (s.rs a) (s.rs b), 0#5)) s

/-- PFEQ: A = B (R293, R195). -/
def execPfeq (h : Hd) (d a b : BitVec 5) (w : Bool) (s : State) : Host.Outcome State Fault Refusal :=
  predWord h d [.s a.toNat, .s b.toNat] (fun s => feq (fval w (s.rs a)) (fval w (s.rs b))) s

/-- PFLT: A < B (R293, R195). -/
def execPflt (h : Hd) (d a b : BitVec 5) (w : Bool) (s : State) : Host.Outcome State Fault Refusal :=
  predWord h d [.s a.toNat, .s b.toNat] (fun s => flt (fval w (s.rs a)) (fval w (s.rs b))) s

/-- PAND (R293). -/
def execPand (h : Hd) (d a b : BitVec 5) (s : State) : Host.Outcome State Fault Refusal :=
  predWord h d [.p a.toNat, .p b.toNat] (fun s => (s.rp a.toNat && s.rp b.toNat, 0#5)) s

/-- POR (R293). -/
def execPor (h : Hd) (d a b : BitVec 5) (s : State) : Host.Outcome State Fault Refusal :=
  predWord h d [.p a.toNat, .p b.toNat] (fun s => (s.rp a.toNat || s.rp b.toNat, 0#5)) s

/-- PNOT (R293). -/
def execPnot (h : Hd) (d a : BitVec 5) (s : State) : Host.Outcome State Fault Refusal :=
  predWord h d [.p a.toNat] (fun s => (!(s.rp a.toNat), 0#5)) s

end Sys2Proof.Machine
end

