-- ==== Sys2Proof/Machine/Vector.lean ====
section
/-! DEFINITION. Vector words that touch registers only: majors 0x10 to 0x14, 0x18 and 0x19 (R294 to R314). -/

namespace Sys2Proof.Machine

open Sys2Proof State

/-! ### Shared operations -/

/-- A vector word that reads registers and lands its results through the port of its position (R295). -/
def vecWord (h : Hd) (lat : Nat) (rd : List Reg) (res : State → List RegWrite × BitVec 5) (s : State) :
    Host.Outcome State Fault Refusal :=
  s.word h (fun s => s.early rd) fun s => s.land lat (res s).1 (res s).2

/-- A number from a list of w-bit fields, the first lowest. -/
def packList (w : Nat) (l : List Nat) : Nat := l.foldr (fun x a => x % 2 ^ w + a <<< w) 0
/-- The element list of a register image, row by row. -/
def elems (w : Nat) (v : Block) : List Nat := (flats w).map fun p => elem w v p.1 p.2
/-- The elements of one row. -/
def rowElems (w : Nat) (v : Block) (r : Nat) : List Nat := (List.range (perRow w)).map fun j => elem w v r j
/-- Results for every element of a w-bit register, row by row, written where `on` holds; their flags join. -/
def lanesOf (w : Nat) (on : Nat → Nat → Bool) (d : Nat) (l : List (Nat × BitVec 5)) : List RegWrite × BitVec 5 :=
  let z := List.zip (flats w) l
  ([.v d (BitVec.ofNat 32768 (packList w (z.map fun p => if on p.1.1 p.1.2 then 2 ^ w - 1 else 0)))
      (BitVec.ofNat 32768 (packList w (l.map Prod.fst)))],
   orFlags (z.map fun p => if on p.1.1 p.1.2 then p.2.2 else 0#5))
/-- An elementwise result under a mask (R298). -/
def lanes (w : Nat) (k : Mask) (d : Nat) (f : Nat → Nat → Nat × BitVec 5) : List RegWrite × BitVec 5 :=
  lanesOf w (sel k w) d ((flats w).map fun p => if sel k w p.1 p.2 then f p.1 p.2 else (0, 0#5))
/-- A compare into a mask register (R299). -/
def laneMask (w : Nat) (k : Mask) (d : Nat) (f : Nat → Nat → Bool × BitVec 5) : List RegWrite × BitVec 5 :=
  let on := BitVec.ofNat 1024 (packFrom 1 (fun t => if sel k w (t / 64) (t % 64 * 32 / w) then 1 else 0) 1024)
  ([.k d on (packMask w fun r j => (f r j).1)],
   orFlags ((flats w).map fun p => if sel k w p.1 p.2 then (f p.1 p.2).2 else 0#5))
/-- Vector register field as a source. -/
def vr (x : BitVec 4) : Reg := .v x.toNat
/-- Mask field as a source. -/
def kr {n : Nat} (x : BitVec n) : Reg := .k x.toNat
/-- The governing mask of a word. -/
def ks (s : State) (k : BitVec 2) : Mask := s.rk k.toNat
/-- A latency that grows with a 64-bit side (R296). -/
def lat64 (t : BitVec 2) (n m : Nat) : Nat := if t = 3#2 then m else n

/-! ### Integer elementwise, major 0x10 (R298, R299) -/

/-- An integer operation on the element width of TY. -/
def vecInt (h : Hd) (d a b : BitVec 4) (t k : BitVec 2) (op : Nat → Nat → Nat → Nat) (s : State) :
    Host.Outcome State Fault Refusal :=
  let w := tyBits t
  vecWord h (lat64 t 10 18) [vr a, vr b, kr k] (fun s =>
    let x := s.rv a.toNat
    let y := s.rv b.toNat
    lanes w (ks s k) d.toNat fun r j => (op w (elem w x r j) (elem w y r j), 0#5)) s

/-- An integer compare into k[D]. -/
def vecIntCmp (h : Hd) (d a b : BitVec 4) (t k : BitVec 2) (op : Nat → Nat → Nat → Bool) (s : State) :
    Host.Outcome State Fault Refusal :=
  let w := tyBits t
  vecWord h (lat64 t 10 18) [vr a, vr b, kr k] (fun s =>
    let x := s.rv a.toNat
    let y := s.rv b.toNat
    laneMask w (ks s k) (d.toNat % 8) fun r j => (op w (elem w x r j) (elem w y r j), 0#5)) s

/-- VADD: (x + y) mod 2^w (R298). -/
def execVadd (h : Hd) (d a b : BitVec 4) (t k : BitVec 2) (s : State) :
    Host.Outcome State Fault Refusal :=
  vecInt h d a b t k (fun _ x y => x + y) s

/-- VSUB: (x - y) mod 2^w (R298). -/
def execVsub (h : Hd) (d a b : BitVec 4) (t k : BitVec 2) (s : State) :
    Host.Outcome State Fault Refusal :=
  vecInt h d a b t k (fun w x y => x + 2 ^ w - y) s

/-- VMUL: the low w bits of x * y (R298). -/
def execVmul (h : Hd) (d a b : BitVec 4) (t k : BitVec 2) (s : State) :
    Host.Outcome State Fault Refusal :=
  vecInt h d a b t k (fun _ x y => x * y) s

/-- VMIN: signed minimum (R298). -/
def execVmin (h : Hd) (d a b : BitVec 4) (t k : BitVec 2) (s : State) :
    Host.Outcome State Fault Refusal :=
  vecInt h d a b t k (fun w x y => if sx w y < sx w x then y else x) s

/-- VMAX: signed maximum (R298). -/
def execVmax (h : Hd) (d a b : BitVec 4) (t k : BitVec 2) (s : State) :
    Host.Outcome State Fault Refusal :=
  vecInt h d a b t k (fun w x y => if sx w x < sx w y then y else x) s

/-- VAND: x AND y (R298). -/
def execVand (h : Hd) (d a b : BitVec 4) (t k : BitVec 2) (s : State) :
    Host.Outcome State Fault Refusal :=
  vecInt h d a b t k (fun _ x y => x &&& y) s

/-- VOR: x OR y (R298). -/
def execVor (h : Hd) (d a b : BitVec 4) (t k : BitVec 2) (s : State) :
    Host.Outcome State Fault Refusal :=
  vecInt h d a b t k (fun _ x y => x ||| y) s

/-- VXOR: x XOR y (R298). -/
def execVxor (h : Hd) (d a b : BitVec 4) (t k : BitVec 2) (s : State) :
    Host.Outcome State Fault Refusal :=
  vecInt h d a b t k (fun _ x y => x ^^^ y) s

/-- VSHL: x shifted left by y mod w (R298). -/
def execVshl (h : Hd) (d a b : BitVec 4) (t k : BitVec 2) (s : State) :
    Host.Outcome State Fault Refusal :=
  vecInt h d a b t k (fun w x y => x <<< (y % w)) s

/-- VSHR: x shifted right by y mod w (R298). -/
def execVshr (h : Hd) (d a b : BitVec 4) (t k : BitVec 2) (s : State) :
    Host.Outcome State Fault Refusal :=
  vecInt h d a b t k (fun w x y => x >>> (y % w)) s

/-- VSAR: as VSHR, the sign entering (R298). -/
def execVsar (h : Hd) (d a b : BitVec 4) (t k : BitVec 2) (s : State) :
    Host.Outcome State Fault Refusal :=
  vecInt h d a b t k (fun w x y => code w (sx w x >>> (y % w))) s

/-- VCEQ: k[D] gets x = y (R299). -/
def execVceq (h : Hd) (d a b : BitVec 4) (t k : BitVec 2) (s : State) :
    Host.Outcome State Fault Refusal :=
  vecIntCmp h d a b t k (fun _ x y => x == y) s

/-- VCLT: k[D] gets x < y, signed (R299). -/
def execVclt (h : Hd) (d a b : BitVec 4) (t k : BitVec 2) (s : State) :
    Host.Outcome State Fault Refusal :=
  vecIntCmp h d a b t k (fun w x y => decide (sx w x < sx w y)) s

/-- VSEL: every element of VD gets VA where the mask holds and VB elsewhere (R299). -/
def execVsel (h : Hd) (d a b : BitVec 4) (t k : BitVec 2) (s : State) :
    Host.Outcome State Fault Refusal :=
  let w := tyBits t
  vecWord h (lat64 t 10 18) [vr a, vr b, kr k] (fun s =>
    let m := selBits (ks s k) w
    ([.v d.toNat (BitVec.allOnes 32768) ((s.rv a.toNat &&& m) ||| (s.rv b.toNat &&& ~~~m))], 0#5)) s

/-! ### Floating elementwise, major 0x11 (R300 to R302) -/

/-- A floating operation on the format of TY, on codes: x of VA, y of VB and z of VD. -/
def vecFp (h : Hd) (lat : Nat) (d a b : BitVec 4) (t k : BitVec 2) (rd : List Reg)
    (op : Fmt → RMode → Nat → Nat → Nat → Nat × BitVec 5) (s : State) : Host.Outcome State Fault Refusal :=
  let f := tyFmt t
  let w := f.bits
  vecWord h lat rd (fun s =>
    let x := s.rv a.toNat
    let y := s.rv b.toNat
    let z := s.rv d.toNat
    lanes w (ks s k) d.toNat fun r j => op f (modeOf s.me.round) (elem w x r j) (elem w y r j) (elem w z r j)) s

/-- A floating compare into k[D]. -/
def vecFpCmp (h : Hd) (d a b : BitVec 4) (t k : BitVec 2) (op : Fp → Fp → Bool × BitVec 5) (s : State) :
    Host.Outcome State Fault Refusal :=
  let f := tyFmt t
  let w := f.bits
  vecWord h (lat64 t 10 18) [vr a, vr b, kr k] (fun s =>
    let x := s.rv a.toNat
    let y := s.rv b.toNat
    laneMask w (ks s k) (d.toNat % 8) fun r j => op (f.dec (elem w x r j)) (f.dec (elem w y r j))) s

/-- VFADD: x + y (R300). -/
def execVfadd (h : Hd) (d a b : BitVec 4) (t k : BitVec 2) (s : State) :
    Host.Outcome State Fault Refusal :=
  vecFp h (lat64 t 10 18) d a b t k [vr a, vr b, kr k] (fun f md x y _ => addFp f md (f.dec x) (f.dec y)) s

/-- VFSUB: x - y (R300). -/
def execVfsub (h : Hd) (d a b : BitVec 4) (t k : BitVec 2) (s : State) :
    Host.Outcome State Fault Refusal :=
  vecFp h (lat64 t 10 18) d a b t k [vr a, vr b, kr k] (fun f md x y _ => addFp f md (f.dec x) (f.dec y).neg) s

/-- VFMUL: x * y (R300). -/
def execVfmul (h : Hd) (d a b : BitVec 4) (t k : BitVec 2) (s : State) :
    Host.Outcome State Fault Refusal :=
  vecFp h (lat64 t 10 18) d a b t k [vr a, vr b, kr k] (fun f md x y _ => mulFp f md (f.dec x) (f.dec y)) s

/-- VFMA: x * y + VD, one rounding (R300). -/
def execVfma (h : Hd) (d a b : BitVec 4) (t k : BitVec 2) (s : State) :
    Host.Outcome State Fault Refusal :=
  vecFp h (lat64 t 10 18) d a b t k [vr a, vr b, vr d, kr k] (fun f md x y z => fmaFp f md (f.dec x) (f.dec y) (f.dec z)) s

/-- VFMIN: minimum under R195 (R300). -/
def execVfmin (h : Hd) (d a b : BitVec 4) (t k : BitVec 2) (s : State) :
    Host.Outcome State Fault Refusal :=
  vecFp h (lat64 t 10 18) d a b t k [vr a, vr b, kr k] (fun f _ x y _ => fmin f x y) s

/-- VFMAX: maximum under R195 (R300). -/
def execVfmax (h : Hd) (d a b : BitVec 4) (t k : BitVec 2) (s : State) :
    Host.Outcome State Fault Refusal :=
  vecFp h (lat64 t 10 18) d a b t k [vr a, vr b, kr k] (fun f _ x y _ => fmax f x y) s

/-- VFDIV: x / y (R300). -/
def execVfdiv (h : Hd) (d a b : BitVec 4) (t k : BitVec 2) (s : State) :
    Host.Outcome State Fault Refusal :=
  vecFp h 24 d a b t k [vr a, vr b, kr k] (fun f md x y _ => divFp f md (f.dec x) (f.dec y)) s

/-- VFSQRT: the square root of x (R300, R301). -/
def execVfsqrt (h : Hd) (d a : BitVec 4) (t k : BitVec 2) (s : State) :
    Host.Outcome State Fault Refusal :=
  vecFp h 24 d a a t k [vr a, kr k] (fun f md x _ _ => sqrtFp f md (f.dec x)) s

/-- VFRSQ: 1 / sqrt x (R300, R301). -/
def execVfrsq (h : Hd) (d a : BitVec 4) (t k : BitVec 2) (s : State) :
    Host.Outcome State Fault Refusal :=
  vecFp h 24 d a a t k [vr a, kr k] (fun f md x _ _ => rsqrtFp f md (f.dec x)) s

/-- VFEXP2: 2^x (R300, R301). -/
def execVfexp2 (h : Hd) (d a : BitVec 4) (t k : BitVec 2) (s : State) :
    Host.Outcome State Fault Refusal :=
  vecFp h 24 d a a t k [vr a, kr k] (fun f md x _ _ => exp2Fp f md x) s

/-- VFLOG2: log2 x (R300, R301). -/
def execVflog2 (h : Hd) (d a : BitVec 4) (t k : BitVec 2) (s : State) :
    Host.Outcome State Fault Refusal :=
  vecFp h 24 d a a t k [vr a, kr k] (fun f md x _ _ => log2Fp f md x) s

/-- VFCEQ: k[D] gets x = y (R302). -/
def execVfceq (h : Hd) (d a b : BitVec 4) (t k : BitVec 2) (s : State) :
    Host.Outcome State Fault Refusal :=
  vecFpCmp h d a b t k feq s

/-- VFCLT: k[D] gets x < y (R302). -/
def execVfclt (h : Hd) (d a b : BitVec 4) (t k : BitVec 2) (s : State) :
    Host.Outcome State Fault Refusal :=
  vecFpCmp h d a b t k flt s

/-- VFCLE: k[D] gets x <= y (R302). -/
def execVfcle (h : Hd) (d a b : BitVec 4) (t k : BitVec 2) (s : State) :
    Host.Outcome State Fault Refusal :=
  vecFpCmp h d a b t k fle s

/-! ### Conversions, major 0x12 (R303 to R306) -/

/-- A conversion that pops 16 rows of random bits in SR mode and gives element j of row r its U (R193, R304). -/
def vecCvt (h : Hd) (lat : Nat) (rd : List Reg) (res : State → (Nat → Nat → RMode) → List RegWrite × BitVec 5)
    (s : State) : Host.Outcome State Fault Refusal :=
  let sr := s.me.round == 4#3
  s.word h (fun s => firstTrap [s.early rd, if sr then randTrap s 16 else none]) fun s =>
    let rows := if sr then (List.range 16).map (nextRand s) else []
    let x := res s fun r j => cvtMode s.me.round (((rows.getD r 0#2048).toNat >>> (16 * (j % 128))) % 65536)
    (if sr then popRand s 16 else s).land lat x.1 x.2

/-- Convert element by element from ws-bit to wd-bit elements; the wider type gives the count (R303). -/
def cvtLanes (s : State) (a d : BitVec 4) (k : BitVec 2) (ws wd : Nat) (f : Nat → Nat → Nat → Nat × BitVec 5) :
    List RegWrite × BitVec 5 :=
  let n := Nat.min (perRow ws) (perRow wd)
  let x := s.rv a.toNat
  let on := fun r j => decide (j < n) && sel (ks s k) wd r j
  lanesOf wd on d.toNat ((flats wd).map fun p => if on p.1 p.2 then f p.1 p.2 (elem ws x p.1 p.2) else (0, 0#5))

/-- A format code of a conversion (R303). -/
def otherFmt (n : Nat) : Fmt := match n with
  | 0 => .f32 | 1 => .bf16 | 2 => .f16 | 3 => .f64 | 4 => .e4m3 | _ => .e5m2

/-- VCVT: between two floating formats (R303, R304). -/
def execVcvt (h : Hd) (d a b : BitVec 4) (t k : BitVec 2) (s : State) : Host.Outcome State Fault Refusal :=
  let o := otherFmt (b.toNat % 8)
  let from_ := if b.getLsbD 3 then o else tyFmt t
  let to_ := if b.getLsbD 3 then tyFmt t else o
  vecCvt h (if from_ = .f64 ∨ to_ = .f64 then 18 else 10) [vr a, kr k] (fun s md =>
    cvtLanes s a d k from_.bits to_.bits fun r j x => cvtFp to_ (md r j) (from_.dec x)) s

/-- The integer kind of VCVTI's VB: width and range. -/
def intKind (n : Nat) : Nat × Int × Int := match n with
  | 0 => (32, -2 ^ 31, 2 ^ 31 - 1) | 1 => (16, -2 ^ 15, 2 ^ 15 - 1) | 2 => (8, -128, 127) | 3 => (64, -2 ^ 63, 2 ^ 63 - 1)
  | 4 => (32, 0, 2 ^ 32 - 1) | 5 => (16, 0, 65535) | 6 => (8, 0, 255) | _ => (64, 0, 2 ^ 64 - 1)

/-- VCVTI: floating to integer, rounded and saturated (R303, R304). -/
def execVcvti (h : Hd) (d a b : BitVec 4) (t k : BitVec 2) (s : State) : Host.Outcome State Fault Refusal :=
  let f := tyFmt t
  let g := intKind (b.toNat % 8)
  vecCvt h (if f = .f64 ∨ g.1 = 64 then 18 else 10) [vr a, kr k] (fun s md =>
    cvtLanes s a d k f.bits g.1 fun r j x =>
      let y := cvtInt g.2.1 g.2.2 (md r j) (f.dec x)
      (code g.1 y.1, y.2)) s

/-- VCVTF: integer to floating, rounded (R303, R304). -/
def execVcvtf (h : Hd) (d a b : BitVec 4) (t k : BitVec 2) (s : State) : Host.Outcome State Fault Refusal :=
  let w := tyBits t
  let f := otherFmt (b.toNat % 8)
  vecCvt h (if w = 64 ∨ f = .f64 then 18 else 10) [vr a, kr k] (fun s md =>
    cvtLanes s a d k w f.bits fun r j x => cvtFromInt f (md r j) (if b.getLsbD 3 then (x : Int) else sx w x)) s

/-- Code bits and fraction bits of an MXINT format (R188). -/
def mxBits (n : Nat) : Nat × Nat := match n with
  | 0 => (8, 6) | 1 => (6, 4) | _ => (4, 2)

/-- The quantisation of a block of values with their rounding modes: its scale, its code bytes and their flags (R204,
R205). -/
def quantBlock (bits frac : Nat) (l : List (Fp × RMode)) : Nat × List Nat × BitVec 5 :=
  let top := 2 ^ (bits - 1)
  if l.any fun p => p.1.isNan then (0xFF, l.map fun _ => 0, flNV)
  else
    let logs : List Int := l.filterMap fun p => match p.1 with
      | .num _ m e => if m = 0 then none else some ((Nat.log2 m : Int) + e)
      | _ => none
    let sc : Int := match logs with
      | [] => 0
      | x :: r => min 254 (max 0 (r.foldl max x + 127))
    let one : Fp × RMode → Nat × BitVec 5 := fun p => match p.1 with
      | .nan _ => (0, 0#5)
      | .inf neg => (if neg then code 8 (-(top : Int)) else top - 1, flOF ||| flNX)
      | .num neg m e =>
        if m = 0 then (0, 0#5) else
          let q := quant p.2 neg m (sc - 127 - (frac : Int) - e)
          if neg then (if top < q.1 then (code 8 (-(top : Int)), flOF ||| flNX) else (code 8 (-(q.1 : Int)), flagIf q.2 flNX))
          else if top ≤ q.1 then (top - 1, flOF ||| flNX) else (q.1, flagIf q.2 flNX)
    let cs := l.map one
    (sc.toNat, cs.map Prod.fst, orFlags (cs.map Prod.snd))

/-- VQMX: microscaled quantisation of 32-element blocks; KS names the format (R305). -/
def execVqmx (h : Hd) (d a b : BitVec 4) (t k : BitVec 2) (s : State) : Host.Outcome State Fault Refusal :=
  let f := tyFmt t
  let w := f.bits
  let n := perRow w
  let mx := mxBits k.toNat
  vecCvt h 10 [vr a] (fun s md =>
    let x := s.rv a.toNat
    let qs := (List.range 16).map fun r => (List.range (n / 32)).map fun c =>
      quantBlock mx.1 mx.2 ((List.range 32).map fun i => (f.dec (elem w x r (32 * c + i)), md r (32 * c + i)))
    let codes := qs.map fun row => row.flatMap fun q => q.2.1
    let put := fun (on : Bool) => packList 2048 (codes.map fun l => packList 8 (l.map fun c => if on then 255 else c))
    let scales := qs.map fun row => row.map fun q => q.1
    let sput := fun (on : Bool) => packList 64 (scales.map fun l => packList 8 (l.map fun c => if on then 255 else c))
    ([.v d.toNat (BitVec.ofNat 32768 (put true)) (BitVec.ofNat 32768 (put false)),
      .v b.toNat (BitVec.ofNat 32768 (sput true)) (BitVec.ofNat 32768 (sput false))],
     orFlags (qs.flatMap fun row => row.map fun q => q.2.2))) s

/-- The f32 value of an MXINT code under a scale (R206). A code of -2 under the scale 0xFE stands for -2^128, which FP32 cannot hold:
it becomes -infinity, without a flag (log 95). -/
def mxValue (bits frac sc c : Nat) : Nat :=
  if sc = 255 then Fmt.f32.nanCode else
    let v := sx bits (c % 2 ^ bits)
    (roundFp .f32 .rne (decide (v < 0)) v.natAbs ((sc : Int) - 127 - (frac : Int))).1

/-- VDQMX: MXINT codes to f32; TY names the format (R305, R306). -/
def execVdqmx (h : Hd) (d a b : BitVec 4) (t k : BitVec 2) (s : State) : Host.Outcome State Fault Refusal :=
  let mx := mxBits t.toNat
  vecWord h 10 [vr a, vr b, kr k] (fun s =>
    let x := s.rv a.toNat
    let y := s.rv b.toNat
    lanes 32 (ks s k) d.toNat fun r j => (mxValue mx.1 mx.2 (elem 8 y 0 (8 * r + j / 32)) (elem 8 x r j), 0#5)) s

/-! ### Row axis, major 0x13 (R306, R307) -/

/-- VROTR: each row rotates towards higher indices by VB[r,0] mod N (R306). -/
def execVrotr (h : Hd) (d a b : BitVec 4) (t k : BitVec 2) (s : State) : Host.Outcome State Fault Refusal :=
  let w := tyBits t
  let n := perRow w
  vecWord h 16 [vr a, vr b, kr k] (fun s =>
    let x := s.rv a.toNat
    let y := s.rv b.toNat
    lanes w (ks s k) d.toNat fun r j => (elem w x r ((j + n - elem w y r 0 % n) % n), 0#5)) s

/-- VBCR: each row takes its element VB[r,0] mod N (R306). -/
def execVbcr (h : Hd) (d a b : BitVec 4) (t k : BitVec 2) (s : State) : Host.Outcome State Fault Refusal :=
  let w := tyBits t
  let n := perRow w
  vecWord h 16 [vr a, vr b, kr k] (fun s =>
    let x := s.rv a.toNat
    let y := s.rv b.toNat
    lanes w (ks s k) d.toNat fun r _ => (elem w x r (elem w y r 0 % n), 0#5)) s

/-- The source width of a reduction: VB = 1 marks an integer source (R306). -/
def redBits (b : Bool) (t : BitVec 2) : Nat := if b then tyBits t else (tyFmt t).bits
/-- The accumulation format of a floating source (R208). -/
def accFmt (t : BitVec 2) : Fmt := if tyFmt t = .f64 then .f64 else .f32
/-- The accumulation width. -/
def accBits (b : Bool) (t : BitVec 2) : Nat := if b then tyBits t else (accFmt t).bits
/-- An f32 code of a narrower value, exact; a signalling NaN stays one. -/
def widen (f : Fmt) (x : Nat) : Nat := match f.dec x with
  | .nan true => 0x7F800001
  | v => (cvtFp .f32 .rne v).1
/-- A source element in the accumulation type. -/
def accIn (b : Bool) (t : BitVec 2) (x : Nat) : Nat :=
  if b then x else if tyFmt t = .f64 ∨ tyFmt t = .f32 then x else widen (tyFmt t) x
/-- Sum of two accumulated values (R208). -/
def sumOp (b : Bool) (t : BitVec 2) (md : RMode) (x y : Nat) : Nat × BitVec 5 :=
  if b then ((x + y) % 2 ^ tyBits t, 0#5) else addFp (accFmt t) md ((accFmt t).dec x) ((accFmt t).dec y)
/-- Maximum of two accumulated values (R306). -/
def maxOp (b : Bool) (t : BitVec 2) (_ : RMode) (x y : Nat) : Nat × BitVec 5 :=
  if b then (if sx (tyBits t) x < sx (tyBits t) y then y else x, 0#5) else fmax (accFmt t) x y

/-- A row reduction: the root goes to every element of its row in the accumulation type (R306). -/
def rowReduce (h : Hd) (d a : BitVec 4) (b : Bool) (t k : BitVec 2)
    (op : Bool → BitVec 2 → RMode → Nat → Nat → Nat × BitVec 5) (s : State) : Host.Outcome State Fault Refusal :=
  let wa := accBits b t
  vecWord h 16 [vr a, kr k] (fun s =>
    let md := modeOf s.me.round
    let x := s.rv a.toNat
    lanesOf wa (sel (ks s k) wa) d.toNat ((List.range 16).flatMap fun r =>
      let root := treeSum (op b t md) ((rowElems (redBits b t) x r).map fun e => (accIn b t e, 0#5))
      List.replicate (perRow wa) root)) s

/-- VSUMR: the row sum (R306, R208). -/
def execVsumr (h : Hd) (d a : BitVec 4) (b : Bool) (t k : BitVec 2) (s : State) : Host.Outcome State Fault Refusal :=
  rowReduce h d a b t k sumOp s

/-- VMAXR: the row maximum (R306). -/
def execVmaxr (h : Hd) (d a : BitVec 4) (b : Bool) (t k : BitVec 2) (s : State) : Host.Outcome State Fault Refusal :=
  rowReduce h d a b t k maxOp s

/-- A sum in the element's own type (R209). -/
def scanOp (b : Bool) (t : BitVec 2) (md : RMode) (x y : Nat) : Nat × BitVec 5 :=
  if b then ((x + y) % 2 ^ tyBits t, 0#5) else addFp (tyFmt t) md ((tyFmt t).dec x) ((tyFmt t).dec y)

/-- VSCANR: the inclusive sum scan of each row (R306, R209). -/
def execVscanr (h : Hd) (d a : BitVec 4) (b : Bool) (t k : BitVec 2) (s : State) : Host.Outcome State Fault Refusal :=
  let w := redBits b t
  vecWord h 16 [vr a, kr k] (fun s =>
    let x := s.rv a.toNat
    lanesOf w (sel (ks s k) w) d.toNat ((List.range 16).flatMap fun r =>
      scanAll (scanOp b t (modeOf s.me.round)) (Nat.log2 (perRow w)) ((rowElems w x r).map fun e => (e, 0#5)))) s

/-- The steps of a first-order recurrence from a seed, each with the flags that reach it (R307). -/
def recur (f : Fmt) (md : RMode) : Nat × BitVec 5 → List (Nat × Nat) → List (Nat × BitVec 5)
  | _, [] => []
  | hd, (x, y) :: r =>
    let v := fmaFp f md (f.dec x) (f.dec hd.1) (f.dec y)
    (v.1, v.2 ||| hd.2) :: recur f md (v.1, v.2 ||| hd.2) r

/-- VLRECR: h[j] = a[j] * h[j-1] + b[j] along each row, seeded from the last element of VD (R307). -/
def execVlrecr (h : Hd) (d a b : BitVec 4) (t k : BitVec 2) (s : State) : Host.Outcome State Fault Refusal :=
  let f := tyFmt t
  let w := f.bits
  vecWord h 22 [vr a, vr b, vr d, kr k] (fun s =>
    let x := s.rv a.toNat
    let y := s.rv b.toNat
    let z := s.rv d.toNat
    lanesOf w (sel (ks s k) w) d.toNat ((List.range 16).flatMap fun r =>
      recur f (modeOf s.me.round) (elem w z r (perRow w - 1), 0#5) (List.zip (rowElems w x r) (rowElems w y r)))) s

/-! ### Column axis, major 0x14 (R308, R309) -/

/-- VROTC: each column rotates down by VB[0,j] mod 16 (R308). -/
def execVrotc (h : Hd) (d a b : BitVec 4) (t k : BitVec 2) (s : State) : Host.Outcome State Fault Refusal :=
  let w := tyBits t
  vecWord h 12 [vr a, vr b, kr k] (fun s =>
    let x := s.rv a.toNat
    let y := s.rv b.toNat
    lanes w (ks s k) d.toNat fun r j => (elem w x ((r + 16 - elem w y 0 j % 16) % 16) j, 0#5)) s

/-- VBCC: each column takes its element of row VB[0,j] mod 16 (R308). -/
def execVbcc (h : Hd) (d a b : BitVec 4) (t k : BitVec 2) (s : State) : Host.Outcome State Fault Refusal :=
  let w := tyBits t
  vecWord h 12 [vr a, vr b, kr k] (fun s =>
    let x := s.rv a.toNat
    let y := s.rv b.toNat
    lanes w (ks s k) d.toNat fun _ j => (elem w x (elem w y 0 j % 16) j, 0#5)) s

/-- The 16 elements of a column. -/
def colElems (w : Nat) (v : Block) (j : Nat) : List Nat := (List.range 16).map fun r => elem w v r j
/-- Column results as the element list of a register: each column's list, read row by row. -/
def fromCols (l : List (List (Nat × BitVec 5))) : List (Nat × BitVec 5) :=
  (List.range 16).flatMap fun r => l.map fun c => c.getD r (0, 0#5)

/-- A column reduction: the root, rounded to the element's own type, goes to every row (R308). -/
def colReduce (h : Hd) (d a : BitVec 4) (b : Bool) (t k : BitVec 2)
    (op : Bool → BitVec 2 → RMode → Nat → Nat → Nat × BitVec 5) (s : State) : Host.Outcome State Fault Refusal :=
  let w := redBits b t
  vecWord h 12 [vr a, kr k] (fun s =>
    let md := modeOf s.me.round
    let x := s.rv a.toNat
    lanesOf w (sel (ks s k) w) d.toNat (fromCols ((List.range (perRow w)).map fun j =>
      let root := treeSum (op b t md) ((colElems w x j).map fun e => (accIn b t e, 0#5))
      let own := if b ∨ tyFmt t = accFmt t then root else
        let c := cvtFp (tyFmt t) md (Fmt.f32.dec root.1)
        (c.1, c.2 ||| root.2)
      List.replicate 16 own))) s

/-- VSUMC: the column sum (R308, R208). -/
def execVsumc (h : Hd) (d a : BitVec 4) (b : Bool) (t k : BitVec 2) (s : State) : Host.Outcome State Fault Refusal :=
  colReduce h d a b t k sumOp s

/-- VMAXC: the column maximum (R308). -/
def execVmaxc (h : Hd) (d a : BitVec 4) (b : Bool) (t k : BitVec 2) (s : State) : Host.Outcome State Fault Refusal :=
  colReduce h d a b t k maxOp s

/-- VSCANC: the inclusive sum scan down the rows (R308, R209). -/
def execVscanc (h : Hd) (d a : BitVec 4) (b : Bool) (t k : BitVec 2) (s : State) : Host.Outcome State Fault Refusal :=
  let w := redBits b t
  vecWord h 12 [vr a, kr k] (fun s =>
    let x := s.rv a.toNat
    lanesOf w (sel (ks s k) w) d.toNat (fromCols ((List.range (perRow w)).map fun j =>
      scanAll (scanOp b t (modeOf s.me.round)) 4 ((colElems w x j).map fun e => (e, 0#5))))) s

/-- VTRN: each tile of 16 elements square is transposed in place (R309). -/
def execVtrn (h : Hd) (d a : BitVec 4) (t k : BitVec 2) (s : State) : Host.Outcome State Fault Refusal :=
  let w := tyBits t
  vecWord h 14 [vr a, kr k] (fun s =>
    let x := s.rv a.toNat
    lanes w (ks s k) d.toNat fun r j => (elem w x (j % 16) (j / 16 * 16 + r), 0#5)) s

/-! ### Moves and random bits, major 0x18 (R310 to R312) -/

/-- The image of a register whose every row is one row. -/
def repRow (x : Row) : Block := BitVec.ofNat 32768 (packList 2048 (List.replicate 16 x.toNat))
/-- The bits of row r. -/
def rowBits (r : Nat) : Block := BitVec.setWidth 32768 (BitVec.allOnes 2048) <<< (2048 * r)

/-- VMOV: VD := VA under the mask (R310). -/
def execVmov (h : Hd) (d a : BitVec 4) (t k : BitVec 2) (s : State) : Host.Outcome State Fault Refusal :=
  vecWord h 6 [vr a, kr k] (fun s => ([.v d.toNat (selBits (ks s k) (tyBits t)) (s.rv a.toNat)], 0#5)) s

/-- VMOVX: a register of the other cluster, whole or row VB (R311). -/
def execVmovx (h : Hd) (d a b : BitVec 4) (t k : BitVec 2) (s : State) : Host.Outcome State Fault Refusal :=
  vecWord h 6 [vr a, kr k] (fun s =>
    let m := selBits (ks s k) 32
    ([.v d.toNat (if t = 0#2 then m else m &&& rowBits b.toNat) (s.rv a.toNat)], 0#5)) s

/-- VSPLAT: every element becomes SX(I8) in its width (R310). -/
def execVsplat (h : Hd) (d : BitVec 4) (i : BitVec 8) (t k : BitVec 2) (s : State) : Host.Outcome State Fault Refusal :=
  let w := tyBits t
  vecWord h 6 [kr k] (fun s => lanes w (ks s k) d.toNat fun _ _ => (code w i.toInt, 0#5)) s

/-- VINS: row n of VD becomes row 0 of VA (R310). -/
def execVins (h : Hd) (d a b : BitVec 4) (k : BitVec 2) (s : State) : Host.Outcome State Fault Refusal :=
  vecWord h 6 [vr a, kr k] (fun s =>
    ([.v d.toNat (selBits (ks s k) 32 &&& rowBits b.toNat) (repRow (rowOfBlock (s.rv a.toNat) 0))], 0#5)) s

/-- VEXT: every row of VD becomes row n of VA (R310). -/
def execVext (h : Hd) (d a b : BitVec 4) (k : BitVec 2) (s : State) : Host.Outcome State Fault Refusal :=
  vecWord h 6 [vr a, kr k] (fun s =>
    ([.v d.toNat (selBits (ks s k) 32) (repRow (rowOfBlock (s.rv a.toNat) b.toNat))], 0#5)) s

/-- VRAND: the next 16 rows of the random-bits queue (R312). -/
def execVrand (h : Hd) (d : BitVec 4) (k : BitVec 2) (s : State) : Host.Outcome State Fault Refusal :=
  s.word h (fun s => firstTrap [s.early [kr k], randTrap s 16]) fun s =>
    (popRand s 16).land 18 [.v d.toNat (selBits (ks s k) 32)
      (BitVec.ofNat 32768 (packList 2048 ((List.range 16).map fun i => (nextRand s i).toNat)))] 0#5

/-! ### Masks, major 0x19 (R313, R314) -/

/-- A mask word: all 1,024 bits of k[D], landing at i + 2. -/
def maskWord (h : Hd) (d : BitVec 3) (rd : List Reg) (f : State → Mask) (s : State) : Host.Outcome State Fault Refusal :=
  vecWord h 2 rd (fun s => ([.k d.toNat (BitVec.allOnes 1024) (f s)], 0#5)) s

/-- KAND (R313). -/
def execKand (h : Hd) (d a b : BitVec 3) (s : State) : Host.Outcome State Fault Refusal :=
  maskWord h d [kr a, kr b] (fun s => s.rk a.toNat &&& s.rk b.toNat) s
/-- KOR (R313). -/
def execKor (h : Hd) (d a b : BitVec 3) (s : State) : Host.Outcome State Fault Refusal :=
  maskWord h d [kr a, kr b] (fun s => s.rk a.toNat ||| s.rk b.toNat) s
/-- KXOR (R313). -/
def execKxor (h : Hd) (d a b : BitVec 3) (s : State) : Host.Outcome State Fault Refusal :=
  maskWord h d [kr a, kr b] (fun s => s.rk a.toNat ^^^ s.rk b.toNat) s
/-- KNOT (R313). -/
def execKnot (h : Hd) (d a : BitVec 3) (s : State) : Host.Outcome State Fault Refusal :=
  maskWord h d [kr a] (fun s => ~~~(s.rk a.toNat)) s
/-- KPOP: as many low bits as kA holds ones (R313). -/
def execKpop (h : Hd) (d a : BitVec 3) (s : State) : Host.Outcome State Fault Refusal :=
  maskWord h d [kr a] (fun s => BitVec.ofNat 1024 (2 ^ onesCount 1024 (s.rk a.toNat) - 1)) s
/-- KFIRST: the lowest 1 bit of kA (R313). -/
def execKfirst (h : Hd) (d a : BitVec 3) (s : State) : Host.Outcome State Fault Refusal :=
  maskWord h d [kr a] (fun s => s.rk a.toNat &&& -(s.rk a.toNat)) s
/-- KSET: every row becomes s[SD] (R313). -/
def execKset (h : Hd) (d : BitVec 3) (e : BitVec 5) (s : State) : Host.Outcome State Fault Refusal :=
  maskWord h d [.s e.toNat] (fun s => BitVec.ofNat 1024 (packList 64 (List.replicate 16 (s.rs e).toNat))) s

end Sys2Proof.Machine
end

