-- ==== Sys2Proof/Machine/Matrix.lean ====
section
/-! DEFINITION. Matrix words: array commands (majors 0x20, 0x21), accumulator and scale words (0x22), mode words (0x23),
and the values that array commands leave in the accumulators (R335 to R352, R198 to R203). -/

namespace Sys2Proof.Machine

open Sys2Proof State

/-! ### Operands (R343, R346, R347) -/

/-- Bytes of an element (R342). -/
def matE (fmt : Nat) : Nat := match fmt with | 0 => 4 | 1 => 8 | 2 => 2 | 3 => 2 | _ => 1
/-- Products per output element of a dense command (R342). -/
def matK (fmt : Nat) : Nat := 128 / matE fmt
/-- Output columns (R342). -/
def matN (fmt : Nat) : Nat := if fmt = 1 then 32 else 64

/-- A block operand of the own stack: aligned, in its bank group, in the job's slabs (R340). `n` blocks further on, its
offset moves by 4,096 bytes a block. -/
def matBlock (s : State) (ea : Word) (group n : Nat) : Except Trap Nat :=
  match s.spadForm ea with
  | .error t => .error t
  | .ok (st, off) =>
    let blk := off / 4096 + n
    if st ≠ s.myStack ∨ off % 4096 ≠ 0 ∨ blk % 2 ≠ group ∨ 6144 ≤ blk then .error .translation
    else match s.slabTrap s.cur.ctx st (blk / 64) with
      | some t => .error t
      | none => .ok (spadAddr st (4096 * blk))

/-- One row read of a command: its cycle from execution, its key, its address and its bytes. -/
structure MRead where
  off : Nat
  key : Nat
  addr : Except Trap Nat
  len : Nat

/-- The key of a row of a side. -/
def rowKey (side r : Nat) : Nat := side * 2 ^ 20 + r
/-- The 16 row reads of a block that a command reads at e + 2 + o + r. -/
def blockReads (o side first : Nat) (b : Except Trap Nat) : List MRead := (List.range 16).map fun r =>
  { off := 2 + o + r, key := rowKey side (first + r), addr := b.map fun a => a + 256 * r, len := 256 }

/-- The row reads of a dense command (R343). -/
def denseReads (s : State) (a b : Word) (fmt : Nat) : List MRead :=
  blockReads 0 0 0 (matBlock s a 0 0) ++ blockReads 0 1 0 (matBlock s b 1 0) ++
    (if fmt = 1 then [] else blockReads 0 1 16 (matBlock s b 1 2))

/-- The address of an input run of a window walk, in group 0 and aligned to 128 bytes (R346). -/
def runAddr (s : State) (x : Int) : Except Trap Nat :=
  match s.spadForm (BitVec.ofInt 64 x) with
  | .error t => .error t
  | .ok (st, off) =>
    if st ≠ s.myStack ∨ off % 128 ≠ 0 ∨ off / 4096 % 2 ≠ 0 then .error .translation
    else match s.slabTrap s.cur.ctx st (off / 262144) with
      | some t => .error t
      | none => .ok (spadAddr st off)

/-- A window or step field: 0 means 16 (R57). -/
def orSixteen (x : BitVec 4) : Nat := if x = 0#4 then 16 else x.toNat

/-- The input runs of tap t of a window walk, those in range (R346). -/
def tapRuns (s : State) (a : Word) (h : Quad) (e t : Nat) : List MRead :=
  let f0 := t % orSixteen (h.extractLsb' 88 4)
  let f1 := t / orSixteen (h.extractLsb' 88 4)
  (List.range 32).filterMap fun m =>
    let a0 := (h.extractLsb' 64 8).toInt + (orSixteen (h.extractLsb' 80 4) * m + f0 : Nat)
    let a1 := (h.extractLsb' 72 8).toInt + (f1 : Int)
    if 0 ≤ a0 ∧ a0 < ((h.extractLsb' 0 16).toNat : Int) ∧ 0 ≤ a1 ∧ a1 < ((h.extractLsb' 16 16).toNat : Int) then
      some { off := 2 + 16 * t + m / 2, key := rowKey 0 (32 * t + m), len := 128,
             addr := runAddr s ((a.toNat : Int) + (e : Int) * (a0 * (h.extractLsb' 32 16).toInt + a1 * (h.extractLsb' 48 16).toInt)) }
    else none

/-- s[SA] of MWIN is itself a scratchpad address of the core's own stack, wherever its runs lie (R340). -/
def ownSpad (s : State) (x : Word) : Option Trap := match s.spadForm x with
  | .error t => some t
  | .ok (st, _) => if st ≠ s.myStack then some .translation else none

/-- The row reads of MWIN (R346). -/
def winReads (s : State) (a b : Word) (h : Quad) (fmt : Nat) : List MRead :=
  (List.range (tapsOf h)).flatMap fun t =>
    tapRuns s a h (matE fmt) t ++ blockReads (16 * t) 1 (32 * t) (matBlock s b 1 (4 * t)) ++
      blockReads (16 * t) 1 (32 * t + 16) (matBlock s b 1 (4 * t + 2))

/-- The row reads of MCSR and MBSR (R347). -/
def csrReads (s : State) (a b : Word) : List MRead :=
  blockReads 0 0 0 (matBlock s a 0 0) ++ blockReads 0 1 0 (matBlock s b 1 0) ++ blockReads 0 1 16 (matBlock s b 1 2)

/-- The row reads of M24 (R347, R349). -/
def m24Reads (s : State) (a b : Word) : List MRead :=
  blockReads 0 0 0 (matBlock s a 0 0) ++ (blockReads 0 2 0 (matBlock s a 0 2)).take 4 ++
    (List.range 4).flatMap fun j => blockReads 0 1 (16 * j) (matBlock s b 1 (2 * j))

/-! ### Execution (R338 to R341) -/

/-- The slots of a command's reads with their perform offsets. -/
def readSlots (rs : List MRead) : List (Nat × Nat) := (rs.map fun r => (r.off, slotOf (valOf r.addr))).eraseDups

/-- Hold array cycles of a stack; values that no later cycle can name are dropped. -/
def holdArray (s : State) (st : Nat) (f0 : Int) (vals : List Int) : State :=
  s.modStack st fun k => { k with arr := (k.arr.filter fun v => decide (f0 - 64 ≤ v)) ++ vals }

/-- The reads of a command as accesses: those of one cycle on one bank go together (R317, R339). -/
def matAccesses (rs : List MRead) : List (Nat × AccessOp) :=
  let at_ := fun (r : MRead) => (r.off, bankOfSlot (slotOf (valOf r.addr)))
  (rs.map at_).eraseDups.map fun k =>
    (k.1, .matRows ((rs.filter fun r => at_ r == k).map fun r => (r.key, valOf r.addr, r.len)))

/-- The register that the address of a row read hangs on: of a command's first two, that of its side (R340). -/
def MRead.regs (rd : List Reg) (r : MRead) : List Reg := if r.key / 2 ^ 20 = 1 then (rd.drop 1).take 1 else rd.take 1

/-- An array command: it checks, reads its rows, reserves its array cycles and lands 31 cycles after the last (R338). A
nullified one only reserves its cycles (R341). `rd` begins with the registers of the A side and of the B side; `base` is a check of the A
operand's own address. -/
def arrayWord (h : Hd) (kind : MatKind) (z : BitVec 2) (fmt occ : Nat) (rd : List Reg) (taps : State → Nat)
    (eA eB : State → Scales) (base : State → Option Trap) (reads : State → List MRead) (s : State) :
    Host.Outcome State Fault Refusal :=
  if s.myCtx.job = 0 then .fault .noContext else
    let run := s.arrayEnd s.cur.ctx s.cur.col 0 occ
    let f0 := s.frame0 s.cur.ctx s.cur.col
    if s.guard h || (s.early [.p h.p.toNat]).isSome then
      s.word h (fun s =>
        let rs := reads s
        firstTrap [addrTrap (s.known (rd.take 1) (base s) :: rs.map fun r => s.known (r.regs rd) (trapOf r.addr)), s.early rd,
          s.accessTrap (readSlots rs),
          if s.timed && run.bad then some (.sched 5) else none]) fun s =>
        let rs := reads s
        let id := s.freshId
        let s1 := s.bump.placeAcc (readSlots rs)
        let s2 := (matAccesses rs).foldl (fun t x => t.access x.1 id x.2) s1
        let cmd : MatCmd := { id := id, kind := kind, z := z.toNat, fmt := fmt, taps := taps s, eA := eA s, eB := eB s,
                              rows := [], delay := 0, defer := 0, f0 := f0, win := winLen (s.stackAt s.myStack).force, occ := occ,
                              last := run.last, vals := run.vals, null := false }
        ((holdArray s2 s.myStack f0 run.vals).afterMe (run.last + 31) 0 (.matrixResultLanding cmd)).tally s.cur.ctx s.cur.col 7 1
    else
      let cmd : MatCmd := { id := 0, kind := kind, z := z.toNat, fmt := fmt, taps := 0, eA := 0#2048, eB := 0#2048, rows := [], delay := 0,
                            defer := 0, f0 := f0, win := winLen (s.stackAt s.myStack).force, occ := occ, last := run.last,
                            vals := run.vals, null := true }
      .next (((holdArray s s.myStack f0 run.vals).afterMe (run.last + 31) 0 (.matrixResultLanding cmd)).tally s.cur.ctx s.cur.col 6 1)

/-- The registers a dense command reads. -/
def denseRegs (a b : BitVec 5) (fmt : Nat) : List Reg :=
  [.s a.toNat, .s b.toNat] ++ if isMx fmt then [.e 0, .e 1] else []

/-- A dense command of R344. -/
def denseWord (h : Hd) (kind : MatKind) (z : BitVec 2) (a b f : BitVec 5) (e0 e1 : Nat) (rd : List Reg) (s : State) :
    Host.Outcome State Fault Refusal :=
  arrayWord h kind z f.toNat (denseOcc f.toNat) rd (fun _ => 1) (fun s => s.re e0) (fun s => s.re e1) (fun _ => none)
    (fun s => denseReads s (s.rs a) (s.rs b) f.toNat) s

/-- MMA (R344). -/
def execMma (h : Hd) (z : BitVec 2) (a b f : BitVec 5) (s : State) : Host.Outcome State Fault Refusal :=
  denseWord h .mma z a b f 0 1 (denseRegs a b f.toNat) s
/-- MMAZ: the accumulator counts as +0 (R344). -/
def execMmaz (h : Hd) (z : BitVec 2) (a b f : BitVec 5) (s : State) : Host.Outcome State Fault Refusal :=
  denseWord h .mmaz z a b f 0 1 (denseRegs a b f.toNat) s
/-- MMAT: B is n-major (R344). -/
def execMmat (h : Hd) (z : BitVec 2) (a b f : BitVec 5) (s : State) : Host.Outcome State Fault Refusal :=
  denseWord h .mmat z a b f 0 1 (denseRegs a b f.toNat) s
/-- MMAX: scales from e2 and e3 (R344). -/
def execMmax (h : Hd) (z : BitVec 2) (a b f : BitVec 5) (s : State) : Host.Outcome State Fault Refusal :=
  denseWord h .mmax z a b f 2 3 [.s a.toNat, .s b.toNat, .e 2, .e 3] s

/-- MWIN: a convolution through the window map in h[Z] (R346). -/
def execMwin (h : Hd) (z : BitVec 2) (a b f : BitVec 5) (s : State) : Host.Outcome State Fault Refusal :=
  arrayWord h .mwin z f.toNat (tapsOf (s.rh z.toNat) * Nat.max (denseOcc f.toNat) 16)
    [.s a.toNat, .s b.toNat, .h z.toNat] (fun s => tapsOf (s.rh z.toNat)) (fun s => s.re 0) (fun s => s.re 1)
    (fun s => ownSpad s (s.rs a)) (fun s => winReads s (s.rs a) (s.rs b) (s.rh z.toNat) f.toNat) s

/-- MCSR: compressed rows times dense B (R347, R348). -/
def execMcsr (h : Hd) (z : BitVec 2) (a b f : BitVec 5) (s : State) : Host.Outcome State Fault Refusal :=
  arrayWord h .mcsr z f.toNat 64 [.s a.toNat, .s b.toNat] (fun _ => 1) (fun s => s.re 0) (fun s => s.re 1) (fun _ => none)
    (fun s => csrReads s (s.rs a) (s.rs b)) s
/-- MBSR: 4 by 4 blocks times dense B (R347, R348). -/
def execMbsr (h : Hd) (z : BitVec 2) (a b f : BitVec 5) (s : State) : Host.Outcome State Fault Refusal :=
  arrayWord h .mbsr z f.toNat 64 [.s a.toNat, .s b.toNat] (fun _ => 1) (fun s => s.re 0) (fun s => s.re 1) (fun _ => none)
    (fun s => csrReads s (s.rs a) (s.rs b)) s
/-- M24: 2:4-compressed A times dense B (R349). -/
def execM24 (h : Hd) (z : BitVec 2) (a b f : BitVec 5) (s : State) : Host.Outcome State Fault Refusal :=
  arrayWord h .m24 z f.toNat (denseOcc f.toNat) [.s a.toNat, .s b.toNat] (fun _ => 1) (fun s => s.re 0) (fun s => s.re 1) (fun _ => none)
    (fun s => m24Reads s (s.rs a) (s.rs b)) s

/-! ### The values (R199 to R203, R344 to R349) -/

/-- A row of a command's side; rows that were not read hold zero. -/
def matRow (c : MatCmd) (side r : Nat) : Nat :=
  ((c.rows.find? fun x => x.1 == rowKey side r).map fun x => x.2.toNat).getD 0
/-- A value of a side at a byte offset. -/
def matAt (c : MatCmd) (side first off e : Nat) : Nat :=
  (matRow c side (first + off / 256) >>> (8 * (off % 256))) % 2 ^ (8 * e)
/-- A scale byte. -/
def scaleAt (x : Scales) (i : Nat) : Nat := (x.extractLsb' (8 * i) 8).toNat
/-- The value of an operand code under a scale (R188, R189). -/
def matVal (fmt sc x : Nat) : Fp := match fmt with
  | 0 => Fmt.f32.dec x
  | 1 => Fmt.f64.dec x
  | 2 => Fmt.bf16.dec x
  | 3 => Fmt.f16.dec x
  | 4 => Fmt.e4m3.dec x
  | 5 => Fmt.e5m2.dec x
  | 9 => .num (decide (sx 8 x < 0)) (sx 8 x).natAbs 0
  | n =>
    if sc = 255 then .nan false else
      let b := mxBits (n - 6)
      let v := sx b.1 (x % 2 ^ b.1)
      .num (decide (v < 0)) v.natAbs ((sc : Int) - 127 - (b.2 : Int))

/-- A[m, 0..K-1] of a dense A block (R343, R345). -/
def matA (c : MatCmd) (m : Nat) : List Fp := (List.range (matK c.fmt)).map fun k =>
  matVal c.fmt (scaleAt c.eA (4 * m + k / 32)) (matAt c 0 0 (128 * m + matE c.fmt * k) (matE c.fmt))
/-- B[0..K-1, n] of a k-major B of `cnt` rows from row `first` on (R343). -/
def matB (c : MatCmd) (first cnt n : Nat) : List Fp := (List.range cnt).map fun k =>
  let e := matE c.fmt
  matVal c.fmt (scaleAt c.eB (4 * n + k / 32)) (matAt c 1 first (if c.fmt = 1 then 256 * k + 8 * n else 64 * e * k + e * n) e)
/-- B[0..K-1, n] of an n-major B (R343). -/
def matBT (c : MatCmd) (n : Nat) : List Fp := (List.range (matK c.fmt)).map fun k =>
  matVal c.fmt (scaleAt c.eB (4 * n + k / 32)) (matAt c 1 0 (128 * n + matE c.fmt * k) (matE c.fmt))
/-- The run of output m at tap t (R346). -/
def matRun (c : MatCmd) (t m : Nat) : List Fp := (List.range (matK c.fmt)).map fun k =>
  matVal c.fmt 127 ((matRow c 0 (32 * t + m) >>> (8 * matE c.fmt * k)) % 2 ^ (8 * matE c.fmt))
/-- Position m of tap t is in range: its run was read (R346). -/
def runRead (c : MatCmd) (t m : Nat) : Bool := c.rows.any fun x => x.1 == rowKey 0 (32 * t + m)
/-- The factor of an exact zero product: of a weight only its sign counts (R346; log 26). -/
def zeroed : Fp → Fp
  | .num s _ _ => .num s 0 0
  | .inf s => .num s 0 0
  | .nan _ => .num false 0 0
/-- The leaves of a run with the weights of a column: of a position out of range, which has none, exact zero products (R346). -/
def tapLeaves (run : Option (List Fp)) (b : List Fp) : List (Fp × Fp) := match run with
  | some a => List.zip a b
  | none => b.map fun y => (.num false 0 0, zeroed y)

/-- The leaf lists of every output row as functions of the column, with the flag of an owned entry out of range. -/
def csrLeaves (c : MatCmd) (m : Nat) : List (Nat × Fp) × Bool :=
  let e := matE c.fmt
  let kb := if c.fmt = 2 ∨ c.fmt = 3 then 64 else 32
  match c.kind with
  | .mcsr =>
    let lo := matAt c 0 0 (2 * m) 2
    let hi := Nat.min (matAt c 0 0 (2 * (m + 1)) 2) 256
    let ts := (List.range (hi - lo)).map fun i => lo + i
    ((ts.filter fun t => decide (matAt c 0 0 (128 + 2 * t) 2 < kb)).map fun t =>
        (matAt c 0 0 (128 + 2 * t) 2, matVal c.fmt 127 (matAt c 0 0 (1024 + e * t) e)),
     ts.any fun t => decide (kb ≤ matAt c 0 0 (128 + 2 * t) 2))
  | _ =>
    let lo := matAt c 0 0 (2 * (m / 4)) 2
    let hi := Nat.min (matAt c 0 0 (2 * (m / 4 + 1)) 2) 16
    let ts := (List.range (hi - lo)).map fun i => lo + i
    ((ts.filter fun t => decide (matAt c 0 0 (128 + 2 * t) 2 < kb / 4)).flatMap fun t =>
        (List.range 4).map fun j =>
          (4 * matAt c 0 0 (128 + 2 * t) 2 + j, matVal c.fmt 127 (matAt c 0 0 (1024 + e * (16 * t + 4 * (m % 4) + j)) e)),
     ts.any fun t => decide (kb / 4 ≤ matAt c 0 0 (128 + 2 * t) 2))

/-- The products of every output element, row by row; an element without products keeps its accumulator. With them, NV of
an entry out of range (R348). -/
def matProducts (c : MatCmd) : List (List (List (Fp × Fp))) × BitVec 5 :=
  let k := matK c.fmt
  let ns := List.range (matN c.fmt)
  match c.kind with
  | .mma | .mmaz | .mmax =>
    let bs := ns.map fun n => matB c 0 k n
    ((List.range 32).map fun m => let a := matA c m; bs.map fun b => List.zip a b, 0#5)
  | .mmat =>
    let bs := ns.map fun n => matBT c n
    ((List.range 32).map fun m => let a := matA c m; bs.map fun b => List.zip a b, 0#5)
  | .mwin =>
    let bs := ns.map fun n => (List.range c.taps).map fun t => matB c (32 * t) k n
    ((List.range 32).map fun m =>
      let as := (List.range c.taps).map fun t => if runRead c t m then some (matRun c t m) else none
      bs.map fun b => (List.zip as b).flatMap fun x => tapLeaves x.1 x.2, 0#5)
  | .mcsr | .mbsr =>
    let kb := if c.fmt = 2 ∨ c.fmt = 3 then 64 else 32
    let bs := ns.map fun n => matB c 0 kb n
    let ls := (List.range 32).map fun m => csrLeaves c m
    (ls.map fun l => bs.map fun b => l.1.map fun x => (x.2, b.getD x.1 (.num false 0 0)),
     flagIf (ls.any Prod.snd) flNV)
  | .m24 =>
    let bs := ns.map fun n => matB c 0 (2 * k) n
    ((List.range 32).map fun m =>
      let a := matA c m
      let cols := (List.range k).map fun j =>
        let bit := 2 * (k * m + j)
        4 * (j / 2) + (matRow c 2 (bit / 2048) >>> (bit % 2048)) % 4
      bs.map fun b => List.zip a (cols.map fun x => b.getD x (.num false 0 0)), 0#5)

/-- The accumulator of an output element: an FP32 value, or an FP64 pair (R199). -/
def accAt (fmt : Nat) (z : Tile) (m n : Nat) : Nat :=
  if fmt = 1 then (z.toNat >>> (32 * (64 * m + 2 * n))) % 2 ^ 64 else (z.toNat >>> (32 * (64 * m + n))) % 2 ^ 32

/-- The tile a command leaves, from the tile at its landing, and its flags (R344). -/
def matResult (c : MatCmd) (z : Tile) : Tile × BitVec 5 :=
  let (ps, fl) := matProducts c
  let w := if c.fmt = 1 then 64 else 32
  let cells := (List.zip (List.range 32) ps).flatMap fun r => (List.zip (List.range 64) r.2).map fun p =>
    let old := if c.kind = .mmaz then 0 else accAt c.fmt z r.1 p.1
    if p.2 = [] then (old, 0#5)
    else if c.fmt = 0 then treeAcc .f32 p.2 old
    else if c.fmt = 1 then treeAcc .f64 p.2 old
    else exactAcc p.2 old
  (BitVec.ofNat 65536 (packList w (cells.map Prod.fst)), fl ||| orFlags (cells.map Prod.snd))

/-! ### Accumulator and scale words, major 0x22 (R350) -/

/-- A word of the accumulator unit with a result. -/
def accWord (h : Hd) (lat : Nat) (rd : List Reg) (ws : State → List RegWrite) (s : State) :
    Host.Outcome State Fault Refusal :=
  s.word h (fun s => s.early rd) fun s => s.land lat (ws s) 0#5

/-- ZRD: half of z[Z] to v[SB] (R350). -/
def execZrd (h : Hd) (z : BitVec 2) (b : BitVec 4) (f : BitVec 5) (s : State) : Host.Outcome State Fault Refusal :=
  accWord h 8 [.z z.toNat] (fun s =>
    [.v b.toNat (BitVec.allOnes 32768) ((s.rz z.toNat).extractLsb' (32768 * f.toNat) 32768)]) s
/-- ZWR: v[SB] to half of z[Z] (R350). -/
def execZwr (h : Hd) (z : BitVec 2) (b : BitVec 4) (f : BitVec 5) (s : State) : Host.Outcome State Fault Refusal :=
  accWord h 8 [.v b.toNat] (fun s =>
    [.z z.toNat ((s.rv b.toNat).setWidth 65536 <<< (32768 * f.toNat))
      ((BitVec.allOnes 32768).setWidth 65536 <<< (32768 * f.toNat))]) s
/-- ZCLR: every element of z[Z] becomes +0 (R350). -/
def execZclr (h : Hd) (z : BitVec 2) (s : State) : Host.Outcome State Fault Refusal :=
  accWord h 2 [] (fun _ => [.z z.toNat 0#65536 (BitVec.allOnes 65536)]) s

/-- ESLD: scales from memory, read at e + 2 as one row event (R350). FMT selects all 256 bytes or a half. -/
def execEsld (h : Hd) (z : BitVec 2) (a f : BitVec 5) (s : State) : Host.Outcome State Fault Refusal :=
  let n := if f = 0#5 then 256 else 128
  let lo := if f = 2#5 then 1024 else 0
  s.word h (fun s => firstTrap [s.known [.s a.toNat] (trapOf (s.ownAddr (s.rs a) n)), s.early [.s a.toNat],
      s.accessTrap [(2, slotOf (valOf (s.ownAddr (s.rs a) n)))]]) fun s =>
    let at_ := valOf (s.ownAddr (s.rs a) n)
    let id := s.freshId
    let mask : Scales := (BitVec.ofNat 2048 (2 ^ (8 * n) - 1)) <<< lo
    ((s.bump.placeAcc [(2, slotOf at_)]).access 2 id (.esld z.toNat { addr := at_, len := n, pos := lo })).landId
      id 8 [.e z.toNat mask 0#2048] 0#5

/-! ### Mode words, major 0x23 (R351) -/

/-- The world of a stack's rows differs from the writing context's (R63). -/
def stackForeign (s : State) (st : Nat) : Bool :=
  let r := st / 16
  [2 * r, 2 * r + 1, 32 + 2 * r, 33 + 2 * r].any fun n => s.worldOf (.context n) != s.myCtx.world

/-- The checks of a write of AMODE (R63). -/
def amodeTrap (s : State) : Option Trap :=
  if dieOf s.cur.ctx ≠ 0 ∨ isQ s.cur.ctx then some .privileged
  else if stackForeign s s.myStack then some .world else none

/-- AMODE: WIN := FMT, landing at i + 1; the reserved value 3 leaves WIN as it is (R351, R61). -/
def execAmode (h : Hd) (f : BitVec 5) (s : State) : Host.Outcome State Fault Refusal :=
  s.word h amodeTrap fun s => s.afterMe 1 0 (.amodeWrite (f.setWidth 2))

/-- The stored form of a shape (R57). -/
def shapeOf (lo hi : Word) : Quad :=
  let esz : BitVec 4 := hi.extractLsb' 32 4
  ((hi.extractLsb' 0 32) ++ lo).setWidth 128 ||| ((if 4#4 ≤ esz then 3#128 else esz.setWidth 128) <<< 96)

/-- MSHAPE: h[FMT] takes s[SA] and s[SB], for the third bundle that follows (R351, R58). -/
def execMshape (h : Hd) (a b f : BitVec 5) (s : State) : Host.Outcome State Fault Refusal :=
  s.word h (fun s => s.early [.s a.toNat, .s b.toNat]) fun s =>
    s.modCore s.cur.ctx s.cur.col fun k =>
      { k with pendH := k.pendH ++ [(f.toNat, shapeOf (s.rs a) (s.rs b), s.cur.seq + 3)] }

end Sys2Proof.Machine
end

