-- ==== Sys2Proof/Machine/Landing.lean ====
section
/-! DEFINITION. Landings: results and array results reaching their registers, write ports, and the control-register
writes that land with them (R46, R47, R58, R61, R62, R67, R71 to R73, R75). -/

namespace Sys2Proof.Machine

open Sys2Proof State

/-! ### Write ports (R47) -/

/-- The number of a core's write port; P and Q share it. -/
def portKey (c : Cursor) (port : Nat) : Nat := 8 * coreNo c.ctx c.col + port
/-- A result that writes no register takes no port; one of SETC, SETB or CLRB takes the scalar port (R387). -/
def noPort (f : Flight) : Bool := f.writes == []
/-- Whether a result is a P result at its scheduled cycle, a delayed P result, or a Q result: 0, 1, 2 (R47). -/
def portRank (ctx : Nat) (delayed : Bool) : Nat := if isQ ctx then 2 else if delayed then 1 else 0
/-- A landing entry that takes a port: its key and its rank there. -/
def portClass (e : Sched) : Option (Nat × Nat) := match e.act with
  | .resultLanding f => if noPort f then none else some (portKey e.cur f.port, portRank e.cur.ctx (decide (f.delay ≠ 0)))
  | .matrixResultLanding m => if m.null then none else some (portKey e.cur e.cur.slot.port, portRank e.cur.ctx (decide (m.delay ≠ 0 ∨ m.defer ≠ 0)))
  | _ => none
/-- The port of a landing in hand is taken in this cycle: a result went through it, or one that comes first is due. -/
def portTaken (s : State) (key cls : Nat) : Bool :=
  s.ports_.contains key || s.agenda.any fun e => decide (e.due ≤ s.clkNow e.clk) && match portClass e with
    | some (k, c) => k == key && decide (c < cls)
    | none => false

/-- A result goes through its port. -/
def usePort (s : State) (key : Nat) : State := { s with ports_ := key :: s.ports_ }
/-- A control-register write that has an event of its own goes through the scalar port of its core, if a program made it (R387). -/
def ctlPort (s : State) : State := if s.cur.slot = .scalar then usePort s (portKey s.cur 0) else s

/-! ### Control registers (R61, R62) -/

/-- A field of w bits after a write that clears and sets bits. -/
def newField (w : Nat) (old : BitVec w) (clear set : Word) : BitVec w := (old &&& ~~~(clear.setWidth w)) ||| set.setWidth w

/-- A control-register write lands on its core or context (R61). Reserved field values leave the field as it was. -/
def applyCtl (s : State) (c col num : Nat) (clear set : Word) : State := match num with
  | 0x002 => s.modCtx c fun x => { x with res := x.res && !clear.getLsbD 4 }
  | 0x003 => s.modCore c col fun k => { k with flags := newField 5 k.flags clear set }
  | 0x004 => s.modCore c col fun k =>
    let m := newField 3 k.round clear set
    { k with round := if 5#3 ≤ m then k.round else m }
  | 0x013 => s.modCtx c fun x => { x with rowoff := newField 8 x.rowoff clear set }
  | 0x041 => s.modCtx c fun x =>
    { x with touched := x.touched ||| set.setWidth 35, clears := x.clears.filter fun q => !(set.getLsbD q.1) }
  | 0x050 => s.modCtx c fun x => { x with sstep := (newField 1 (BitVec.ofBool x.sstep) clear set) == 1#1 }
  | 0x051 => s.modCtx c fun x =>
    let m := newField 3 x.retrylim clear set
    { x with retrylim := if m = 0#3 then x.retrylim else m }
  | n => if 0x070 ≤ n ∧ n ≤ 0x077 then
      s.modCtx c fun x => { x with args := x.args.put 0#64 (n - 0x070) (newField 64 (x.args.get 0#64 (n - 0x070)) clear set) }
    else s

/-- One update of a result. -/
def applyWrite (s : State) (c col : Nat) : RegWrite → State
  | .ctl n cl st => applyCtl s c col n cl st
  | w => s.modCore c col fun k => CoreCtx.write k w

/-! ### Results -/

/-- Operations that wait try again n cycles on: exchanges and G-ops of contexts that run (R97, R166, R221). -/
def wakeWaiting (s : State) (p : Waiting → Bool) (n : Waiting → Nat) : State :=
  s.waiting.foldl (fun t w => if !(p w) ∨ (s.ctx w.cur.ctx).frz.isSome then t else match w.what with
    | .exchange .. => t.after (.row (rowOf w.cur.ctx)) (n w) w.cur w.id .exchangeDeferredStart
    | .gop .. => t.after (.row (rowOf w.cur.ctx)) (n w) w.cur w.id .gOpDeferredIssue
    | _ => t) s

/-- An acquire's value has returned, or will not: what waited for it tries again (R221). -/
def dropAcq (s : State) (cur : Cursor) : State :=
  if (s.core cur.ctx cur.col).acqs.contains cur then
    wakeWaiting (s.modCore cur.ctx cur.col fun k => { k with acqs := k.acqs.filter fun a => a != cur })
      (fun w => w.cur.ctx == cur.ctx && w.cur.col == cur.col) (fun _ => 0)
  else s

/-- RESULT_LANDING: a result reaches its registers and raises its flags (R46, R47, R67); one that meets its port taken lands in
the first later cycle in which it is free. An acquire's value lets later accesses go (R221). -/
def execResultLanding (f : Flight) (s : State) : Host.Outcome State Fault Refusal :=
  let c := s.cur.ctx
  let col := s.cur.col
  let key := portKey s.cur f.port
  if !(noPort f) && portTaken s key (portRank c (decide (f.delay ≠ 0))) then
    .next (s.repostMe 1 s.arg (.resultLanding { f with delay := f.delay + 1 }))
  else
    let s1 := if noPort f then s else usePort s key
    let s2 := f.writes.foldl (fun t w => applyWrite t c col w) s1
    .next (dropAcq (s2.modCore c col fun k => { k with flags := k.flags ||| f.flags }) s.cur)

/-- An array command that names the same accumulator was issued earlier on the core and has not landed (R202). -/
def zPending (s : State) (z : Nat) : Bool := s.agenda.any fun e => poBefore e.cur s.cur && match e.act with
  | .matrixResultLanding m => !m.null && m.z == z
  | _ => false

/-- MATRIX_RESULT_LANDING: an array command's whole tile lands, computed from its captured rows and from z as it stands
(R55, R200 to R203, R338, R344). One that is not on the timetable lands after the earlier commands of its accumulator (R202). A
nullified one lands nothing (R341). -/
def execMatrixResultLanding (m : MatCmd) (s : State) : Host.Outcome State Fault Refusal :=
  let c := s.cur.ctx
  let col := s.cur.col
  let key := portKey s.cur s.cur.slot.port
  let late := decide (m.delay ≠ 0 ∨ m.defer ≠ 0)
  if m.null then .next s
  else if portTaken s key (portRank c late) || ((!s.timed || late) && zPending s m.z) then
    .next (s.repostMe 1 s.arg (.matrixResultLanding { m with delay := m.delay + 1 }))
  else
    let r := matResult m (s.rz m.z)
    .next ((usePort s key).modCore c col fun k =>
      { CoreCtx.write k (.z m.z r.1 (BitVec.allOnes 65536)) with flags := k.flags ||| r.2 })

/-- MSHAPE_TAKE_EFFECT: the pending shapes of the bundle under execution become the registers' values (R58). -/
def execMshapeTakeEffect (s : State) : Host.Outcome State Fault Refusal :=
  .next (s.modCore s.cur.ctx s.cur.col fun k =>
    let due := k.pendH.filter fun x => decide (x.2.2 ≤ s.cur.seq)
    { k with h := due.foldl (fun h x => h.put 0#128 x.1 x.2.1) k.h,
             pendH := k.pendH.filter fun x => decide (s.cur.seq < x.2.2) })

/-! ### The control writes with steps of their own -/

/-- The refill of the executing core's random-bits queue in the present cycle falls away (R73, R146). -/
def dropRefill (s : State) : State :=
  { s with agenda := s.agenda.filter fun e =>
      !(e.act == .randomQueueRefill && e.cur.ctx == s.cur.ctx && e.cur.col == s.cur.col) }

/-- RANDKEY_WRITE: a half of the key changes and the queue's contents are discarded; refill restarts in the next cycle (R62, R73,
R146). -/
def execRandkeyWrite (hi : Bool) (clear set : Word) (s : State) : Host.Outcome State Fault Refusal :=
  .next ((dropRefill (ctlPort s)).modCore s.cur.ctx s.cur.col fun k =>
    let sh := if hi then 64 else 0
    { k with randKey := (k.randKey &&& ~~~(clear.setWidth 128 <<< sh)) ||| (set.setWidth 128 <<< sh), randFill := 0 })

/-- RANDPOS_WRITE: the position changes and the queue's contents are discarded; refill restarts in the next cycle (R62, R73,
R146). -/
def execRandposWrite (clear set : Word) (s : State) : Host.Outcome State Fault Refusal :=
  .next ((dropRefill (ctlPort s)).modCore s.cur.ctx s.cur.col fun k => { k with randPos := newField 64 k.randPos clear set, randFill := 0 })

/-- RANDOM_QUEUE_REFILL: one row enters the queue (R73, R145). -/
def execRandomQueueRefill (s : State) : Host.Outcome State Fault Refusal :=
  .next (s.modCore s.cur.ctx s.cur.col fun k => { k with randFill := if k.randFill < 32 then k.randFill + 1 else k.randFill })

/-- TOUCHED_CLEAR: each named bit clears once every write issued to its slice before the clearing word is acknowledged; at
once where none is outstanding; a later write leaves its bit set (R75). -/
def execTouchedClear (bits : BitVec 35) (s : State) : Host.Outcome State Fault Refusal :=
  .next ((ctlPort s).modCtx s.cur.ctx fun x =>
    let slices := (List.range 35).filter fun i =>
      bits.getLsbD i && !(x.unacked.any fun u => u.slice == i && decide (s.arg ≤ u.id))
    let outs := fun (i : Nat) => (x.unacked.filter fun u => u.slice == i).map Unacked.id
    let now := slices.filter fun i => outs i == []
    { x with touched := x.touched &&& ~~~(now.foldl (fun m i => m ||| (1#35 <<< i)) 0#35),
             clears := x.clears ++ ((slices.filter fun i => !(outs i == [])).map fun i => (i, outs i)) })

/-- TOUCHED_BIT_CLEAR: a deferred clear takes effect: every write it waited for is acknowledged (R75). -/
def execTouchedBitClear (s : State) : Host.Outcome State Fault Refusal :=
  .next (s.modCtx s.cur.ctx fun x =>
    if x.clears.any fun c => c.1 == s.arg && c.2 == [] then
      { x with touched := x.touched &&& ~~~(1#35 <<< s.arg), clears := x.clears.filter fun c => !(c.1 == s.arg && c.2 == []) }
    else x)

/-- A context issues a write to a slice: the slice's bit sets, a deferred clear of it falls away, and the write waits for
its acknowledgement under a number (R75). -/
def touchSlice (s : State) (c slice id : Nat) : State := s.modCtx c fun x =>
  { x with touched := x.touched ||| (1#35 <<< slice), clears := x.clears.filter fun q => q.1 != slice,
           unacked := x.unacked ++ [{ slice := slice, id := id }] }

/-- A write is acknowledged: the clears that waited only for it take effect (R75). -/
def ackWrite (s : State) (c id : Nat) : State :=
  let x := s.ctx c
  let clears := x.clears.map fun q => (q.1, q.2.filter fun i => i != id)
  let ready := clears.filter fun q => q.2 == []
  let s1 := s.setCtx c { x with unacked := x.unacked.filter fun u => u.id != id, clears := clears }
  ready.foldl (fun t q => t.after (.row (rowOf c)) 0 { Cursor.none with ctx := c } q.1 .touchedBitClear) s1

/-- The first frame-clock value at or after one that is a multiple of 64, as cycles from now (R71). -/
def toWindow (f : Int) : Nat := ((-f) % 64).toNat

/-- AMODE_WRITE: WIN lands; the window length in force follows at the next multiple of 64 of the frame clock as the core of the stack
counts it (R71, R337). A reserved value leaves WIN as it was (R61). -/
def execAmodeWrite (win : BitVec 2) (s : State) : Host.Outcome State Fault Refusal :=
  if win = 3#2 then .next (ctlPort s) else
    let st := s.myStack
    .next (((ctlPort s).modStack st fun k => { k with win := win }).after
      (.part (s.partOf s.cur.ctx)) (toWindow (s.frame0 s.cur.ctx s.cur.col)) Cursor.none st .amodeWindowChange)

/-- AMODE_WINDOW_CHANGE: the window length in force becomes that of WIN (R71). -/
def execAmodeWindowChange (s : State) : Host.Outcome State Fault Refusal :=
  .next (s.modStack s.arg fun k => { k with force := k.win })

/-- CMODE_WRITE: the cluster's mode lands (R72). -/
def execCmodeWrite (mode : Bool) (s : State) : Host.Outcome State Fault Refusal :=
  .next { ctlPort s with cmode := s.cmode.put false (rowNo s.cur.ctx) mode }

end Sys2Proof.Machine
end

