-- ==== Sys2Proof/Machine/Link.lean ====
section
/-! DEFINITION. The source side of remote access: the outstanding global access table, link ports and their retry buffers
(R149, R166, R377, R426, R437). -/

namespace Sys2Proof.Machine

open Sys2Proof State

namespace State

/-- The key of entry i of a core's outstanding global access table. -/
def gKey (c col i : Nat) : Nat := 64 * coreKey c col + i
/-- The first free entry of a core's table (R166). -/
def gFree (s : State) (c col : Nat) : Option Nat := (List.range 64).find? fun i => (s.gent (gKey c col i)).state == 0#2
/-- The port that carries an access to a module (log 8). -/
def portTo (m : Nat) : Nat := Config.route m % 18
/-- A port has an agreed key outwards that may carry a flit more: one key serves fewer than 2^32 (R437; log 115). -/
def keyed (p : Port) : Bool := p.out.isSome && decide (p.nextSeq < p.outAt + 2 ^ 32)
/-- A secure access needs a secure port with an agreed key (R437). -/
def linkTrap (s : State) (secure : Bool) (m : Nat) : Option Trap :=
  let n := portTo m
  if secure && !(s.worldOf (.link n) && keyed (s.port n)) then some .world else none

/-- The flits of a payload: 256 bytes of its data each, at least one (R3; log 18). -/
def flitsOf : Payload → Nat
  | .request r => match r.op with
    | .write n _ => Nat.max 1 ((n + 255) / 256)
    | .merge .. => 2
    | .exchange .. => 16
    | .read _ | .amo .. => 1
  | .reply .. | .ack .. | .nack .. => 1

/-- A flit goes out: it stays in the retry buffer until it is acknowledged, and is replayed 2,048 cycles on (R149). -/
def sendFlit (s : State) (n : Nat) (load : Payload) (idx cnt : Nat) : State :=
  (s.modPort n fun p =>
    { p with buf := p.buf ++ [{ seq := p.nextSeq, load := load, idx := idx, cnt := cnt, sentAt := s.now, replays := 0 }],
             nextSeq := p.nextSeq + 1 }).after .chip 2048 Cursor.none (32 * (s.port n).nextSeq + n) .flitReplay
/-- Transmit one flit; a full buffer of 512, or flits that one holds back already, hold it back (R149). -/
def transmitFlit (s : State) (n : Nat) (load : Payload) (idx cnt : Nat) : State :=
  if 512 ≤ (s.port n).buf.length ∨ (s.port n).held ≠ [] then
    s.modPort n fun p => { p with held := p.held ++ [(load, idx, cnt)] }
  else s.sendFlit n load idx cnt
/-- Transmit a payload, flit after flit (R149). -/
def transmit (s : State) (n : Nat) (load : Payload) : State :=
  (List.range (flitsOf load)).foldl (fun t i => t.transmitFlit n load i (flitsOf load)) s

/-- A module number of 14 bits: the spec bounds how many modules a domain holds, not their numbers (R3). -/
def moduleOk (m : Nat) : Bool := decide (m < 2 ^ 14)

/-- What a step-timed access carries: its partition, issue domain cycle and rank (R225). -/
def stepMark (s : State) (c : Cursor) (stepped : Bool) : Option (Nat × Nat × Nat) :=
  if stepped then some (s.partOf c.ctx, (s.dom (s.partOf c.ctx)).toNat, rank c) else none

/-- Send a request of a table entry. A port that is down or failed, or whose scrub is outstanding, fails it (R149, R165, R383). -/
def sendRequest (s : State) (c col i m off : Nat) (secure : Bool) (op : RemoteOp) (step : Option (Nat × Nat × Nat)) : State :=
  let n := portTo m
  let p := s.port n
  if p.up && !p.failed && !(s.refused.contains (.link n)) then
    s.transmit n (.request { srcModule := s.module.toNat, srcEntry := gKey c col i, secure := secure, offset := off, op := op,
                             step := step, beat := 0 })
  else s.after .chip 1 { s.cur with ctx := c, col := col } 0 (.remoteNack c col i .remote)

/-- A remote write sets the slices of its ports and of remote windows: bits 16 + n and 34 (R75). -/
def touchPorts (s : State) (c : Nat) (ns : List Nat) (id : Nat) : State :=
  touchSlice (ns.foldl (fun t n => touchSlice t c (16 + n) id) s) c 34 id
/-- The same through one port. -/
def touchRemote (s : State) (c n id : Nat) : State := s.touchPorts c [n] id

/-- The TOUCHED slice of a channel: its tower, or its group of four far channels (R75). -/
def chanSlice (ch : Nat) : Nat := if ch < 256 then ch / 32 else 8 + (ch - 256) / 4

end State

end Sys2Proof.Machine
end

