-- ==== Sys2Proof/Machine/Exchange.lean ====
section
/-! DEFINITION. The exchange words XCH, XCHC, XCHT and XROT, and the course of an exchange: beats crossing, pairs of an
XCHT landing, completion, and the start of an exchange that had to wait (R86 to R102, R354, R358 to R363). -/

namespace Sys2Proof.Machine

open Sys2Proof State

/-! ### Sides (R83, R84, R92, R113, R153) -/

/-- The channel of a side (R113). -/
def Side.chan : Side → Option Nat
  | .t bs => some (chanOf 0 (bs.headD 0 * 4096))
  | .f bs => some (chanOf 1 (bs.headD 0 * 4096))
  | _ => none
/-- Block j of a side as a numbered place: an S slot, or the metadata line of a T or F block (R85, R89). -/
def Side.place : Side → Nat → Nat
  | .s st b, j => 6144 * st + b + j
  | .t bs, j => bs.getD j 0
  | .f bs, j => 100663296 + bs.getD j 0
  | .d _, _ => 0
/-- A side of S slots. -/
def Side.isS : Side → Bool
  | .s _ _ => true
  | _ => false
/-- A side on another module. -/
def Side.isD : Side → Bool
  | .d _ => true
  | _ => false
/-- The S slots of a side. -/
def Side.slots (x : Side) (n : Nat) : List Nat := match x with
  | .s st b => (List.range n).map fun j => 6144 * st + b + j
  | _ => []

namespace State

/-- Translate an address, or after a walk by the tables as they stand (R158). -/
def xl1 (s : State) (full : Bool) (va : Nat) (r w : Bool) : XlRes :=
  if 2 ^ 48 ≤ va then .trap .translation else
    match s.xlate va r w with
    | .walk => if full then (s.walkResult s.cur.ctx va r w).1 else .walk
    | x => x

/-- Note the use of a translated address in the page cache: its entry was used where the range cache has none, or the walk fills one
(R158). -/
def notePage (s : State) (va : Nat) : State :=
  let row := rowOf s.cur.ctx
  let j := s.myCtx.job
  if s.timed then s
  else match s.xlate va false false with
    | .walk => match (s.walkResult s.cur.ctx va false false).2 with
      | some l => s.pageFill row j va l
      | none => s
    | _ => if (s.cacheFind s.cur.ctx va).isNone then s.pageTouch row j va else s

/-- A side of n blocks named by a scratchpad address (R83, R84, R92). -/
def sideS (s : State) (x : Word) (n : Nat) : Except (Option Trap) Side :=
  match s.spadForm x with
  | .error t => .error (some t)
  | .ok (st, off) =>
    let b := off / 4096
    if off % 4096 ≠ 0 ∨ 6144 < b + n then .error (some .translation)
    else
      let ts := (List.range ((b + n - 1) / 64 - b / 64 + 1)).filterMap fun i => s.slabTrap s.cur.ctx st (b / 64 + i)
      if ts.contains .translation then .error (some .translation)
      else match ts with
        | t :: _ => .error (some t)
        | [] => .ok (.s st b)

/-- A virtual address of an exchange has the form of one: 48 bits, a block's first byte (R92, R153). -/
def formV (x : Word) : Bool := x.extractLsb' 48 16 == 0#16 && x.extractLsb' 0 12 == 0#12

/-- A side of n blocks named by a virtual address, and whether a block of it is of the other world: every block needs R and W; all lie
in one level, and in one channel (R113, R154). No trap in the error means that a walk is needed, which can still meet a
translation fault. -/
def sideV (s : State) (full : Bool) (x : Word) (n : Nat) : Except (Option Trap) (Side × Bool) :=
  let rs := (List.range n).map fun j => s.xl1 full (x.toNat + 4096 * j) true true
  if !(formV x) ∨ rs.contains (.trap .translation) then .error (some .translation)
  else if rs.contains .walk then .error none
  else
    let l := rs.filterMap fun r => match r with | .done y _ => some y | _ => none
    let alien := rs.any fun r => match r with | .done _ a => a | _ => false
    let h := l.headD ⟨0, 0, 0⟩
    if !(l.all fun y => y.level == h.level &&
        (h.level == 2 || chanOf h.level y.phys == chanOf h.level h.phys)) then .error (some .translation)
    else match h.level with
      | 0 => .ok (.t (l.map fun y => y.phys / 4096), alien)
      | 1 => .ok (.f (l.map fun y => y.phys / 4096), alien)
      | _ => .ok (.d (l.map fun y => (y.module, y.phys)), alien)

/-- The side that an operand of an exchange names. -/
def sideOf (s : State) (full : Bool) (x : Word) (n : Nat) : Except (Option Trap) (Side × Bool) :=
  if x.getLsbD 63 then (s.sideS x n).map fun a => (a, false) else s.sideV full x n

/-- The trap of an operand's form, of its range and of its slabs, the first check of R358. -/
def formTrap (s : State) (x : Word) (n : Nat) : Option Trap :=
  if x.getLsbD 63 then (match s.sideS x n with | .error e => e | .ok _ => none)
  else if formV x then none else some .translation

/-- The first block of an operand that is a virtual address, as its translation stands. -/
def firstXl (s : State) (full : Bool) (x : Word) : Option XlRes :=
  if x.getLsbD 63 then none else some (s.xl1 full x.toNat true true)

/-- An operand names a place on another module. -/
def namesD (s : State) (full : Bool) (x : Word) : Bool := match s.firstXl full x with
  | some (.done y _) => y.level == 2
  | _ => false

end State

/-- An exchange as its word asks for it. -/
structure XchPlan where
  a : Side
  b : Side
  n : Nat
  stepped : Bool
  deriving DecidableEq, Repr

/-- The pairings of XCH (R358). -/
def pairOk : Side → Side → Bool
  | .d _, .s _ _ => true
  | .s _ _, .d _ => true
  | .d _, _ => false
  | _, .d _ => false
  | .f _, .f _ => false
  | _, _ => true

/-- An operand of an exchange kind has a form that cannot name the side it needs: XCHC takes a slot and a virtual address, XCHT two
slots (R360, R361). -/
def kindForm (kind : Nat) (sn sf : Option Word) : Bool :=
  let isS := fun (x : Option Word) => x.map fun (w : Word) => w.getLsbD 63
  match kind with
  | 1 => true
  | 2 => isS sn != some false && isS sf != some true
  | _ => isS sn != some false && isS sf != some false

/-- The pairings of an exchange kind: 1 XCH, 2 XCHC, 3 XCHT (R358, R360, R361). -/
def kindPairOk (kind : Nat) (a b : Side) : Bool := match kind with
  | 1 => pairOk a b
  | 2 => a.isS && b.chan.isSome
  | _ => a.isS && b.isS

namespace State

/-- The pairs of an exchange word: those of an S-D exchange count in CNT [4:0], and no more are sure while a walk is needed to tell it
(R358). -/
def xchPairs (s : State) (full : Bool) (kind : Nat) (sn sf : Word) (c : Nat) : Nat :=
  if kind = 2 then 1
  else if kind = 1 ∧ (s.namesD full sn || s.namesD full sf || s.firstXl full sn == some .walk || s.firstXl full sf == some .walk) then
    c % 32 + 1
  else c + 1

/-- What an exchange word asks for, or its trap, or no trap where a walk is needed (R92, R358): the forms of both operands come first,
then their translations, their pairing, and the worlds of their entries (R154, R443). -/
def xchPlan (s : State) (full : Bool) (kind : Nat) (sn sf : Word) (c : Nat) : Except (Option Trap) XchPlan :=
  let n := s.xchPairs full kind sn sf c
  let stepped := decide (kind = 1) && (s.namesD full sn || s.namesD full sf) && c.testBit 5
  match (if kindForm kind (some sn) (some sf) then addrTrap [s.formTrap sn n, s.formTrap sf n] else some .translation) with
  | some t => .error (some t)
  | none => match s.sideOf full sn n, s.sideOf full sf n with
    | .ok a, .ok b =>
      if !(kindPairOk kind a.1 b.1) then .error (some .translation)
      else if a.2 || b.2 then .error (some .world)
      else .ok { a := a.1, b := b.1, n := n, stepped := stepped }
    | .error e, .ok _ => .error e
    | .ok _, .error e => .error e
    | .error e, .error f => .error (if e = none then f else e)

/-! ### Ports and locks in prospect (R97, R104) -/

/-- The peel of a core's other context: the two share one exchange engine (R10, R354). -/
def twinPeel (k : Nat) : Nat := if k / 32 % 2 = 0 then k + 32 else k - 32
/-- The engine of a peel carries an exchange, of either context of its core (R354). -/
def engineHeld (s : State) (k : Nat) : Bool := decide ((s.peel k).kind ≠ 0) || decide ((s.peel (twinPeel k)).kind ≠ 0)
/-- The key of a peel of the executing core. -/
def myPeel (s : State) (i : Nat) : Nat := 2 * coreKey s.cur.ctx s.cur.col + i
/-- The peel of the executing word. -/
def wordPeel (s : State) : Nat := s.myPeel (s.cur.slot.code - 5)
/-- The peel of the executing word is of another world than its context (R165; log 97). -/
def peelTrap (s : State) : Option Trap :=
  if s.worldOf (.peel (2 * coreNo s.cur.ctx s.cur.col + (s.cur.slot.code - 5))) != s.myCtx.world then some .world else none
/-- The executing core has not reported the FENCE of the executing word's own bundle, or of the one that a cursor names (R224). -/
def fenceHolds (s : State) (cur : Cursor) : Bool := match (s.ctx cur.ctx).wait with
  | .fence _ _ done => (s.ctx cur.ctx).seq == cur.seq && !(done.any fun d => d.1 == cur.col)
  | _ => false

/-- The banks of pair j. -/
def pairBanks (p : Peel) (j : Nat) : List Nat :=
  (([p.a, p.b].filter Side.isS).map fun x => bankOfSlot (x.place j)).eraseDups
/-- The slots of an XROT: one in each stack of the cluster (R363). -/
def rotSlots (p : Peel) : List Nat := match p.a with
  | .s st b => (List.range 16).map fun i => 6144 * (st / 16 * 16 + i) + b
  | _ => []
/-- The S slots that an exchange locks. -/
def xchSlots (p : Peel) : List Nat := if p.kind = 4 then rotSlots p else p.a.slots p.n ++ p.b.slots p.n

/-- The banks whose exchange port an exchange uses in a row-clock cycle (R93, R100, R101, R104). -/
def portsOf (p : Peel) (t : Nat) : List Nat :=
  if p.state = 1 then [] else match p.kind with
  | 5 => if p.rdB = 1 ∧ p.base ≤ t ∧ t < p.base + 16 * p.n then pairBanks p ((t - p.base) / 16) else []
  | 1 => if p.chA.isNone && p.chB.isNone && decide (p.base ≤ t) && decide (t < p.base + 16 * p.n) then
      pairBanks p ((t - p.base) / 16) else []
  | 3 =>
    let l := p.base + 15 + 4 * stages p.micro
    (if p.base ≤ t ∧ t < p.base + 16 * p.n then pairBanks p ((t - p.base) / 16) else []) ++
    (if l ≤ t ∧ (t - l) % 16 = 0 ∧ (t - l) / 16 < p.n then pairBanks p ((t - l) / 16) else [])
  | 4 => if p.base ≤ t ∧ t ≤ p.base + 15 then (rotSlots p).map bankOfSlot else []
  | _ => []

/-- The row-clock cycles, counted from a cycle t0, in which an exchange uses exchange ports. -/
def portCycles (p : Peel) (t0 : Nat) : List (Nat × List Nat) :=
  ((List.range (16 * p.n + 80)).map fun i => (p.base - t0 + i, portsOf p (p.base + i))).filter fun x => x.2 ≠ []

/-- An exchange began in the present cycle by a word ranked after the executing one (R104, R211); of two XROTs the brim row's comes
first (R363). -/
def laterRanked (s : State) (rot : Bool) (k : Nat) (p : Peel) : Bool :=
  decide (p.start = s.rowClk (k / 32 / 2)) && p.cur.timed &&
    (if rot ∧ p.kind = 4 ∧ dieOf s.cur.ctx ≠ dieOf p.cur.ctx then decide (dieOf s.cur.ctx < dieOf p.cur.ctx)
     else decide (rank s.cur < rank p.cur))

/-- Beats of a bound exchange still cross: it was not abandoned, and its compare has not failed (R99, R242). -/
def crosses (p : Peel) : Bool := decide (p.state ≠ 1) && decide (p.state ≠ 3)
/-- The banks that the S side of a bound exchange's delivery uses. -/
def deliverBanks (p : Peel) (burst : Nat) : List Nat :=
  let j := if p.chA.isSome && p.chA == p.chB then burst / 32 else burst / 16
  pairBanks p j

/-- The exchange ports that other exchanges of timed contexts use n cycles from now, each with its peel. -/
def portsTaken (s : State) (own n : Nat) : List (Nat × Nat) :=
  (s.peels.rows.flatMap fun r =>
    if r.1 = own ∨ !(r.2.cur.timed && !(isQ r.2.cur.ctx)) ∨ (s.ctx r.2.cur.ctx).frz.isSome then [] else
      (portsOf r.2 (s.rowClk (rowOf r.2.cur.ctx) + n)).map fun b => (r.1, b)) ++
  (s.agenda.flatMap fun e => match e.act with
    | .dwrBeatDelivery _ k burst _ =>
      if k ≠ own ∧ timedEntry e ∧ e.due = s.clkNow e.clk + n ∧ crosses (s.peel k) then (deliverBanks (s.peel k) burst).map fun b => (k, b) else []
    | _ => [])

/-- The peels whose exchange meets the given uses of exchange ports (cycles from now, banks). -/
def portMeets (s : State) (own : Nat) (uses : List (Nat × List Nat)) : List Nat :=
  (uses.flatMap fun u => ((s.portsTaken own u.1).filter fun x => u.2.contains x.2).map Prod.fst).eraseDups

/-- The peels whose exchange keeps one of the slots locked, those of pre-empted jobs included (R89, R97, R242). -/
def lockers (s : State) (ks : List Nat) : List Nat :=
  (s.allPeels.filter fun r => decide (r.2.kind ≠ 0) && (xchSlots r.2).any ks.contains).map Prod.fst

/-- The schedule-fault checks of an exchange in a timed context, and of the port uses that its crossings make: locks,
windows, then ports (R104, R105, R358). `rot` marks an XROT. -/
def xchSched (s : State) (rot : Bool) (k : Nat) (slots : List Nat) (uses : List (Nat × List Nat)) : Option Trap :=
  if (s.lockers slots).any fun q => !(s.laterRanked rot q (s.peel q)) then some (.sched 10)
  else if uses.any fun u => u.2.any fun b => decide (0 < s.windowLeft b u.1) then some (.sched 4)
  else if (s.portMeets k uses).any fun q => !(s.laterRanked rot q (s.peel q)) then some (.sched 3)
  else none

/-- Words of this cycle ranked after the executing one whose exchanges meet the exchange that starts: the fault is theirs (R97,
R104). -/
def xchBlame (s : State) (rot : Bool) (k : Nat) (slots : List Nat) (uses : List (Nat × List Nat)) : State :=
  let s1 := ((s.lockers slots).filter fun q => q ≠ k ∧ s.laterRanked rot q (s.peel q)).foldl
    (fun t q => t.trapAt false (s.peel q).cur (s.peel q).cur.slot (.sched 10)) s
  ((s.portMeets k uses).filter fun q => s.laterRanked rot q (s.peel q)).foldl
    (fun t q => t.trapAt false (s.peel q).cur (s.peel q).cur.slot (.sched 3)) s1

/-- The subcode with which a pending access meets the lock that an exchange of a cursor sets now: the exchange lock for an access of its
own core, and for a VLDT or XVER of its context; a VLDT of any other finds LOCK set, wherever it ranks (R94, R97, R320, R364). -/
def lockSub (cur : Cursor) (slots : List Nat) (e : Sched) : Option Nat := match e.act with
  | .deferredAccessPerform a =>
    let own := e.cur.ctx == cur.ctx
    let meets := (opSlots a.op).any slots.contains
    match a.op with
    | .vload true rs => if rs.any fun r => slots.contains (slotOf r.addr) then some (if own then 10 else 2) else none
    | .xverWrite .. | .xverRead .. => if own && meets then some 10 else none
    | _ => if own && e.cur.col == cur.col && meets then some 10 else none
  | _ => none
/-- The accesses that this cycle's words have placed and that meet the lock of an exchange that starts take their fault. -/
def lockBlame (s : State) (cur : Cursor) (slots : List Nat) : State :=
  (s.agenda.filter fun e => decide (s.mark ≤ e.ord)).foldl (fun t e => match lockSub cur slots e with
    | some n => t.trapAt false e.cur e.cur.slot (.sched n)
    | none => t) s

/-! ### Starting an exchange -/

/-- The hop term of R93 beyond the offset 6 of a same-stack exchange. -/
def pathOf : Side → Side → Nat
  | .s x _, .s y _ =>
    let dc := if x % 16 ≤ y % 16 then y % 16 - x % 16 else x % 16 - y % 16
    let h := Nat.min dc (16 - dc)
    let dr := if x / 16 ≤ y / 16 then y / 16 - x / 16 else x / 16 - y / 16
    if x = y then 0 else if dr = 0 then 2 * h else 4 + 2 * (dr + h)
  | _, _ => 0

/-- The progress record of an exchange that starts now. -/
def newPeel (s : State) (kind : Nat) (sn sf : Word) (pl : XchPlan) (expect : BitVec 32) (micro : Word) : Peel :=
  { Peel.init with
    kind := if pl.a.isD ∨ pl.b.isD then 5 else kind, sn := sn, sf := sf, a := pl.a, b := pl.b, n := pl.n,
    base := s.clk + (if pl.stepped then s.toStep s.cur.ctx + 8 else 6 + pathOf pl.a pl.b), start := s.clk, chA := pl.a.chan, chB := pl.b.chan, expect := expect,
    micro := micro, rdB := if pl.stepped then 1 else 0, cur := s.cur,
    tags := ([sn, sf].flatMap fun x => if x.getLsbD 63 then [] else
      (List.range pl.n).flatMap fun j => s.tagOf (x.toNat + 4096 * j)).eraseDups }

/-- A peel record counted from the present cycle. -/
def Peel.now (s : State) (p : Peel) : Peel := { p with start := s.clk, base := s.clk + 6 + pathOf p.a p.b }

/-- The channels an exchange binds to. -/
def peelChans (p : Peel) : List Nat := (p.chA.toList ++ p.chB.toList).eraseDups

/-- What keeps an untimed exchange from starting: its engine is held, a slot is locked, a binding queue or the table of
global accesses is full, an earlier acquire of the core has not returned, or the FENCE of its bundle has not been released
(R97, R115, R166, R221, R224, R354). -/
def xchBlocked (s : State) (k : Nat) (p : Peel) : Bool :=
  s.engineHeld k || (s.lockers (xchSlots p)) ≠ [] ||
  (peelChans p).any (fun ch => decide (2 ≤ (s.chan ch).binds.length)) ||
  (p.kind == 5 && (s.gFree p.cur.ctx p.cur.col).isNone) ||
  ((s.core p.cur.ctx p.cur.col).acqs.any fun a => poBefore a p.cur) || s.fenceHolds p.cur

/-- The local side of an S-D exchange. -/
def localSide (p : Peel) : Side := match p.a with | .d _ => p.b | _ => p.a
/-- The places and values of an S-D exchange's requests: one for each block, with its data and version (R96). -/
def xchRequests (s : State) (p : Peel) : List (Nat × Nat × Block × BitVec 32) :=
  let loc := localSide p
  let rem := match p.a, p.b with | .d l, _ => l | _, .d l => l | _, _ => []
  (List.range p.n).map fun j =>
    let r := rem.getD j (0, 0)
    (r.1, r.2, BitVec.ofNat 32768 (s.load (sideAddr loc j) 4096), (s.slot (loc.place j)).version)

/-- Blocks of a side that cannot be read: data or metadata uncorrectable (R107). -/
def sideBad (s : State) (x : Side) (n : Nat) : Bool :=
  (List.range n).any fun j => s.uncorrectable (sideAddr x j) 4096 || s.metaBad (x.place j)
/-- Log what a read of the blocks of a side and of their metadata meets (R107). -/
def noteSide (s : State) (x : Side) (n : Nat) : State :=
  (List.range n).foldl (fun t j => noteMeta (noteSpad t (sideAddr x j) 4096 t.myJob) (x.place j) t.myJob) s

/-- Scratchpad address of the first block of a side, without bit 63 (R83, R166). -/
def localField : Side → BitVec 46
  | .s st b => BitVec.ofNat 46 (st * 2 ^ 24 + b * 4096)
  | _ => 0#46

/-- An S-D exchange takes its entry of the table and sends its blocks, or waits for the step boundary (R96, R359, R225).
Its remote side is a write to its ports' slices (R75, R426). -/
def startRemote (s : State) (k : Nat) (p : Peel) : State :=
  match s.gFree p.cur.ctx p.cur.col with
  | none => s
  | some i =>
    let reqs := s.xchRequests p
    let m := (reqs.headD (0, 0, 0#32768, 0#32)).1
    let ports := (reqs.map fun r => portTo r.1).eraseDups
    let off := (reqs.headD (0, 0, 0#32768, 0#32)).2.1
    let stepped := p.rdB = 1
    let id := s.nextId
    let g : GEnt := { GEnt.init with
      gaddr := BitVec.ofNat 64 (m * 2 ^ 48 + off), issue := BitVec.ofInt 32 (s.dom (s.partOf p.cur.ctx)), kind := 4#8,
      beats := 64 * p.n, state := 1#2, loc := localField (localSide p),
      port := portTo m, secure := (s.ctx p.cur.ctx).world, stepped := stepped, cur := p.cur, wr := id, dest := k }
    let s1 := (s.bump.modPeel k fun q => { q with ent := some i }).modGent (gKey p.cur.ctx p.cur.col i) fun _ => g
    let s2 := s1.touchPorts p.cur.ctx ports id
    if stepped then s2
    else reqs.foldl (fun t r => t.sendRequest p.cur.ctx p.cur.col i r.1 r.2.1 (s.ctx p.cur.ctx).world (.exchange r.2.2.1 r.2.2.2)
      none) (s2.noteSide (localSide p) p.n)

/-- An S-D exchange whose local blocks cannot be read sends nothing: it is abandoned with a deferred 0x07, which is detected in the
next cycle (R107, R242; log 104). -/
def failRemote (s : State) (k : Nat) (p : Peel) : State :=
  (((s.modPeel k fun q => { q with state := 1 }).noteSide (localSide p) p.n).afterMe 1 1
    (.remoteNack p.cur.ctx p.cur.col 0 .data)).afterMe 1 (k % 2) .exchangeComplete

/-- An exchange starts: it locks its slots, enters its channels' queues or the table, and its first crossover is entered
(R93, R94, R115). The executing cursor is the exchange's. -/
def startXch (s : State) (k : Nat) (p : Peel) : State :=
  let s0 := s.lockBlame p.cur (xchSlots p)
  let s1 := s0.modPeel k fun _ => p
  let s2 := (xchSlots p).foldl (fun t q => t.modSlot q fun m => { m with lock := true }) s1
  let s3 := (peelChans p).foldl (fun t ch => t.modChan ch fun x => { x with binds := x.binds ++ [k] }) s2
  if p.kind = 5 then (if p.rdB ≠ 1 ∧ s.sideBad (localSide p) p.n then s3.failRemote k p else s3.startRemote k p)
  else if peelChans p = [] then s3.afterMe (p.base - s.clk) (k % 2) .exchangeBeatCrossing
  else s3

/-- The world bit of block j of a side: a slot's or a metadata line's; none for another module's (R88, R89). -/
def placeWorld (s : State) (x : Side) (j : Nat) : Option Bool := match x with
  | .s _ _ => some (s.slot (x.place j)).world
  | .t _ | .f _ => some (s.line (x.place j)).world
  | .d _ => none
/-- The blocks of a pair are of different worlds (R88, R89). -/
def worldsDiffer (s : State) (a b : Side) (j : Nat) : Bool := match s.placeWorld a j, s.placeWorld b j with
  | some x, some y => x != y
  | _, _ => false

/-- The worlds of the places that sides name, of the peel, and of the links to the modules of a D side; then the ownership of their
channels, and the untimed use of a step-timed form (R165, R358, R437, R443). -/
def sidesTrap (s : State) (sides : List Side) (stepped : Bool) : Option Trap :=
  let chans := sides.filterMap Side.chan
  firstTrap [
    if chans.any fun ch => s.worldOf (.channel ch) != s.myCtx.world then some .world else none,
    s.peelTrap,
    sides.findSome? fun x => match x with
      | .d l => l.findSome? fun y => s.linkTrap s.myCtx.world y.1
      | _ => none,
    if chans.any fun ch => (s.chan ch).owner != some s.cur.ctx then some .channel else none,
    if stepped && !s.timed then some (.sched 9) else none]

/-- The checks of an exchange word that come before an early read: its plan, worlds and ownership (R358, R443). -/
def planTrap (s : State) (pl : XchPlan) : Option Trap :=
  firstTrap [if (List.range pl.n).any fun j => s.worldsDiffer pl.a pl.b j then some .world else none, s.sidesTrap [pl.a, pl.b] pl.stepped]

/-- The checks of an exchange word after its plan: ownership, then schedule faults (R358). -/
def xchTrap (s : State) (full : Bool) (kind : Nat) (sn sf : Word) (c : Nat) (micro : Word) : Option Trap :=
  let k := s.wordPeel
  match s.xchPlan full kind sn sf c with
  | .error e => e
  | .ok pl =>
    let p := s.newPeel kind sn sf pl 0#32 micro
    firstTrap [
      s.planTrap pl,
      if (List.range pl.n).any fun i => (List.range pl.n).any fun j =>
          (match pl.a, pl.b with
            | .s .., .s .. => true | .t _, .t _ => true | .f _, .f _ => true | _, _ => false) &&
          pl.a.place i == pl.b.place j then some (.sched 10) else none,
      if s.timed && (s.engineHeld k || (peelChans p).any (fun ch => decide (2 ≤ (s.chan ch).binds.length)) ||
          (p.kind == 5 && (s.gFree s.cur.ctx s.cur.col).isNone)) then some (.sched 10) else none,
      if s.timed then s.xchSched false k (xchSlots p) (portCycles p s.clk) else none]

/-- The checks of an exchange word that reads registers early: those of its operands that are known come before the early
read (R443; log 29). -/
def xchEarly (s : State) (kind : Nat) (x y : BitVec 5) (c : Nat) (regs : List Reg) : Option Trap :=
  let val := fun (r : BitVec 5) => if (s.early [.s r.toNat]).isNone then some (s.rs r) else none
  match val x, val y with
  | some sn, some sf => match s.xchPlan false kind sn sf c with
    | .error e => firstTrap [e, s.early regs]
    | .ok pl => firstTrap [s.planTrap pl, s.early regs]
  | sn, sf =>
    let known := sn.toList ++ sf.toList
    -- as many pairs as the word has at least
    let n := match kind with | 1 => c % 32 + 1 | 2 => 1 | _ => c + 1
    let sides := known.map fun v => s.sideOf false v n
    let good := sides.filterMap fun r => match r with | .ok a => some a | .error _ => none
    firstTrap [
      if kindForm kind sn sf then addrTrap (known.map fun v => s.formTrap v n) else some .translation,
      addrTrap (sides.map fun r => match r with | .error e => e | .ok _ => none),
      if kind = 2 ∧ good.any fun a => a.1.isD then some .translation else none,
      if good.any Prod.snd then some .world else none,
      s.sidesTrap (good.map Prod.fst) (decide (kind = 1) && c.testBit 5 && good.any fun a => a.1.isD),
      s.early regs]
/-- The checks of an exchange word (R358, R443). -/
def xchCheck (s : State) (kind : Nat) (x y : BitVec 5) (c : Nat) (regs : List Reg) (micro : Word) : Option Trap :=
  if (s.early regs).isSome then s.xchEarly kind x y c regs else s.xchTrap false kind (s.rs x) (s.rs y) c micro

/-- Enter an operation that waits under a fresh number. -/
def waitFor (s : State) (w : WaitWhat) : State :=
  { s with waiting := s.waiting ++ [{ id := s.nextId, cur := s.cur, what := w }], nextId := s.nextId + 1 }
/-- The virtual addresses that the operation of a walk translates, block by block (R92, R153). -/
def walkVas (s : State) (full : Bool) (word : Instr) (v : List Word) : List Nat :=
  let sides := fun (kind c : Nat) =>
    let n := s.xchPairs full kind (v.getD 0 0#64) (v.getD 1 0#64) c
    ((v.take 2).filter fun (x : Word) => !x.getLsbD 63).flatMap fun x => (List.range n).map fun j => x.toNat + 4096 * j
  match word with
  | .xch _ _ _ c => sides 1 c.toNat
  | .xchc .. => sides 2 0
  | .xcht _ _ _ c => sides 3 c.toNat
  | _ => (v.take 1).map BitVec.toNat

/-- An operation of the executing word waits for a translation walk, whose time is open; each page or range entry that it looks up
beyond the caches counts (R158, R186). -/
def startWalk (s : State) (word : Instr) (vals : List Word) : State :=
  let id := s.nextId
  let (n, s1) := (s.waitFor (.walk word vals)).takeFree
  -- an entry under reload is waited for and not walked (R159)
  let vas := (s.walkVas false word vals).filter fun va => s.xlate va false false == .walk && (s.cacheFind s.cur.ctx va).isNone
  let walks := (vas.map s.tagOf).eraseDups.length
  ((s1.tally s.cur.ctx s.cur.col 0x0D walks).tally s.cur.ctx s.cur.col 0x0E walks).afterMe (1 + Config.walkTime n) id
    .translationWalkComplete

/-- An exchange word that met no trap: it starts, or waits, or waits for its walk (R97, R158, R354). -/
def xchGo (s : State) (full : Bool) (word : Instr) (kind : Nat) (sn sf : Word) (c : Nat) (expect : BitVec 32) (micro : Word) :
    State :=
  match s.xchPlan full kind sn sf c with
  | .error _ =>
    s.startWalk word [sn, sf, expect.setWidth 64, micro]
  | .ok pl =>
    let k := s.wordPeel
    let p := s.newPeel kind sn sf pl expect micro
    let s1 := [sn, sf].foldl (fun t x => if x.getLsbD 63 then t else
      (List.range pl.n).foldl (fun t j => t.notePage (x.toNat + 4096 * j)) t) s
    if !s.timed && s.xchBlocked k p then
      s1.waitFor (.exchange p k)
    else (if s.timed then s1.xchBlame false k (xchSlots p) (portCycles p s.clk) else s1).startXch k p

end State

/-! ### The words -/

/-- XCH: exchange CNT + 1 pairs (R358, R359). -/
def execXch (h : Hd) (x y : BitVec 5) (c : BitVec 6) (s : State) : Host.Outcome State Fault Refusal :=
  s.word h (fun s => s.xchCheck 1 x y c.toNat [.s x.toNat, .s y.toNat] 0#64) fun s =>
    s.xchGo false (.xch h x y c) 1 (s.rs x) (s.rs y) c.toNat 0#32 0#64

/-- XCHC: exchange one pair if the far block's version is the expected one (R99, R360). -/
def execXchc (h : Hd) (x y v : BitVec 5) (s : State) : Host.Outcome State Fault Refusal :=
  s.word h (fun s => s.xchCheck 2 x y 0 [.s x.toNat, .s y.toNat, .s v.toNat] 0#64) fun s =>
    s.xchGo false (.xchc h x y v) 2 (s.rs x) (s.rs y) 0 ((s.rs v).setWidth 32) 0#64

/-- XCHT: exchange CNT + 1 pairs of S slots, each transformed under the microword in s[SN + 1] (R361). -/
def execXcht (h : Hd) (x y : BitVec 5) (c : BitVec 6) (s : State) : Host.Outcome State Fault Refusal :=
  s.word h (fun s => s.xchCheck 3 x y c.toNat [.s x.toNat, .s y.toNat, .s (x.toNat + 1)] (s.rs (x + 1#5))) fun s =>
    s.xchGo false (.xcht h x y c) 3 (s.rs x) (s.rs y) c.toNat 0#32 (s.rs (x + 1#5))

/-- The side that XROT names: the block in the head core's stack, whatever STACK says (R363). -/
def rotSide (s : State) (x : Word) : Except Trap Side :=
  match s.spadForm (x ||| (1#64 <<< 32)) with
  | .error t => .error t
  | .ok (_, off) =>
    if off % 4096 ≠ 0 then .error .translation
    else
      let st0 := s.myStack / 16 * 16
      let ts := (List.range 16).filterMap fun i => s.slabTrap s.cur.ctx (st0 + i) (off / 262144)
      if ts.contains .translation then .error .translation
      else match ts with
        | t :: _ => .error t
        | [] => .ok (.s st0 (off / 4096))

/-- The progress record of an XROT that executes now (R101). -/
def rotPeel (s : State) (x : Word) (a : Side) : Peel :=
  { Peel.init with kind := 4, sn := x, a := a, b := a, n := 1, base := s.clk + 7, start := s.clk, cur := s.cur }

/-- XROT: every stack's block moves one stack on around the cluster; the head core acts (R101, R363). -/
def execXrot (h : Hd) (x : BitVec 5) (s : State) : Host.Outcome State Fault Refusal :=
  s.rowWord h (fun s => firstTrap [s.known [.s x.toNat] (match rotSide s (s.rs x) with | .error t => some t | .ok _ => none),
      s.peelTrap, if !s.timed then some (.sched 9) else none, s.early [.s x.toNat], if !s.cur.cmode then some (.sched 7) else none,
      if s.engineHeld s.wordPeel then some (.sched 10) else none,
      (match rotSide s (s.rs x) with
      | .error t => some t
      | .ok a =>
        let p := rotPeel s (s.rs x) a
        s.xchSched true s.wordPeel (rotSlots p) (portCycles p s.clk))]) fun s =>
    match rotSide s (s.rs x) with
    | .error _ => s
    | .ok a =>
      let p := rotPeel s (s.rs x) a
      (s.xchBlame true s.wordPeel (rotSlots p) (portCycles p s.clk)).startXch s.wordPeel p

/-! ### Crossing -/

/-- The version word of block j of a side (R85, R89). -/
def verOf (s : State) (x : Side) (j : Nat) : BitVec 32 :=
  if x.isS then (s.slot (x.place j)).version else (s.line (x.place j)).version
/-- Set it; an S slot's TAG steps where a block crossed into it (R86, R87). -/
def setVer (s : State) (x : Side) (j : Nat) (v : BitVec 32) : State :=
  if x.isS then (s.renewMeta (x.place j)).modSlot (x.place j) fun m => { m with version := v, tag := m.tag + 1#8 }
  else if x.isD then s else s.setLineVer (x.place j) v
/-- Log what the read of a side's metadata meets: an S slot's (R107). -/
def noteVer (s : State) (x : Side) (j : Nat) : State := if x.isS then noteMeta s (x.place j) (myJob s) else s
/-- Beat 63 of pair j crosses: the version words trade and the TAGs step (R94, R214). -/
def pairDone (s : State) (p : Peel) (j : Nat) : State :=
  let va := verOf s p.a j
  let vb := verOf s p.b j
  setVer (setVer (noteVer (noteVer s p.a j) p.b j) p.a j vb) p.b j va

/-- A beat crosses between two flat addresses: each takes what the other held (R90, R93). -/
def swapBeat (s : State) (a b : Nat) : State :=
  let x := s.load a 64
  let y := s.load b 64
  (s.storeFor (myJob s) a 64 y).storeFor (myJob s) b 64 x

/-- A crossing is deferred a cycle, and with it every later crossover of its exchange, what is entered later included (R18, R104,
R105). -/
def deferPeel (s : State) (k : Nat) : State :=
  ({ (s.modPeel k fun p => { p with base := p.base + 1, late := p.late + 1 }) with
    agenda := s.agenda.map fun (e : Sched) => match e.act with
      | .exchangeBeatCrossing | .xchtPairLanding | .exchangeComplete =>
        if 2 * coreKey e.cur.ctx e.cur.col + e.arg = k then { e with due := e.due + 1 } else e
      | .dwrBeatDelivery _ q _ _ => if q = k then { e with due := e.due + 1 } else e
      | _ => e }).tally (s.peel k).cur.ctx (s.peel k).cur.col 0x0B 1

/-- An exchange is abandoned: no further beat crosses, and its locks and its engine stay held until the cycle in which it
would have completed (R242). -/
def abandonXch (s : State) (k left : Nat) : State :=
  let s1 := s.modPeel k fun p => { p with state := 1, stA := [], stB := [], pair := [] }
  let s2 := { s1 with agenda := s1.agenda.filter fun e => match e.act with
    | .exchangeBeatCrossing | .xchtPairLanding => 2 * coreKey e.cur.ctx e.cur.col + e.arg != k
    | _ => true }
  s2.afterMe left (k % 2) .exchangeComplete

/-- The flat addresses that the next beat of an exchange is read from. -/
def beatReads (p : Peel) (i : Nat) : List Nat :=
  if p.kind = 4 then (rotSlots p).map fun q => 4096 * q + 64 * i
  else if p.kind = 5 then []
  else [sideAddr p.a (i / 64) + 64 * (i % 64), sideAddr p.b (i / 64) + 64 * (i % 64)]

/-- The metadata that comes with the next beat of an exchange, where it is a block's last (R94, R107). -/
def beatMetas (p : Peel) (i : Nat) : List Nat :=
  if i % 64 ≠ 63 ∨ p.kind = 5 then []
  else if p.kind = 4 then rotSlots p else (p.a.slots p.n ++ p.b.slots p.n).filter fun q => q == p.a.place (i / 64) || q == p.b.place (i / 64)
/-- The next beat of an exchange, number i, meets data or metadata that cannot be corrected (R107). -/
def beatFails (s : State) (p : Peel) (i : Nat) : Bool :=
  ((beatReads p i).any fun a => s.uncorrectable a 64) || (beatMetas p i).any s.metaBad
/-- A beat of a peel's exchange fails: the exchange is abandoned with a deferred 0x07 (R107, R242). -/
def failBeat (s : State) (k i : Nat) : State :=
  let p := s.peel k
  let left := 16 * p.n - i / 4 + (if p.kind = 3 then 4 * stages p.micro else 0) - (if p.kind = 4 then 1 else 0)
  let s1 := (beatMetas p i).foldl (fun t q => noteMeta t q (myJob s)) ((beatReads p i).foldl (fun t a => noteSpad t a 64 (myJob s)) s)
  abandonXch (s1.takeDeferred p.cur p.cur.slot 7 0) k left
/-- The exchange of the executing entry is abandoned at the beat that fails in the present cycle; none of the cycle's beats crosses
(R234, R242). -/
def failCrossing (s : State) : State :=
  let k := s.myPeel s.arg
  let p := s.peel k
  let i := p.ptr + p.pair.length
  match (List.range 4).find? fun x => beatFails s p (i + x) with
  | some x => failBeat s k (i + x)
  | none => s

/-- The cycles for which an untimed crossing of banks cannot go on: its windows, else a port that another exchange takes in this cycle
(R104, R105). It is deferred a cycle at a time. -/
def crossWait (s : State) (k : Nat) (banks : List Nat) : Nat :=
  let w := (banks.map fun b => s.windowLeft b 0).foldl Nat.max 0
  if 0 < w then w
  else if (s.exBanks ++ (s.portsTaken k 0).map fun x => (x.2, x.1)).any fun x => x.2 != k && banks.contains x.1 then 1 else 0
/-- An exchange uses the exchange ports of banks in the present cycle (R104). -/
def takePorts (s : State) (k : Nat) (banks : List Nat) : State := { s with exBanks := banks.map (fun b => (b, k)) ++ s.exBanks }

/-- EXCHANGE_BEAT_CROSSING: the next beat of an exchange by itself crosses; four beats cross in a cycle. An XCHT reads its
beat and lands it with its pair; an XROT's beat moves one stack on; a beat of an S-D exchange waits for its data (R93, R94, R96, R100,
R101). -/
def execExchangeBeatCrossing (s : State) : Host.Outcome State Fault Refusal :=
  let k := s.myPeel s.arg
  let p := s.peel k
  let i := p.ptr + p.pair.length
  let banks := if p.kind = 4 then (rotSlots p).map bankOfSlot else pairBanks p (i / 64)
  -- four beats cross at once but for those of a windowed S-D exchange, each as it lands; a timed crossing is never deferred (R217)
  let wait := if s.timed ∨ (i % 4 ≠ 0 ∧ (p.kind ≠ 5 ∨ p.rdB = 1)) then 0 else crossWait s k banks
  if p.kind = 0 ∨ p.state = 1 then .next s
  else if 0 < wait then .next ((deferPeel s k).repostMe 1 s.arg .exchangeBeatCrossing)
  else if p.kind = 5 ∧ (p.stA.find? fun y => y.1 == i).isNone then .next (s.repostMe 1 s.arg .exchangeBeatCrossing)
  else if beatFails s p i then .next (failBeat s k i)
  else
    let s0 := (beatReads p i).foldl (fun t a => noteSpad t a 64 (myJob s)) s
    let s1 := takePorts s0 k banks
    let s2 := if p.kind = 3 then s1 else s1.tally s.cur.ctx s.cur.col 9 1
    let last := i + 1 = 64 * p.n
    let more := fun (t : State) => if last then t else t.afterMe (if i % 4 = 3 then 1 else 0) s.arg .exchangeBeatCrossing
    match p.kind with
    | 1 =>
      let s3 := (swapBeat s2 ((beatReads p i).getD 0 0) ((beatReads p i).getD 1 0)).modPeel k fun q => { q with ptr := i + 1 }
      let s4 := if i % 64 = 63 then pairDone s3 p (i / 64) else s3
      .next (if last then s4.afterMe 1 s.arg .exchangeComplete else more s4)
    | 5 =>
      -- the local side takes the returned beat; the version comes with a block's last beat (R96, R359)
      let loc := if p.a.isS then p.a else p.b
      let x := ((p.stA.find? fun y => y.1 == i).map Prod.snd).getD 0#512
      let s3 := (s2.storeFor (myJob s) (sideAddr loc (i / 64) + 64 * (i % 64)) 64 x.toNat).modPeel k fun q =>
        { q with ptr := i + 1, stA := q.stA.filter fun y => y.1 != i }
      let s4 := if i % 64 = 63 then setVer s3 loc (i / 64) (((p.stB.find? fun y => y.1 == i).map Prod.snd).getD 0#512 |>.setWidth 32)
        else s3
      .next (if last then s4.afterMe (if p.rdB = 1 then 1 else 0) s.arg .exchangeComplete
        else if p.rdB = 1 then more s4 else s4)
    | 3 =>
      let rd := fun (a : Nat) => BitVec.ofNat 512 (s.load a 64)
      let s3 := s2.modPeel k fun q =>
        { q with pair := q.pair ++ [(i, rd ((beatReads p i).getD 0 0), rd ((beatReads p i).getD 1 0))] }
      let s4 := if i % 64 = 63 then s3.afterMe (4 * stages p.micro) s.arg .xchtPairLanding else s3
      .next (more s4)
    | _ =>
      let vals := (beatReads p i).map fun a => s.load a 64
      let s3 := (List.range 16).foldl (fun t c =>
        t.storeFor (myJob s) ((beatReads p i).getD ((c + 1) % 16) 0) 64 (vals.getD c 0)) s2
      let s4 := s3.modPeel k fun q => { q with ptr := i + 1 }
      let vs := (rotSlots p).map fun q => (s.slot q).version
      let s5 := if last then (List.range 16).foldl (fun t c =>
          (t.renewMeta ((rotSlots p).getD c 0)).modSlot ((rotSlots p).getD c 0) fun m =>
            { m with version := vs.getD ((c + 15) % 16) 0#32, tag := m.tag + 1#8 })
          ((rotSlots p).foldl (fun t q => noteMeta t q (myJob s)) s4)
        else s4
      .next (if last then s5.afterMe 0 s.arg .exchangeComplete else more s5)

/-! ### XCHT transforms (R362) -/

/-- A block as bytes. -/
def blockBytes (x : Nat) : List Nat := (List.range 4096).map fun i => x / 2 ^ (8 * i) % 256
/-- A block from its bytes. -/
def bytesBlock (l : List Nat) : Nat := l.foldr (fun b a => b + 256 * a) 0
/-- Where byte t of the output of a transpose of E-byte elements comes from. -/
def transposeFrom (e t : Nat) : Nat :=
  let (a, b) := match e with | 1 => (64, 64) | 2 => (32, 64) | 4 => (32, 32) | _ => (16, 32)
  let u := t / e
  -- output element (c, r) is element u = c*a + r
  ((u % a) * b + u / a) * e + t % e
/-- Where byte t of the output of a byte reversal of E-byte elements comes from. -/
def reverseFrom (e t : Nat) : Nat := t / e * e + (e - 1 - t % e)
/-- Where byte t of the output of a pair swap of E-byte elements comes from. -/
def swapFrom (e t : Nat) : Nat := if t / e % 2 = 0 then t + e else t - e
/-- Rearrange a block by where each byte comes from. -/
def rearrange (f : Nat → Nat) (x : Nat) : Nat :=
  let a := (blockBytes x).toArray
  bytesBlock ((List.range 4096).map fun t => a.getD (f t) 0)
/-- The stages of a microword on a block moving in a direction: 1 from SN to SF, 0 from SF to SN. -/
def xform (m : Word) (dir : Nat) (x : Nat) : Nat :=
  let x1 := if m.getLsbD dir then rearrange (transposeFrom (2 ^ (m.extractLsb' 2 2).toNat)) x else x
  let bre := (m.extractLsb' 6 2).toNat
  let x2 := if m.getLsbD (4 + dir) then rearrange (reverseFrom (if bre = 0 then 4096 else 2 ^ bre)) x1 else x1
  if m.getLsbD (8 + dir) then rearrange (swapFrom (2 ^ (m.extractLsb' 10 2).toNat)) x2 else x2

/-- XCHT_PAIR_LANDING: the oldest pair that was read lands, transformed, and all its beats cross (R100, R362). -/
def execXchtPairLanding (s : State) : Host.Outcome State Fault Refusal :=
  let k := s.myPeel s.arg
  let p := s.peel k
  let j := p.ptr / 64
  let wait := if s.timed then 0 else crossWait s k (pairBanks p j)
  if p.kind ≠ 3 ∨ p.state = 1 then .next s
  else if 0 < wait then .next ((deferPeel s k).repostMe 1 s.arg .xchtPairLanding)
  else
    let s := takePorts s k (pairBanks p j)
    let beats := p.pair.take 64
    let xa := beats.foldr (fun b acc => b.2.1.toNat + 2 ^ 512 * acc) 0
    let xb := beats.foldr (fun b acc => b.2.2.toNat + 2 ^ 512 * acc) 0
    let s1 := (s.storeFor (myJob s) (sideAddr p.a j) 4096 (xform p.micro 0 xb)).storeFor (myJob s) (sideAddr p.b j) 4096
      (xform p.micro 1 xa)
    let s2 := ((pairDone s1 p j).modPeel k fun q => { q with ptr := 64 * (j + 1), pair := q.pair.drop 64 }).tally
      s.cur.ctx s.cur.col 9 64
    .next (if j + 1 = p.n then s2.afterMe 1 s.arg .exchangeComplete else s2)

/-! ### Completion -/

/-- An exchange leaves: its locks clear, its bindings leave their queues, its engine frees. Exchanges that wait try again
at once, or in the next cycle where their own engine is the one freed (R97, R354). -/
def endXch (s : State) (k : Nat) : State :=
  let p := s.peel k
  let s1 := (xchSlots p).foldl (fun t q => t.modSlot q fun m => { m with lock := false }) s
  let s2 := (peelChans p).foldl (fun t ch => t.modChan ch fun x => { x with binds := x.binds.filter fun q => q != k }) s1
  wakeWaiting (s2.modPeel k fun _ => Peel.init) (fun w => match w.what with | .exchange _ _ => true | _ => false)
    fun w => match w.what with | .exchange _ q => if q = k ∨ q = twinPeel k then 1 else 0 | _ => 0

/-- EXCHANGE_COMPLETE: LOCK clears, the binding leaves its queues, the engine frees (R93, R94, R115). -/
def execExchangeComplete (s : State) : Host.Outcome State Fault Refusal := .next (endXch s (s.myPeel s.arg))

/-- EXCHANGE_DEFERRED_START: an exchange that waited starts, its cycles counted from now, or goes on waiting (R97, R354). -/
def execExchangeDeferredStart (s : State) : Host.Outcome State Fault Refusal :=
  match s.waiting.find? fun w => w.id == s.arg with
  | some w => match w.what with
    | .exchange p k =>
      if s.xchBlocked k p then .next s
      else .next (State.startXch { s with waiting := s.waiting.filter fun w => w.id != s.arg } k (Peel.now s p))
    | _ => .next s
  | none => .next s

end Sys2Proof.Machine
end

