-- ==== Sys2Proof/Machine/Peel.lean ====
section
/-! DEFINITION. XVER, timed transfer, vertical FIFOs and address generators (R59, R142 to R144, R183, R364 to R368, R384). -/

namespace Sys2Proof.Machine

open Sys2Proof State

/-! ### XVER (R364) -/

/-- The slot an XVER names. -/
def xverSlot (s : State) (x : Word) : Except Trap Nat :=
  match s.spadForm x with
  | .error t => .error t
  | .ok (st, off) => match s.slabTrap s.cur.ctx st (off / 262144) with
    | some t => .error t
    | none => .ok (6144 * st + off / 4096)

/-- The checks of either form: the event is on the slot's bank at e + 2, and a lock of the issuing context, through whatever core, is an
exchange lock. -/
def xverTrap (s : State) (x : BitVec 5) (rest : List Reg) : Option Trap :=
  let n := valOf (xverSlot s (s.rs x))
  firstTrap [s.known [.s x.toNat] (trapOf (xverSlot s (s.rs x))), s.early (.s x.toNat :: rest),
    if s.ctxLock n 2 then some (.sched 10) else none, s.accessTrap [(2, n)]]

/-- XVER: the slot's version word becomes bits [31:0] of s[SF] (R364). -/
def execXver (h : Hd) (x y : BitVec 5) (s : State) : Host.Outcome State Fault Refusal :=
  s.word h (fun s => xverTrap s x [.s y.toNat]) fun s =>
    let k := valOf (xverSlot s (s.rs x))
    (s.placeAcc [(2, k)]).access 2 0 (.xverWrite k ((s.rs y).setWidth 32))

/-- XVER, read form: the slot's metadata into s[SF] at i + 4 (R364). -/
def execXverRead (h : Hd) (x y : BitVec 5) (s : State) : Host.Outcome State Fault Refusal :=
  s.word h (fun s => xverTrap s x []) fun s =>
    let k := valOf (xverSlot s (s.rs x))
    let id := s.freshId
    ((s.bump.placeAcc [(2, k)]).access 2 id (.xverRead k y.toNat)).landId id 4 [.s y.toNat 0#64] 0#5

/-! ### SEND and RECV (R365 to R367) -/

/-- Everything a job's contexts started has landed or completed, rows on their way to a RECV included (R33, R393). -/
def State.quiet (s : State) (c : Nat) : Bool :=
  !(s.agenda.any fun e => e.cur.ctx == c && match e.act with
      | .randomQueueRefill => false
      | .recvRowArrival .. => true
      | .matrixResultLanding m => !m.null
      | a => e.cur.slot != .nowhere || (wordInfo 0 a).isSome) &&
  (s.peels.rows.all fun r => r.1 / 32 != c || r.2.kind == 0) &&
  (s.gtab.rows.all fun r => r.1 / 1024 != c || r.2.state != 1#2) &&
  (s.waiting.all fun w => w.cur.ctx != c)
/-- A context has ended: core 15 has executed its HALT, and its work has landed (R393). -/
def State.ctxEnded (s : State) (c : Nat) : Bool := match (s.ctx c).haltAt with
  | some t => decide (t ≤ s.rowClk (rowOf c)) && s.quiet c
  | none => false

/-- The other world by the context's bit in the world map or by its job, or a place that is no partner (R13, R142, R165, R367): the
context c is no P context of the executing job that runs or is frozen. -/
def partnerTrap (s : State) (c : Nat) : Option Trap :=
  let o := s.ctx c
  if s.worldOf (.context c) != s.myCtx.world || (o.job != 0 && o.world != s.myCtx.world) then some .world
  else if o.job ≠ 0 ∧ o.job = s.myCtx.job ∧ !(s.ctxEnded c) then none else some .translation

/-- The P context of a die's row in the executing cluster. -/
def clusterP (s : State) (die : Bool) : Nat := (if die then 32 else 0) + 2 * rowNo s.cur.ctx

/-- The perform cycles of a SEND's rows. -/
def sendSlots (f : Nat) : List (Nat × Nat) := (List.range 16).map fun t => (2 + t, slotOf f)

/-- SEND: the block at s[SN], a row a cycle, to the core CNT [3:0] columns on of the named die (R366). -/
def execSend (h : Hd) (x c : BitVec 5) (s : State) : Host.Outcome State Fault Refusal :=
  let hop := c.toNat % 16
  s.word h (fun s =>
    let dst := clusterP s (c.getLsbD 4)
    firstTrap [addrTrap [s.known [.s x.toNat] (trapOf (s.ownAddr (s.rs x) 4096)), partnerTrap s dst],
      if !s.timed then some (.sched 9) else none, s.early [.s x.toNat],
      s.accessTrap (sendSlots (valOf (s.ownAddr (s.rs x) 4096))),
      if s.cur.cmode then some (.sched 7) else none, if (s.ctx dst).frz.isSome then some (.sched 7) else none]) fun s =>
    let f := valOf (s.ownAddr (s.rs x) 4096)
    let dst := clusterP s (c.getLsbD 4)
    let d := Nat.min hop (16 - hop)
    (List.range 16).foldl (fun t r =>
      t.access (2 + r) 0 (.sendRow (f + 256 * r) r dst ((s.cur.col + hop) % 16) (2 + 2 * d))) (s.placeAcc (sendSlots f))

/-- What a RECV expects in one cycle, as one number: its result, the hop, the sender's die and the row. -/
def recvCode (id hop die t : Nat) : Nat := ((id * 16 + hop) * 2 + die) * 16 + t

/-- RECV: rows from the core CNT [3:0] columns back of the named die, row 0 due at e + 2; the register lands at i + 20
(R366). -/
def execRecv (h : Hd) (x : BitVec 4) (c : BitVec 5) (s : State) : Host.Outcome State Fault Refusal :=
  s.word h (fun s => firstTrap [if !s.timed then some (.sched 9) else none, if s.cur.cmode then some (.sched 7) else none])
    fun s =>
    let id := s.freshId
    let s1 := (List.range 16).foldl (fun t r =>
      t.afterMe (2 + r) (recvCode id (c.toNat % 16) (c.toNat / 16) r) .recvRowMissing) s.bump
    s1.landId id 20 [.v x.toNat 0#32768 0#32768] 0#5

/-- The expectation of a RECV of the executing core that is due now. -/
def expects (s : State) (hop die t : Nat) : Option Sched := s.agenda.find? fun e =>
  e.cur.ctx == s.cur.ctx && e.cur.col == s.cur.col && decide (e.due = s.clkNow e.clk) && (match e.act with
    | .recvRowMissing => true
    | _ => false) && decide (e.arg % 512 = (hop * 2 + die) * 16 + t)

/-- A RECV is abandoned: it writes no row and expects none any longer (R242, R367). -/
def abandonRecv (s : State) (id : Nat) : State :=
  let s1 := s.dropFlight id
  { s1 with agenda := s1.agenda.filter fun e => match e.act with
      | .recvRowMissing => e.arg / 512 != id
      | _ => true }

/-- The rows that arrive at the executing core in this cycle before the one in hand: hop, die and row. -/
def arrivals (s : State) : List (Nat × Nat × Nat) := s.agenda.filterMap fun e => match e.act with
  | .recvRowArrival c col hop die t _ =>
    if c = s.cur.ctx ∧ col = s.cur.col ∧ e.due ≤ s.clkNow e.clk ∧ e.ord < s.ord then some (hop, die, t) else none
  | _ => none

/-- RECV_ROW_ARRIVAL: a row arrives at a core. The RECV that expects it takes it into its row; a row that none expects, or that meets
another arrival, is an unmatched receive of the receiving core, and the RECVs whose rows meet are abandoned (R232, R366, R367). -/
def execRecvRowArrival (ctx col hop die t : Nat) (row : Row) (s : State) : Host.Outcome State Fault Refusal :=
  let s := { s with cur := { s.cur with ctx := ctx, col := col, slot := .nowhere, bundle := s.lastBundleOf ctx col } }
  let port := 8 * coreNo ctx col + 6
  if s.ports_.contains port ∨ arrivals s ≠ [] then
    .next ((((hop, die, t) :: arrivals s).filterMap fun a => (expects s a.1 a.2.1 a.2.2).map fun e => e.arg / 512).foldl abandonRecv
      (s.takeDeferred s.cur .nowhere 3 7))
  else match expects s hop die t with
  | none => .next (s.takeDeferred s.cur .nowhere 3 7)
  | some e =>
    let id := e.arg / 512
    let m : Block := (BitVec.allOnes 2048).setWidth 32768 <<< (2048 * t)
    let s1 := { s with agenda := s.agenda.filter fun x => x.ord != e.ord, ports_ := port :: s.ports_ }
    .next (s1.modFlight id fun e f => { e with act := .resultLanding { f with
      writes := f.writes.map fun w => match w with
        | .v n k y => .v n (k ||| m) (y ||| (row.setWidth 32768 <<< (2048 * t)))
        | w => w } })

/-- RECV_ROW_MISSING: the row a RECV expects in this cycle has not come. For row 0 this is an unmatched receive, and the
RECV is abandoned: it writes no row (R242, R367). -/
def execRecvRowMissing (s : State) : Host.Outcome State Fault Refusal :=
  if s.arg % 16 ≠ 0 then .next s
  else .next (abandonRecv (s.takeDeferred s.cur s.cur.slot 3 7) (s.arg / 512))

/-! ### Vertical FIFOs (R142, R143, R183, R368) -/

/-- The FIFO a core of a die produces into. -/
def fifoOut (s : State) : Fifo := let k := s.stackAt s.myStack; if dieOf s.cur.ctx = 0 then k.up else k.down
/-- The FIFO a core of a die consumes from. -/
def fifoIn (s : State) : Fifo := let k := s.stackAt s.myStack; if dieOf s.cur.ctx = 0 then k.down else k.up
/-- Replace the FIFO the core produces into. -/
def setOut (s : State) (f : Fifo) : State :=
  s.modStack s.myStack fun k => if dieOf s.cur.ctx = 0 then { k with up := f } else { k with down := f }
/-- Replace the FIFO the core consumes from. -/
def setIn (s : State) (f : Fifo) : State :=
  s.modStack s.myStack fun k => if dieOf s.cur.ctx = 0 then { k with down := f } else { k with up := f }
/-- The domain cycle of the executing context. -/
def myDom (s : State) : Int := s.dom (s.partOf s.cur.ctx)
/-- Occupancy as a push sees it: what is held, and what was popped in the last six cycles (R143). -/
def occupancy (f : Fifo) (c : Int) : Nat := f.rows.length + (f.pops.filter fun p => decide (c - 6 < p)).length
/-- The entries a pop finds: pushed six cycles ago or earlier (R143). -/
def visible (f : Fifo) (c : Int) : List (Row × Int) := f.rows.takeWhile fun r => decide (r.2 ≤ c - 6)

/-- The ends of the stack's FIFOs are P contexts of one job, and the word is timed (R24, R142, R443). -/
def fifoTrap (s : State) : Option Trap :=
  let a := brimP s.myStack
  let b := crownP s.myStack
  let other := if dieOf s.cur.ctx = 0 then b else a
  firstTrap [
    if isQ s.cur.ctx then
      (if (s.ctx a).job ≠ 0 ∧ (s.ctx a).job = (s.ctx b).job then none else match partnerTrap s other with
        | some t => some t
        | none => some .translation)
    else partnerTrap s other,
    if !s.timed then some (.sched 9) else none]

/-- VFPUSH: row CNT of v[SN] enters the FIFO (R368). -/
def execVfpush (h : Hd) (x c : BitVec 4) (s : State) : Host.Outcome State Fault Refusal :=
  s.word h (fun s => firstTrap [fifoTrap s, s.early [.v x.toNat],
      if 16 ≤ occupancy (fifoOut s) (myDom s) then some (.sched 6) else none]) fun s =>
    let f := fifoOut s
    setOut (s.tally s.cur.ctx s.cur.col 0x0F 1)
      { f with rows := f.rows ++ [(rowOfBlock (s.rv x.toNat) c.toNat, myDom s)], pushes := (f.pushes + 1) % 2 ^ 32 }

/-- VFPOP: the oldest visible entry into row CNT of v[SN] (R368). -/
def execVfpop (h : Hd) (x c : BitVec 4) (s : State) : Host.Outcome State Fault Refusal :=
  s.word h (fun s => firstTrap [fifoTrap s, if visible (fifoIn s) (myDom s) = [] then some (.sched 6) else none]) fun s =>
    let f := fifoIn s
    match f.rows with
    | [] => s
    | r :: rest =>
      (setIn s { f with rows := rest, pops := (f.pops.filter fun p => decide (myDom s - 6 < p)) ++ [myDom s],
                        popped := (f.popped + 1) % 2 ^ 32 }).afterMe 4 0 (.resultLanding
        { id := 0, port := s.cur.slot.port, flags := 0#5, delay := 0, reply := false, fifo := true,
          writes := [.v x.toNat ((BitVec.allOnes 2048).setWidth 32768 <<< (2048 * c.toNat))
            (r.1.setWidth 32768 <<< (2048 * c.toNat))] })

/-- VFFREE: 16 minus the occupancy that a push would see (R183, R368). -/
def execVffree (h : Hd) (x : BitVec 5) (s : State) : Host.Outcome State Fault Refusal :=
  s.word h fifoTrap fun s =>
    s.land 2 [.s x.toNat (BitVec.ofNat 64 (16 - occupancy (fifoOut s) (myDom s)))] 0#5

/-! ### Address generators (R59, R384) -/

/-- AGSET: g[CNT] from s[SN] and s[SF], with its reserved bits and the low six bits of BASE and STRIDE stored as 0. -/
def execAgset (h : Hd) (x y : BitVec 5) (c : BitVec 2) (s : State) : Host.Outcome State Fault Refusal :=
  s.word h (fun s => s.early [.s x.toNat, .s y.toNat]) fun s =>
    s.land 2 [.g c.toNat ((s.rs y &&& 0xFFFFFFFFFFFFFFC0#64) ++ (s.rs x &&& 0x0000FFFFFFFFFFC0#64))] 0#5

/-- AGEN: s[SN] := (BASE + x * STRIDE) mod 2^48; x at or past MAXLEN traps. -/
def execAgen (h : Hd) (x y : BitVec 5) (c : BitVec 2) (s : State) : Host.Outcome State Fault Refusal :=
  s.word h (fun s => firstTrap [s.known [.s y.toNat, .g c.toNat]
      (if ((s.rg c.toNat).extractLsb' 96 32).toNat ≤ (s.rs y).toNat then some .translation else none),
      s.early [.s y.toNat, .g c.toNat]]) fun s =>
    let g := s.rg c.toNat
    s.land 2 [.s x.toNat (BitVec.ofNat 64
      (((g.extractLsb' 0 48).toNat + (s.rs y).toNat * (g.extractLsb' 64 32).toNat) % 2 ^ 48))] 0#5

end Sys2Proof.Machine
end

