-- ==== Sys2Proof/Machine/Channel.lean ====
section
/-! DEFINITION. Tower and far channels under program command: the timing guard, the six commands, their beats, refresh
accounts and guard sequences, and bus errors with their replays (R111 to R132, R176 to R178, R369 to R371, R409 to R411,
R444). -/

namespace Sys2Proof.Machine

open Sys2Proof State

/-! ### Timing (R117, R118) -/

/-- The timing parameters of a channel kind in cycles; `bt` is the burst time, `beat` the spacing of its beats. -/
structure Tim where
  ck : Nat
  rcd : Nat
  rp : Nat
  ras : Nat
  ccdl : Nat
  ccds : Nat
  rrd : Nat
  faw : Nat
  wr : Nat
  wtr : Nat
  rtp : Nat
  rl : Nat
  wl : Nat
  rfc : Nat
  bt : Nat
  beat : Nat
  deriving DecidableEq, Repr

/-- The parameters of a tower pseudo-channel. -/
def towerTim : Tim :=
  { ck := 3, rcd := 48, rp := 48, ras := 108, ccdl := 18, ccds := 12, rrd := 12, faw := 48, wr := 60, wtr := 24, rtp := 18,
    rl := 60, wl := 30, rfc := 792, bt := 12, beat := 3 }
/-- The parameters of a far channel. -/
def farTim : Tim :=
  { ck := 4, rcd := 64, rp := 64, ras := 152, ccdl := 32, ccds := 24, rrd := 16, faw := 72, wr := 120, wtr := 40, rtp := 32,
    rl := 96, wl := 48, rfc := 1008, bt := 24, beat := 6 }
/-- The parameters of a channel. -/
def timOf (ch : Nat) : Tim := if ch < 256 then towerTim else farTim

/-- DWR to DRD on a channel. -/
def Tim.w2r (t : Tim) : Nat := t.wl + t.bt + t.wtr
/-- DRD to DWR on a channel. -/
def Tim.r2w (t : Tim) : Nat := t.rl + t.bt + 2 * t.ck - t.wl
/-- DWR to a precharge of its bank. -/
def Tim.w2p (t : Tim) : Nat := t.wl + t.bt + t.wr
/-- From a DWR to the write status of its burst (R75, R129). -/
def Tim.status (t : Tim) : Nat := t.wl + t.bt + 6 * t.ck

/-- The bank of a block number (R113). -/
def bankOf (b : Nat) : Nat := b % 393216 % 16
/-- The bank and row of a side's block j on a channel kind (R113). -/
def bankRow (x : Side) (j : Nat) : Nat × Nat := match x with
  | .t bs => let l := bs.getD j 0 % 393216; (l % 16, l / 16)
  | .f bs => let l := bs.getD j 0 % 16777216; (l % 16, l / 16)
  | _ => (0, 0)

/-- A counter of R176 still runs. -/
def running (x : Chan) (deadline : Nat) : Bool := decide (x.clk < deadline)
/-- A counter takes the larger of its value and a load (R176). -/
def loadAt (x : Chan) (old n : Nat) : Nat := Nat.max old (x.clk + n)

/-! ### Real time (R117, R129, R409) -/

/-- The least interval between two commands in real time (R118): kinds 0 DACT, 1 DRD, 2 DWR, 3 precharge, 5 DREF. -/
def minGap (t : Tim) (k1 b1 k2 b2 : Nat) : Nat :=
  let rw := fun k => k == 1 || k == 2
  if k1 = 0 ∧ rw k2 ∧ b1 = b2 then t.rcd
  else if k1 = 0 ∧ k2 = 3 ∧ b1 = b2 then t.ras
  else if k1 = 3 ∧ k2 = 0 ∧ b1 = b2 then t.rp
  else if k1 = 0 ∧ k2 = 0 ∧ b1 ≠ b2 then t.rrd
  else if rw k1 ∧ rw k2 then
    Nat.max (if b1 / 4 = b2 / 4 then t.ccdl else t.ccds) (if k1 = 2 ∧ k2 = 1 then t.w2r else if k1 = 1 ∧ k2 = 2 then t.r2w else 0)
  else if k1 = 1 ∧ k2 = 3 ∧ b1 = b2 then t.rtp
  else if k1 = 2 ∧ k2 = 3 ∧ b1 = b2 then t.w2p
  else if k1 = 5 ∧ (k2 = 0 ∨ k2 = 5) then t.rfc
  else if k1 = 3 ∧ k2 = 5 then t.rp
  else 0

/-- The first chip cycle at or after t0 that meets every minimum against the commands issued. -/
def realReady (t : Tim) (cmds : List (Nat × Nat × Nat × Nat)) (k b t0 : Nat) : Nat :=
  cmds.foldl (fun m c => Nat.max m (c.2.2.1 + minGap t c.1 c.2.1 k b)) t0

/-- The first command edge of a channel at or after a chip cycle (R117). -/
def edgeFrom (s : State) (ch t0 : Nat) : Nat :=
  let ck := (timOf ch).ck
  t0 + (ck - (s.cycleBase.toNat + t0) % ck) % ck

/-- The number under which the guard's own commands count, no partition's (R439). -/
def guardPart : Nat := 64
/-- Record a command, and forget those older than 65,536 cycles. -/
def noteCmd (s : State) (ch k b : Nat) : State :=
  let p := match (s.chan ch).owner with | some c => s.partOf c | none => guardPart
  s.modChan ch fun x => { x with cmds := (x.cmds.filter fun c => decide (s.now < c.2.2.1 + 65536)) ++ [(k, b, s.now, p)] }

/-! ### Bindings (R115, R444) -/

/-- The bindings of a channel that a command sees: those entered before the present cycle. -/
def bindsSeen (s : State) (ch : Nat) : List Nat :=
  (s.chan ch).binds.filter fun k => decide ((s.peel k).start < s.rowClk (rowOf (s.peel k).cur.ctx))
/-- Both sides of an exchange lie on one channel. -/
def bothOn (p : Peel) : Bool := p.chA.isSome && p.chA == p.chB
/-- The side of an exchange on a channel: true for the SN side. -/
def sideA (p : Peel) (ch : Nat) : Bool := p.chA == some ch
/-- The bursts an exchange has on a channel. -/
def burstsOf (p : Peel) : Nat := if bothOn p then 32 * p.n else 16 * p.n
/-- DRDs issued for an exchange on a channel. -/
def rdOf (p : Peel) (ch : Nat) : Nat := if sideA p ch then p.rdA else p.rdB
/-- DWRs issued for an exchange on a channel. -/
def wrOf (p : Peel) (ch : Nat) : Nat := if sideA p ch then p.wrA else p.wrB
/-- What burst b of an exchange on a channel names: side A or not, pair, burst of the block (R114, R444). -/
def burstAt (p : Peel) (ch b : Nat) : Bool × Nat × Nat :=
  if bothOn p then (b / 16 % 2 == 0, b / 32, b % 16) else (sideA p ch, b / 16, b % 16)
/-- The bank and row of a burst. -/
def burstBank (p : Peel) (ch b : Nat) : Nat × Nat :=
  let (a, j, _) := burstAt p ch b
  bankRow (if a then p.a else p.b) j
/-- Bursts of a side read once r DRDs have issued. -/
def readOfSide (p : Peel) (a : Bool) (r : Nat) : Nat :=
  if bothOn p then r / 32 * 16 + (if a then Nat.min (r % 32) 16 else r % 32 - 16) else r
/-- Beats of a side's staging that are used up (R95). -/
def usedUp (p : Peel) (a : Bool) : Nat :=
  if bothOn p then p.dlB
  else if p.chA.isSome ∧ p.chB.isSome then Nat.min p.dlA p.dlB
  else if a then p.dlA else p.dlB
/-- The DRD whose beats a DWR delivers or replaces: its burst number on the channel (R95, R444). -/
def drdFor (p : Peel) (b : Nat) : Nat := if bothOn p then (if b / 16 % 2 = 0 then b + 16 else b - 16) else b

/-! ### The commands (R369 to R371) -/

/-- A channel command: 0 DACT (binding, pair, side), 1 DRD, 2 DWR, 3 DPRE (bank), 4 DPREA, 5 DREF. -/
inductive Cmd where
  | dact (b j h : Nat) | drd | dwr | dpre (k : Nat) | dprea | dref
  deriving DecidableEq, Repr

/-- The command of a word. -/
def cmdOf : Instr → Cmd
  | .dact _ _ i => .dact ((i.toNat / 64) % 2) (i.toNat % 64) (i.toNat / 128)
  | .drd _ _ => .drd
  | .dwr _ _ => .dwr
  | .dpre _ _ i => .dpre i.toNat
  | .dprea _ _ => .dprea
  | _ => .dref

/-- Binding 0 of a channel as the executing core may command it. -/
def binding0 (s : State) (ch : Nat) : Option Nat := match bindsSeen s ch with
  | k :: _ => if (s.peel k).cur.ctx = s.cur.ctx ∧ (s.peel k).cur.col = s.cur.col then some k else none
  | [] => none

/-- The binding checks (R95, R115, R370, R444). -/
def bindingTrap (s : State) (ch : Nat) : Cmd → Option Trap
  | .dact b j h => match (bindsSeen s ch)[b]? with
    | none => some (.sched 10)
    | some k => if (s.peel k).n ≤ j ∨ (h = 1 ∧ !(bothOn (s.peel k))) then some (.sched 10) else none
  | .drd => match binding0 s ch with
    | none => some (.sched 10)
    | some k =>
      let p := s.peel k
      let b := rdOf p ch
      let a := (burstAt p ch b).1
      if burstsOf p ≤ b ∨ 64 < 4 * readOfSide p a (b + 1) - usedUp p a then some (.sched 10) else none
  | .dwr => match binding0 s ch with
    | none => some (.sched 10)
    | some k =>
      let p := s.peel k
      let b := wrOf p ch
      let early := match p.rdAt.find? fun r => decide (r.1 = ch) && decide (r.2.1 = drdFor p b) with
        | some r => decide ((s.chan ch).clk < r.2.2 + (if ch < 256 then 30 else 48))
        | none => true
      if decide (burstsOf p ≤ b) || early then some (.sched 10) else none
  | _ => none

/-- The exchange-port uses of a DWR's beats on an S side: cycles from now and banks, none where no beat will cross (R95, R99, R104,
R105). -/
def dwrUses (s : State) (ch : Nat) : List (Nat × List Nat) := match binding0 s ch with
  | none => []
  | some k =>
    let p := s.peel k
    let t := timOf ch
    if crosses p then (List.range 4).map fun q => (t.wl + t.beat * (q + 1) + p.late, deliverBanks p (wrOf p ch)) else []
/-- In a timed context a DWR whose beats meet a window or another exchange's port traps (R18, R104, R105, R408). -/
def dwrTrap (s : State) (ch : Nat) : Cmd → Option Trap
  | .dwr => if s.timed then s.xchSched false ((binding0 s ch).getD 0) [] (dwrUses s ch) else none
  | _ => none

/-- The subcodes of the minima and bank states that a command fails (R118). -/
def guardFails (s : State) (ch : Nat) (c : Cmd) : List Nat :=
  let x := s.chan ch
  let on := fun (d : Nat) (sub : Nat) => if running x d then [sub] else []
  let pre := fun (k : Nat) => on (x.actPre.get 0 k) 2 ++ on (x.rdPre.get 0 k) 10 ++ on (x.rwPre.get 0 k) 11
  let rw := fun (k row : Nat) =>
    on (x.actRw.get 0 k) 1 ++ on (x.ccdl.get 0 (k / 4)) 6 ++
    (if x.lastGroup.isSome ∧ x.lastGroup ≠ some (k / 4) then on x.ccds 7 else []) ++
    (if x.rows.get 0 k ≠ row + 1 then [14] else [])
  match c with
  | .dact b j h =>
    let p := s.peel ((bindsSeen s ch).getD b 0)
    let k := (bankRow (if h = 1 then p.b else if sideA p ch then p.a else p.b) j).1
    on (x.preAct.get 0 k) 3 ++ (if x.lastAct.isSome ∧ x.lastAct ≠ some k then on x.rrd 4 else []) ++
      on (x.faw.get 0 x.fawPtr) 5 ++ on x.rfc 12 ++ (if x.rows.get 0 k ≠ 0 then [14] else [])
  | .drd =>
    let p := s.peel ((binding0 s ch).getD 0)
    let (k, row) := burstBank p ch (rdOf p ch)
    rw k row ++ on x.wtr 8
  | .dwr =>
    let p := s.peel ((binding0 s ch).getD 0)
    let (k, row) := burstBank p ch (wrOf p ch)
    rw k row ++ on x.rtw 9
  | .dpre k => if x.rows.get 0 k = 0 then [] else pre k
  | .dprea => ((List.range 16).filter fun k => x.rows.get 0 k ≠ 0).flatMap pre
  | .dref => on x.lastPre 3 ++ on x.rfc 12 ++ (if x.rows.rows ≠ [] then [14] else [])

/-- The timing guard: the lowest failing subcode (R118). -/
def guardTrap (s : State) (ch : Nat) (c : Cmd) : Option Trap := match (guardFails s ch c) with
  | [] => none
  | l => some (.timing (l.foldl Nat.min 14))

/-- The checks of a command on a channel value: the channel's world bit (R165), then the order of R116 and R370. -/
def cmdTrap (s : State) (v : Word) (c : Cmd) : Option Trap :=
  let ch := v.toNat
  if 288 ≤ ch then some .channel
  else if s.worldOf (.channel ch) != s.myCtx.world then some .world
  else if (s.chan ch).owner ≠ some s.cur.ctx then some .channel
  else firstTrap [bindingTrap s ch c, dwrTrap s ch c, guardTrap s ch c]

/-- A bank closes; a corrected codeword of its row is written back (R128). -/
def closeBank (s : State) (ch k : Nat) : State :=
  let row := (s.chan ch).rows.get 0 k
  let per := if ch < 256 then 393216 else 16777216
  let b := (if ch < 256 then ch else ch - 256) * per + 16 * (row - 1) + k
  let lo := (if ch < 256 then tAddr b else fAddr b) / 32
  let mine := fun (c : Nat) => decide (row ≠ 0) && decide (lo ≤ c) && decide (c < lo + 128)
  let fixed := (s.chan ch).corr.filter mine
  { (s.modChan ch fun x => { x with rows := x.rows.put 0 k 0, corr := x.corr.filter fun c => !(mine c) }) with
    bad := ⟨s.bad.rows.filter fun r => !(fixed.contains r.1)⟩ }

/-- A precharge of one open bank loads its counters. -/
def preBank (s : State) (ch k : Nat) : State :=
  let t := timOf ch
  (noteCmd (closeBank s ch k) ch 3 k).modChan ch fun x =>
    { x with preAct := x.preAct.put 0 k (loadAt x (x.preAct.get 0 k) t.rp), lastPre := loadAt x x.lastPre t.rp }

/-- The counters that a DRD or DWR on a bank loads. -/
def rwLoad (x : Chan) (t : Tim) (k : Nat) : Chan :=
  { x with ccdl := x.ccdl.put 0 (k / 4) (loadAt x (x.ccdl.get 0 (k / 4)) t.ccdl), ccds := loadAt x x.ccds t.ccds,
           lastGroup := some (k / 4) }

/-- Words ranked later whose exchanges meet a DWR's port uses take the conflict (R104). -/
def blameDwr (s : State) (q : Nat) (uses : List (Nat × List Nat)) : State :=
  if s.timed then s.xchBlame false q [] uses else s

/-- Remember a burst until its check has come: 128 chip cycles cover the longest (R129). -/
def noteSent (s : State) (ch : Nat) (x : Sent) : State :=
  s.modChan ch fun c => { c with sent := (c.sent.filter fun y => decide (s.now ≤ y.at_ + 128)) ++ [x] }

/-- An admitted command is issued: counters (R176), bank state (R114), debt (R120), beats (R119). -/
def issueCmd (s : State) (ch : Nat) (c : Cmd) : State :=
  let t := timOf ch
  let s := s.tally s.cur.ctx s.cur.col 0x0A 1
  match c with
  | .dact b j h =>
    let p := s.peel ((bindsSeen s ch).getD b 0)
    let (k, row) := bankRow (if h = 1 then p.b else if sideA p ch then p.a else p.b) j
    (noteCmd s ch 0 k).modChan ch fun x =>
      { x with rows := x.rows.put 0 k (row + 1), actRw := x.actRw.put 0 k (loadAt x (x.actRw.get 0 k) t.rcd),
               actPre := x.actPre.put 0 k (loadAt x (x.actPre.get 0 k) t.ras), rrd := loadAt x x.rrd t.rrd,
               faw := x.faw.put 0 x.fawPtr (loadAt x (x.faw.get 0 x.fawPtr) t.faw), fawPtr := (x.fawPtr + 1) % 4,
               lastAct := some k }
  | .drd =>
    let q := (binding0 s ch).getD 0
    let p := s.peel q
    let b := rdOf p ch
    let (k, row) := burstBank p ch b
    let sent : Sent := { peel := q, burst := b, write := false, cur := s.cur, bank := k, row := row, at_ := s.now, xch := p.cur, moved := [] }
    let s1 := (noteSent (noteCmd s ch 1 k) ch sent).modChan ch fun x =>
      { rwLoad x t k with rdPre := x.rdPre.put 0 k (loadAt x (x.rdPre.get 0 k) t.rtp), rtw := loadAt x x.rtw t.r2w }
    let s2 := s1.modPeel q fun p =>
      { p with rdA := if sideA p ch then p.rdA + 1 else p.rdA, rdB := if sideA p ch then p.rdB else p.rdB + 1,
               rdAt := p.rdAt ++ [(ch, b, (s.chan ch).clk)] }
    -- a beat is read and logged in real time, and presented at its domain offset (R119, R411)
    let s3 := (List.range 4).foldl (fun u i => u.after .chip (t.rl + t.beat * (i + 1)) s.cur 1 (.drdBeatArrival ch q b i)) s2
    (List.range 4).foldl (fun u i => u.afterMe (t.rl + t.beat * (i + 1)) 0 (.drdBeatArrival ch q b i)) s3
  | .dwr =>
    let q := (binding0 s ch).getD 0
    let p := s.peel q
    let b := wrOf p ch
    let (k, row) := burstBank p ch b
    let id := s.freshId
    let sent : Sent := { peel := q, burst := b, write := true, cur := s.cur, bank := k, row := row, at_ := s.now, xch := p.cur, moved := [] }
    let s1 := (noteSent (noteCmd s.bump ch 2 k) ch sent).modChan ch fun x =>
      { rwLoad x t k with rwPre := x.rwPre.put 0 k (loadAt x (x.rwPre.get 0 k) t.w2p), wtr := loadAt x x.wtr t.w2r }
    let s2 := (touchSlice s1 s.cur.ctx (chanSlice ch) id).modPeel q fun p =>
      { p with wrA := if sideA p ch then p.wrA + 1 else p.wrA, wrB := if sideA p ch then p.wrB else p.wrB + 1,
               rdAt := p.rdAt.filter fun r => !(decide (r.1 = ch) && decide (r.2.1 = drdFor p b)) }
    let s3 := (List.range 4).foldl (fun u i => u.afterMe (t.wl + t.beat * (i + 1) + p.late) 0 (.dwrBeatDelivery ch q b i)) s2
    (blameDwr s3 q (dwrUses s ch)).afterMe t.status (512 * id + ch) .dwrWriteStatus
  | .dpre k => if (s.chan ch).rows.get 0 k = 0 then s else preBank s ch k
  | .dprea => ((List.range 16).filter fun k => (s.chan ch).rows.get 0 k ≠ 0).foldl (fun u k => preBank u ch k) s
  | .dref =>
    (noteCmd s ch 5 0).modChan ch fun x =>
      -- a wrap in this cycle counts after the DREF (R178)
      let debt : Int := if x.progPhase = 0 ∧ !x.overdue then (if x.progDebt - 1 - 1 < -4 then -4 else x.progDebt - 2) + 1
        else if x.overdue ∧ x.progPhase = 0 then x.progDebt
        else if x.progDebt - 1 < -4 then -4 else x.progDebt - 1
      { x with rfc := loadAt x x.rfc t.rfc, progDebt := debt, overdue := x.overdue && x.progPhase != 0 }

/-- Commands of Q owners that wait on a channel. -/
def heldCmds (s : State) (ch : Nat) : List (Waiting × Nat × Nat) := s.waiting.filterMap fun w => match w.what with
  | .command _ c o d => if c = ch then some (w, o, d) else none
  | _ => none

/-- A command of a Q owner waits: a guard sequence runs on the channel, or an earlier command still waits (R122, R371). -/
def cmdHeld (s : State) (v : Word) : Bool :=
  isQ s.cur.ctx && decide (v.toNat < 288) && decide ((s.chan v.toNat).owner = some s.cur.ctx) &&
  ((s.chan v.toNat).guard.isSome || heldCmds s v.toNat ≠ [])

/-- A channel word: checked, then issued, or deferred to the end of a guard sequence. -/
def chanWord (h : Hd) (c : BitVec 5) (word : Instr) (s : State) : Host.Outcome State Fault Refusal :=
  s.word h (fun s => firstTrap [s.early [.s c.toNat],
      if cmdHeld s (s.rs c) then none else cmdTrap s (s.rs c) (cmdOf word)]) fun s =>
    let ch := (s.rs c).toNat
    if cmdHeld s (s.rs c) then
      match heldCmds s ch with
      | (_, o, d) :: _ =>
        let due := if d = 0 then 0 else s.clk + (d - o)
        let s1 := s.waitFor (.command word ch s.clk due)
        if due = 0 then s1 else s1.afterMe (d - o) ch .guardSequenceComplete
      | [] => s.waitFor (.command word ch s.clk 0)
    else issueCmd s ch (cmdOf word)

/-- DACT: open the row of pair j of binding b (R114). -/
def execDact (h : Hd) (c : BitVec 5) (i : BitVec 8) (s : State) : Host.Outcome State Fault Refusal := chanWord h c (.dact h c i) s
/-- DRD: read the next burst of binding 0 (R114). -/
def execDrd (h : Hd) (c : BitVec 5) (s : State) : Host.Outcome State Fault Refusal := chanWord h c (.drd h c) s
/-- DWR: write the next burst of binding 0 (R114). -/
def execDwr (h : Hd) (c : BitVec 5) (s : State) : Host.Outcome State Fault Refusal := chanWord h c (.dwr h c) s
/-- DPRE: close a bank (R114). -/
def execDpre (h : Hd) (c : BitVec 5) (i : BitVec 4) (s : State) : Host.Outcome State Fault Refusal := chanWord h c (.dpre h c i) s
/-- DPREA: close every open bank (R114). -/
def execDprea (h : Hd) (c : BitVec 5) (s : State) : Host.Outcome State Fault Refusal := chanWord h c (.dprea h c) s
/-- DREF: refresh every bank (R114, R120). -/
def execDref (h : Hd) (c : BitVec 5) (s : State) : Host.Outcome State Fault Refusal := chanWord h c (.dref h c) s

/-! ### Beats (R89, R95, R99, R119, R128) -/

/-- Enter work of a context whose rest may be frozen: then it joins the frozen record with its REMAIN (R94, R235). -/
def afterOrFrozen (s : State) (n a : Nat) (i : Instr) : State :=
  match s.myCtx.frz with
  | none => s.afterMe n a i
  | some f =>
    let e : Sched := { clk := .row (rowOf s.cur.ctx), due := 0, ord := s.nextId, cur := s.cur, arg := a, act := i }
    State.modCtx { s with nextId := s.nextId + 1 } s.cur.ctx fun x =>
      { x with frz := some { f with items := f.items ++ [(s.clk - f.rowF + n, e)] } }

/-- All beats of an exchange are delivered. -/
def allDelivered (p : Peel) : Bool :=
  (p.chA.isNone || p.dlA == 64 * p.n) && (p.chB.isNone || p.dlB == 64 * p.n)

/-- A word 0 of the array ECC log (R168). -/
def arrayW0 (ch bank row cw sym : Nat) (unc : Bool) : Word :=
  BitVec.ofNat 64 (ch * 2 ^ 47 + bank * 2 ^ 43 + row * 2 ^ 23 + cw * 2 ^ 16 + sym * 2 ^ 11 + if unc then 1024 else 0)

/-- A corrected codeword of an open row waits for its row to close; that of a row which has closed since its read is written back now
(R128). -/
def fixLater (s : State) (ch : Nat) (br : Nat × Nat) (x : Nat) : State :=
  if (s.chan ch).rows.get 0 br.1 = br.2 + 1 then
    s.modChan ch fun c => { c with corr := if c.corr.contains x then c.corr else c.corr ++ [x] }
  else { s with bad := s.bad.put 0 x 0 }
/-- Log the codewords of a DRAM read that are corrected or uncorrectable (R128, R411). -/
def noteArray (s : State) (ch : Nat) (br : Nat × Nat) (a n : Nat) : State :=
  (s.badRows a n).foldl (fun t r =>
    let unc := decide (2 ≤ badCount r.2)
    let u := t.logArray ch (arrayW0 ch br.1 br.2 (r.1 % 128) (badSymbol r.2) unc) (myJob s)
    if unc then u else fixLater u ch br r.1) s

/-- The name of the p7 result of a peel's XCHC (R355). -/
def p7Id (peel : Nat) : Nat := 2 ^ 60 + peel

/-- DRD_BEAT_ARRIVAL: a beat is staged; with the last beat of the first burst an XCHC compares versions and p7 is due one
cycle later (R95, R99, R119). An uncorrectable codeword abandons the exchange, attributed to the DRD (R128). The number 1 marks the
arrival in real time, which logs what the read corrected (R119, R411). -/
def execDrdBeatArrival (ch peel burst q : Nat) (s : State) : Host.Outcome State Fault Refusal :=
  let p := s.peel peel
  if p.kind = 0 ∨ p.state = 1 then .next s
  else
    let (a, j, m) := burstAt p ch burst
    let side := if a then p.a else p.b
    let at_ := sideAddr side j + 256 * m + 64 * q
    if s.arg = 1 then .next (noteArray s ch (burstBank p ch burst) at_ 64)
    else if s.uncorrectable at_ 64 then
      .next ((s.takeDeferred s.cur s.cur.slot 7 0).modPeel peel fun p => { p with state := 1, stA := [], stB := [] })
    else
      let x : BitVec 512 := BitVec.ofNat 512 (s.load at_ 64)
      let i := 64 * j + 4 * m + q
      let s1 := s.modPeel peel fun p => if a then { p with stA := p.stA ++ [(i, x)] } else { p with stB := p.stB ++ [(i, x)] }
      if p.kind = 2 ∧ i = 3 then
        let ok := verOf s side 0 == p.expect
        let s2 := s1.modPeel peel fun p => { p with state := if ok then 2 else 3 }
        -- its cycle was fixed by the DRD and not by the XCHC's bundle: a result of the timetable goes first (R47; log 98)
        let f : Flight :=
          { id := p7Id peel, port := p.cur.slot.port, writes := [.p 7 ok], flags := 0#5, delay := 1, reply := false, fifo := false }
        .next (afterOrFrozen { s2 with cur := p.cur } 1 0 (.resultLanding f))
      else .next s1

/-- The value a staging holds for a beat. -/
def stagedAt (l : List (Nat × BitVec 512)) (i : Nat) (other : Nat) : Nat := match l.find? fun x => x.1 == i with
  | some x => x.2.toNat
  | none => other
/-- Beats of a staging but one. -/
def unstage (l : List (Nat × BitVec 512)) (i : Nat) : List (Nat × BitVec 512) := l.filter fun x => x.1 != i

/-- A beat of a bound exchange has crossed: the DWRs that wrote it remember it until their checks have come (R130). -/
def noteMoved (s : State) (k : Nat) (p : Peel) (i aA aB : Nat) : State := (peelChans p).foldl (fun t ch => t.modChan ch fun c =>
  { c with sent := c.sent.map fun x =>
      let (_, j, m) := burstAt p ch x.burst
      if x.write ∧ x.peel = k ∧ x.xch = p.cur ∧ i / 4 = 16 * j + m then { x with moved := x.moved ++ [(i, aA, aB)] } else x }) s

/-- The crossing of beat i of a bound exchange (R90, R95, R444): a T or F side gives its staged copy, an S side what it
holds. -/
def boundCross (s : State) (k : Nat) (p : Peel) (i : Nat) : State :=
  let aA := sideAddr p.a (i / 64) + 64 * (i % 64)
  let aB := sideAddr p.b (i / 64) + 64 * (i % 64)
  let xA := stagedAt p.stA i (s.load aA 64)
  let xB := stagedAt p.stB i (s.load aB 64)
  let s1 := (s.storeFor (myJob s) aA 64 xB).storeFor (myJob s) aB 64 xA
  let s2 := (s1.modPeel k fun p => { p with ptr := i + 1, stA := unstage p.stA i, stB := unstage p.stB i }).tally
    s.cur.ctx s.cur.col 9 1
  noteMoved (if i % 64 = 63 then pairDone s2 p (i / 64) else s2) k p i aA aB

/-- DWR_BEAT_DELIVERY: a beat of a DWR reaches the device. It crosses unless its exchange was abandoned or its compare
failed; between two channels it crosses at the later delivery. The last one completes the exchange 4 cycles later (R93, R95,
R99, R119, R242, R444). -/
def execDwrBeatDelivery (ch peel burst q : Nat) (s : State) : Host.Outcome State Fault Refusal :=
  let p := s.peel peel
  let (a, j, m) := burstAt p ch burst
  let i := 64 * j + 4 * m + q
  let banks := pairBanks p j
  let live := crosses p
  let wait := if s.timed ∨ !live then 0 else crossWait s peel banks
  if p.kind = 0 then .next s
  -- in a freeze issued beats go on in real time (R102, R236)
  else if 0 < wait then .next ((deferPeel s peel).repost (if s.myCtx.frz.isSome then .chip else .row (rowOf s.cur.ctx)) 1 s.arg
    (.dwrBeatDelivery ch peel burst q))
  else
    let s1 := s.modPeel peel fun p => if a then { p with dlA := p.dlA + 1 } else { p with dlB := p.dlB + 1 }
    let p1 := s1.peel peel
    let sAddr := (if p.a.isS then [sideAddr p.a j] else if p.b.isS then [sideAddr p.b j] else []).map fun x => x + 64 * (i % 64)
    let failed := live && ((sAddr.any fun x => s.uncorrectable x 64) || (beatMetas p i).any s.metaBad)
    let s2 := if !live then s1.modPeel peel fun p => { p with stA := unstage p.stA i, stB := unstage p.stB i }
      else if failed then
        (((beatMetas p i).foldl (fun t x => noteMeta t x (myJob s)) (sAddr.foldl (fun t x => noteSpad t x 64 (myJob s)) s1)).takeDeferred p.cur p.cur.slot 7 0).modPeel peel fun p =>
          { p with state := 1, stA := [], stB := [] }
      else if p.chA.isSome && p.chB.isSome && decide (Nat.min p1.dlA p1.dlB ≤ i) then s1
      else boundCross (sAddr.foldl (fun t x => noteSpad t x 64 (myJob s)) (takePorts s1 peel banks)) peel p1 i
    .next (if allDelivered p1 then afterOrFrozen { s2 with cur := p.cur } 4 (peel % 2) .exchangeComplete else s2)

/-- DWR_WRITE_STATUS: the device's status of a burst returns good, and the write is acknowledged (R75); a burst under
replay is acknowledged when its replay passes. -/
def execDwrWriteStatus (s : State) : Host.Outcome State Fault Refusal :=
  let ch := s.arg % 512
  if (s.chan ch).replays.any fun r => r.sent.write then .next (s.repostMe 1 s.arg .dwrWriteStatus)
  else .next (ackWrite s s.cur.ctx (s.arg / 512))

/-! ### Refresh accounts and guard sequences (R120 to R123, R178) -/

/-- Times of the re-opening activates: each tRRD after the last and tFAW after the fourth before it. -/
def openTimes (t : Tim) : Nat → Nat → List Nat → List Nat
  | 0, _, acc => acc
  | n + 1, from_, acc =>
    let x := Nat.max from_ (if acc.length < 4 then 0 else acc.getD (acc.length - 4) 0 + t.faw)
    openTimes t n (x + t.rrd) (acc ++ [x])

/-- The first chip cycle in which a channel takes commands: after its lane test, if one is under way (R409). -/
def busyTill (s : State) (ch : Nat) : Nat := match s.agenda.find? fun e => match e.act with
    | .laneTestComplete c _ => c == ch
    | _ => false with
  | some e => Nat.max (s.now + 1) e.due
  | none => s.now + 1

/-- A guard sequence starts (R123): the chip cycle at which it completes, and its commands in real time. -/
def startGuard (s : State) (ch pays : Nat) : State :=
  let t := timOf ch
  let x := s.chan ch
  let open_ := x.rows.rows
  let closes := open_.map fun r => (r.1, edgeFrom s ch (realReady t x.cmds 3 r.1 (busyTill s ch)))
  let tc := closes.foldl (fun m c => Nat.max m (c.2 + t.rp)) (busyTill s ch)
  let tr := edgeFrom s ch (realReady t x.cmds 5 0 tc)
  let opens := openTimes t open_.length (edgeFrom s ch (tr + t.rfc)) []
  let done := match opens.getLast? with | some o => o + t.ras | none => tr + t.rfc
  let p := guardPart
  let cmds := (closes.map fun c => (3, c.1, c.2, p)) ++ [(5, 0, tr, p)] ++
    ((open_.zip opens).map fun o => (0, o.1.1, o.2, p))
  (s.modChan ch fun x => { x with guard := some { rows := open_, pays := pays, doneAt := done }, cmds := x.cmds ++ cmds }).after
    .chip (done - s.now) Cursor.none ch .guardSequenceComplete

/-- PROGRAM_REFRESH_DEBT_WRAP: the program debt rises; at 4 a P owner's next bundle traps, and for a Q owner a guard sequence
pays, unless a DREF of this cycle comes first: the number gains 512 for that, at the end of the cycle. One that meets a guard sequence
under way follows it (R120 to R122, R178). -/
def execProgramRefreshDebtWrap (s : State) : Host.Outcome State Fault Refusal :=
  let ch := s.arg % 512
  let x := s.chan ch
  if 512 ≤ s.arg then
    .next (if x.overdue && x.guard.isNone then startGuard (s.modChan ch fun x => { x with overdue := false }) ch 1 else s)
  else if x.progDebt < 4 then .next (s.modChan ch fun x => { x with progDebt := x.progDebt + 1 })
  else match x.owner with
    | some c =>
      let s1 := s.modChan ch fun x => { x with overdue := true }
      .next (if isQ c then s1.after .chip 0 Cursor.none (512 + ch) .programRefreshDebtWrap else s1)
    | none => .next s

/-- HOLD_REFRESH_DEBT_WRAP: the hold debt rises; where it would reach 5 a guard sequence pays it, after one that is under way (R120,
R123). -/
def execHoldRefreshDebtWrap (s : State) : Host.Outcome State Fault Refusal :=
  let x := s.chan s.arg
  if x.holdDebt < 4 then .next (s.modChan s.arg fun x => { x with holdDebt := x.holdDebt + 1 })
  else match x.guard with
    | some g => .next (s.after .chip (Nat.max 1 (g.doneAt - s.now)) Cursor.none s.arg .holdRefreshDebtWrap)
    | none => .next (startGuard s s.arg 0)

/-- The rows that a guard sequence closed and opened again: their corrected codewords are written back (R128). -/
def rewriteRows (s : State) (ch : Nat) (g : Guard) : State := g.rows.foldl (fun t r =>
  (closeBank t ch r.1).modChan ch fun x => { x with rows := x.rows.put 0 r.1 r.2 }) s

/-- GUARD_SEQUENCE_COMPLETE: the sequence has paid the debt that called it; commands of a Q owner that waited issue, each
as long after the first as they were issued (R122, R123, R371). -/
def execGuardSequenceComplete (s : State) : Host.Outcome State Fault Refusal :=
  let ch := s.arg
  let ends := match (s.chan ch).guard with | some g => decide (g.doneAt ≤ s.now) | none => false
  let s0 := match (s.chan ch).guard with
    | some g => if ends then (rewriteRows s ch g).modChan ch fun x => { x with guard := none, overdue := x.overdue && g.pays != 2 } else s
    | none => s
  -- a wrap of a Q owner's debt that came in the meantime is paid next (R122)
  let again := ends && (s0.chan ch).overdue && (s0.chan ch).owner.any isQ
  let s1 := if again then startGuard (s0.modChan ch fun x => { x with overdue := false }) ch 1 else s0
  let ends := ends && !again
  let held := if again then [] else heldCmds s1 ch
  if ends then match held with
    | [] => .next s1
    | (w0, o0, _) :: _ =>
      -- in a hold tick no command of the domain issues: the first one comes in the next cycle (R34, R445)
      let first := s1.rowClk (rowOf w0.cur.ctx) +
        (if s1.rowStill (rowOf w0.cur.ctx) || (s1.part (s1.partOf w0.cur.ctx)).still then 1 else 0)
      let d := first - o0
      let s2 := { s1 with waiting := s1.waiting.map fun w => match w.what with
        | .command i c o _ => if c = ch then { w with what := .command i c o (o + d) } else w
        | _ => w }
      .next (held.foldl (fun t h => t.after (.row (rowOf h.1.cur.ctx)) (h.2.1 + d - s1.rowClk (rowOf h.1.cur.ctx)) h.1.cur ch .guardSequenceComplete) s2)
  else match held with
    | (w, _, d) :: _ =>
      if d = 0 ∨ s1.rowClk (rowOf w.cur.ctx) < d then .next s1
      else
        let s2 := { s1 with waiting := s1.waiting.filter fun x => x.id != w.id, cur := w.cur }
        match w.what with
        | .command i _ _ _ => match cmdTrap s2 (BitVec.ofNat 64 ch) (cmdOf i) with
          | some t => .next (s2.takeTrap t)
          | none => .next (issueCmd s2 ch (cmdOf i))
        | _ => .next s2
    | [] => .next s1

/-- UNOWNED_CHANNEL_REFRESH: the guard refreshes a channel without an owner, its banks closed (R123); a tower that has not
been reloaded after a warm reset refreshes itself (R132). -/
def execUnownedChannelRefresh (s : State) : Host.Outcome State Fault Refusal :=
  if s.reloading && decide (s.arg < 256) then .next s else .next (noteCmd s s.arg 5 0)

/-! ### Bus errors (R129 to R131, R409, R410) -/

/-- Word 0 of the vertical bus log (R168): LANE is 8*b for a failing byte lane, or the lane steered (R409). -/
def busW0 (ch bank row burst ev retry lane : Nat) : Word :=
  BitVec.ofNat 64 (ch * 2 ^ 55 + bank * 2 ^ 51 + row * 2 ^ 31 + burst % 16 * 2 ^ 27 + ev * 2 ^ 24 + retry % 16 * 2 ^ 20 + lane * 2 ^ 13)

/-- A hold cause starts to hold a partition from the next chip cycle (R35). -/
def startHold (s : State) (p : Nat) (c : HoldCause) : State :=
  s.modPart p fun x => { x with fresh := if x.fresh.contains c ∨ x.causes.contains c then x.fresh else x.fresh ++ [c] }
/-- A hold cause ends (R35). -/
def stopHold (s : State) (p : Nat) (c : HoldCause) : State :=
  s.modPart p fun x => { x with causes := x.causes.filter fun y => y != c, fresh := x.fresh.filter fun y => y != c }

/-- The partition of a channel's owner. -/
def chanPart (s : State) (ch : Nat) : Nat := match (s.chan ch).owner with
  | some c => s.partOf c
  | none => 0

/-- A hold run of a partition is to end in this cycle (R35). -/
def endHold (s : State) (p : Nat) (c : HoldCause) : State := s.after .chip 0 Cursor.none 1 (.holdRunEnd p c)

/-- Enter the replay of the burst in hand at the first edge, strictly later, that meets the minima (R129, R409). -/
def nextReplay (s : State) (ch from_ : Nat) : State := match (s.chan ch).replays with
  | [] => s
  | r :: _ =>
    let at_ := edgeFrom s ch (realReady (timOf ch) (s.chan ch).cmds (if r.sent.write then 2 else 1) r.sent.bank from_)
    s.after .chip (at_ - s.now) Cursor.none ch .burstReplay

/-- The metadata that goes with a flat address of a block: an S slot, or else the line of a T or F block (R85, R89). -/
def metaOf (a : Nat) : Bool × Nat :=
  if a < tBase then (true, a / 4096) else if a < fBase then (false, (a - tBase) / 4096) else (false, 100663296 + (a - fBase) / 4096)
/-- Replace the version word at a place, and step a slot's TAG back (R86, R87). -/
def backVer (s : State) (x : Bool × Nat) (v : BitVec 32) : State :=
  if x.1 then s.modSlot x.2 fun m => { m with version := v, tag := m.tag - 1#8 } else s.setLineVer x.2 v
/-- The version word at a place. -/
def verAt (s : State) (x : Bool × Nat) : BitVec 32 := if x.1 then (s.slot x.2).version else (s.line x.2).version
/-- A crossing is taken back: the beats go back to where they were, and with a block's last beat VERSION and TAG do (R130). -/
def uncross (s : State) (i a b : Nat) : State :=
  let s1 := swapBeat s a b
  if i % 64 = 63 then backVer (backVer s1 (metaOf a) (verAt s (metaOf b))) (metaOf b) (verAt s (metaOf a)) else s1

/-- The beats of an exchange from number i0 on that have crossed by writes whose checks can still come: number and places, the
last first (R130). -/
def crossedFrom (s : State) (peel : Nat) (xch : Cursor) (i0 : Nat) : List (Nat × Nat × Nat) :=
  let l := ((s.chans.rows.flatMap fun r => r.2.sent.filter fun x => x.write && x.peel == peel && x.xch == xch).flatMap Sent.moved).eraseDups
  let n := l.foldl (fun m x => Nat.max m (x.1 + 1)) 0
  (List.range n).reverse.flatMap fun i => l.filter fun x => x.1 == i && decide (i0 ≤ i)

/-- The number of the first beat of a burst of an exchange (R95, R114, R444). -/
def firstBeat (p : Peel) (ch burst : Nat) : Nat := let (_, j, m) := burstAt p ch burst; 64 * j + 4 * m

/-- A lost burst's beats do not cross, nor does what its exchange crossed after them: the crossings are taken back. The exchange, if
it still runs, is abandoned (R128, R130, R242; log 99). -/
def takeBack (s : State) (ch : Nat) (x : Sent) : State :=
  let p := s.peel x.peel
  let live := decide (p.kind ≠ 0) && p.cur == x.xch
  -- an exchange that has ended gives the number by the beats that the burst itself crossed
  let i0 := if live then firstBeat p ch x.burst else
    match ((s.chan ch).sent.filter fun y => y.write && y.peel == x.peel && y.xch == x.xch && y.burst == x.burst).flatMap Sent.moved with
    | [] => 2 ^ 32
    | y :: l => l.foldl (fun m z => Nat.min m z.1) y.1
  let s1 := (crossedFrom s x.peel x.xch i0).foldl (fun t y => uncross { t with cur := x.xch } y.1 y.2.1 y.2.2) s
  let s2 : State := { s1 with cur := s.cur, chans := s1.chans.mapRows Chan.init fun _ c =>
    { c with sent := c.sent.map fun y => if y.peel = x.peel ∧ y.xch = x.xch then
        { y with moved := y.moved.filter fun z => decide (z.1 < i0) } else y } }
  -- the outcome of an XCHC whose first burst is lost is never given (R99, R410)
  let s3 := if x.write ∨ x.burst ≠ 0 then s2 else s2.dropFlight (p7Id x.peel)
  if live then s3.modPeel x.peel fun p => { p with state := 1, ptr := Nat.min p.ptr i0, stA := [], stB := [] } else s3

/-- The burst in hand is done with: the next one under replay follows, or the hold ends (R129). -/
def dropReplay (s : State) (ch : Nat) : State :=
  let s1 := s.modChan ch fun x => { x with replays := x.replays.drop 1 }
  if (s1.chan ch).replays = [] then endHold s1 (chanPart s ch) (.replay ch) else nextReplay s1 ch (s.now + 1)

/-- A burst is lost (R130): it is logged, its beats do not cross, and the trap is detected in the first domain cycle after the hold,
entered as the failure of the command that issued the burst with the number 1 (R410). -/
def loseBurst (s : State) (ch : Nat) (r : Replay) : State :=
  let x := r.sent
  let s1 := s.logBus ch (busW0 ch x.bank x.row x.burst 5 r.count (8 * r.lane)) (s.chan ch).job
  (dropReplay (takeBack s1 ch x) ch).after (.part (chanPart s ch)) 1 x.cur 1 (.burstCheckFailure ch x.burst r.lane x.write)

/-- A guard sequence under way on a channel stands still for the cycles of a lane test that begins (R409). -/
def pauseGuard (s : State) (ch t0 : Nat) : State := match (s.chan ch).guard with
  | none => s
  | some g =>
    let s1 := s.modChan ch fun x =>
      { x with guard := some { g with doneAt := g.doneAt + 48 },
               cmds := x.cmds.map fun c => if t0 ≤ c.2.2.1 then (c.1, c.2.1, c.2.2.1 + 48, c.2.2.2) else c }
    { s1 with agenda := s1.agenda.map fun e =>
        if e.act == .guardSequenceComplete && e.arg == ch && e.clk == .chip then { e with due := e.due + 48 } else e }

/-- BURST_CHECK_FAILURE: a burst failed its check. It is logged and held for, and replayed; a failed replay raises the
count; past LIM the byte lane is tested on a tower, and on far memory the burst is lost (R129, R130). -/
def execBurstCheckFailure (ch burst lane : Nat) (write : Bool) (s : State) : Host.Outcome State Fault Refusal :=
  let x := s.chan ch
  let far := decide (256 ≤ ch)
  -- the trap of R130, attributed to the command that issued the burst
  if s.arg = 1 then .next (s.takeDeferred s.cur s.cur.slot 7 0)
  else match x.replays with
  | r :: rest => if r.sent.burst = burst ∧ r.sent.write = write then
      let n := if r.further then r.count else r.count + 1
      let r1 := { r with count := n }
      -- a further try that fails is logged as the loss alone (R412)
      let s1 := if r.further then s else s.logBus ch (busW0 ch r.sent.bank r.sent.row burst 3 n (8 * lane)) x.job
      let s2 := { s1 with agenda := s1.agenda.filter fun e => match e.act with
        | .holdRunEnd _ (.replay c) => c != ch
        | _ => true }
      let s3 := s2.modChan ch fun x => { x with replays := r1 :: rest }
      if r.further ∨ (far ∧ r.lim < n) then .next (loseBurst s3 ch r1)
      else if r.lim < n then
        let t0 := edgeFrom s3 ch (s.now + 1)
        .next ((pauseGuard s3 ch t0).after .chip (t0 + 48 - s.now) Cursor.none 0 (.laneTestComplete ch (Config.failingLanes ch s.now)))
      else .next (nextReplay s3 ch (s.now + 1))
    else firstFailure s x far
  | [] => firstFailure s x far
where
  /-- The first failure of a burst: it waits for its replay, and the owner's partition holds. -/
  firstFailure (s : State) (x : Chan) (far : Bool) : Host.Outcome State Fault Refusal :=
    match x.owner, x.sent.reverse.find? fun y => y.burst == burst && y.write == write with
    | some c, some y =>
      let r : Replay := { sent := y, lane := lane, count := 1, lim := (s.ctx c).retrylim.toNat, further := false }
      let s1 := s.logBus ch (busW0 ch y.bank y.row burst (if far then 2 else if write then 1 else 0) 1 (8 * lane)) x.job
      let s2 := s1.modChan ch fun x => { x with replays := x.replays ++ [r] }
      let s3 := startHold s2 (s.partOf c) (.replay ch)
      .next (if x.replays = [] then nextReplay s3 ch (s.now + 1) else s3)
    | _, _ => .next s

/-- BURST_REPLAY: the burst is reissued alone on its open row; its check ends the hold unless it fails again (R129). -/
def execBurstReplay (s : State) : Host.Outcome State Fault Refusal :=
  let ch := s.arg
  match (s.chan ch).replays with
  | [] => .next s
  | r :: _ =>
    let t := timOf ch
    let k := if r.sent.write then 2 else 1
    let at_ := edgeFrom s ch (realReady t (s.chan ch).cmds k r.sent.bank s.now)
    if s.now < at_ then .next (s.after .chip (at_ - s.now) Cursor.none ch .burstReplay)
    else
    let s1 := noteCmd s ch k r.sent.bank
    let s2 := match (s.chan ch).owner with
      | some c => s1.tally c r.sent.cur.col 0x11 1
      | none => s1
    .next (s2.after .chip (if r.sent.write then t.status else t.rl + t.bt) Cursor.none 0 (.holdRunEnd (chanPart s ch) (.replay ch)))

/-- LANE_TEST_COMPLETE: exactly one failing lane and a free spare swap the lane and give the burst one more try; anything
else loses the burst (R130, R131, R409). -/
def execLaneTestComplete (ch : Nat) (lanes : List Nat) (s : State) : Host.Outcome State Fault Refusal :=
  match (s.chan ch).replays with
  | [] => .next s
  | r :: rest =>
    let soft := (s.chan ch).soft
    match lanes with
    | [l] =>
      if soft.getLsbD 7 ∧ soft.getLsbD 15 then .next (loseBurst s ch r)
      else
        let new : BitVec 16 := if soft.getLsbD 7 then soft ||| ((BitVec.ofNat 16 (l % 128) <<< 8) ||| 0x8000#16)
          else soft ||| (BitVec.ofNat 16 (l % 128) ||| 0x80#16)
        let s1 := s.logBus ch (busW0 ch r.sent.bank r.sent.row r.sent.burst 4 r.count l) (s.chan ch).job
        let s2 := s1.modChan ch fun x =>
          { x with soft := new, swaps := x.swaps ++ [BitVec.ofNat 7 l], replays := { r with further := true } :: rest }
        .next (s2.after .chip 0 Cursor.none ch .burstReplay)
    | _ => .next (loseBurst s ch r)

end Sys2Proof.Machine
end

