-- ==== Sys2Proof/Machine/Starter.lean ====
section
/-! DEFINITION. The starter: state ring tables and the words that change them (R162 to R164, R372 to R376). -/

namespace Sys2Proof.Machine

open Sys2Proof State

/-! ### The rings of a stack -/

/-- A ring of a table. -/
def ringOf (t : Tbl Ring) (q : Nat) : Ring := t.get Ring.init q
/-- A ring's slot record. -/
def Ring.slot (r : Ring) (i : Nat) : RingSlot := r.slots.get RingSlot.init i
/-- A ring with one slot record changed. -/
def Ring.modSlot (r : Ring) (i : Nat) (f : RingSlot → RingSlot) : Ring :=
  { r with slots := r.slots.put RingSlot.init i (f (r.slot i)) }
/-- The slot numbers of a ring. -/
def Ring.all (r : Ring) : List Nat := List.range (r.nslot + 1)
/-- Its own valid slot keyed with a position. -/
def Ring.keyed (r : Ring) (pos : Nat) : Option Nat := r.all.find? fun i => (r.slot i).valid && (r.slot i).key == pos
/-- A slot that may be taken or released. -/
def RingSlot.free (x : RingSlot) : Bool := !x.pin && x.ref == 0
/-- A slot whose release waited for its pin and references is released when they are gone (R164). -/
def RingSlot.settle (x : RingSlot) : RingSlot := if x.gone && x.free then { x with valid := false, gone := false } else x
/-- The slot that SSADV takes: after the head in ring order, or from slot 0 after a fork (R164). -/
def Ring.next (r : Ring) : Option Nat :=
  let order := if r.forked then r.all else (List.range r.nslot).map fun i => (r.head + 1 + i) % (r.nslot + 1)
  order.find? fun i => (r.slot i).free
/-- The first block of ring slot i. -/
def Ring.block (r : Ring) (i : Nat) : Nat := r.base + i * (r.slotblk + 1)
/-- Put a ring back. -/
def putRing (t : Tbl Ring) (q : Nat) (r : Ring) : Tbl Ring := t.put Ring.init q r
/-- Give back a read reference. -/
def unref (t : Tbl Ring) (k : Option (Nat × Nat)) : Tbl Ring := match k with
  | some (q, i) => putRing t q ((ringOf t q).modSlot i fun x => RingSlot.settle { x with ref := x.ref - 1 })
  | none => t

/-- An entry of another job: 0x06 in the other world, else 0x05 (R164). -/
def foreign (t : Tbl Ring) (q job : Nat) (world : Bool) : Option Trap :=
  let r := ringOf t q
  if !r.v ∨ r.job = job then none else if r.world != world then some .world else some .translation

/-- The ring fault of an operation on a table, with the check of other jobs' entries (R164, R373 to R375). -/
def ringTrap (t : Tbl Ring) (job : Nat) (world : Bool) : RingOp → Option Trap
  | .bind q _ _ _ _ _ _ => firstTrap [foreign t q job world, if (ringOf t q).v then some .ringFault else none]
  | .adv q _ _ => firstTrap [foreign t q job world,
      if !(ringOf t q).v ∨ (ringOf t q).next = none then some .ringFault else none]
  | .roll q pos => firstTrap [foreign t q job world,
      if !(ringOf t q).v ∨ (ringOf t q).keyed pos = none then some .ringFault else none]
  | .fork q src pos => firstTrap [foreign t q job world, foreign t src job world,
      if !(ringOf t q).v ∨ (ringOf t q).forked ∨ !(ringOf t src).v then some .ringFault
      else match (ringOf t src).keyed pos with
        | none => some .ringFault
        | some i => if 63 ≤ ((ringOf t src).slot i).ref then some .ringFault else none]
  | .drop q => firstTrap [foreign t q job world,
      if (ringOf t q).all.any fun i => 0 < ((ringOf t q).slot i).ref then some .ringFault else none]
  | .find q _ _ _ _ => foreign t q job world

/-- The part of that check that hangs on the entries alone, for a word that reads its position early; `src` says whether the source of
a fork is read in time (R443). -/
def ringTrapEarly (t : Tbl Ring) (job : Nat) (world src : Bool) : RingOp → Option Trap
  | .roll q _ => firstTrap [foreign t q job world, if !(ringOf t q).v then some .ringFault else none]
  | .fork q from_ _ => firstTrap [foreign t q job world, if src then foreign t from_ job world else none,
      if !(ringOf t q).v ∨ (ringOf t q).forked ∨ (src ∧ !(ringOf t from_).v) then some .ringFault else none]
  | op => ringTrap t job world op

/-- The slot that SSFIND finds: entry and ring slot (R375). -/
def ringFind (t : Tbl Ring) (q pos : Nat) (head : Bool) : Option (Nat × Nat) :=
  let r := ringOf t q
  if !r.v then none
  else if head then (if r.forked then some (r.fseq, r.fslot) else some (q, r.head))
  else (r.keyed pos).map fun i => (q, i)

/-- The table after an operation that meets no fault (R164). -/
def ringDo (t : Tbl Ring) : RingOp → Tbl Ring
  | .bind q base slotBlk nSlot key job world => putRing t q
      ({ Ring.init with v := true, job := job, world := world, base := base, slotblk := slotBlk, nslot := nSlot }.modSlot 0
        fun _ => { RingSlot.init with valid := true, key := key })
  | .adv q pos pin => match (ringOf t q).next with
    | none => t
    | some i => putRing t q
        ({ ringOf t q with head := i, forked := false }.modSlot i fun x => { x with valid := true, key := pos, pin := pin, gone := false })
  | .roll q pos => match (ringOf t q).keyed pos with
    | none => t
    | some i =>
      let r := { ringOf t q with head := i, forked := false }
      putRing t q (r.all.foldl (fun a k => a.modSlot k fun x =>
        if x.valid && decide (pos < x.key) then RingSlot.settle { x with gone := true } else x) r)
  | .fork q src pos => match (ringOf t src).keyed pos with
    | none => t
    | some i =>
      let t1 := putRing t src ((ringOf t src).modSlot i fun x => { x with ref := x.ref + 1 })
      let r := { ringOf t1 q with forked := true, fseq := src, fslot := i, keep := some (src, i) }
      putRing t1 q (r.all.foldl (fun a k => a.modSlot k fun x => if x.free then { x with valid := false, gone := false } else x) r)
  | .drop q => putRing (unref t (ringOf t q).keep) q Ring.init
  | .find q pos _ sel head => match ringFind t q pos head with
    | none => t
    | some (e, i) =>
      if sel = 1 then putRing t e ((ringOf t e).modSlot i fun x => { x with pin := true })
      else if sel = 2 then putRing t e ((ringOf t e).modSlot i fun x => RingSlot.settle { x with pin := false })
      else t

/-- Clear every entry of a job; references they held are given back (R164). -/
def ringsClear (t : Tbl Ring) (job : Nat) : Tbl Ring :=
  (List.range 16).foldl (fun a q => if (ringOf a q).v && (ringOf a q).job == job then
    putRing (unref a (ringOf a q).keep) q Ring.init else a) t

/-! ### The words -/

/-- The rank of ring events in one cycle (R164). -/
def ringRank (c : Cursor) : Nat := (dieOf c.ctx * 2 + c.ctx % 2) * 8 + c.slot.port

/-- The stack's table as an event of the executing word at e + 2 will find it (R374, R376). -/
def ringsAhead (s : State) : Tbl Ring :=
  let mine := s.agenda.filter fun e => match e.act with
    | .deferredAccessPerform a => (match a.op with
      | .ring st _ => st == s.myStack && (decide (e.due < s.clkNow e.clk + 2) || decide (ringRank e.cur < ringRank s.cur))
      | _ => false)
    | _ => false
  let order := mine.mergeSort fun a b => decide (a.due < b.due) || (decide (a.due = b.due) && decide (ringRank a.cur ≤ ringRank b.cur))
  order.foldl (fun t e => match e.act with
    | .deferredAccessPerform a => (match a.op with
      | .ring _ op => ringDo t op
      | _ => t)
    | _ => t) (s.stackAt s.myStack).rings

/-- The check of a ring operation at its execution. -/
def ringCheck (s : State) (op : RingOp) : Option Trap := ringTrap (ringsAhead s) s.myCtx.job s.myCtx.world op

/-- A ring word without a result: its event is at e + 2. -/
def ringWord (h : Hd) (rd : List Reg) (op : State → RingOp) (s : State) : Host.Outcome State Fault Refusal :=
  s.word h (fun s => if (s.early rd).isSome then
      firstTrap [ringTrapEarly (ringsAhead s) s.myCtx.job s.myCtx.world (s.early (rd.take 1)).isNone (op s), s.early rd]
    else ringCheck s (op s)) fun s => s.access 2 0 (.ring s.myStack (op s))

/-- A position: the low 32 bits of its register (R372). -/
def posOf (s : State) (y : BitVec 5) : Nat := (s.rs y).toNat % 2 ^ 32

/-- The operation of an SSBIND (R373). -/
def bindOp (s : State) (y : BitVec 5) (q base : Nat) : RingOp :=
  let v := s.rs y
  .bind q base (v.extractLsb' 8 6).toNat (v.extractLsb' 0 6).toNat (v.extractLsb' 32 32).toNat s.myCtx.job s.myCtx.world

/-- The base block of an SSBIND: all blocks of its ring lie in the stack and in slabs of the job (R162, R373). -/
def bindBase (s : State) (x y : BitVec 5) : Except Trap Nat :=
  match s.ownAddr (s.rs x) 4096 with
  | .error t => .error t
  | .ok f =>
    let b := f / 4096 % 6144
    let v := s.rs y
    let n := ((v.extractLsb' 0 6).toNat + 1) * ((v.extractLsb' 8 6).toNat + 1)
    if 6144 < b + n then .error .translation
    else
      let ts := (List.range ((b + n - 1) / 64 - b / 64 + 1)).filterMap fun i => s.slabTrap s.cur.ctx s.myStack (b / 64 + i)
      if ts.contains .translation then .error .translation
      else match ts with
        | t :: _ => .error t
        | [] => .ok b

/-- SSBIND: bind an entry of the stack's table (R373). -/
def execSsbind (h : Hd) (x y : BitVec 5) (c : BitVec 4) (s : State) : Host.Outcome State Fault Refusal :=
  s.word h (fun s => firstTrap [addrTrap [s.known [.s x.toNat, .s y.toNat] (trapOf (bindBase s x y)),
        foreign (ringsAhead s) c.toNat s.myCtx.job s.myCtx.world],
      ringCheck s (bindOp s y c.toNat (valOf (bindBase s x y))), s.early [.s x.toNat, .s y.toNat]]) fun s =>
    s.access 2 0 (.ring s.myStack (bindOp s y c.toNat (valOf (bindBase s x y))))

/-- SSADV: the head moves to a new slot keyed with the position (R164, R374). -/
def execSsadv (h : Hd) (y c : BitVec 5) (s : State) : Host.Outcome State Fault Refusal :=
  ringWord h [.s y.toNat] (fun s => .adv (c.toNat % 16) (posOf s y) (c.getLsbD 4)) s

/-- SSROLL: the head moves back to a key, and later slots are released (R164, R374). -/
def execSsroll (h : Hd) (y : BitVec 5) (c : BitVec 4) (s : State) : Host.Outcome State Fault Refusal :=
  ringWord h [.s y.toNat] (fun s => .roll c.toNat (posOf s y)) s

/-- SSFORK: the entry's head becomes a snapshot of another sequence (R164, R374). -/
def execSsfork (h : Hd) (x y : BitVec 5) (c : BitVec 4) (s : State) : Host.Outcome State Fault Refusal :=
  ringWord h [.s x.toNat, .s y.toNat] (fun s => .fork c.toNat ((s.rs x).toNat % 16) (posOf s y)) s

/-- SSDROP: the entry is cleared (R164, R374). -/
def execSsdrop (h : Hd) (c : BitVec 4) (s : State) : Host.Outcome State Fault Refusal :=
  ringWord h [] (fun _ => .drop c.toNat) s

/-- SSFIND: the address of a slot, or 0 with p6 = 0; both land at i + 4 (R375). -/
def execSsfind (h : Hd) (x y : BitVec 5) (c : BitVec 6) (s : State) : Host.Outcome State Fault Refusal :=
  let op := fun (s : State) => RingOp.find (c.toNat % 16) (posOf s y) x.toNat (c.toNat / 16) (y == 0#5)
  s.word h (fun s => firstTrap [ringCheck s (op s), s.early [.s y.toNat]]) fun s =>
    let id := s.freshId
    (s.bump.access 2 id (.ring s.myStack (op s))).landId id 4 [.s x.toNat 0#64, .p 6 false] 0#5

/-- A ring event performs; an SSFIND's result is filled in (R375). -/
def ringPerform (s : State) (id st : Nat) (op : RingOp) : State :=
  let t := (s.stackAt st).rings
  let s1 := s.modStack st fun k => { k with rings := ringDo t op }
  match op with
  | .find q pos d _ head =>
    let r := match ringFind t q pos head with
      | some (e, i) => (2 ^ 63 + 2 ^ 24 * st + 4096 * (ringOf t e).block i, true)
      | none => (0, false)
    s1.modFlight id fun e f => { e with act := .resultLanding { f with writes := [.s d (BitVec.ofNat 64 r.1), .p 6 r.2] } }
  | _ => s1

end Sys2Proof.Machine
end

