-- ==== Sys2Proof/Machine/Flights.lean ====
section
/-! DEFINITION. What a save area shows of work on its way: results in flight, table entries and peels, with the fields that follow a
change after the save (R147, R166, R236 to R238, R242, R243). -/

namespace Sys2Proof.Machine

open Sys2Proof State

/-- A field of a save slab: its byte offset, length and value. -/
structure SavePut where
  at_ : Nat
  len : Nat
  val : Nat
  deriving DecidableEq, Repr

/-- A signed number of n bits as a natural number. -/
def twos (n : Nat) (x : Int) : Nat := (x % (2 ^ n : Nat)).toNat

/-- A row of fields of one width from an offset. -/
def saveRow (at_ len n : Nat) (f : Nat → Nat) : List SavePut :=
  (List.range n).map fun i => { at_ := at_ + len * i, len := len, val := f i }

/-! ### In-flight results (R147) -/

/-- A result on its way, as its descriptor and payload hold it. -/
structure InFlight where
  remain : Nat
  kind : Nat
  dest : Nat
  port : Nat
  fl : Nat
  size : Nat
  payload : Nat
  deriving DecidableEq, Repr

/-- The 128-byte mask of a vector write: the 32-bit lanes it reaches (R54). -/
def saveMaskOf (m : Block) : Nat :=
  ((List.range 1024).foldl (fun a i => if m.extractLsb' (32 * i) 32 = 0#32 then a else a + 2 ^ i) 0)

/-- One update of a result: kind, register, payload bytes, payload. A masked write appends its mask. -/
def savedWrite : RegWrite → Nat × Nat × Nat × Nat
  | .s n x => (0, n, 8, x.toNat)
  | .p n b => (1, n, 1, if b then 1 else 0)
  | .v n m x => if m = BitVec.allOnes 32768 then (2, n, 4096, x.toNat) else (2, n, 4224, x.toNat + 2 ^ 32768 * saveMaskOf m)
  | .k n m x => if m = BitVec.allOnes 1024 then (3, n, 128, x.toNat) else (3, n, 256, x.toNat + 2 ^ 1024 * m.toNat)
  | .z n x _ => (4, n, 8192, x.toNat)
  | .e n _ x => (5, n, 256, x.toNat)
  | .g n x => (6, n, 16, x.toNat)
  | .ctl n cl st => (7, n, 16, cl.toNat + 2 ^ 64 * st.toNat)

/-- A write of a control register that lands by a step of its own: its number, the bits it clears and those it sets (R61, R147). -/
def ctlOnWay : Instr → Option (Nat × Nat × Nat)
  | .randkeyWrite hi clear set => some (if hi then 0x031 else 0x030, clear.toNat, set.toNat)
  | .randposWrite clear set => some (0x032, clear.toNat, set.toNat)
  | .touchedClear bits => some (0x041, bits.toNat, 0)
  | .amodeWrite win => some (0x020, 3, win.toNat)
  | .cmodeWrite mode => some (0x021, 1, if mode then 1 else 0)
  | .pgateCreqSet => some (0x052, 0, 1)
  | .pgateCreqClear => some (0x052, 1, 0)
  | .pgateSreqSet => some (0x052, 0, 2)
  | .pgateSreqClear => some (0x052, 2, 0)
  | _ => none

/-- The bits of the payload of a result, of so many bytes, that an access, a row or an answer still has to fill in. -/
def unfilled (s : State) (f : Frz) (id size : Nat) : Nat :=
  let all := 2 ^ (8 * size) - 1
  let bits := fun (pos len : Nat) => (2 ^ (8 * len) - 1) <<< pos
  if id = 0 then 0 else
    let own := f.items.foldl (fun m i => m ||| match i.2.act with
      | .deferredAccessPerform a => if a.id ≠ id then 0 else match a.op with
        | .vload _ rs => rs.foldl (fun m r => m ||| bits r.pos r.len) 0
        | .esld _ r => bits r.pos r.len
        | .store _ | .vstore _ | .scatAdd .. => 0
        | _ => all
      | .recvRowMissing => if i.2.arg / 512 = id then bits (2048 * (i.2.arg % 16)) 256 else 0
      | _ => 0) 0
    let out := (s.agenda.any fun e => match e.act with
      | .launchRecordWrite (.core _ n _) _ _ => n == id
      | _ => false) || s.waiting.any fun w => match w.what with
      | .release a _ => a.id == id
      | _ => false
    own ||| if out then all else 0

/-- A write as it will land: rows of a RECV that are still to come are written too. -/
def dueWrite (f : Frz) (id : Nat) (w : RegWrite) : RegWrite := match w with
  | .v n _ x => if id ≠ 0 ∧ (f.items.any fun i => i.2.act == .recvRowMissing && i.2.arg / 512 == id) then
      .v n (BitVec.allOnes 32768) x else w
  | w => w

/-- Insert an item by two numbers. -/
def itemInsert (k : Nat × Sched → Nat × Nat) (x : Nat × Sched) : List (Nat × Sched) → List (Nat × Sched)
  | [] => [x]
  | y :: r => if (k x).1 < (k y).1 ∨ ((k x).1 = (k y).1 ∧ (k x).2 < (k y).2) then x :: y :: r else y :: itemInsert k x r
/-- The pending items of a column, in the order that two numbers give. -/
def itemsBy (k : Nat × Sched → Nat × Nat) (f : Frz) (col : Nat) : List (Nat × Sched) :=
  (f.items.filter fun i => i.2.cur.col == col).foldl (fun l x => itemInsert k x l) []

/-- Numbers one after another, each in a field of so many bits. -/
def packed (w : Nat) (l : List Nat) : Nat := l.foldr (fun x a => x % 2 ^ w + 2 ^ w * a) 0

/-- What the entry of an array command holds (R341): its scales and sampled window, the operand rows read, the row reads that remain
with their cycles from F, and its reserved cycles as offsets from F. -/
def matFields (f : Frz) (remain : Nat) (m : MatCmd) : List Nat :=
  let left := f.items.flatMap fun i => match i.2.act with
    | .deferredAccessPerform { id := n, op := .matRows l } =>
      if n = m.id then l.flatMap fun r => [i.1, r.1, r.2.1, r.2.2] else []
    | _ => []
  let atF := m.f0 + ((m.last + 31 + m.delay : Nat) : Int) - (remain : Int)
  [m.eA.toNat, m.eB.toNat, m.win, m.rows.length, left.length] ++ (m.rows.flatMap fun r => [r.1, r.2.toNat]) ++ left ++
    m.vals.map fun v => twos 64 (v - atF)

/-- Blocks of an XCHT pair as they will land: that of the SN side, then that of the SF side (R100, R362). -/
def pairPayload (p : Peel) : Nat :=
  let beats := p.pair.take 64
  let xa := beats.foldr (fun b acc => b.2.1.toNat + 2 ^ 512 * acc) 0
  let xb := beats.foldr (fun b acc => b.2.2.toNat + 2 ^ 512 * acc) 0
  xform p.micro 0 xb % 2 ^ 32768 + 2 ^ 32768 * (xform p.micro 1 xa % 2 ^ 32768)

/-- Two updates of one control register by one word are one result (R147). -/
def joinCtl (l : List InFlight) : List InFlight := l.foldr (fun x acc => match acc with
  | y :: r => if x.kind = 7 ∧ y.kind = 7 ∧ x.dest = y.dest ∧ x.port = y.port ∧ x.remain = y.remain then
      { x with fl := x.fl ||| y.fl, payload := x.payload ||| y.payload } :: r
    else x :: acc
  | [] => [x]) []

/-- The in-flight results of a frozen core, in issue order (R147). The bytes of a payload that an access has not brought yet do not
exist: they are open (log 30). That of an array command holds its operands in a layout that is open, and so are its flags, which
its landing computes (R341; log 15). A result of flags alone is a write to s0 without a payload (log 111). -/
def inFlights (s : State) (c : Nat) (f : Frz) (col : Nat) : List InFlight :=
  joinCtl ((itemsBy (fun i => (i.2.cur.seq * 8 + i.2.cur.slot.code, i.2.ord)) f col).flatMap fun i => match i.2.act with
    | .resultLanding x =>
      if x.writes = [] then [{ remain := i.1, kind := 0, dest := 0, port := x.port, fl := x.flags.toNat, size := 0, payload := 0 }]
      else (List.range x.writes.length).map fun k =>
        let w := savedWrite (dueWrite f x.id (x.writes.getD k (.s 0 0#64)))
        let open_ := unfilled s f x.id (if w.1 = 2 then 4096 else w.2.2.1)
        { remain := i.1, kind := if x.fifo then 9 else w.1, dest := w.2.1, port := x.port, fl := if k = 0 then x.flags.toNat else 0,
          size := w.2.2.1, payload := (w.2.2.2 - (w.2.2.2 &&& open_)) + (Config.saveOpen (8 * i.2.ord + k) &&& open_) }
    | .matrixResultLanding m => if m.null then [] else
      let x := packed 2048 (matFields f i.1 m)
      [{ remain := i.1, kind := 4, dest := m.z, port := i.2.cur.slot.port, fl := Config.saveLayout 4 x % 32, size := 8192,
         payload := Config.saveLayout 3 x }]
    | .xchtPairLanding =>
      let p := s.peel (2 * coreKey c col + i.2.arg)
      [{ remain := i.1, kind := 8, dest := i.2.arg + 2 * (p.ptr / 64), port := i.2.cur.slot.port, fl := 0, size := 8192,
         payload := pairPayload p }]
    | a => match ctlOnWay a with
      | some w => [{ remain := i.1, kind := 7, dest := w.1, port := i.2.cur.slot.port, fl := 0, size := 16,
                     payload := w.2.1 + 2 ^ 64 * w.2.2 }]
      | none => [])

/-- The descriptors and payloads of in-flight results: entry n from byte offset o of the payload blocks. -/
def flightPuts : List InFlight → Nat → Nat → List SavePut
  | [], _, _ => []
  | x :: r, n, o =>
    { at_ := 26 * 4096 + 16 * n, len := 16,
      val := x.size + 2 ^ 32 * (27 * 4096 + o) + 2 ^ 64 * (n % 2 ^ 16) + 2 ^ 80 * x.fl + 2 ^ 85 * x.port + 2 ^ 88 * x.dest +
        2 ^ 100 * x.kind + 2 ^ 104 * (x.remain % 2 ^ 24) } ::
    { at_ := 27 * 4096 + o, len := x.size, val := x.payload % 2 ^ (8 * x.size) } :: flightPuts r (n + 1) (o + x.size)

/-! ### Table entries and peels (R166, R238) -/

/-- The bits of an entry of the outstanding global access table (R166). -/
def gentBits (g : GEnt) : Nat :=
  if g.state = 0#2 then 0 else
    g.loc.toNat + 2 ^ 46 * g.state.toNat + 2 ^ 48 * g.done + 2 ^ 64 * g.beats + 2 ^ 80 * g.kind.toNat + 2 ^ 96 * g.issue.toNat +
      2 ^ 128 * g.gaddr.toNat
/-- The flat address of the slab that core c of a context saves into (R237). -/
def saveBase (s : State) (c col : Nat) : Nat :=
  spadAddr (stackOf c col) (262144 * (recSave (s.job (s.ctx c).job).record + dieOf c))
/-- The progress entry of a peel; an idle one is 0. An exchange that uses both channels names the first. Of an S-D exchange the
returned beats that have not crossed are staged (R238, R420). -/
def peelBits (p : Peel) (rowF : Nat) : Nat :=
  if p.kind = 0 then 0 else
    p.kind + 2 ^ 8 * p.state + 2 ^ 16 * p.ptr + 2 ^ 32 * (p.rdA + (if p.kind = 5 then 0 else p.rdB)) + 2 ^ 48 * (p.wrA + p.wrB) +
      2 ^ 64 * p.sn.toNat + 2 ^ 128 * p.sf.toNat + 2 ^ 192 * p.n +
      2 ^ 200 * (match p.chA.toList ++ p.chB.toList with | ch :: _ => ch | [] => 0xFFFF) +
      2 ^ 216 * (Nat.min 128 (p.stA.length + (if p.kind = 5 then 0 else p.stB.length))) + 2 ^ 224 * twos 32 ((p.start : Int) - (rowF : Int))

/-- The staged beats of one side of a peel, from a block of the slab. -/
def stagePuts (blk : Nat) (l : List (Nat × BitVec 512)) : List SavePut :=
  l.map fun x => { at_ := 4096 * blk + 64 * (x.1 % 64), len := 64, val := x.2.toNat }

/-- The fields of a core's slab that show its results in flight (R147). -/
def inFlightPuts (s : State) (c : Nat) (f : Frz) (col : Nat) : List SavePut := flightPuts (inFlights s c f col) 0 0
/-- The fields of a core's slab that show one of its peels: the progress entry and the staged beats (R237, R238). -/
def peelPuts (s : State) (k i rowF : Nat) : List SavePut :=
  let p := s.peel k
  ⟨0xC00 + 32 * i, 32, peelBits p rowF⟩ ::
    (if p.kind = 5 then stagePuts (if p.a.isD then 43 + 2 * i else 44 + 2 * i) p.stA
     else stagePuts (43 + 2 * i) p.stA ++ stagePuts (44 + 2 * i) p.stB)

/-! ### A save area that follows (R236, R241 to R243) -/

/-- A part of a core's slab is written anew after the save, in the slab and in the management core's copy: 0 but for some fields. -/
def resave (s : State) (c col from_ to_ : Nat) (puts : State → Frz → List SavePut) : State := match (s.ctx c).frz with
  | none => s
  | some f => if !f.saved then s else
    let b := saveBase s c col
    let ps := (puts s f).filter fun p => p.val != 0
    let mem := fun (m : List Host.Cell) =>
      ps.foldl (fun m p => memWrite m (b + p.at_) p.len p.val) (memClear m (b + from_) (b + to_))
    let t : State := ps.foldl (fun t p => t.store (b + p.at_) p.len p.val) { s with mem := memClear s.mem (b + from_) (b + to_) }
    t.modCtx c fun y => { y with frz := some { f with copy := mem f.copy } }

/-- A table entry of a context whose save has run is brought up to date there (R236). -/
def syncEntry (s : State) (c col i : Nat) : State :=
  resave s c col (4096 + 24 * i) (4096 + 24 * i + 24) fun s _ => [⟨4096 + 24 * i, 24, gentBits (s.gent (64 * coreKey c col + i))⟩]
/-- FSTATE of a frozen context changes, in its saved area too (R239, R245). -/
def setFstate (s : State) (c : Nat) (st : BitVec 5) : State :=
  resave (s.modCtx c fun x => { x with frz := x.frz.map fun f => { f with state := st } }) c 0 (50 * 4096 + 0xE0) (50 * 4096 + 0xE8)
    fun _ _ => [⟨50 * 4096 + 0xE0, 8, st.toNat⟩]
/-- Bits of FSTATE of a frozen context rise. -/
def raiseFstate (s : State) (c : Nat) (bits : BitVec 5) : State := match (s.ctx c).frz with
  | some f => setFstate s c (f.state ||| bits)
  | none => s
/-- The results in flight of a core: those that a reply brings after the save among them (R243). -/
def syncFlights (s : State) (c col : Nat) : State := resave s c col (26 * 4096) (43 * 4096) fun s f => inFlightPuts s c f col
/-- The progress of a peel: an exchange abandoned after the save shows it (R242, R243). -/
def syncPeel (s : State) (k : Nat) : State :=
  let i := k % 2
  let s1 := resave s (k / 32) (k / 2 % 16) (0xC00 + 32 * i) (0xC20 + 32 * i) fun s f => (peelPuts s k i f.rowF).take 1
  resave s1 (k / 32) (k / 2 % 16) ((43 + 2 * i) * 4096) ((45 + 2 * i) * 4096) fun s f => (peelPuts s k i f.rowF).drop 1

end Sys2Proof.Machine
end

