-- ==== Sys2Proof/Machine/Global.lean ====
section
/-! DEFINITION. Global access: G-ops, their replies and failures, translation walks, links, and remote accesses at their
target (R42, R96, R109, R149, R158, R166, R167, R220 to R223, R377 to R383). -/

namespace Sys2Proof.Machine

open Sys2Proof State

/-! ### Requests -/

/-- A G-op as its word asks for it: table kind (R166), size and alignment, permissions, destination, ordering. -/
structure GReq where
  kind : Nat
  len : Nat
  align : Nat
  addr : Word
  r : Bool
  w : Bool
  dest : Nat
  vec : Bool
  stepped : Bool
  acq : Bool
  rel : Bool
  op : RemoteOp
  deriving DecidableEq, Repr

/-- A block from its words. -/
def wordsBlock (l : List Word) : Nat := l.foldr (fun x a => x.toNat + 2 ^ 64 * a) 0
/-- The words of a number of n words. -/
def toWords (x n : Nat) : List Word := (List.range n).map fun i => BitVec.ofNat 64 (x / 2 ^ (64 * i))

/-- What a G-op word asks for, from its operand values: address first, then data (R377, R378, R381, R382). -/
def gReqOf (i : Instr) (v : List Word) : Option GReq :=
  let a := v.getD 0 0#64
  let x := v.getD 1 0#64
  match i with
  | .gld _ d _ c =>
    let vec := c.getLsbD 0
    let n := if vec then 4096 else 8
    some { kind := 0, len := n, align := n, addr := a, r := true, w := false, dest := if vec then d.toNat % 16 else d.toNat,
           vec := vec, stepped := c.getLsbD 1, acq := false, rel := false, op := .read n }
  | .gst _ _ _ c =>
    let vec := c.getLsbD 0
    let n := if vec then 4096 else 8
    some { kind := 1, len := n, align := n, addr := a, r := false, w := true, dest := 0, vec := vec,
           stepped := c.getLsbD 1, acq := false, rel := false, op := .write n (wordsBlock (v.drop 1)) }
  | .gacq _ d _ =>
    some { kind := 5, len := 8, align := 8, addr := a, r := true, w := false, dest := d.toNat, vec := false,
           stepped := false, acq := true, rel := false, op := .read 8 }
  | .grel _ _ _ =>
    some { kind := 6, len := 8, align := 8, addr := a, r := false, w := true, dest := 0, vec := false, stepped := false,
           acq := false, rel := true, op := .write 8 x.toNat }
  | .gamo _ d _ c =>
    let n := if c.getLsbD 3 then 8 else 4
    some { kind := 2, len := n, align := n, addr := a, r := true, w := true, dest := d.toNat, vec := false, stepped := false,
           acq := isAcq (c.extractLsb' 4 2), rel := isRel (c.extractLsb' 4 2),
           op := .amo (c.toNat % 8) (c.getLsbD 3) x (v.getD 2 0#64) }
  | .gmrg _ _ _ _ =>
    some { kind := 3, len := 512, align := 512, addr := a, r := true, w := true, dest := 0, vec := false, stepped := false,
           acq := false, rel := false,
           op := .merge (x.setWidth 32) ((v.getD 2 0#64).setWidth 32) (BitVec.ofNat 2048 (wordsBlock (v.drop 4))) 0 0
             ((v.getD 3 0#64).toNat % 2 ^ 32) }
  | _ => none

/-- The operand values of a G-op at e: address, then data; the data of GMRG is m, l, the sequence number and o. -/
def gVals (s : State) (i : Instr) : List Word := match i with
  | .gld _ _ y _ => [s.rs y]
  | .gst _ x y c => if c.getLsbD 0 then s.rs y :: toWords (s.rv (x.toNat % 16)).toNat 512 else [s.rs y, s.rs x]
  | .gacq _ _ y => [s.rs y]
  | .grel _ x y => [s.rs y, s.rs x]
  | .gamo _ x y _ => [s.rs y, s.rs x, s.rs (x + 1#5)]
  | .gmrg _ x y c =>
    let o := s.rv (2 * x.toNat)
    let ml := s.rv (2 * x.toNat + 1)
    [s.rs y, BitVec.ofNat 64 (elem 32 ml c.toNat 0), BitVec.ofNat 64 (elem 32 ml c.toNat 1), s.rs (y + 1#5)] ++
      toWords (rowOfBlock o c.toNat).toNat 32
  | _ => []

/-- Translate a G-op's address to a window of another module (R153, R377); no trap in the error means a walk. -/
def gPlace (s : State) (full : Bool) (q : GReq) : Except (Option Trap) Xl :=
  if q.addr.extractLsb' 48 16 ≠ 0#16 ∨ q.addr.toNat % q.align ≠ 0 then .error (some .translation)
  else match s.xl1 full q.addr.toNat q.r q.w with
    | .trap t => .error (some t)
    | .walk => .error none
    | .done x alien => if x.level ≠ 2 then .error (some .translation) else if alien then .error (some .world) else .ok x

/-- The trap of a G-op's address: its form, translation and world, and the secure link (R153, R154, R377, R437). -/
def gAddrTrap (s : State) (full : Bool) (q : GReq) : Option Trap :=
  match gPlace s full q with
  | .error e => e
  | .ok x => s.linkTrap s.myCtx.world x.module

/-- In a timed context a full table, or a release whose condition does not hold, is a schedule fault (R166, R218). -/
def gBusyTrap (s : State) (q : GReq) : Option Trap :=
  if s.timed && ((s.gFree s.cur.ctx s.cur.col).isNone || (q.rel && !(relReady s s.cur (touchedWrites s s.cur.ctx)))) then
    some (.sched 10) else none

/-- Two global ranges meet. -/
def gMeets (a m : Word) (n k : Nat) : Bool := decide (a.toNat < m.toNat + k) && decide (m.toNat < a.toNat + n)

/-- The global address of a place. -/
def gAddrOf (x : Xl) : Word := BitVec.ofNat 64 (x.module * 2 ^ 48 + x.phys)

/-- A release of the executing core to a location, earlier than the executing word, is still held or has not performed: in its walk,
waiting for its condition, or on its way (R220, R223). -/
def relHeld (s : State) (q : GReq) (x : Xl) : Bool :=
  (s.waiting.any fun w => poBefore w.cur s.cur && match w.what with
    | .walk word v => (match gReqOf word v with
      | some r => r.rel && gMeets q.addr r.addr q.len r.len
      | none => false)
    | .grel word v m ph _ _ => (match gReqOf word v with
      | some r => gMeets (gAddrOf x) (gAddrOf ⟨2, m, ph⟩) q.len r.len
      | none => false)
    | _ => false) ||
  (List.range 64).any fun i =>
    let g := s.gent (gKey s.cur.ctx s.cur.col i)
    g.state == 1#2 && poBefore g.cur s.cur && (g.kind == 6#8 || g.kind == 2#8) && gMeets (gAddrOf x) g.gaddr q.len 8

/-- What holds back a G-op of an untimed context: a full table, an earlier acquire that has not returned, the FENCE of its own bundle,
or for a relaxed write an earlier release of the core to its location (R166, R221, R223, R224). -/
def gBlocked (s : State) (q : GReq) (x : Xl) : Bool :=
  (s.gFree s.cur.ctx s.cur.col).isNone || (!s.timed && ((s.me.acqs.any fun a => poBefore a s.cur) || s.fenceHolds s.cur ||
    (q.w && !q.rel && relHeld s q x)))

/-- A G-op takes its entry and its request goes out; a step-timed one waits for its boundary (R166, R225, R377). A write
sets the slices of TOUCHED (R75). -/
def gIssue (s : State) (q : GReq) (x : Xl) (tags : List Nat) : State :=
  match s.gFree s.cur.ctx s.cur.col with
  | none => s
  | some i =>
    let c := s.cur.ctx
    let id := s.freshId
    let n := portTo x.module
    let op := match q.op with
      | .merge m l o _ _ sq => .merge m l o 0 n sq
      | y => y
    let g : GEnt :=
      { GEnt.init with
        gaddr := gAddrOf x, issue := BitVec.ofInt 32 (s.dom (s.partOf c)),
        kind := BitVec.ofNat 8 q.kind, beats := (q.len + 63) / 64, state := 1#2, loc := BitVec.ofNat 46 q.dest, dest := q.dest,
        vec := q.vec, port := n, secure := s.myCtx.world, acq := q.acq, stepped := q.stepped, cur := s.cur, wr := id, tags := tags }
    let s1 := (s.bump.modGent (gKey c s.cur.col i) fun _ => g).tally c s.cur.col 0x10 1
    let s2 := if q.w then s1.touchRemote c n id else s1
    -- a step-timed request travels in its step; its target performs it at the boundary (R225)
    s2.sendRequest c s.cur.col i x.module x.phys s.myCtx.world op (s.stepMark s.cur q.stepped)

/-- How many operand values a release has; in its walk the writes that its execution found unacknowledged follow them (R220). -/
def gArity : Instr → Nat
  | .gamo .. => 3
  | _ => 2
/-- What a G-op keeps in its walk. -/
def gWalkVals (s : State) (v : List Word) (q : GReq) : List Word :=
  if q.rel then v ++ (touchedWrites s s.cur.ctx).map (BitVec.ofNat 64) else v

/-- A G-op that met no trap goes on: it waits for a walk, for its release condition, for a free entry, or issues. What it translated
to stays its own until then (R159), and a release waits for the writes issued before its execution (R220). -/
def gGo (s : State) (full : Bool) (word : Instr) (v : List Word) (q : GReq) : State :=
  match gPlace s full q with
  | .error _ => s.startWalk word (gWalkVals s v q)
  | .ok x =>
    let tags := s.tagOf q.addr.toNat
    let s1 := s.notePage q.addr.toNat
    if q.rel && !s.timed then
      let id := s1.nextId
      let writes := if full then (v.drop (gArity word)).map BitVec.toNat else touchedWrites s s.cur.ctx
      (s1.waitFor (.grel word (v.take (gArity word)) x.module x.phys tags writes)).afterMe 1 id .releasePerform
    else if gBlocked s q x then s1.waitFor (.gop word v x.module x.phys tags)
    else gIssue s1 q x tags

/-- An acquire of an untimed context holds back what follows it on its core from its execution on (R221). -/
def noteAcq (s : State) (q : GReq) : State :=
  if q.acq && !s.timed then s.modCore s.cur.ctx s.cur.col fun k => { k with acqs := k.acqs ++ [s.cur] } else s

/-- A G-op word (R377 to R382, R443). -/
def gWord (h : Hd) (word : Instr) (addr data : List Reg) (s : State) : Host.Outcome State Fault Refusal :=
  s.word h (fun s => match gReqOf word (gVals s word) with
    | none => none
    | some q => firstTrap [s.known addr (gAddrTrap s false q), if q.stepped && !s.timed then some (.sched 9) else none,
        s.early (addr ++ data), gBusyTrap s q]) fun s =>
    match gReqOf word (gVals s word) with
    | none => s
    | some q => gGo (noteAcq s q) false word (gVals s word) q

/-- GLD: load 8 bytes or a block from another module (R377 to R380). -/
def execGld (h : Hd) (x y : BitVec 5) (c : BitVec 2) (s : State) : Host.Outcome State Fault Refusal :=
  gWord h (.gld h x y c) [.s y.toNat] [] s
/-- GST: store 8 bytes or a block (R377 to R380). -/
def execGst (h : Hd) (x y : BitVec 5) (c : BitVec 2) (s : State) : Host.Outcome State Fault Refusal :=
  gWord h (.gst h x y c) [.s y.toNat] [if c.getLsbD 0 then .v (x.toNat % 16) else .s x.toNat] s
/-- GACQ: an 8-byte acquire read (R221, R381). -/
def execGacq (h : Hd) (x y : BitVec 5) (s : State) : Host.Outcome State Fault Refusal :=
  gWord h (.gacq h x y) [.s y.toNat] [] s
/-- GREL: an 8-byte release write (R220, R381). -/
def execGrel (h : Hd) (x y : BitVec 5) (s : State) : Host.Outcome State Fault Refusal :=
  gWord h (.grel h x y) [.s y.toNat] [.s x.toNat] s
/-- GAMO: an atomic operation at the target (R215, R381). -/
def execGamo (h : Hd) (x y : BitVec 5) (c : BitVec 6) (s : State) : Host.Outcome State Fault Refusal :=
  gWord h (.gamo h x y c) [.s y.toNat] ([.s x.toNat] ++ if c.toNat % 8 = 7 then [.s (x.toNat + 1)] else []) s
/-- GMRG: send a row's contribution to a softmax state of another module (R382). -/
def execGmrg (h : Hd) (x : BitVec 3) (y : BitVec 5) (c : BitVec 4) (s : State) : Host.Outcome State Fault Refusal :=
  gWord h (.gmrg h x y c) [.s y.toNat] [.v (2 * x.toNat), .v (2 * x.toNat + 1), .s (y.toNat + 1)] s

/-! ### Waiting operations -/

/-- G_OP_DEFERRED_ISSUE: a G-op that waited issues to the place it translated to, or goes on waiting (R159, R166, R221, R223). The link's
world and key count as they stand at its issue (R165, R437). -/
def execGOpDeferredIssue (s : State) : Host.Outcome State Fault Refusal :=
  match s.waiting.find? fun w => w.id == s.arg with
  | some w => match w.what with
    | .gop word v m ph tags => match gReqOf word v with
      | some q => if gBlocked s q ⟨2, m, ph⟩ then .next s
        else match s.linkTrap s.myCtx.world m with
          | some t => .next (s.takeTrap t)
          | none => .next (gIssue { s with waiting := s.waiting.filter fun w => w.id != s.arg } q ⟨2, m, ph⟩ tags)
      | none => .next s
    | _ => .next s
  | none => .next s

/-- TRANSLATION_WALK_COMPLETE: the walk's result is used as the tables stand now: the operation goes on, or takes its trap,
after which a continue translates it again. It waits while an address that needs its walk cannot have it (R155, R156, R158, R159,
R231). -/
def execTranslationWalkComplete (s : State) : Host.Outcome State Fault Refusal :=
  match s.waiting.find? fun w => w.id == s.arg with
  | some w => match w.what with
    | .walk word v =>
      if (s.walkVas true word v).any fun va => s.xlate va false false == .walk && s.walkHeld s.cur.ctx va then
        .next (s.repostMe 1 s.arg .translationWalkComplete)
      else
      let s1 : State := { s with waiting := s.waiting.filter fun w => w.id != s.arg }
      let xch := fun (kind c : Nat) (micro : Word) =>
        match s.xchTrap true kind (v.getD 0 0#64) (v.getD 1 0#64) c micro with
        | some t => s.takeTrap t
        | none => s1.xchGo true word kind (v.getD 0 0#64) (v.getD 1 0#64) c ((v.getD 2 0#64).setWidth 32) micro
      match word with
      | .xch _ _ _ c => .next (xch 1 c.toNat 0#64)
      | .xchc _ _ _ _ => .next (xch 2 0 0#64)
      | .xcht _ _ _ c => .next (xch 3 c.toNat (v.getD 3 0#64))
      | _ => match gReqOf word v with
        | some q => match gAddrTrap s true q with
          | some t => .next (s.takeTrap t)
          | none => .next (gGo s1 true word v q)
        | none => .next s1
    | _ => .next s
  | none => .next s

/-! ### Replies, acknowledgements and failures (R75, R166, R355, R379, R383) -/

/-- What a line that the job's write changed on another module adds to its DIGEST: it performed there in an earlier chip cycle (R74,
R181; log 42). -/
def addDigest (s : State) (c : Nat) (dig : Word) : State :=
  s.modJob (s.ctx c).job fun b => { b with digest := b.digest + dig, digestPrev := b.digestPrev + dig }

/-- An entry is released: its write is acknowledged, and what waits for an entry tries again (R75, R166). -/
def gRelease (s : State) (c col i : Nat) : State :=
  let g := s.gent (gKey c col i)
  let s1 := (ackWrite s c g.wr).modGent (gKey c col i) fun _ => GEnt.init
  wakeWaiting s1 (fun w => w.cur.ctx == c && w.cur.col == col && match w.what with
    | .gop .. | .exchange .. => true
    | _ => false) fun _ => 0

/-- An entry is pending in its table. -/
def gPending (s : State) (c col i : Nat) : Bool := (s.gent (gKey c col i)).state == 1#2

/-- The frozen record, of a context that has left its row, that holds an entry as pending: its job and the record. -/
def savedWith (s : State) (c key : Nat) : Option (Nat × Saved) :=
  s.jobs.rows.findSome? fun r => (r.2.saved.find? fun v => v.ctx == c && v.gops.any fun g => g.1 == key && g.2.state == 1#2).map
    fun v => (r.1, v)

/-- What reaches an entry of a pre-empted context updates its frozen record (R236): the change is made as if the context
stood in its row, and taken back into the record. -/
def onSaved (s : State) (j : Nat) (v : Saved) (f : State → State) : State :=
  let keys := v.gops.map Prod.fst
  let t := s.setCtx v.ctx v.record
  let t1 := v.gops.foldl (fun t g => t.modGent g.1 fun _ => g.2) t
  let t2 := f (v.peels.foldl (fun t p => t.modPeel p.1 fun _ => p.2) t1)
  let v' : Saved := { v with record := t2.ctx v.ctx, gops := keys.map fun k => (k, t2.gent k),
                             peels := v.peels.map fun p => (p.1, t2.peel p.1) }
  let t3 := keys.foldl (fun t k => t.modGent k fun _ => s.gent k) (t2.setCtx v.ctx (s.ctx v.ctx))
  let t4 := v.peels.foldl (fun t p => t.modPeel p.1 fun _ => s.peel p.1) t3
  t4.modJob j fun b => { b with saved := b.saved.map fun w => if w.ctx = v.ctx then v' else w }

/-- Act on a pending entry, in its table or in a frozen record, and bring its save area up to date; on none, nothing happens. -/
def onEntry (s : State) (c col i : Nat) (f : State → State) : State :=
  let g := fun (t : State) =>
    let e := t.gent (gKey c col i)
    let u := syncFlights (syncEntry (f t) c col i) c col
    if e.kind = 4#8 then syncPeel u e.dest else u
  if gPending s c col i then g s
  else match savedWith s c (gKey c col i) with
    | some (j, v) => onSaved s j v g
    | none => s

/-- Enter work that a reply brings n cycles on, or for a step-timed operation, whose issue is given, n cycles from the first of the step
after that issue; in a frozen context it comes with its restart (R225, R236, R240, R359, R379, R380). -/
def afterReply (s : State) (issue : Option (BitVec 32)) (n a : Nat) (i : Instr) : State :=
  let p := s.partOf s.cur.ctx
  match s.myCtx.frz with
  | none => s.afterMe (match issue with
      | some t => (stepAfter (s.dom p) (s.stepDom p) t + n).toNat
      | none => n) a i
  | some f =>
    let e : Sched := { clk := .row (rowOf s.cur.ctx), due := 0, ord := s.nextId, cur := s.cur, arg := a, act := i }
    let off := match issue with
      | some t => Nat.max 1 (stepAfter f.f (f.f - (s.part p).origin) t + n).toNat
      | none => 1
    State.modCtx { s with nextId := s.nextId + 1 } s.cur.ctx fun x =>
      { x with frz := some { f with items := f.items ++ [(off, e)] } }

/-- A beat's data reaches its entry; with the last one a result is on its way to its register (R166, R355, R379, R380). The result is
no scheduled one, but for that of a step-timed load. -/
def takeReply (ctx col entry data : Nat) (dig : Word) (s : State) : State :=
  let k := gKey ctx col entry
  let g := s.gent k
  let s0 : State := addDigest { s with cur := g.cur } ctx dig
  let i := g.done
  let last := decide (i + 1 = g.beats)
  if g.kind = 4#8 then
    let p := s0.peel g.dest
    let s1 := s0.modPeel g.dest fun p =>
      { p with stA := p.stA ++ [(i, BitVec.ofNat 512 data)],
               stB := if i % 64 = 63 then p.stB ++ [(i, BitVec.ofNat 512 (data / 2 ^ 512))] else p.stB }
    let s2 := s1.modGent k fun g => { g with done := i + 1 }
    let s3 := if !g.stepped then afterReply s2 none p.late (g.dest % 2) .exchangeBeatCrossing
      else if i = 0 then afterReply s2 (some g.issue) 8 (g.dest % 2) .exchangeBeatCrossing
      else s2
    if p.kind = 5 ∧ last then gRelease s3 ctx col entry else s3
  else
    let all := g.data + data * 2 ^ (512 * i)
    if !last then s0.modGent k fun g => { g with done := i + 1, data := all }
    else
      let w : RegWrite := if g.vec then .v g.dest (BitVec.allOnes 32768) (BitVec.ofNat 32768 all) else .s g.dest (BitVec.ofNat 64 all)
      let f : Flight := { id := if g.acq then g.wr else 0, port := g.cur.slot.port, writes := [w], flags := 0#5,
                          delay := if g.stepped then 0 else 1, reply := !g.stepped, fifo := false }
      gRelease (afterReply s0 (if g.stepped then some g.issue else none) (if !g.stepped then 2 else if g.vec then 48 else 32) 0 (.resultLanding f)) ctx col entry

/-- G_OP_REPLY: a beat of a load or atomic has come; the whole is placed two cycles on, or after the step's start for a step-timed
load; a beat of an S-D exchange crosses into its local slot (R96, R355, R359, R379, R380). It carries what the target's line adds to
DIGEST (R181). -/
def execGOpReply (ctx col : Nat) (entry : EntryAnswer) (data : Nat) (s : State) : Host.Outcome State Fault Refusal :=
  .next (onEntry s ctx col entry.entry (takeReply ctx col entry.entry data entry.digest))

/-- REMOTE_ACKNOWLEDGE: a beat of a remote store, release or merge has performed; the last one releases the entry (R75, R166). -/
def execRemoteAcknowledge (ctx col : Nat) (entry : EntryAnswer) (s : State) : Host.Outcome State Fault Refusal :=
  .next (onEntry s ctx col entry.entry fun s =>
    let k := gKey ctx col entry.entry
    let g := s.gent k
    let s1 := addDigest { s with cur := g.cur } ctx entry.digest
    if g.done + 1 < g.beats then s1.modGent k fun g => { g with done := g.done + 1 } else gRelease s1 ctx col entry.entry)

/-- REMOTE_NACK: the access failed. The entry keeps STATE 3 and DONE, a load writes nothing, an exchange is abandoned, and
the deferred trap is 0x08, 0x06 or 0x07 at the issuer, with the restart where that is frozen (R109, R242, R383). The number
1 marks the trap of such a restart. -/
def execRemoteNack (ctx col entry : Nat) (k : NackKind) (s : State) : Host.Outcome State Fault Refusal :=
  let cause := match k with | .remote => 8 | .world => 6 | .data => 7
  if s.arg = 1 then .next (s.takeDeferred s.cur s.cur.slot cause 0)
  else .next (onEntry s ctx col entry fun s =>
    let g := s.gent (gKey ctx col entry)
    let s0 : State := { s with cur := g.cur }
    let s1 := if (s.ctx ctx).frz.isSome then afterReply s0 none 1 1 (.remoteNack ctx col entry k)
      else s0.takeDeferred g.cur g.cur.slot cause 0
    let s2 := (ackWrite s1 ctx g.wr).modGent (gKey ctx col entry) fun g => { g with state := 3#2 }
    let s3 := dropAcq s2 g.cur
    if g.kind = 4#8 then
      afterReply (s3.modPeel g.dest fun p => { p with state := 1, stA := [], stB := [] }) none 1 (g.dest % 2) .exchangeComplete
    else s3)

/-- The cycles a named landing has moved. -/
def flightDelay (s : State) (id : Nat) : Nat := match s.agenda.findSome? fun e => match e.act with
    | .resultLanding f => if f.id = id then some f.delay else none
    | _ => none with
  | some n => n
  | none => 0

/-- RELEASE_PERFORM: a release is held until every earlier event of its core has performed, every earlier exchange has
completed and every earlier write to a touched slice is acknowledged; then it performs (R220). One to a scratchpad waits among the
held ones until its access has performed, so that nothing of its core overtakes it there (R222, R223). -/
def execReleasePerform (s : State) : Host.Outcome State Fault Refusal :=
  match s.waiting.find? fun w => w.id == s.arg with
  | none => .next s
  | some w =>
    let s1 : State := { s with waiting := s.waiting.filter fun w => w.id != s.arg }
    let again := s.repostMe 1 s.arg .releasePerform
    -- the release itself is out of the count of what it waits for
    let others := fun (ws : List Nat) => relReady s1 w.cur ws
    match w.what with
    | .release a ws =>
      -- it keeps the place among the entries that its word gave it
      if others ws then .next (s.repostMe 0 (flightDelay s a.id) (.deferredAccessPerform a))
      else .next (again.modFlight a.id fun e f => { e with due := e.due + 1, act := .resultLanding { f with delay := f.delay + 1 } })
    | .grel word v m ph tags ws =>
      if !(others ws) then .next again
      else match gReqOf word v with
        | none => .next s1
        | some q => if gBlocked s1 q ⟨2, m, ph⟩ then .next again
          else match s.linkTrap s.myCtx.world m with
            | some t => .next (s.takeTrap t)
            | none => .next (gIssue s1 q ⟨2, m, ph⟩ tags)
    | _ => .next s

/-! ### Links (R149, R185) -/

/-- Word 0 of the link log (R168). -/
def linkW0 (port dir ev replays peer sq : Nat) : Word :=
  BitVec.ofNat 64 (port * 2 ^ 59 + dir * 2 ^ 58 + ev * 2 ^ 55 + replays % 32 * 2 ^ 50 + peer * 2 ^ 36 + sq % 2 ^ 36)

/-- Flits that a full buffer held back go out as far as it has room (R149). -/
def sendHeld (s : State) (port : Nat) : List (Payload × Nat × Nat) → State
  | [] => s.modPort port fun p => { p with held := [] }
  | x :: r => if 512 ≤ (s.port port).buf.length then s.modPort port fun p => { p with held := x :: r }
    else sendHeld (s.sendFlit port x.1 x.2.1 x.2.2) port r

/-- FLIT_ACKNOWLEDGE: the far end has the flit; one that a full buffer held back goes out (R149). -/
def execFlitAcknowledge (port seq : Nat) (s : State) : Host.Outcome State Fault Refusal :=
  .next (sendHeld (s.modPort port fun p => { p with buf := p.buf.filter fun f => f.seq != seq }) port (s.port port).held)

/-- The transfers of this module that a failed port loses: each raises 0x08 at its issuer in this cycle (R149, R231, R234). -/
def failTransfers (s : State) (l : List Payload) : State := l.eraseDups.foldl (fun t x => match x with
  | .request r =>
    let i := r.srcEntry % 64
    let k := r.srcEntry / 64
    t.after .chip 0 { t.cur with ctx := k / 16, col := k % 16 } 0 (.remoteNack (k / 16) (k % 16) i .remote)
  | _ => t) s

/-- FLIT_REPLAY: a flit that was not acknowledged in 2,048 cycles, or, earlier than that, failed its check, is replayed, and its time
counts anew; when it would exceed 16 replays the port is declared failed and its buffer is discarded (R149, R168, R185). From 2^60 on
the number names a flit that came in and failed its check here: it is logged, and its sender replays it (R168). -/
def execFlitReplay (s : State) : Host.Outcome State Fault Refusal :=
  let n := s.arg % 32
  if 2 ^ 60 ≤ s.arg then .next (s.logLink n (linkW0 n 1 0 0 (s.port n).peer ((s.arg - 2 ^ 60) / 32))) else
  let sq := s.arg / 32
  let p := s.port n
  match p.buf.find? fun f => f.seq == sq with
  | none => .next s
  | some f =>
    let s1 := s.logLink n (linkW0 n 0 (if s.now < f.sentAt + 2048 then 0 else 1) f.replays p.peer sq)
    if 16 ≤ f.replays then
      let s2 := (s1.logLink n (linkW0 n 0 3 f.replays p.peer sq)).modPort n fun p =>
        { p with failed := true, up := false, buf := [], held := [] }
      .next (failTransfers s2 ((p.buf.map Flit.load) ++ p.held.map Prod.fst))
    else
      let s2 := s1.logLink n (linkW0 n 0 2 (f.replays + 1) p.peer sq)
      let s3 : State := { s2 with agenda := s2.agenda.filter fun e => !(e.act == .flitReplay && e.arg == s.arg) }
      .next ((s3.modPort n fun p =>
        { p with buf := p.buf.map fun g => if g.seq = sq then { g with replays := g.replays + 1, sentAt := s.now } else g }).after
        .chip 2048 Cursor.none s.arg .flitReplay)

/-! ### Remote accesses at their target (R108, R109, R167, R215) -/

/-- Answer a remote access over the link its module is reached by. -/
def answer (s : State) (r : Remote) (x : Payload) : State := s.transmit (portTo r.srcModule) x

/-- The slot of a window offset, or why it is refused (R108, R109). The world is that of the window's entry and of the slab, and a secure
slab is reached only where its answer finds a secure port with a key (R165, R437). A slab or link whose scrub is outstanding is refused
as a slab in reset is, with a NACK and 0x08 (R110, R165; log 100). -/
def windowSlot (s : State) (r : Remote) : Except NackKind Nat :=
  match s.winMap.get none (r.offset / 262144) with
  | none => .error .remote
  | some (st, slab, w) =>
    if 4096 ≤ r.offset / 262144 then .error .remote
    else if w != r.secure || s.worldOf (.slab st slab) != r.secure || (s.linkTrap r.secure r.srcModule).isSome then .error .world
    else
      let k := s.stackAt st
      if k.whole.gated ∨ s.refused.contains (.slab st slab) ∨ s.refused.contains (.link (portTo r.srcModule)) then .error .remote else .ok (spadAddr st (slab * 262144 + r.offset % 262144))

/-- The beats of a remote access. -/
def remoteBeats : RemoteOp → Nat
  | .read n => (n + 63) / 64
  | .write n _ => (n + 63) / 64
  | .amo _ _ _ _ => 1
  | .merge _ _ _ _ _ _ => 8
  | .exchange _ _ => 64

/-- A NACK to the issuer; a world violation goes to the secure log on both modules, with the offender that the request names (R109,
R169). -/
def refuseRemote (s : State) (r : Remote) (k : NackKind) : State :=
  let n := portTo r.srcModule
  let s1 := match k with
    | .world => s.logSecure (r.srcEntry / 1024) (r.srcEntry / 64 % 16) 0
    | _ => s.logLink n (linkW0 n 1 4 0 r.srcModule (s.port n).nextSeq)
  answer s1 r (.nack r.srcEntry (match k with | .remote => 8 | .world => 6 | .data => 7))

/-- A store for a job of another module: what its lines add to that job's DIGEST goes with the answer (R181; log 42). -/
def remoteStore (s : State) (a n x : Nat) : State × Word :=
  let t := s.store a n x
  (t, digestOf s.module s.mem t.mem (a / 64) ((a + n - 1) / 64 - a / 64 + 1))

/-- The codewords that a remote access reads with a beat: what it loads, and those that a store covers only in part (R107). -/
def beatRead (r : Remote) (a : Nat) : List (Nat × Nat) :=
  let at_ := a + 64 * r.beat
  match r.op with
  | .read n => [(at_, Nat.min 64 (n - 64 * r.beat))]
  | .write n _ => if n < 32 then [(a / 32 * 32, 32)] else []
  | .amo _ w _ _ => [(a, if w then 8 else 4)]
  | .merge .. => if r.beat = 7 then [(a, 288)] else []
  | .exchange .. => [(at_, 64)]

/-- A read meets data, or with a block's last beat metadata, that cannot be corrected (R107). -/
def beatBad (s : State) (r : Remote) (a : Nat) : Bool :=
  ((beatRead r a).any fun x => s.uncorrectable x.1 x.2) || (match r.op with
    | .exchange .. => r.beat == 63 && s.metaBad (slotOf a)
    | _ => false)
/-- Log what a beat's read meets (R107); no job of this module reads it. -/
def beatNote (s : State) (r : Remote) (a : Nat) : State :=
  let s1 := (beatRead r a).foldl (fun t x => noteSpad t x.1 x.2 0) s
  match r.op with
  | .exchange .. => if r.beat = 63 then noteMeta s1 (slotOf a) 0 else s1
  | _ => s1

/-- A beat of an exchange crosses at its remote side: the block's old beat, and with the last its old version word, go back; VERSION
and TAG move with beat 63 (R96, R214). -/
def remoteCross (s : State) (r : Remote) (a : Nat) (x : Block) (v : BitVec 32) (old ver : Nat) : State :=
  let k := slotOf a
  let (t, d) := remoteStore s (a + 64 * r.beat) 64 (x.toNat / 2 ^ (512 * r.beat) % 2 ^ 512)
  if r.beat = 63 then
    answer ((renewMeta t k).modSlot k fun m => { m with version := v, tag := m.tag + 1#8 }) r (.reply r.srcEntry (old + ver * 2 ^ 512) d)
  else answer t r (.reply r.srcEntry old d)

/-- The present beat of a remote access performs at its slot and is answered; an atomic and a merge are one event, in the last beat (R96,
R109, R215, R382). Its lines count to the DIGEST of a job of the other module (R181). -/
def remotePerform (s0 : State) (r : Remote) (a : Nat) : State :=
  let s := beatNote s0 r a
  let at_ := a + 64 * r.beat
  let e := r.srcEntry
  match r.op with
  | .read n => answer s r (.reply e (s.load at_ (Nat.min 64 (n - 64 * r.beat))) 0#64)
  | .write n x =>
    let (t, d) := remoteStore s at_ (Nat.min 64 (n - 64 * r.beat)) (x / 2 ^ (512 * r.beat) % 2 ^ 512)
    answer t r (.ack e d)
  | .amo op w y cmp =>
    let z := if w then 8 else 4
    let old := s.load a z
    let (t, d) := match amoResult op (8 * z) old (y.toNat % 2 ^ (8 * z)) (cmp.toNat % 2 ^ (8 * z)) with
      | some x => remoteStore s a z x
      | none => (s, 0#64)
    answer t r (.reply e (if w then old else (BitVec.ofNat 32 old).signExtend 64 |>.toNat) d)
  | .merge m l o _ _ _ => if r.beat ≠ 7 then s else
    let m0 := s.load (a + 256) 4
    let l0 := s.load (a + 260) 4
    let o0 := (List.range 64).map fun i => s.load (a + 4 * i) 4
    let o1 := (List.range 64).map fun i => (o.extractLsb' (32 * i) 32).toNat
    let x := (mergeS m0 l0 o0 m.toNat l.toNat o1).1
    let (t, d) := remoteStore s a 264 (packFrom 32 (fun i => if i < 64 then x.2.2.getD i 0 else if i = 64 then x.1 else x.2.1) 66)
    (List.range 8).foldl (fun t i => answer t r (.ack e (if i = 7 then d else 0#64))) t
  | .exchange x v => remoteCross s r a x v (s.load at_ 64) (s.slot (slotOf a)).version.toNat

/-- A slot that a remote access has to wait for: the local side of an S-D exchange, or for an exchange any locked one (R97). -/
def remoteBusy (s : State) (r : Remote) (a : Nat) : Bool := match r.op with
  | .exchange .. => decide (r.beat = 0) && decide (s.lockers [slotOf a] ≠ [])
  | _ => s.remoteLock (slotOf a)

/-- An access that arrived earlier has beats left for the same bank and waits for no lock: arrival order (R109). -/
def servedFirst (s : State) (bank : Nat) : Bool := s.agenda.any fun e => decide (e.ord < s.ord) && match e.act with
  | .remoteAccessPerform q => q.step.isNone && (match windowSlot s q with
    | .ok a => bankOfSlot (slotOf a) == bank && !(remoteBusy s q a)
    | .error _ => false)
  | _ => false

/-- A bank serves a beat in the present cycle: its service window is open, it has served none yet, and no hold tick pays a refresh
(R38, R105, R109). An exchange begins only with its window (R96). -/
def serves (s : State) (bank : Nat) (starts : Bool) : Bool :=
  let st := bank / 16
  let d := (s.frameIn st 0 + 4096 - 256 * (bank % 16)) % 4096
  let j := (s.ctx (brimP st)).job
  let paying := decide (j ≠ 0) && (s.part (s.job j).part).still && decide (0 < (s.stackAt st).owed.get 0 (bank % 16))
  decide (128 ≤ d) && decide (d < 192) && !(starts && d != 128) && !(s.svc.contains bank) && !paying

/-- REMOTE_ACCESS_PERFORM: the next beat of an access of another module performs in its bank's service window, in arrival order (R96,
R109, R247); a step-timed one waits for the boundary of its partition, and one that comes in a boundary's hold makes it longer (R42,
R225). -/
def execRemoteAccessPerform (r : Remote) (s : State) : Host.Outcome State Fault Refusal :=
  match windowSlot s r with
  | .error k => .next (refuseRemote s r k)
  | .ok a =>
    if let some t := r.step then .next (s.modPart t.1 fun p =>
      { p with arrivals := p.arrivals ++ [r], ready := if p.boundary.isSome then Nat.max p.ready (s.now + 2047) else p.ready }) else
    let bank := bankOfSlot (slotOf a)
    let starts := match r.op with | .exchange .. => r.beat == 0 | _ => false
    if remoteBusy s r a || servedFirst s bank || !(serves s bank starts) then .next (s.repost .chip 1 s.arg (.remoteAccessPerform r))
    else
      let s1 : State := { s with svc := bank :: s.svc }
      if beatBad s1 r a then .next (refuseRemote (beatNote s1 r a) r .data)
      else
        let s2 := remotePerform s1 r a
        .next (if r.beat + 1 < remoteBeats r.op then
          s2.repost .chip 1 s.arg (.remoteAccessPerform { r with beat := r.beat + 1 }) else s2)

/-- BASE advances past every set bit of the window (R167). -/
def advanceDedup : Nat → Dedup → Dedup
  | 0, d => d
  | n + 1, d => if d.win.getLsbD 0 then advanceDedup n { d with base := d.base + 1, win := d.win >>> 1 } else d

/-- What becomes of a merge contribution (R167). -/
inductive MergeFate where
  | merge (l : List Dedup) | drop | nack
  deriving DecidableEq, Repr

/-- Admission of contribution sq from a source to a port's table of 1,024 entries (R167). A new or reclaimed entry starts with BASE 0,
and a contribution that is NACKed takes none (log 101). -/
def admitMerge (l : List Dedup) (now src srcPort sq : Nat) : MergeFate :=
  let take := fun (rest : List Dedup) (d : Dedup) =>
    if d.base + 512 ≤ sq then .nack
    else if sq < d.base ∨ d.win.getLsbD (sq - d.base) then .drop
    else .merge (rest ++ [advanceDedup 512 { d with win := d.win ||| (1#512 <<< (sq - d.base)), at_ := now }])
  match l.find? fun d => d.src == src && d.srcPort == srcPort with
  | some d => take (l.filter fun e => !(e.src == src && e.srcPort == srcPort)) d
  | none =>
    let d : Dedup := { src := src, srcPort := srcPort, base := 0, win := 0#512, at_ := now }
    if l.length < 1024 then take l d
    else
      let old := l.foldl (fun m e => Nat.min m e.at_) now
      if old + 2 ^ 20 < now then
        take (match l.span fun e => e.at_ != old with | (a, b) => a ++ b.drop 1) d
      else .nack

/-- MERGE_CONTRIBUTION_ARRIVAL: a contribution is admitted, dropped as a duplicate or refused on the link, which replays it; an
admitted one merges in a service window as one atomic event (R149, R167, R215, R382). -/
def execMergeContributionArrival (r : Remote) (s : State) : Host.Outcome State Fault Refusal :=
  match r.op with
  | .merge _ _ _ port srcPort sq =>
    match windowSlot s r with
    | .error k => .next (refuseRemote s r k)
    | .ok _ => match admitMerge (s.dedup.get [] port) s.now r.srcModule srcPort sq with
      | .nack => .next (s.logLink port (linkW0 port 1 4 0 r.srcModule (s.port port).nextSeq))
      | .drop => .next ((List.range 8).foldl (fun t _ => answer t r (.ack r.srcEntry 0#64)) s)
      | .merge l => .next ({ s with dedup := s.dedup.put [] port l }.after .chip 0 Cursor.none 0 (.remoteAccessPerform r))
  | _ => .next s

end Sys2Proof.Machine
end

