-- ==== Sys2Proof/Machine/System.lean ====
section
/-! DEFINITION. The system words of major 0x38 and the header word: calls on the host, FENCE, REALIGN and WAITK, HALT,
control registers, LAUNCH and YIELD, with the releases of the waits they begin (R25, R61 to R80, R224, R386 to R399). -/

namespace Sys2Proof.Machine

open Sys2Proof State

/-! ### Calls on the host (R231, R389) -/

/-- SYSCALL and TRAPI: a trap that a continue goes past; the code has no effect. A restart counts the word of that very bundle as
executed (R231, R389). -/
def hostCall (h : Hd) (cause : Nat) (s : State) : Host.Outcome State Fault Refusal :=
  s.rowWord h (fun s => if s.myCtx.past = some s.cur.seq then none else some { cause := cause, sub := 0, past := true }) fun s =>
    s.modCtx s.cur.ctx fun x => { x with past := none }

/-- SYSCALL: trap 0x0E (R389). -/
def execSyscall (h : Hd) (_i : BitVec 11) (s : State) : Host.Outcome State Fault Refusal := hostCall h 14 s
/-- TRAPI: trap 0x0D (R389). -/
def execTrapi (h : Hd) (_i : BitVec 11) (s : State) : Host.Outcome State Fault Refusal := hostCall h 13 s

/-! ### FENCE (R224, R390) -/

/-- An access that the scope `core` covers: loads, stores, atomics, vector accesses and matrix operand reads (R224), and the read of a
LAUNCH, which goes like a scalar load (R396). -/
def fenced : AccessOp → Bool
  | .xverWrite .. | .xverRead .. | .sendRow .. | .ring .. => false
  | _ => true

/-- The S slots of a side lie in one stack, or one of them in one cluster. -/
def Side.inStack (x : Side) (st : Nat) : Bool := match x with
  | .s q _ => q == st
  | _ => false
/-- A side reaches a cluster. -/
def Side.inCluster (x : Side) (row : Nat) : Bool := match x with
  | .s q _ => q / 16 == row
  | _ => false

/-- The narrowest scope that covers an exchange of a core between two sides: 1 both sides in the core's stack, 2 a side in
its cluster, 3 any other, 4 an exchange with another module (R224). -/
def sidesScope (cur : Cursor) (a b : Side) : Nat :=
  if a.isD || b.isD then 4
  else if a.inStack (stackOf cur.ctx cur.col) && b.inStack (stackOf cur.ctx cur.col) then 1
  else if a.inCluster (rowNo cur.ctx) || b.inCluster (rowNo cur.ctx) then 2 else 3

/-- The narrowest scope that covers what an entry of the agenda does. -/
def entryScope (s : State) (e : Sched) : Option Nat := match e.act with
  | .deferredAccessPerform a => match a.op with
    -- R224 names an XVER on the own stack alone (log 57)
    | .xverWrite k _ | .xverRead k _ => if k / 6144 = stackOf e.cur.ctx e.cur.col then some 1 else none
    | o => if fenced o then some 0 else none
  | .releasePerform => match s.waiting.find? fun w => w.id == e.arg with
    | some w => match w.what with
      | .release _ _ => some 0
      | _ => some 4
    | none => none
  -- the result of an array command is that of its operand reads (R224)
  | .matrixResultLanding m => if m.null then none else some 0
  -- a named result fills in from an access; those of the peels come from RECV, XVER, SSFIND and G-ops
  | .resultLanding f => if f.id ≠ 0 ∧ !f.reply ∧ e.cur.slot ≠ .peel0 ∧ e.cur.slot ≠ .peel1 then some 0 else none
  | _ => none

/-- The scope of an exchange word that waits for a walk, by the sides that its operands name as the tables stand. -/
def walkScope (s : State) (cur : Cursor) (kind c : Nat) (v : List Word) : Nat :=
  match State.xchPlan { s with cur := cur } true kind (v.getD 0 0#64) (v.getD 1 0#64) c with
  | .ok pl => sidesScope cur pl.a pl.b
  | .error _ => 3

/-- The narrowest scope that covers an operation that waits. -/
def waitScope (s : State) (w : Waiting) : Option Nat := match w.what with
  | .exchange p _ => some (if p.kind = 4 then 2 else sidesScope w.cur p.a p.b)
  | .walk word v => match word with
    | .xch _ _ _ c => some (walkScope s w.cur 1 c.toNat v)
    | .xchc .. => some (walkScope s w.cur 2 0 v)
    | .xcht _ _ _ c => some (walkScope s w.cur 3 c.toNat v)
    | _ => some 4
  | .gop .. | .grel .. => some 4
  | .release .. => some 0
  | .command .. => none

/-- Every operation of a core before its FENCE that a scope covers has finished; `mark` is the first number of a write that
comes after the FENCE (R224). -/
def fenceDone (s : State) (cur : Cursor) (scope mark : Nat) : Bool :=
  !(s.agenda.any fun e => poBefore e.cur cur && match entryScope s e with
      | some n => decide (n ≤ scope)
      | none => false) &&
  !(s.waiting.any fun w => poBefore w.cur cur && match waitScope s w with
      | some n => decide (n ≤ scope)
      | none => false) &&
  !(s.peels.rows.any fun r => decide (r.2.kind ≠ 0) && poBefore r.2.cur cur &&
      decide ((if r.2.kind = 4 then 2 else sidesScope r.2.cur r.2.a r.2.b) ≤ scope)) &&
  (decide (scope ≠ 4) ||
    (!(s.gtab.rows.any fun r => r.2.state == 1#2 && poBefore r.2.cur cur) &&
     !((s.ctx cur.ctx).unacked.any fun u => (s.ctx cur.ctx).touched.getLsbD u.slice && decide (u.id < mark))))

/-- FENCE: a check in a timed context; else a vote in which each core reports once its operations have finished, a core
whose guard is false at once (R218, R390). The number of the report holds the scope and the mark. -/
def execFence (h : Hd) (b : BitVec 5) (s : State) : Host.Outcome State Fault Refusal :=
  if s.timed then
    s.word h (fun s => if fenceDone s s.cur b.toNat s.mark then none else some (.sched 10)) fun s => s
  else if s.myCtx.job = 0 then .fault .noContext
  else if (s.early [.p h.p.toNat]).isSome then .next (s.takeTrap (.sched 1))
  else
    let on := s.guard h
    let s0 := if on then s else s.tally s.cur.ctx s.cur.col 6 1
    let s1 := if s.cur.col = 0 then s0.modCtx s.cur.ctx fun x => { x with wait := .fence b.toNat s.clk [] } else s0
    .next (s1.afterMe 0 (8 * s.mark + if on then b.toNat else 7) .fenceRelease)

/-- FENCE_RELEASE: a core reports, or goes on waiting; the last report fixes the cycle of the next bundle, R + 1 (R390). -/
def execFenceRelease (s : State) : Host.Outcome State Fault Refusal :=
  let c := s.cur.ctx
  if decide (s.arg % 8 = 7) || fenceDone s s.cur (s.arg % 8) (s.arg / 8) then
    match (s.ctx c).wait with
    | .fence scope i done =>
      let all := done ++ [(s.cur.col, s.clk - 2 * s.cur.col)]
      let s1 := s.modCtx c fun x =>
        if all.length < 16 then { x with wait := .fence scope i all }
        else { x with wait := .none, due := all.foldl (fun m d => Nat.max m d.2) i + 33, dueDelayed := false }
      -- the later words of the FENCE's own bundle that it held back go on (R224)
      .next (wakeWaiting s1 (fun w => w.cur.ctx == c && w.cur.col == s.cur.col) fun _ => 0)
    | _ => .next s
  else .next (s.repostMe 1 s.arg .fenceRelease)

/-! ### REALIGN, WAITK, HALT, YIELD and the header -/

/-- REALIGN: the row waits for the next global tick (R25, R391). -/
def execRealign (h : Hd) (s : State) : Host.Outcome State Fault Refusal :=
  s.rowWord h (fun _ => none) fun s =>
    s.modCtx s.cur.ctx fun x => { x with wait := .realign x.rowoff.toNat }

/-- WAITK: the row waits for a tick or step whose count has reached s[A] (R392). -/
def execWaitk (h : Hd) (a b : BitVec 5) (s : State) : Host.Outcome State Fault Refusal :=
  s.rowWord h (fun s => s.early [.s a.toNat]) fun s =>
    s.modCtx s.cur.ctx fun x =>
      { x with wait := if b.getLsbD 0 then .waitStep (s.rs a) x.rowoff.toNat else .waitTick (s.rs a) x.rowoff.toNat }

/-- REALIGN_RELEASE: a waiting row goes on, on the timetable if it is a P context's (R23, R25, R392). The number names the
context. -/
def execRealignRelease (s : State) : Host.Outcome State Fault Refusal :=
  .next (s.modCtx s.arg fun x => match x.wait with
    | .realign _ | .waitTick .. | .waitStep .. =>
      { x with wait := .none, timed := !(isQ s.arg), due := s.rowClk (rowOf s.arg), dueDelayed := false }
    | _ => x)

/-- HALT: the row issues no more bundles; the context ends from the cycle in which core 15 executes the word (R393). -/
def execHalt (h : Hd) (s : State) : Host.Outcome State Fault Refusal :=
  s.rowWord h (fun _ => none) fun s => s.modCtx s.cur.ctx fun x => { x with haltAt := some (s.clk + 30) }

/-- YIELD: P idles n cycles and releases a Q that waits in a YIELD; Q waits for one (R398). -/
def execYield (h : Hd) (i : BitVec 11) (s : State) : Host.Outcome State Fault Refusal :=
  s.rowWord h (fun _ => none) fun s =>
    let c := s.cur.ctx
    if isQ c then s.modCtx c fun x => { x with wait := .yield i.toNat }
    else
      let s1 := s.modCtx c fun x => { x with due := s.clk + 1 + i.toNat }
      s1.modCtx (c + 1) fun q => match q.wait with
        | .yield _ => { q with wait := .none, due := s.clk + 1 + i.toNat, dueDelayed := false, rowDue := true }
        | _ => q

/-- HDR: idle cycles before its bundle, counted when the bundle issues (R258, R399); nothing at execution. -/
def execHdr (_b : Bool) (_d : BitVec 10) (s : State) : Host.Outcome State Fault Refusal :=
  if s.myCtx.job = 0 then .fault .noContext else .next s

/-! ### Control registers (R60 to R80, R394, R395) -/

/-- STATUS (R66). -/
def statusOf (s : State) : Word :=
  let x := s.myCtx
  BitVec.setWidth 64 (x.prio ++ (0#3 ++ (BitVec.ofBool x.res ++ (BitVec.ofBool x.priv ++ (BitVec.ofBool x.world ++
    (BitVec.ofBool (isQ s.cur.ctx) ++ BitVec.ofBool s.timed))))))

/-- CTXID (R65). -/
def ctxidOf (s : State) : Word :=
  BitVec.setWidth 64 (BitVec.ofBool (isQ s.cur.ctx) ++ (s.myCtx.queue ++ BitVec.ofNat 32 s.myCtx.job))

/-- PGATE (R78). -/
def pgateOf (s : State) : Word :=
  let k := s.stackAt s.myStack
  BitVec.setWidth 64 (BitVec.ofBool k.whole.gated ++ (BitVec.ofBool k.crown.gated ++ (0#6 ++ (BitVec.ofBool k.whole.req ++
    BitVec.ofBool k.crown.req))))

/-- The value of a control register at the executing core (R60 to R80). -/
def ctlRead (s : State) (n : Nat) : Word := match n with
  | 0x000 => (coreBits s.module s.cur.ctx s.cur.col).setWidth 64
  | 0x001 => ctxidOf s
  | 0x002 => statusOf s
  | 0x003 => s.me.flags.setWidth 64
  | 0x004 => s.me.round.setWidth 64
  | 0x010 => s.cycle
  | 0x011 => (s.part (s.partOf s.cur.ctx)).tick
  | 0x012 => (s.part (s.partOf s.cur.ctx)).step
  | 0x013 => s.myCtx.rowoff.setWidth 64
  | 0x020 => (s.stackAt s.myStack).win.setWidth 64
  | 0x021 => BitVec.setWidth 64 (BitVec.ofBool (s.cmode.get false (rowNo s.cur.ctx)))
  | 0x030 => s.me.randKey.extractLsb' 0 64
  | 0x031 => s.me.randKey.extractLsb' 64 64
  | 0x032 => s.me.randPos
  | 0x040 => (s.job s.myCtx.job).digestPrev
  | 0x041 => s.myCtx.touched.setWidth 64
  | 0x050 => BitVec.setWidth 64 (BitVec.ofBool s.myCtx.sstep)
  | 0x051 => s.myCtx.retrylim.setWidth 64
  | 0x052 => pgateOf s
  | 0x060 => s.myCtx.trapinfo
  | n => if 0x070 ≤ n ∧ n ≤ 0x077 then s.myCtx.args.get 0#64 (n - 0x070) else 0#64

/-- Remote writes of the executing core's job have no answer yet: atomics, merges, exchanges, releases and stores (R74, R166). -/
def digestOpen (s : State) : Bool := s.gtab.rows.any fun r =>
  r.2.state == 1#2 && r.2.kind != 0#8 && r.2.kind != 5#8 && decide ((s.ctx (r.1 / 1024)).job = s.myCtx.job)
/-- What a GETC finds; of a DIGEST that remote writes without an answer may have changed by now, the change is open (R74; log 42). -/
def getcValue (s : State) (n : Nat) : Word × State :=
  if n = 0x040 ∧ digestOpen s then (ctlRead s n + Config.remoteDigest s.takeFree.1, s.takeFree.2) else (ctlRead s n, s)

/-- GETC: the register's value at execution lands one cycle on (R61, R394). -/
def execGetc (h : Hd) (d : BitVec 5) (i : BitVec 11) (s : State) : Host.Outcome State Fault Refusal :=
  s.wordListed (ctlExists i.toNat) h (fun _ => none) fun s =>
    (getcValue s i.toNat).2.land 1 [.s d.toNat (getcValue s i.toNat).1] 0#5

/-- The RW bits of a control register (R64 to R80). -/
def ctlRw (n : Nat) : Word := match n with
  | 0x003 => 0x1F#64
  | 0x004 => 7#64
  | 0x013 => 0xFF#64
  | 0x020 => 3#64
  | 0x021 => 1#64
  | 0x030 | 0x031 | 0x032 => BitVec.allOnes 64
  | 0x041 => 0x7FFFFFFFF#64
  | 0x050 => 1#64
  | 0x051 => 7#64
  | 0x052 => 3#64
  | n => if 0x070 ≤ n ∧ n ≤ 0x077 then BitVec.allOnes 64 else 0#64
/-- The W1C bits: STATUS.RES (R66). -/
def ctlW1c (n : Nat) : Word := if n = 0x002 then 16#64 else 0#64
/-- Registers that only the head core writes: context and cluster scope (R45). -/
def ctlHead (n : Nat) : Bool :=
  [0x002, 0x013, 0x021, 0x041, 0x050, 0x051].contains n || (decide (0x070 ≤ n) && decide (n ≤ 0x077))

/-- The world map bits that forbid a write to a stack's registers: those of the four row contexts of its rows, and of its
slabs where the write sets SREQ (R63). -/
def stackWorldBad (s : State) (st : Nat) (slabs : Bool) : Bool :=
  stackForeign s st || (slabs && (List.range 96).any fun i => s.worldOf (.slab st i) != s.myCtx.world)

/-- The checks of a control register write that sets some bits: privilege, world (R61, R63, R13). -/
def ctlTrap (s : State) (n : Nat) (set : Word) : Option Trap :=
  if ctlHead n ∧ s.cur.col ≠ 0 then none
  else if [0x050, 0x051, 0x052].contains n ∧ !s.myCtx.priv then some .privileged
  else if n = 0x020 ∧ (dieOf s.cur.ctx = 1 ∨ isQ s.cur.ctx) then some .privileged
  else if n = 0x021 ∧ isQ s.cur.ctx then some .privileged
  else if (n = 0x020 ∨ n = 0x052) ∧ stackWorldBad s s.myStack (decide (n = 0x052) && set.getLsbD 1) then some .world
  else none

/-- Enter a write that clears and then sets bits of a control register; it lands one cycle on (R61, R62). -/
def ctlPut (s : State) (n : Nat) (clear set : Word) : State :=
  if ctlHead n ∧ s.cur.col ≠ 0 then s
  else match n with
    | 0x020 => s.afterMe 1 0 (.amodeWrite (((s.stackAt s.myStack).win &&& ~~~(clear.setWidth 2)) ||| set.setWidth 2))
    | 0x021 => s.afterMe 1 0 (.cmodeWrite ((s.cmode.get false (rowNo s.cur.ctx) && !clear.getLsbD 0) || set.getLsbD 0))
    | 0x030 => s.afterMe 1 0 (.randkeyWrite false clear set)
    | 0x031 => s.afterMe 1 0 (.randkeyWrite true clear set)
    | 0x032 => s.afterMe 1 0 (.randposWrite clear set)
    | 0x041 => (s.land 1 [.ctl 0x041 0#64 set] 0#5).afterMe 1 s.mark (.touchedClear ((clear &&& ~~~set).setWidth 35))
    | 0x052 =>
      let s1 := if set.getLsbD 0 then s.afterMe 1 s.myStack .pgateCreqSet
        else if clear.getLsbD 0 then s.afterMe 1 s.myStack .pgateCreqClear else s
      if set.getLsbD 1 then s1.afterMe 1 s.myStack .pgateSreqSet
      else if clear.getLsbD 1 then s1.afterMe 1 s.myStack .pgateSreqClear else s1
    | n => if ctlRw n = 0#64 ∧ ctlW1c n = 0#64 then s else s.land 1 [.ctl n clear set] 0#5

/-- SETC: RW fields take the source's bits, W1C bits it sets are cleared (R61, R394). -/
def execSetc (h : Hd) (d : BitVec 5) (i : BitVec 11) (s : State) : Host.Outcome State Fault Refusal :=
  s.wordListed (ctlExists i.toNat) h (fun s =>
      firstTrap [ctlTrap s i.toNat (if (s.early [.s d.toNat]).isSome then 0#64 else s.rs d), s.early [.s d.toNat]]) fun s =>
    ctlPut s i.toNat (ctlRw i.toNat ||| (s.rs d &&& ctlW1c i.toNat)) (s.rs d &&& ctlRw i.toNat)

/-- SETB: RW bits of the mask become 1, W1C bits of it are cleared (R61, R394). -/
def execSetb (h : Hd) (d : BitVec 5) (i : BitVec 11) (s : State) : Host.Outcome State Fault Refusal :=
  s.wordListed (ctlExists i.toNat) h (fun s =>
      firstTrap [ctlTrap s i.toNat (if (s.early [.s d.toNat]).isSome then 0#64 else s.rs d), s.early [.s d.toNat]]) fun s =>
    ctlPut s i.toNat (s.rs d &&& ctlW1c i.toNat) (s.rs d &&& ctlRw i.toNat)

/-- CLRB: RW bits of the mask become 0 (R61, R394). -/
def execClrb (h : Hd) (d : BitVec 5) (i : BitVec 11) (s : State) : Host.Outcome State Fault Refusal :=
  s.wordListed (ctlExists i.toNat) h (fun s => firstTrap [ctlTrap s i.toNat 0#64, s.early [.s d.toNat]]) fun s =>
    ctlPut s i.toNat (s.rs d &&& ctlRw i.toNat) 0#64

/-! ### LAUNCH (R396, R397) -/

/-- The checks of LAUNCH, in the order of R443. -/
def launchTrap (s : State) (a b : BitVec 5) : Option Trap :=
  let f := s.ownAddr (s.rs a) 256
  firstTrap [
    if s.myCtx.priv then none else some .privileged,
    addrTrap [s.known [.s a.toNat] (trapOf f),
      s.known [.s b.toNat] (if s.rs b >>> 6 ≠ 0#64 then some .translation
        else if (s.queue (s.rs b).toNat).secure != s.myCtx.world then some .world else none)],
    s.early [.s a.toNat, .s b.toNat],
    s.accessTrap [(0, slotOf (valOf f))],
    if s.timed ∧ (s.banks.any fun x => x.2.timed && !(isQ x.2.ctx) && x.1 == bankOfSlot (slotOf (valOf f))) then some (.sched 3) else none]

/-- The banks that the LAUNCH words of a context read at their execution on the head core in the present cycle, those of a bundle that
issues in it included. -/
def launchReads (s : State) (c : Nat) : List Nat :=
  let t := { s with cur := s.headCur c .scalar 0 }
  (s.agenda.flatMap fun e => if e.cur.ctx = c ∧ e.cur.col = 0 ∧ e.due ≤ s.clkNow e.clk then (match e.act with
    | .launch .. => wordIn t e.act
    | _ => []) else []) ++
  (if s.issues c then (match t.checkIssue c with
    | .go _ ps => ps.flatMap fun p => wordIn t p.ins
    | .trap .. => []) else [])
where
  /-- The bank that one word reads. -/
  wordIn (s : State) : Instr → List Nat
    | .launch h _ a _ => if s.guard h then (match s.ownAddr (s.rs a) 256 with
        | .ok f => [bankOfSlot (slotOf f)]
        | .error _ => []) else []
    | _ => []
/-- The banks that go to a LAUNCH of this cycle before an access of the executing untimed context: a timed one's, and for a Q access any
P's (R18, R397). -/
def launchBanks (s : State) : List Nat := (List.range 32).flatMap fun r =>
  if (s.ctx (2 * r)).priv ∧ 2 * r ≠ s.cur.ctx ∧ ((s.ctx (2 * r)).timed ∨ isQ s.cur.ctx) then launchReads s (2 * r) else []

/-- LAUNCH: the record is read at the head core's execution; the outcome lands 40 cycles on (R396). -/
def execLaunch (h : Hd) (d a b : BitVec 5) (s : State) : Host.Outcome State Fault Refusal :=
  s.rowWord h (fun s => launchTrap s a b) fun s =>
    let f := valOf (s.ownAddr (s.rs a) 256)
    let id := s.freshId
    ((s.bump.placeAcc [(0, slotOf f)]).access 0 id (.launch f (s.rs b).toNat d.toNat)).landId id 40 [.s d.toNat 0#64] 0#5

end Sys2Proof.Machine
end

