-- ==== Sys2Proof/Machine/Perform.lean ====
section
/-! DEFINITION. Accesses performing: the deferral of untimed ones, what each kind of access does in its cycle, and the
abandonment of one that meets an uncorrectable codeword (R18, R91, R97, R107, R210, R219 to R224, R242, R317, R339). -/

namespace Sys2Proof.Machine

open Sys2Proof State

/-! ### Codewords read (R107) -/

/-- The codewords that a store covers only in part; it reads them. -/
def partWords (p : Put) : List (Nat × Nat) := if p.len = 0 then [] else
  (([p.addr / 32, (p.addr + p.len - 1) / 32].eraseDups).filter fun w =>
    !(decide (p.addr ≤ 32 * w) && decide (32 * w + 32 ≤ p.addr + p.len))).map fun w => (32 * w, 32)

/-- The ranges an access reads. -/
def opReads : AccessOp → List (Nat × Nat)
  | .load a n _ _ => [(a, n)]
  | .store p => partWords p
  | .amo _ a w _ _ _ => [(a, if w then 8 else 4)]
  | .vload _ rs => rs.map fun r => (r.addr, r.len)
  | .vstore ps => ps.flatMap partWords
  | .scatAdd _ gs => gs.map fun g => (g.addr, 4)
  | .esld _ r => [(r.addr, r.len)]
  | .matRows rs => rs.map fun r => (r.2.1, r.2.2)
  | .sendRow a _ _ _ _ => [(a, 256)]
  | .launch a _ _ => [(a, 256)]
  | .xverWrite .. | .xverRead .. | .ring .. => []

/-- A release that has performed, or will not, is held no longer (R220). -/
def dropRelease (s : State) (id : Nat) : State :=
  { s with waiting := s.waiting.filter fun w => match w.what with
      | .release a _ => decide (id = 0) || a.id != id
      | _ => true }

/-- The access of the executing core fails on an uncorrectable codeword: its result and its other parts are dropped, and
the trap is deferred 0x07; an acquire that fails holds nothing back any longer (R107, R221, R231, R242). -/
def failAccess (s : State) (id : Nat) : State :=
  let s1 := (s.takeDeferred s.cur s.cur.slot 7 0).dropFlight id
  dropAcq (dropRelease { s1 with agenda := s1.agenda.filter fun e => match e.act with
      | .deferredAccessPerform a => decide (id = 0) || a.id != id
      | _ => true } id) s.cur

/-- A store of the executing core fails on an uncorrectable codeword: that event and every later one of its word is dropped, and the trap
is deferred 0x07. The rows before it go on, and so does what else the word writes (R242, R318). -/
def failStore (s : State) (id : Nat) : State :=
  let s1 := s.takeDeferred s.cur s.cur.slot 7 0
  { s1 with agenda := s1.agenda.filter fun e => match e.act with
      | .deferredAccessPerform a => decide (id = 0) || a.id != id || decide (e.ord < s.ord)
      | _ => true }

/-- Read ranges on behalf of the executing job: corrections are logged (R107, R168). -/
def noteReads (s : State) (l : List (Nat × Nat)) : State := l.foldl (fun t r => noteSpad t r.1 r.2 (myJob s)) s
/-- A range of the list holds an uncorrectable codeword. -/
def readBad (s : State) (l : List (Nat × Nat)) : Bool := l.any fun r => s.uncorrectable r.1 r.2

/-- Go on after reads that met no uncorrectable codeword. -/
def afterReads (s : State) (id : Nat) (l : List (Nat × Nat)) (f : State → State) : State :=
  if readBad s l then failAccess (noteReads s l) id else f (noteReads s l)

/-! ### The accesses -/

/-- Fill a result in. -/
def fill (s : State) (id : Nat) (f : RegWrite → RegWrite) (fl : BitVec 5) : State :=
  s.modFlight id fun e x => { e with act := .resultLanding { x with writes := x.writes.map f, flags := x.flags ||| fl } }

/-- One store of the executing job. -/
def putOne (s : State) (p : Put) : State := s.storeFor (myJob s) p.addr p.len p.val
/-- Stores in order, up to one that meets an uncorrectable codeword it covers in part. -/
def putAll (s : State) (id : Nat) : List Put → State
  | [] => s
  | p :: r =>
    if readBad s (partWords p) then failStore (noteReads s (partWords p)) id
    else putAll (putOne (noteReads s (partWords p)) p) id r

/-- The containers of one address are added to it in order, each step rounded (R324). -/
def addAll (md : RMode) (old : Nat) (l : List (BitVec 32)) : Nat × BitVec 5 :=
  l.foldl (fun a x =>
    let y := addFp .f32 md (Fmt.f32.dec a.1) (Fmt.f32.dec x.toNat)
    (y.1, a.2 ||| y.2)) (old, 0#5)

/-- Scattered additions in order (R324). -/
def scatAll (s : State) (id : Nat) (md : BitVec 3) : List AddGroup → State
  | [] => s
  | g :: r =>
    if s.uncorrectable g.addr 4 then failStore (noteSpad s g.addr 4 (myJob s)) id
    else
      let s1 := noteSpad s g.addr 4 (myJob s)
      let y := addAll (modeOf md) (s1.load g.addr 4) g.vals
      scatAll (fill (s1.storeFor (myJob s) g.addr 4 y.1) id (fun w => w) y.2) id md r

/-- Go on after a read of a slot's metadata that could be corrected (R107). -/
def afterMeta (s : State) (id slot : Nat) (f : State → State) : State :=
  let t := noteMeta s slot (myJob s)
  if s.metaBad slot then failAccess t id else f t

/-- The metadata word of a slot (R85). -/
def metaWord (s : State) (slot : Nat) : Word :=
  let m := s.slot slot
  let lock := m.lock || (s.lockers [slot] != [])
  BitVec.setWidth 64 (BitVec.ofBool lock ++ (BitVec.ofBool m.world ++ (m.version ++ m.tag)))

/-- What an access does in the cycle in which it performs. -/
def performOp (s : State) (a : Access) : State := match a.op with
  | .load at_ n signed d => afterReads s a.id [(at_, n)] fun s =>
    let x := s.load at_ n
    fill s a.id (fun _ => .s d (if signed then (BitVec.ofNat (8 * n) x).signExtend 64 else BitVec.ofNat 64 x)) 0#5
  | .store p => putAll s a.id [p]
  | .amo op at_ w y cmp d => afterReads s a.id [(at_, if w then 8 else 4)] fun s =>
    let z := if w then 8 else 4
    let old := s.load at_ z
    let s1 := match amoResult op (8 * z) old (y.toNat % 2 ^ (8 * z)) (cmp.toNat % 2 ^ (8 * z)) with
      | some x => s.storeFor (myJob s) at_ z x
      | none => s
    fill s1 a.id (fun _ => .s d (if w then BitVec.ofNat 64 old else (BitVec.ofNat 32 old).signExtend 64)) 0#5
  | .vload _ runs => afterReads s a.id (opReads a.op) fun s =>
    let x : Block := BitVec.ofNat 32768 (runs.foldl (fun m r => m + s.load r.addr r.len * 2 ^ r.pos) 0)
    fill s a.id (fun w => match w with
      | .v n k y => .v n k (y ||| x)
      | w => w) 0#5
  | .vstore puts => putAll s a.id puts
  | .scatAdd md groups => scatAll s a.id md groups
  | .xverWrite k x => afterMeta s a.id k fun s => (s.renewMeta k).modSlot k fun m => { m with version := x }
  | .xverRead k d => afterMeta s a.id k fun s => fill s a.id (fun _ => .s d (metaWord s k)) 0#5
  | .esld _ r => afterReads s a.id (opReads a.op) fun s =>
    let x : Scales := BitVec.ofNat 2048 (s.load r.addr r.len * 2 ^ r.pos)
    fill s a.id (fun w => match w with
      | .e n k y => .e n k (y ||| x)
      | w => w) 0#5
  | .matRows rs => afterReads s a.id (opReads a.op) fun s =>
    let got := rs.map fun r => (r.1, BitVec.ofNat 2048 (s.load r.2.1 r.2.2))
    s.modMat a.id fun e m => { e with act := .matrixResultLanding { m with rows := m.rows ++ got } }
  | .sendRow at_ row dc dcol due => afterReads s a.id [(at_, 256)] fun s =>
    s.after (.row (rowOf dc)) due { s.cur with ctx := dc, col := dcol, slot := .nowhere } 0
      (.recvRowArrival dc dcol ((dcol + 16 - s.cur.col) % 16) (dieOf s.cur.ctx) row (BitVec.ofNat 2048 (s.load at_ 256)))
  | .ring st op => ringPerform s a.id st op
  | .launch at_ q d => afterReads s a.id [(at_, 256)] fun s =>
    s.after .chip 8 Cursor.none 0 (.launchRecordWrite (.core s.cur.ctx a.id d) q (BitVec.ofNat 2048 (s.load at_ 256)))

/-! ### Deferral (R18, R97, R219 to R224) -/

/-- The byte ranges an access touches. -/
def opBytes : AccessOp → List (Nat × Nat)
  | .load a n _ _ => [(a, n)]
  | .store p => [(p.addr, p.len)]
  | .amo _ a w _ _ _ => [(a, if w then 8 else 4)]
  | .vload _ rs => rs.map fun r => (r.addr, r.len)
  | .vstore ps => ps.map fun p => (p.addr, p.len)
  | .scatAdd _ gs => gs.map fun g => (g.addr, 4)
  | .esld _ r => [(r.addr, r.len)]
  | .matRows rs => rs.map fun r => (r.2.1, r.2.2)
  | .sendRow a _ _ _ _ => [(a, 256)]
  | .launch a _ _ => [(a, 256)]
  | .xverWrite .. | .xverRead .. | .ring .. => []
/-- Two accesses touch a common location. -/
def opsMeet (a b : AccessOp) : Bool :=
  (opBytes a).any fun x => (opBytes b).any fun y => decide (x.1 < y.1 + y.2) && decide (y.1 < x.1 + x.2)
/-- An access that writes bytes. -/
def opWrites : AccessOp → Bool
  | .store _ | .vstore _ | .scatAdd .. | .amo .. => true
  | _ => false
/-- Two words of a core come from one of the units of R219: scalar, vector 0 or vector 1. -/
def sameUnit (a b : Cursor) : Bool := a.slot == b.slot && (a.slot == .scalar || a.slot == .vec0 || a.slot == .vec1)
/-- The slot whose version word an access names (R219). -/
def opVersion : AccessOp → Option Nat
  | .xverWrite k _ | .xverRead k _ => some k
  | _ => none

/-- An earlier event of the executing core's context that the access has to follow is still to come: one of its own unit, or of
its own word, on a common location; a held release that it follows there; and, of an XVER, any on its slot (R219, R220, R223). -/
def ppoPending (s : State) (o : AccessOp) : Bool :=
  s.agenda.any (fun e => match e.act with
    | .deferredAccessPerform b =>
      (poBefore e.cur s.cur && match opVersion o with
        | some k => (opSlots b.op).contains k
        | none => sameUnit e.cur s.cur && opsMeet b.op o) ||
      (e.cur == s.cur && decide (e.ord < s.ord) && opsMeet b.op o)
    | _ => false) ||
  s.waiting.any fun w => poBefore w.cur s.cur && match w.what with
    | .release b _ => match opVersion o with
      | some k => (opSlots b.op).contains k
      | none => (sameUnit w.cur s.cur || opWrites o) && opsMeet b.op o
    | _ => false
/-- The S slots that an exchange word in its walk will lock, by its operands as the tables stand. -/
def walkSlots (s : State) (cur : Cursor) (kind c : Nat) (v : List Word) : List Nat :=
  match State.xchPlan { s with cur := cur } true kind (v.getD 0 0#64) (v.getD 1 0#64) c with
  | .ok pl => pl.a.slots pl.n ++ pl.b.slots pl.n
  | .error _ => []
/-- An earlier exchange of the executing core that crosses into a slot is under way, waits or is in its walk (R219). -/
def crossPending (s : State) (k : Nat) : Bool :=
  s.peels.rows.any (fun r => decide (r.2.kind ≠ 0) && poBefore r.2.cur s.cur && (xchSlots r.2).contains k) ||
  s.waiting.any fun w => poBefore w.cur s.cur && match w.what with
    | .exchange p _ => (xchSlots p).contains k
    | .walk word v => match word with
      | .xch _ _ _ c => (walkSlots s w.cur 1 c.toNat v).contains k
      | .xchc .. => (walkSlots s w.cur 2 0 v).contains k
      | .xcht _ _ _ c => (walkSlots s w.cur 3 c.toNat v).contains k
      | _ => false
    | _ => false

/-- An untimed access has to follow another: an event before it has not performed, an acquire before it has not returned, or the FENCE
of its bundle has not been released (R219, R221, R224). -/
def orderWait (s : State) (a : Access) : Bool :=
  (isEvent a.op && ((s.me.acqs.any fun c => poBefore c s.cur) || s.fenceHolds s.cur)) || ppoPending s a.op ||
  ((opVersion a.op).any fun k => crossPending s k)
/-- An untimed access is deferred at the scratchpad: an S-D exchange holds its slot, or its bank serves another word or lies in a window
(R18, R97, R105). -/
def bankWait (s : State) (a : Access) : Bool :=
  ((opBanks a.op).any fun b => (s.banks.any fun x => x.1 == b && x.2 != s.cur) || decide (0 < s.windowLeft b 0) ||
    (launchBanks s).contains b) ||
  ((opSlots a.op).any fun k => s.remoteLock k)
/-- An untimed access may not perform in this cycle. -/
def mustWait (s : State) (a : Access) : Bool := orderWait s a || bankWait s a

/-- The landing of an access deferred n cycles so far moves with it; an array command's start moves by the largest deferral
of its rows, and the untimed commands behind it count again (R202, R316, R338, R339). -/
def delayLanding (s : State) (id n : Nat) : State :=
  let s1 := s.modFlight id fun e f =>
    if f.delay < n then { e with due := e.due + (n - f.delay), act := .resultLanding { f with delay := n } } else e
  match s1.agenda.find? fun e => match e.act with
    | .matrixResultLanding m => decide (id ≠ 0) && m.id == id && decide (m.defer < n)
    | _ => false with
  | none => s1
  | some e =>
    (s1.modMat id fun e m => { e with act := .matrixResultLanding { m with defer := n } }).rebook (stackOf e.cur.ctx e.cur.col)
      fun x => decide (e.ord ≤ x.ord) && !(timedEntry x)

/-- DEFERRED_ACCESS_PERFORM: an access performs, or an untimed one is deferred a cycle more (R18). The number counts the
cycles of deferral; those that the scratchpad itself makes are counted as such (R186). -/
def execDeferredAccessPerform (a : Access) (s : State) : Host.Outcome State Fault Refusal :=
  if !s.timed && mustWait s a then
    let s1 := delayLanding (s.repostMe 1 (s.arg + 1) (.deferredAccessPerform a)) a.id (s.arg + 1)
    .next (if orderWait s a then s1 else s1.tally s.cur.ctx s.cur.col 0x0B 1)
  else .next (performOp (dropRelease { s with banks := (opBanks a.op).map (fun b => (b, s.cur)) ++ s.banks } a.id) a)

end Sys2Proof.Machine
end

