-- ==== Sys2Proof/Machine/Scrub.lean ====
section
/-! DEFINITION. Scrubs of released and reassigned blocks, and the world map (R30, R35, R110, R144, R150, R164, R165, R438). -/

namespace Sys2Proof.Machine

open Sys2Proof State

/-! ### What a record names (R12, R30, R134, R237) -/

/-- The save slabs of a record's contexts, as bits of a slab map (R237). -/
def saveMask (r : BitVec 2048) : BitVec 24576 :=
  (recCtxs r).foldl (fun m c => (List.range 16).foldl (fun m col =>
    let i := 96 * stackOf c col + recSave r
    m ||| (1#24576 <<< i) ||| (1#24576 <<< (i + 1))) m) 0#24576

/-- A block is among those that a record with these slabs names; a peel is with either context of its row. -/
def named (r : BitVec 2048) (slabs : BitVec 24576) : HwBlock → Bool
  | .context n => (recCtxs r).contains n
  | .slab st n => slabs.getLsbD (96 * st + n)
  | .channel n => recChan r n
  | .peel n => (recCtxs r).any fun c => rowOf c == n / 32
  | .link _ | .root _ | .vf _ => false

namespace State

/-- The slabs of a placed job: those granted and its save slabs. -/
def slabsOf (s : State) (j : Nat) : BitVec 24576 := (s.job j).slabs ||| saveMask (s.job j).record
/-- A job holds a block; a pre-empted one holds its slabs only, one whose release is under way none (R31, R33, R165). -/
def holds (s : State) (j : Nat) (b : HwBlock) : Bool :=
  let x := s.job j
  x.state != .ending && match b with
  | .slab .. => named x.record (s.slabsOf j) b
  | _ => x.state != .preempted && named x.record (s.slabsOf j) b
/-- Some job holds a block. -/
def held (s : State) (b : HwBlock) : Bool := s.jobs.rows.any fun r => s.holds r.1 b

/-! ### The scrub queue (R150) -/

/-- Whether an unstarted request may start: one slab a stack at a time, one scrub of a block at a time, and none on a tower channel whose
soft-repair register is not reloaded yet (R132). -/
def scrubFree (s : State) (b : HwBlock) : Bool := !(s.reloading && (match b with | .channel n => decide (n < 256) | _ => false)) && match b with
  | .slab st _ => !(s.scrubs.any fun r => r.started && match r.blk with
      | .slab t _ => t == st
      | _ => false)
  | _ => !(s.scrubs.any fun r => r.started && r.blk == b)

/-- Mark the oldest unstarted request of a block as started. -/
def markStarted (b : HwBlock) : List ScrubReq → List ScrubReq
  | [] => []
  | r :: l => if r.blk = b ∧ !r.started then { r with started := true } :: l else r :: markStarted b l

/-- The regions that the oldest request of a block names, started or not. -/
def extOf (s : State) (b : HwBlock) (started : Bool) : List (Nat × Nat × Bool) :=
  ((s.scrubs.find? fun r => r.started == started && r.blk == b).map ScrubReq.ext).getD []

/-- Start the scrub of a block: 1,024 cycles a slab, 64 a context; a region at the channel's full write rate, a burst of
256 bytes each burst time, or in hold runs where a running context owns the channel (R35, R118, R150). The blocks of other kinds
take the time of a context (log 19). -/
def startScrub (s : State) (b : HwBlock) : State :=
  let s1 : State := { s with scrubs := markStarted b s.scrubs }
  match b with
  | .slab .. => s1.after .chip 1024 Cursor.none 0 (.scrubComplete b)
  | .channel ch =>
    let blocks := (s.extOf b false).foldl (fun n x => n + (x.2.1 - x.1)) 0
    let t := Nat.max 1 (16 * (timOf ch).bt * blocks)
    if (s1.chan ch).owner.isSome then s1.after .chip 0 Cursor.none (ch + 512 * t) .regionScrubRun
    else s1.after .chip t Cursor.none 0 (.scrubComplete b)
  | _ => s1.after .chip 64 Cursor.none 0 (.scrubComplete b)

/-- Start every request that may start, oldest first. -/
def startScrubs (s : State) : State :=
  (s.scrubs.filter fun r => !r.started).foldl (fun t r => if t.scrubFree r.blk then t.startScrub r.blk else t) s

/-- A request enters the queue, or waits while it is full; the block is refused until its scrub completes. -/
def askScrub (s : State) (b : HwBlock) (ext : List (Nat × Nat × Bool)) : State :=
  let r : ScrubReq := { blk := b, started := false, ext := ext }
  let s1 : State := { s with refused := if s.refused.contains b then s.refused else s.refused ++ [b] }
  if s1.scrubs.length < 4096 ∧ s1.scrubWait = [] then { s1 with scrubs := s1.scrubs ++ [r] }
  else { s1 with scrubWait := s1.scrubWait ++ [r] }

/-! ### What a scrub writes (R110, R144, R164) -/

/-- A range of flat memory is written to 0 with fresh check bits. -/
def zeroRange (s : State) (a b : Nat) : State :=
  { s with mem := memClear s.mem a b, bad := ⟨s.bad.rows.filter fun r => !(decide (a ≤ 32 * r.1) && decide (32 * r.1 < b))⟩ }

/-- The blocks of a channel, from the first to the one past the last, in flat block numbers (R113). -/
def chanBlocks (ch : Nat) : Nat × Nat :=
  if ch < 256 then (393216 * ch, 393216 * (ch + 1))
  else (100663296 + 16777216 * (ch - 256), 100663296 + 16777216 * (ch - 255))

/-- Flat blocks at a level's physical address, n of them, with the world bit of the entry that maps them; none of another module. -/
def mapped (level phys n : Nat) (w : Bool) : List (Nat × Nat × Bool) :=
  let b := phys / 4096 + (if level = 1 then 100663296 else 0)
  if level ≤ 1 then [(b, b + n, w)] else []
/-- The blocks that the page table of a job maps below a node of a level (R155, R156). -/
def pagesFrom (s : State) : Nat → Nat → List (Nat × Nat × Bool)
  | 0, node => (List.range 64).flatMap fun i => page (pte node i) 18
  | n + 1, node =>
    (List.range (if n = 0 then 64 else 512)).flatMap fun i =>
      let e := pte node i
      if !e.getLsbD 0 then []
      else if e.getLsbD 2 then (if n = 2 then [] else page e (if n = 0 then 24 else 30))
      else pagesFrom s n ((e.extractLsb' 9 39).toNat * 512)
where
  /-- Entry i of a node. -/
  pte (node i : Nat) : Word := BitVec.ofNat 64 (s.load (fBase + node + 8 * i) 8)
  /-- The blocks of a leaf. -/
  page (e : Word) (size : Nat) : List (Nat × Nat × Bool) :=
    if e.getLsbD 0 && e.getLsbD 2 then
      mapped (e.extractLsb' 62 2).toNat ((e.extractLsb' 9 39).toNat * 512) (2 ^ (size - 12)) (e.getLsbD 5)
    else []
/-- The T and F blocks that the range entries and the page table of a job map, with their world bits (R152 to R156). -/
def mappedBlocks (s : State) (r : BitVec 2048) : List (Nat × Nat × Bool) :=
  s.pagesFrom 3 (recPt r) ++ (List.range 256).flatMap fun n =>
    let e := s.rangeEnt (recRt r) (255 - n)
    if e.getLsbD 192 then
      mapped (e.extractLsb' 196 2).toNat (e.extractLsb' 128 48).toNat
        (((e.extractLsb' 64 48).toNat - (e.extractLsb' 0 48).toNat) / 4096) (e.getLsbD 195)
    else []
/-- The regions of a channel that a job's release scrubs: the mapped blocks in it. A block that several entries map takes the world
bit of the entry that a translation would use (R33, R110; log 33). -/
def regionsIn (l : List (Nat × Nat × Bool)) (ch : Nat) : List (Nat × Nat × Bool) :=
  let (lo, hi) := chanBlocks ch
  l.filterMap fun x =>
    let a := Nat.max lo x.1
    let b := Nat.min hi x.2.1
    if a < b then some (a, b, x.2.2) else none
/-- The whole of a channel, as a reassignment scrubs it, with the channel's world; nothing for a block of another kind (log 65). -/
def wholeOf (s : State) : HwBlock → List (Nat × Nat × Bool)
  | .channel ch => [((chanBlocks ch).1, (chanBlocks ch).2, s.worldOf (.channel ch))]
  | _ => []

/-- A slot as a scrub leaves it. -/
def scrubSlots (s : State) (st n : Nat) : State :=
  let lo := 6144 * st + 64 * n
  let rest : Tbl SlotMeta := ⟨s.slots.rows.filter fun r => !(decide (lo ≤ r.1) && decide (r.1 < lo + 64))⟩
  let w := s.worldOf (.slab st n)
  { s with slots := if w then (List.range 64).foldl (fun t i => t.put SlotMeta.init (lo + i) { SlotMeta.init with world := true }) rest
                    else rest,
           badMeta := ⟨s.badMeta.rows.filter fun r => !(decide (lo ≤ r.1) && decide (r.1 < lo + 64))⟩ }

/-- A region of blocks is written to 0, its metadata lines too but for their world bit (R110). -/
def zeroRegion (s : State) (x : Nat × Nat × Bool) : State :=
  { s.zeroRange (tBase + 4096 * x.1) (tBase + 4096 * x.2.1) with
    lines := ⟨s.lines.rows.filter fun r => !(decide (x.1 ≤ r.1) && decide (r.1 < x.2.1))⟩ }.setLineWorld x.1 x.2.1 x.2.2

/-- The effect of a scrub on its block, with the regions it names. -/
def scrubBlock (s : State) (b : HwBlock) (ext : List (Nat × Nat × Bool)) : State := match b with
  | .slab st n => (s.zeroRange (spadAddr st (262144 * n)) (spadAddr st (262144 * (n + 1)))).scrubSlots st n
  | .channel _ => ext.foldl zeroRegion s
  | .context c =>
    (List.range 16).foldl (fun t col =>
      let t1 := t.setCore c col CoreCtx.init
      if isQ c then t1 else t1.modStack (stackOf c col) fun k => { k with up := .init, down := .init }) s
  | .peel n => (List.range 2).foldl (fun t i => t.modPeel (32 * (2 * (n / 32) + i) + n % 32) fun _ => Peel.init) s
  | _ => s

end State

/-! ### Candidates (R29, R137) -/

/-- Of pre-empted records, the one placed earliest. -/
def firstPreempted (s : State) (l : List QEntry) : Option QEntry :=
  (l.filter fun e => e.status == 2#8).foldl (fun b e => match b with
    | none => some e
    | some x => if (s.job e.job).order < (s.job x.job).order then some e else some x) none

/-- The oldest record that is not placed: the head of the queue. -/
def headEntry (l : List QEntry) : Option QEntry := l.find? fun e => e.status == 0#8 || e.status == 4#8

/-- A queue's candidate. -/
def candidate (s : State) (q : LQueue) : Option QEntry := match firstPreempted s q.ents with
  | some e => some e
  | none => if q.en then match headEntry q.ents with
      | some e => if e.status = 0#8 then some e else none
      | none => none
    else none

/-- Replace a queue; the wait of its candidate starts afresh where the candidate is another record (R29). -/
def putQueue (s : State) (n : Nat) (q : LQueue) (fresh : Bool) : State :=
  let old := candidate s (s.queue n)
  let new := candidate s q
  let since := match new with
    | none => none
    | some e => if fresh || old.map QEntry.id != some e.id then some s.now else (s.queue n).candSince
  s.modQueue n fun _ => { q with candSince := since }

/-! ### Launch queue events and the end of a release (R137, R140, R438) -/

/-- Post a launch-status event (R140) of the record that an enqueue numbered: it has no reporting core, and of one cycle's the lower
queue comes first, then the queue's own order (R141). -/
def postStatus (s : State) (queue id : Nat) (r : BitVec 2048) (job stat : Nat) : State :=
  s.post (unitPlace 3 (queue * 2 ^ 40 + id)) (mkEvent 3 0 0 stat job 0#64 0#31 s.cycle (recTag r) 0#64 0#64 0#64)

/-- The number of the enqueue of a job's record. -/
def recordId (s : State) (n j : Nat) : Nat := (((s.queue n).ents.find? fun e => e.job == j).map QEntry.id).getD 0
/-- A job's record leaves its queue. -/
def leaveQueue (s : State) (n j : Nat) : State :=
  let q := s.queue n
  if q.ents.any fun e => e.job == j then putQueue s n { q with ents := q.ents.filter fun e => e.job != j } false else s

/-- Releases go on: the record leaves once all its requests have reached the scrub queue, with its status event; of a secure job
the keys go and the event is posted only once its blocks are scrubbed (R137, R436, R438). -/
def finishReleases (s : State) : State :=
  (s.jobs.rows.filter fun r => r.2.state == .ending &&
    !(s.scrubWait.any fun q => named r.2.record (s.slabsOf r.1) q.blk)).foldl (fun t r =>
      let u := leaveQueue t r.2.queue r.1
      if recWorld r.2.record && s.refused.any fun b => named r.2.record (s.slabsOf r.1) b then u
      else postStatus { u with jobs := u.jobs.put Job.init r.1 Job.init } r.2.queue (recordId t r.2.queue r.1) r.2.record r.1 5) s

/-! ### Events -/

/-- A block that the module has (R165). -/
def blockIs : HwBlock → Bool
  | .context n => decide (n < 64)
  | .slab st n => decide (st < 256) && decide (n < 96)
  | .channel n => decide (n < 288)
  | .peel n => decide (n < 1024)
  | .link n => decide (n < 18)
  | .root n => decide (n < 4)
  | .vf n => decide (n < 256)

/-- SCRUB_REQUEST_ENQUEUE: system software reassigns a block; its scrub is asked for (R150). A block that a job holds is
not taken. -/
def execScrubRequestEnqueue (b : HwBlock) (s : State) : Host.Outcome State Fault Refusal :=
  if s.held b || !(blockIs b) then .next { s with mailbox := 1 } else .next ({ s.askScrub b (s.wholeOf b) with mailbox := 0 }).startScrubs

/-- SCRUB_COMPLETE: the block is zeroed and leaves the queue; waiting releases enter; the next scrub starts (R110, R150). -/
def execScrubComplete (b : HwBlock) (s : State) : Host.Outcome State Fault Refusal :=
  let s1 := s.scrubBlock b (s.extOf b true)
  let scrubs := s1.scrubs.filter fun r => !(r.started && r.blk == b)
  let room := 4096 - scrubs.length
  let s2 : State := { s1 with
    scrubs := scrubs ++ s1.scrubWait.take room,
    scrubWait := s1.scrubWait.drop room,
    refused := if scrubs.any (fun r => r.blk == b) || s1.scrubWait.any (fun r => r.blk == b) then s1.refused
      else s1.refused.filter fun x => x != b }
  .next (finishReleases s2.startScrubs)

/-- REGION_SCRUB_RUN: a hold run of at most 512 cycles scrubs a region on an owned channel, at most one run every 65,536
domain cycles (R35, R150). The number holds the channel and the cycles still to do. -/
def execRegionScrubRun (s : State) : Host.Outcome State Fault Refusal :=
  let ch := s.arg % 512
  let left := s.arg / 512
  match (s.chan ch).owner with
  | none => .next (s.after .chip left Cursor.none 0 (.scrubComplete (.channel ch)))
  | some c =>
    let p := s.partOf c
    let wait : Nat := match (s.chan ch).lastScrub with
      | some t => (t + 65536 - s.dom p).toNat
      | none => 0
    if 0 < wait then .next (s.after (.part p) wait Cursor.none s.arg .regionScrubRun)
    else
      let n := Nat.min left 512
      let s1 := (startHold s p (.regionScrub ch)).modChan ch fun x => { x with lastScrub := some (s.dom p) }
      let s2 := s1.after .chip n Cursor.none 0 (.holdRunEnd p (.regionScrub ch))
      if left ≤ 512 then .next (s2.after .chip n Cursor.none 0 (.scrubComplete (.channel ch)))
      else .next (s2.after (.part p) 65536 Cursor.none (ch + 512 * (left - n)) .regionScrubRun)

/-- WORLD_MAP_WRITE: secure firmware moves a block that no job holds to a world; its scrub follows. The secure mailbox answers (R165,
R422, R438). -/
def execWorldMapWrite (b : HwBlock) (w : Bool) (s : State) : Host.Outcome State Fault Refusal :=
  if s.held b || !(blockIs b) then .next { s with secBox := 1 }
  else
    let s1 : State := { s with world := s.world.put false (hwKey b) w }
    .next ({ s1.askScrub b (s1.wholeOf b) with secBox := 0 }).startScrubs

end Sys2Proof.Machine
end

