-- ==== Sys2Proof/Machine/Jobs.lean ====
section
/-! DEFINITION. Launch queues, the dispatcher, placement, and the start and end of jobs (R26 to R33, R38, R48, R127, R134 to
R139, R157, R161, R275, R276, R423, R435, R436, R438). -/

namespace Sys2Proof.Machine

open Sys2Proof State

/-! ### Priority (R29) -/

/-- Effective priority (R29). -/
def effective (s : State) (prio since : Nat) : Nat := Nat.min 7 (prio + (s.now - since) / 2 ^ 20)

/-! ### Far memory as the host die reads it (R424, R436) -/

/-- The blocks of a far range. -/
def farBlocks (addr len : Nat) : List Nat :=
  if len = 0 then [] else (List.range ((addr + len - 1) / 4096 - addr / 4096 + 1)).map fun i => addr / 4096 + i
/-- A far block is stored encrypted: its metadata line, its channel or an entry of a secure job that maps it is of the secure world
(R436; log 33). -/
def farSecure (s : State) (b : Nat) : Bool :=
  (s.line (100663296 + b)).world || s.worldOf (.channel (256 + b / 16777216)) ||
  s.jobs.rows.any fun r => r.2.key && (s.mappedBlocks r.2.record).any fun x =>
    x.2.2 && decide (x.1 ≤ 100663296 + b) && decide (100663296 + b < x.2.1)
/-- The stored form of a far block: plain, or XTS-AES-256 under the key of the secure job that holds its channel, with its
block number as tweak (R436). -/
def stored (s : State) (b n : Nat) : Nat :=
  let x := s.load (fBase + 4096 * b) 4096
  if !(farSecure s b) then x
  else match s.jobs.rows.find? fun r => r.2.key && recChan r.2.record (256 + b / 16777216) with
    | some r => ofLe (xtsEncrypt (leBytes 64 (Config.xtsKey r.1).toNat) b (leBytes 4096 x))
    | none => Config.cipher (2 ^ 30 * n + b) % 2 ^ 32768
/-- Bytes of far memory in their stored form; `n` numbers the ciphertext that no key opens. -/
def storedBytes (s : State) (addr len n : Nat) : Nat :=
  (farBlocks addr len).foldr (fun b acc => stored s b n + 2 ^ 32768 * acc) 0 / 2 ^ (8 * (addr % 4096)) % 2 ^ (8 * len)
/-- What the dispatcher reads of a record, an image or a slab map: a block of the secure world as its ciphertext (R424). -/
def hostLoad (s : State) (addr len : Nat) : Nat :=
  if (farBlocks addr len).any (farSecure s) then storedBytes s addr len (2 ^ 64 + s.now) else s.load (fBase + addr) len

/-! ### Enqueue and control (R27, R135 to R139, R423) -/

/-- An address in far memory with its low bits 0. -/
def farOk (a low : Nat) : Bool := decide (a < 2 ^ 41) && decide (a % low = 0)

/-- A record is rejected for what it holds itself (R27, R136). -/
def badRecord (q : LQueue) (r : BitVec 2048) : Bool :=
  decide (recRows r = 0#32) || decide (r.extractLsb' 48 16 ≠ 0#16) || decide (r.extractLsb' 13 3 ≠ 0#3) ||
  decide (r.extractLsb' 544 32 ≠ 0#32) || decide (r.extractLsb' 647 57 ≠ 0#57) || decide (r.extractLsb' 1280 768 ≠ 0#768) ||
  !(farOk (recImage r) 4096) || !(farOk (recRt r) 4096) || !(farOk (recPt r) 4096) || !(farOk (recSlabmap r) 64) ||
  decide (95 < recSave r + 1) || (recWorld r && !q.secure)
/-- A record is rejected: its slab map also grants the save slabs of its rows (R136). -/
def rejected (s : State) (q : LQueue) (r : BitVec 2048) : Bool :=
  badRecord q r || ((recCtxs r).any fun c => [0, 1].any fun i =>
    let k := 96 * stackOf c 0 + recSave r + i
    !((hostLoad s (recSlabmap r) 3072).testBit k))

/-- The outcome of an enqueue (R396): stored as queued or rejected, or nothing stored. -/
def enqueueCode (s : State) (n : Nat) (r : BitVec 2048) : Nat :=
  let q := s.queue n
  if !q.en then 0x101 else if 32 ≤ q.ents.length then 0x100 else if rejected s q r then 4 else 0

/-- The dispatcher decides in a cycle in which a record waits, after the enqueues of that cycle (R29, R139; log 4). -/
def wantDecision (s : State) : State :=
  if s.agenda.any fun e => e.act == .dispatchDecision then s else s.after .chip 0 Cursor.none 0 .dispatchDecision

/-- Store a record that is not refused. -/
def enqueue (s : State) (n : Nat) (r : BitVec 2048) : State :=
  let k := enqueueCode s n r
  if 0x100 ≤ k then s
  else
    let q := s.queue n
    let st := BitVec.ofNat 8 k
    let e : QEntry := { id := s.nextId, record := (r &&& ~~~(255#2048)) ||| st.setWidth 2048, status := st, job := 0 }
    wantDecision (putQueue s.bump n { q with ents := q.ents ++ [e] } false)

/-- Fill in the outcome of a LAUNCH in its pending landing, in the agenda or in the frozen record (R148, R396). -/
def fillLaunch (s : State) (c id d : Nat) (x : Word) : State :=
  let f := fun (e : Sched) => match e.act with
    | .resultLanding g => if g.id = id then { e with act := .resultLanding { g with writes := [.s d x] } } else e
    | _ => e
  let s1 : State := { s with agenda := s.agenda.map f }
  s1.modCtx c fun y => { y with frz := y.frz.map fun z => { z with items := z.items.map fun i => (i.1, f i.2) } }

/-- A record of the host waits for its check while the far channel of its slab map has an owner (R424; log 50). -/
def mapWaits (s : State) (n : Nat) (r : BitVec 2048) : Bool :=
  let q := s.queue n
  q.en && decide (q.ents.length < 32) && !(badRecord q r) && (s.chan (256 + recSlabmap r / 2 ^ 36)).owner.isSome
/-- A virtual function reaches a queue: its map says so, and neither its world nor an outstanding scrub of it forbids it (R138, R165,
R423; log 114). -/
def vfReaches (s : State) (n queue : Nat) : Bool :=
  decide (n < 256) && (s.qmap.get 0#64 n).getLsbD queue && !(s.refused.contains (.vf n)) &&
  (!(s.queue queue).secure || s.worldOf (.vf n))

/-- LAUNCH_RECORD_WRITE: a record reaches the tail of a launch queue; a virtual function only reaches the queues of its
map. One of the host waits while its slab map cannot be read (R27, R139, R396, R423, R424). -/
def execLaunchRecordWrite (who : Requester) (queue : Nat) (rec : BitVec 2048) (s : State) : Host.Outcome State Fault Refusal :=
  let host := fun (_ : Unit) => if mapWaits s queue rec then s.repost .chip 1 s.arg (.launchRecordWrite who queue rec)
    else { enqueue s queue rec with mailbox := enqueueCode s queue rec }
  match who with
  | .core c id d => .next (fillLaunch (enqueue s queue rec) c id d (BitVec.ofNat 64 (enqueueCode s queue rec)))
  | .pf => .next (host ())
  | .vf n => if vfReaches s n queue then .next (host ()) else .next { s with mailbox := 0x101 }

/-- QMAP_WRITE: the map of one of the 256 virtual functions changes for queues that hold no record; a secure queue is not given to a
function of the non-secure world (R2, R423). -/
def execQmapWrite (vf : Nat) (x : Word) (s : State) : Host.Outcome State Fault Refusal :=
  let old := s.qmap.get 0#64 vf
  let bad := decide (256 ≤ vf) || (List.range 64).any fun q =>
    (old.getLsbD q != x.getLsbD q && decide ((s.queue q).ents ≠ [])) ||
    (x.getLsbD q && (s.queue q).secure && !(s.worldOf (.vf vf)))
  if bad then .next { s with mailbox := 1 } else .next { s with qmap := s.qmap.put 0#64 vf x, mailbox := 0 }

/-- A queue is disabled: its queued and rejected records are cancelled and leave, in order (R139). -/
def disable (s : State) (n : Nat) : State :=
  let q := s.queue n
  let gone := q.ents.filter fun e => e.status == 0#8 || e.status == 4#8
  let s1 := putQueue s n { q with en := false, ents := q.ents.filter fun e => !(e.status == 0#8 || e.status == 4#8) } false
  let s2 : State := { s1 with
    selected := match s1.selected with
      | some x => if x.queue = n ∧ x.job = 0 then none else some x
      | none => none,
    placed := match s1.selected with
      | some x => if x.queue = n ∧ x.job = 0 then false else s1.placed
      | none => false }
  gone.foldl (fun t e => postStatus t n e.id e.record 0 3) s2

/-- QUEUE_DISABLE: a control write of EN = 0 (R139). The number names the queue. -/
def execQueueDisable (s : State) : Host.Outcome State Fault Refusal := .next (disable s s.arg)

/-- A write of a queue's control register (R138). -/
def writeQueueCtl (s : State) (n : Nat) (x : Word) : State :=
  let q := s.queue n
  let empty := decide (q.ents = [])
  let q1 : LQueue := { q with part := if empty then x.extractLsb' 18 6 else q.part, secure := if empty then x.getLsbD 17 else q.secure,
                              priv := x.getLsbD 16, en := q.en || x.getLsbD 15 }
  let s1 := putQueue s n q1 false
  if x.getLsbD 15 then s1 else disable s1 n

/-- REGISTER_WRITE: system software writes a management register (R28, R76, R138, R186, R428, R440). -/
def execRegisterWrite (r : MgmtReg) (x : Word) (s : State) : Host.Outcome State Fault Refusal := match r with
  | .queueCtl q => .next (writeQueueCtl s q x)
  | .perfSelect core i secure =>
    -- OVF is cleared by a 1; SEC is written by secure firmware alone
    let p := s.perfAt (8 * core + i)
    let rw : BitVec 13 := if secure then 4095#13 else 2047#13
    .next (s.setPerf (8 * core + i) { p with sel := (x.setWidth 13 &&& rw) ||| (p.sel &&& ~~~rw &&& ~~~(x.setWidth 13 &&& 4096#13)) })
  | .perfValue core i => .next (s.setPerf (8 * core + i) { s.perfAt (8 * core + i) with val := x.setWidth 48 })
  | .powerLimit =>
    let v := (x.setWidth 13).toNat
    .next { s with powerLimit := BitVec.ofNat 13 (Nat.max 500 (Nat.min 3000 v)) }
  | .sstep c =>
    if (s.ctx c).frz.isSome then .next (s.modCtx c fun y => { y with sstep := x.getLsbD 0 }) else .next { s with mailbox := 1 }
  | .moduleNumber => .next { s with module := x.setWidth 14 }

/-! ### Selection (R29, R30, R31) -/

/-- The candidates: queue, record, chip cycle since which it waits. -/
def candidates (s : State) : List (Nat × QEntry × Nat) :=
  s.queues.rows.filterMap fun r => (candidate s r.2).map fun e => (r.1, e, r.2.candSince.getD s.now)

/-- The candidate that a decision takes: the highest effective priority, then round-robin after the queue last served at
that level. -/
def choose (s : State) : Option Selected :=
  let cs := candidates s
  let lvl := cs.foldl (fun m c => Nat.max m (effective s (recPrio c.2.1.record) c.2.2)) 0
  let at_ := cs.filter fun c => effective s (recPrio c.2.1.record) c.2.2 == lvl
  let from_ := s.rr.get 0 lvl
  match (match at_.find? fun c => decide (from_ ≤ c.1) with
    | some c => some c
    | none => at_.head?) with
  | some c => some { queue := c.1, job := c.2.1.job, since := c.2.2 }
  | none => none

/-- The entry of the selected record. -/
def selEntry (s : State) (x : Selected) : Option QEntry :=
  (s.queue x.queue).ents.find? fun e =>
    if x.job = 0 then e.status == 0#8 else e.status == 2#8 && e.job == x.job

/-- Take a selection: none stays while its placement runs; another takes its place only with a strictly higher effective
priority (R30). -/
def select (s : State) : State :=
  if s.placed then s
  else match s.selected with
    | none => { s with selected := choose s }
    | some x => match selEntry s x with
      | none => { s with selected := choose s }
      | some e =>
        let mine := effective s (recPrio e.record) x.since
        if (candidates s).any fun c => decide (mine < effective s (recPrio c.2.1.record) c.2.2) then
          { s with selected := choose s }
        else s

/-- The slabs that a record names, a job's own once it was placed. -/
def entrySlabs (s : State) (e : QEntry) : BitVec 24576 :=
  if e.job = 0 then BitVec.ofNat 24576 (hostLoad s (recSlabmap e.record) 3072) ||| saveMask e.record else s.slabsOf e.job

/-- A row context or channel of a record is held by a job. -/
def blockers (s : State) (r : BitVec 2048) : List Nat :=
  (((recCtxs r).map fun c => (s.ctx c).job) ++ ((recChans r).filterMap fun ch =>
    (s.chan ch).owner.map fun _ => (s.chan ch).job)).eraseDups.filter fun j => j != 0

/-- A little-endian number at a byte of a job image. -/
def imageAt (s : State) (r : BitVec 2048) (byte n : Nat) : Nat := hostLoad s (recImage r + byte) n

/-- Far memory from an address on lies in channels without an owner. -/
def farFree (s : State) (a n : Nat) : Bool := (List.range ((a + n - 1) / 2 ^ 36 - a / 2 ^ 36 + 1)).all fun i =>
  (s.chan (256 + a / 2 ^ 36 + i)).owner.isNone
/-- Far memory that the dispatcher reads for a record, its whole image included, lies in channels without an owner (R424). -/
def recordReadable (s : State) (r : BitVec 2048) : Bool :=
  farFree s (recSlabmap r) 3072 && farFree s (recRt r) 8192 && farFree s (recImage r) 4096 &&
  farFree s (recImage r) (Nat.max 4096 (imageAt s r 0x10 8 % 2 ^ 41))

/-- The conditions of placement: contexts and channels free, slabs in no other job, no scrub outstanding, no gate (R30, R31,
R78). The slab map of a new record is read for it (R424). -/
def placeable (s : State) (e : QEntry) : Bool :=
  let r := e.record
  let sl := entrySlabs s e
  blockers s r == [] && (e.job != 0 || farFree s (recSlabmap r) 3072) &&
  !((recChans r).any fun ch => (s.chan ch).owner.isSome) && !s.reloading &&
  !(s.jobs.rows.any fun j => j.1 != e.job && j.2.state != .ending && decide (s.slabsOf j.1 &&& sl ≠ 0#24576)) &&
  !(s.refused.any fun b => named r sl b) &&
  !((recCtxs r).any fun c => (List.range 16).any fun col =>
    let k := s.stackAt (stackOf c col)
    k.whole.gated || k.crown.gated)

/-- A stop of a job is decided now: it takes effect at the start of the 16th chip cycle from now (R31, R234, R245). -/
def decideStop (s : State) (j : Nat) : State :=
  let x := s.job j
  if x.stop ∨ x.state = .preempted ∨ x.state = .placing ∨ x.state = .ending then s
  else
    let s1 := s.modJob j fun b => { b with stop := true }
    s1.after .chip 16 Cursor.none j .preemptionStop

/-- The least time of handing over a record's channels, which run in parallel: one tRFCab of the slowest (R32, R127). -/
def handoverTime (r : BitVec 2048) : Nat := (recChans r).foldl (fun m ch => Nat.max m (timOf ch).rfc) 0

/-- The selected record is placed if it can be; with effective priority 7 it pre-empts what holds its contexts and channels
at a lower recorded priority (R30, R31). -/
def tryPlace (s : State) : State :=
  if s.placed then s
  else match s.selected with
    | none => s
    | some x => match selEntry s x with
      | none => s
      | some e =>
        if placeable s e then
          let (n, s1) := s.takeFree
          ({ s1 with placed := true, rr := s1.rr.put 0 (effective s (recPrio e.record) x.since) (x.queue + 1) }).after
            .chip (Nat.max 1 (handoverTime e.record) + Config.placementTime n) Cursor.none x.queue .placement
        else if effective s (recPrio e.record) x.since = 7 then
          ((blockers s e.record).filter fun j => decide (recPrio (s.job j).record < 7)).foldl decideStop s
        else s

/-- The rejected records at the heads of queues leave (R136). -/
def dropRejected (s : State) : State := s.queues.rows.foldl (fun t r => match headEntry r.2.ents with
  | some e => if e.status = 4#8 then t.after .chip 0 Cursor.none r.1 .rejectedRecordLeaves else t
  | none => t) s

/-- DISPATCH_DECISION: the dispatcher selects, and places or pre-empts (R29 to R31). -/
def execDispatchDecision (s : State) : Host.Outcome State Fault Refusal := .next (dropRejected (tryPlace (select s)))

/-- EFFECTIVE_PRIORITY_RISE: a waiting candidate is one level higher; the selection is taken anew (R29, R30). -/
def execEffectivePriorityRise (s : State) : Host.Outcome State Fault Refusal := .next (select s)

/-- REJECTED_RECORD_LEAVES: a rejected record at the head leaves its queue, and its status event is posted (R136). -/
def execRejectedRecordLeaves (s : State) : Host.Outcome State Fault Refusal :=
  let q := s.queue s.arg
  match headEntry q.ents with
  | some e =>
    if e.status = 4#8 then .next (postStatus (putQueue s s.arg { q with ents := q.ents.erase e } false) s.arg e.id e.record 0 4)
    else .next s
  | none => .next s

/-! ### Placement (R32, R38, R48, R127, R157, R161, R276, R435) -/

/-- The row number 16*die + row of a context. -/
def rowBit (c : Nat) : Nat := c / 2

/-- One data section of an image into one stack (R276). -/
def putSection (s : State) (j st slab blk len off : Nat) (r : BitVec 2048) : State :=
  if st < 256 ∧ slab < 96 ∧ (s.job j).slabs.getLsbD (96 * st + slab) then
    s.store (spadAddr st (262144 * slab + 4096 * blk)) len (hostLoad s (recImage r + off) len)
  else s

/-- The data sections of an image (R275, R276). -/
def putSections (s : State) (j : Nat) (r : BitVec 2048) : State :=
  (List.range (Nat.min 240 (imageAt s r 0xC0 4))).foldl (fun t i =>
    let at_ := 0x100 + 16 * i
    let st := imageAt s r at_ 2
    let sts := if st = 0xFFFF then
        (((recCtxs r).map rowNo).eraseDups).flatMap fun row => (List.range 16).map fun col => 16 * row + col
      else [st]
    sts.foldl (fun t st => putSection t j st (imageAt s r (at_ + 2) 1) (imageAt s r (at_ + 3) 1) (imageAt s r (at_ + 4) 4)
      (imageAt s r (at_ + 8) 8) r) t) s

/-- The job measurement: the record with STATUS and USERTAG zeroed, then the image (R435). -/
def jobMeas (s : State) (r : BitVec 2048) : BitVec 512 :=
  let rz := r &&& ~~~(255#2048) &&& ~~~((BitVec.allOnes 64).setWidth 2048 <<< 704)
  let n := imageAt s r 0x10 8
  shake256 (leBytes 256 rz.toNat ++ leBytes n (imageAt s r 0 n))

/-- A partition that receives a placement: an empty one counts afresh from the next module tick M0; the domain cycle of its step 0
is that of its alignment where it spans modules, else 0, and STEP counts from it (R38, R40, R41, R173). -/
def openPart (s : State) (p : Nat) : State :=
  s.modPart p fun x => if x.live then x else
    { Part.init with live := true, holds := x.holds, members := x.members, origin := if x.members = [] then 0 else x.origin,
                     step := if x.members = [] then 0#64 else BitVec.ofNat 64 (-x.origin / 65536).toNat,
                     base := (s.now : Int) + (-(s.cycle.toNat : Int)) % (2 ^ s.tickNow : Nat) }

/-- Range entries 0 to 15 of a job, into the cache of the row of a P context (R157). -/
def loadRow (s : State) (j : Nat) (r : BitVec 2048) (c : Nat) : State :=
  if isQ c then s
  else { s with ranges := s.ranges.put none (rowOf c) (some (j, (List.range 16).map fun n => s.rangeEnt (recRt r) n)) }
/-- The range caches of a job's rows load, and its page translations are dropped there (R151, R157). -/
def loadRanges (s : State) (j : Nat) (r : BitVec 2048) : State :=
  (recCtxs r).foldl (fun t c =>
    loadRow { t with pages := t.pages.put [] (rowOf c) ((t.pages.get [] (rowOf c)).filter fun p => p.job != j) } j r c) s

/-! ### Scratchpad refresh (R38, R105, R107) -/

/-- The bank of an entry of a stack's list of corrections: a codeword, or past 2^40 a slot. -/
def fixBank (x : Nat) : Nat := bankOfSlot (if 2 ^ 40 ≤ x then x - 2 ^ 40 else x / 128)
/-- A bank performs a refresh window: it pays one that is owed and writes back what reads of it corrected (R38, R107). -/
def refreshBank (s : State) (st q : Nat) : State :=
  let mine := fun (x : Nat) => decide (fixBank x = 16 * st + q)
  let done := (s.stackAt st).fixes.filter mine
  let s1 : State := { s with
    bad := ⟨s.bad.rows.filter fun r => !(done.contains r.1 && decide (badCount r.2 < 2))⟩,
    badMeta := ⟨s.badMeta.rows.filter fun r => !(done.contains (2 ^ 40 + r.1) && decide (badCount r.2 < 2))⟩ }
  s1.modStack st fun k =>
    { k with owed := k.owed.put 0 q (k.owed.get 0 q - 1), fixes := k.fixes.filter fun x => !(mine x) }
/-- The refresh windows that a stack's frame skips as its position goes from one to another are performed (R38). -/
def skipWindows (s : State) (st from_ to_ : Nat) : State :=
  (List.range 16).foldl (fun t q =>
    let n := (256 * q + 4096 - from_) % 4096
    if 0 < n ∧ n ≤ (to_ + 4096 - from_) % 4096 then refreshBank t st q else t) s
/-- The frames of the stacks that a placement's brim P contexts drive take their clock's position; `s` is the state before (R38). -/
def takeFrames (s : State) (r : BitVec 2048) (t : State) : State :=
  ((recCtxs r).filter fun c => decide (c < 32) && !(isQ c)).foldl (fun t c => (List.range 16).foldl (fun t col =>
    let st := stackOf c col
    skipWindows t st (s.frameIn st 0) (t.frameIn st 0)) t) t

/-- The granted channels pass to a job: the k-th to its (k mod m)-th row; banks closed, counters and debts 0 (R127, R161,
R176, R178). -/
def grantChans (s : State) (j : Nat) (r : BitVec 2048) : State :=
  let cs := recCtxs r
  let chs := recChans r
  (List.range chs.length).foldl (fun t k => t.modChan (chs.getD k 0) fun x =>
    { Chan.init with owner := some (cs.getD (k % cs.length) 0), job := j, world := recWorld r, cmds := x.cmds, soft := x.soft,
                     fuses := x.fuses, swaps := x.swaps, lastScrub := x.lastScrub }) s

/-- A context of a newly placed job: every register at its reset value but for those the record and image give (R48,
R60). The window length in force takes the reset WIN at once: R71 gives its wait for a frame-clock multiple of 64 only for a
program's write, and no array command of the job is under way (log 102). -/
def placeCtx (s : State) (j n : Nat) (q : LQueue) (r : BitVec 2048) (c : Nat) : State :=
  let x := s.ctx c
  let s1 := s.setCtx c
    { Ctx.init with
      job := j, queue := BitVec.ofNat 6 n, prio := BitVec.ofNat 3 (recPrio r), priv := q.priv, world := recWorld r,
      timed := !(isQ c), rowoff := BitVec.ofNat 8 (imageAt s r (0x20 + rowBit c) 1),
      args := (List.range 8).foldl (fun a i => a.put 0#64 i (recArg r i)) .empty,
      pc := imageAt s r (0x40 + 4 * rowBit c) 4, seq := x.seq }
  let s2 := (List.range 16).foldl (fun t col =>
    let t1 := (t.setCore c col CoreCtx.init)
    let t2 := (List.range 2).foldl (fun t i => t.modPeel (2 * coreKey c col + i) fun _ => Peel.init) t1
    let t3 := (List.range 64).foldl (fun t i => t.modGent (64 * coreKey c col + i) fun _ => GEnt.init) t2
    if c < 32 ∧ !(isQ c) then t3.modStack (stackOf c col) fun k => { k with win := 1#2, force := 1#2, arr := [] } else t3) s1
  s2

/-- Domain cycles from now to the start tick: the first tick of the partition at least 64 cycles on (R32). -/
def toStart (s : State) (p : Nat) : Nat :=
  let d := s.dom p + 64
  let t := (2 ^ s.tickNow : Nat)
  let up := (d + (t : Int) - 1) / (t : Int) * (t : Int)
  ((if up < 0 then 0 else up) - s.dom p).toNat

/-- The next job number (R65). -/
def nextJobNumber (n : BitVec 32) : BitVec 32 := if n = BitVec.allOnes 32 then 1#32 else n + 1#32

/-- Place a new record: its job, partition, contexts, channels, range caches and data; it starts at its tick. -/
def placeNew (s : State) (n : Nat) (e : QEntry) : State :=
  let j := s.nextJob.toNat
  let q := s.queue n
  let p := q.part.toNat
  let r := (e.record &&& ~~~(255#2048)) ||| 1#2048
  let job : Job :=
    { Job.init with record := r, queue := n, state := .waiting, part := p,
                    slabs := BitVec.ofNat 24576 (hostLoad s (recSlabmap r) 3072), extent := imageAt s r 0x10 8,
                    meas := if recWorld r then some (jobMeas s r) else none, key := recWorld r, order := s.jobOrder }
  let s1 : State := { s with jobs := s.jobs.put Job.init j job, nextJob := nextJobNumber s.nextJob, jobOrder := s.jobOrder + 1,
                             fromQueue := s.fromQueue.put 0 j (n + 1) }
  let s2 := putQueue s1 n { q with ents := q.ents.map fun x => if x.id = e.id then { x with record := r, status := 1#8, job := j } else x } true
  let s3 := takeFrames s r ((recCtxs r).foldl (fun t c => placeCtx t j n q r c) (openPart s2 p))
  let s4 := putSections (loadRanges (grantChans s3 j r) j r) j r
  (postStatus s4 n e.id r j 1).after (.part p) (toStart s4 p) Cursor.none j .jobStart

/-! ### Restart of a frozen job: when (R126, R240) -/

/-- Chip cycles that re-opening the rows of a job's channels takes: activates at tRRD and tFAW, then tRAS (R126). -/
def reopenTime (s : State) (j : Nat) : Nat := s.chans.rows.foldl (fun m r =>
  if r.2.owner.isSome ∧ r.2.job = j ∧ r.2.rows.rows ≠ [] then
    let t := timOf r.1
    Nat.max m ((openTimes t r.2.rows.rows.length 0 []).foldl Nat.max 0 + t.ras)
  else m) 0

/-- The cycles from now to the restart of contexts frozen at F: at least 4,096 domain cycles on, at F modulo 65,536 (R240). -/
def toRestart (s : State) (p : Nat) (f : Int) : Nat := 4096 + ((f - (s.dom p + 4096)) % 65536).toNat

/-- A frozen context begins its reload: its restart cycle is fixed (R240). -/
def beginCtx (s : State) (p c : Nat) : State := match (s.ctx c).frz with
  | none => s
  | some f =>
    let n := toRestart s p f.f
    (s.modCtx c fun x => { x with frz := some { f with restart := some (s.dom p + (n : Int)) } }).after (.part p) n Cursor.none
      (ofCtx c) .jobRestart

/-- A context is frozen by a power gate (FSTATE[2], R246, R446). -/
def gateFrozen (s : State) (c : Nat) : Bool := match (s.ctx c).frz with
  | some f => f.state.getLsbD 2
  | none => false

/-- A gate of the row of a stack holds a context: a closed or closing crown gate its crown contexts, a closed or closing whole-stack
gate all (R246, R446). -/
def heldByGate (s : State) (c : Nat) : Bool := (List.range 16).any fun col =>
  let k := s.stackAt (stackOf c col)
  k.whole.gated || k.whole.gating || (dieOf c == 1 && (k.crown.gated || k.crown.gating))
/-- Frozen contexts that a gate holds are frozen by it as well (FSTATE[2], R239; log 69). -/
def holdAtGate (s : State) (cs : List Nat) : State := cs.foldl (fun t c => raiseFstate t c 4#5) s

/-- A frozen job begins its reload, but for contexts that a gate holds; a pre-empted one re-opens its rows in hold ticks
(R35, R126, R240, R246, R446). -/
def beginRestart (s0 : State) (j : Nat) (reopen : Bool) : State :=
  let p := (s0.job j).part
  let s := holdAtGate s0 ((s0.ctxsOf j).filter fun c => heldByGate s0 c)
  let cs := (s.ctxsOf j).filter fun c => (s.ctx c).frz.isSome && !(gateFrozen s c)
  if cs = [] then s.modJob j fun x => { x with state := .running }
  else
    let s2 := cs.foldl (fun t c => beginCtx t p c) s
    let t := reopenTime s j
    if reopen ∧ 0 < t then (startHold s2 p (.reopen j)).after .chip t Cursor.none 0 (.holdRunEnd p (.reopen j)) else s2

/-- A restart under way is called off: a stop or an end command comes first. Its hold run ends now, or with the guard sequence that
runs (R123). -/
def cancelRestart (s : State) (j : Nat) : State :=
  let p := (s.job j).part
  let t := s.dropRestart (s.ctxsOf j)
  let u : State := { t with agenda := t.agenda.filter fun e => e.act != .holdRunEnd p (.reopen j) }
  if (s.part p).causes.contains (.reopen j) || (s.part p).fresh.contains (.reopen j) then
    u.after .chip 0 Cursor.none 0 (.holdRunEnd p (.reopen j)) else u

/-- Place a pre-empted record again: its contexts come back frozen with all they held, its channels are owned again with a hold
debt of 0, and unless a trap keeps it frozen its restart begins (R31, R126, R161, R240, R245). -/
def placeAgain (s : State) (n : Nat) (e : QEntry) : State :=
  let j := e.job
  let q := s.queue n
  let r := (e.record &&& ~~~(255#2048)) ||| 1#2048
  let s1 := putQueue s n { q with ents := q.ents.map fun x => if x.id = e.id then { x with record := r, status := 1#8 } else x } true
  let s2 := takeFrames s r <| (s.job j).saved.foldl (fun t v =>
    let t1 := t.setCtx v.ctx v.record
    let t2 := v.cores.foldl (fun t x => { t with cores := t.cores.put CoreCtx.init x.1 x.2 }) t1
    let t3 := v.peels.foldl (fun t x => t.modPeel x.1 fun _ => x.2) t2
    let t4 := v.chans.foldl (fun t x => t.modChan x.1 fun y =>
      { x.2 with cmds := y.cmds, soft := y.soft, fuses := y.fuses, swaps := y.swaps, lastScrub := y.lastScrub, holdDebt := 0 }) t3
    let t5 := v.fifos.foldl (fun t x => t.modStack x.1 fun k =>
      if dieOf v.ctx = 0 then { k with down := x.2 } else { k with up := x.2 }) t4
    v.gops.foldl (fun t g => t.modGent g.1 fun _ => g.2) { t5 with waiting := t5.waiting ++ v.waits }) s1
  let s3 := loadRanges (s2.modJob j fun x =>
    { x with state := .frozen, stop := false, saved := x.saved.map fun v => { v with gops := [], waits := [] } }) j r
  let s4 := postStatus s3 n e.id r j 1
  if (s.job j).trapped then s4 else beginRestart s4 j true

/-- A Q occupancy in the row of one of a record's P contexts has not ended (R259). -/
def qOccupied (s : State) (r : BitVec 2048) : Bool := (recCtxs r).any fun c =>
  let q := s.ctx (c + 1)
  !(isQ c) && decide (q.job ≠ 0) && q.frz.isNone && q.occ.any fun o => decide (o.unit < 8) && decide (s.rowClk (rowOf c) < o.from_ + o.len)

/-- PLACEMENT: the selected record is placed, unless a block of it is being scrubbed again; it waits while its far memory is owned or
a Q word occupies a unit of its rows (R30, R32, R259, R424, R438). -/
def execPlacement (s : State) : Host.Outcome State Fault Refusal :=
  match s.selected with
  | none => .next { s with placed := false }
  | some x => match selEntry s x with
    | none => .next { s with placed := false, selected := none }
    | some e =>
      if !(placeable s e) then .next { s with placed := false }
      else if !(recordReadable s e.record) || qOccupied s e.record then .next (s.repost .chip 1 s.arg .placement)
      else
        let s1 : State := { s with placed := false, selected := none }
        .next (if e.job = 0 then placeNew s1 x.queue e else placeAgain s1 x.queue e)

/-- JOB_START: at its start tick every row of the job issues ROWOFF cycles on, but for one that a gate has frozen (R32, R246). The
number names the job. -/
def execJobStart (s : State) : Host.Outcome State Fault Refusal :=
  let j := s.arg
  if (s.job j).state ≠ .waiting then .next s
  else
    .next ((s.ctxsOf j).foldl (fun t c => t.modCtx c fun x => if x.frz.isSome then x else
      { x with since := t.rowClk (rowOf c), due := t.rowClk (rowOf c) + x.rowoff.toNat, dueDelayed := false, lastIssue := t.dom (s.job j).part })
      (s.modJob j fun b => { b with state := .running }))

/-! ### Release (R33, R78, R137, R164, R436, R438) -/

/-- Everything pending of a context is dropped. -/
def dropCtx (s : State) (c : Nat) : State :=
  let s1 : State := { s with agenda := s.agenda.filter fun e => e.cur.ctx != c || e.cur == Cursor.none,
                             waiting := s.waiting.filter fun w => w.cur.ctx != c }
  (List.range 16).foldl (fun t col =>
    let t2 := (List.range 2).foldl (fun t i => t.modPeel (2 * coreKey c col + i) fun _ => Peel.init) t
    (List.range 64).foldl (fun t i => t.modGent (64 * coreKey c col + i) fun _ => GEnt.init) t2) s1

/-- A context becomes free. -/
def freeCtx (s : State) (c : Nat) : State :=
  let s1 := (dropCtx s c).setCtx c { Ctx.init with seq := (s.ctx c).seq }
  let s2 : State := if isQ c then s1 else { s1 with ranges := s1.ranges.put none (rowOf c) none }
  if c < 32 ∧ !(isQ c) then
    (List.range 16).foldl (fun t col => t.modStack (stackOf c col) fun k => { k with arr := [] }) s2 else s2

/-- The dispatcher clears the gate requests of stacks whose rows hold no resident context (R78). -/
def clearGates (s : State) (c : Nat) : State :=
  let row := rowNo c
  if [2 * row, 2 * row + 1, 32 + 2 * row, 33 + 2 * row].any fun d => (s.ctx d).job ≠ 0 then s
  else (List.range 16).foldl (fun t col =>
    let st := 16 * row + col
    let k := t.stackAt st
    let t1 := if k.crown.req then t.after .chip 0 Cursor.none st .pgateCreqClear else t
    if k.whole.req then t1.after .chip 0 Cursor.none st .pgateSreqClear else t1) s

/-- A channel loses its owner; its banks are closed (R124). -/
def freeChan (s : State) (ch : Nat) : State :=
  let s1 := (s.chan ch).rows.rows.foldl (fun t r => closeBank t ch r.1) s
  s1.modChan ch fun x => { Chan.init with cmds := x.cmds, soft := x.soft, fuses := x.fuses, swaps := x.swaps, lastScrub := x.lastScrub }

/-- A partition is empty once no resident, frozen or pre-empted job is left (R38). -/
def closePart (s : State) (p : Nat) : State :=
  if s.jobs.rows.any fun r => r.2.part == p && r.2.state != .ending then s
  else s.modPart p fun x => { x with live := false, still := false, causes := [], fresh := [], boundary := none, limits := [] }

/-- A job's contexts, channels and slabs are released and join the scrub queue; its ring entries and translations go; its
record leaves once the release has reached the scrub queue. Of one that was pre-empted its slabs and its regions are scrubbed, the
channels being no longer its own (R33, R137, R164, R438; log 33). -/
def releaseJob (s : State) (j : Nat) : State :=
  let b := s.job j
  let r := b.record
  let resident := b.state != .preempted
  let ctxs := if resident then recCtxs r else []
  let regions := if recChans r = [] then [] else s.mappedBlocks r
  let chs := if resident then recChans r else (recChans r).filter fun ch => regionsIn regions ch != []
  let slabs := s.slabsOf j
  let s1 := (if resident then chs else []).foldl freeChan (ctxs.foldl freeCtx (cancelRestart s j))
  let s2 : State := { s1 with
    pages := s1.pages.mapRows [] fun _ l => l.filter fun p => p.job != j,
    stack := s1.stack.mapRows Stack.init fun _ k => { k with rings := ringsClear k.rings j } }
  let blocks := ctxs.map HwBlock.context ++
    ((List.range 24576).filter fun i => slabs.getLsbD i).map (fun i => HwBlock.slab (i / 96) (i % 96)) ++ chs.map HwBlock.channel
  let s3 := closePart (s2.modJob j fun x => { x with state := .ending }) b.part
  let s4 := finishReleases (blocks.foldl (fun t x => t.askScrub x (match x with
    | .channel ch => regionsIn regions ch
    | _ => [])) s3).startScrubs
  let s5 : State := { s4 with agenda := s4.agenda.filter fun e => !(((e.act == .jobStart || e.act == .preemptSaveComplete) &&
    (e.arg % 2 ^ 42 == j || ctxs.any fun c => e.arg % 2 ^ 42 == ofCtx c)) || (e.act == .preemptionStop && e.arg == j)) }
  ctxs.foldl clearGates s5

/-- JOB_END: every context has halted and all that they started is done; the job is released (R33). The number names the
job. -/
def execJobEnd (s : State) : Host.Outcome State Fault Refusal :=
  if (s.job s.arg).record = 0#2048 then .next s else .next (releaseJob s s.arg)

end Sys2Proof.Machine
end

