-- ==== Sys2Proof/Machine/Save.lean ====
section
/-! DEFINITION. The save area of a frozen context as bytes in its save slabs (R147, R166, R237 to R239), and the fields of
it that the host may rewrite (R241). -/

namespace Sys2Proof.Machine

open Sys2Proof State

/-! ### Tables (R162, R163, R166, R238) -/

/-- A sequence entry of a ring table. -/
def ringBits (r : Ring) : Nat :=
  2 ^ 52 * r.base + 2 ^ 65 * r.slotblk + 2 ^ 71 * r.nslot + 2 ^ 77 * r.head + 2 ^ 83 * r.fslot + 2 ^ 89 * r.fseq +
    (if r.forked then 2 ^ 93 else 0) + (if r.world then 2 ^ 94 else 0) + (if r.v then 2 ^ 95 else 0) + 2 ^ 96 * r.job

/-- A ring slot record. -/
def ringSlotBits (x : RingSlot) : Nat :=
  x.key.toNat + 2 ^ 32 * x.ref + (if x.pin then 2 ^ 38 else 0) + if x.valid then 2 ^ 39 else 0

/-! ### The slab of a core (R237) -/

/-- The FIFO that a P context of a die consumes at a stack. -/
def consumed (s : State) (c col : Nat) : Fifo :=
  let k := s.stackAt (stackOf c col)
  if isQ c then .init else if dieOf c = 0 then k.down else k.up

/-- What a channel record holds (R176, R178, R239): the number, the open rows, the bindings, the counters that still run, the debts
with their phases. -/
def chanFields (x : Chan) (ch : Nat) : List Nat :=
  let left := fun (d : Nat) => d - x.clk
  let per := fun (t : Tbl Nat) (n : Nat) => (List.range n).map fun i => left (t.get 0 i)
  [ch] ++ (List.range 16).map (fun b => x.rows.get 0 b) ++ [x.binds.length, x.binds.getD 0 0, x.binds.getD 1 0] ++
  per x.actRw 16 ++ per x.actPre 16 ++ per x.preAct 16 ++ per x.rwPre 16 ++ per x.rdPre 16 ++ per x.ccdl 4 ++ per x.faw 4 ++
  [left x.ccds, left x.rrd, x.fawPtr, left x.wtr, left x.rtw, left x.rfc, x.lastAct.elim 0 Nat.succ, x.lastGroup.elim 0 Nat.succ,
   left x.lastPre, twos 8 x.progDebt, x.progPhase, x.holdDebt, x.holdPhase]

/-- The counts of the FIFO that a core consumes, and its entries (R144, R237). -/
def countPuts (ff : Fifo) : List SavePut := [⟨0xC80, 4, ff.pushes % 2 ^ 32⟩, ⟨0xC84, 4, ff.popped % 2 ^ 32⟩]
/-- Its entries, oldest first. -/
def fifoPuts (ff : Fifo) : List SavePut :=
  saveRow (49 * 4096) 256 (Nat.min 16 ff.rows.length) fun i => (ff.rows.getD i (0#2048, 0)).1.toNat
/-- The FIFO that a core consumes goes into the frozen record after the save (R144, R446). -/
def syncFifo (s : State) (c col : Nat) (ff : Fifo) : State :=
  resave (resave s c col 0xC80 0xC88 fun _ _ => countPuts ff) c col (49 * 4096) (50 * 4096) fun _ _ => fifoPuts ff

/-- The core control block. -/
def controlPuts (s : State) (c col : Nat) (f : Frz) (ff : Fifo) : List SavePut :=
  let k := s.core c col
  let x := s.ctx c
  saveRow 0 8 32 (fun n => if n = 0 then 0 else (k.s.get 0#64 n).toNat) ++
  [⟨0x100, 1, k.p.toNat ||| 1⟩, ⟨0x108, 8, k.flags.toNat⟩, ⟨0x110, 8, k.round.toNat⟩, ⟨0x118, 16, k.randKey.toNat⟩,
   ⟨0x128, 8, k.randPos.toNat⟩, ⟨0x130, 8, k.randFill⟩] ++
  saveRow 0x140 32 (Nat.min 3 k.pendH.length) (fun n =>
    let w := k.pendH.getD n (0, 0#128, 0)
    Config.saveLayout 0 (packed 128 [w.1, w.2.1.toNat, w.2.2 - x.seq]) % 2 ^ 256) ++
  saveRow 0x200 16 4 (fun n => (k.g.get 0#128 n).toNat) ++ saveRow 0x240 16 8 (fun n => (k.h.get 0#128 n).toNat) ++
  saveRow 0x400 256 4 (fun n => (k.e.get 0#2048 n).toNat) ++
  saveRow 0x800 128 8 (fun n => if n = 0 then 2 ^ 1024 - 1 else (k.k.get 0#1024 n).toNat) ++
  (if isQ c then [⟨0xC40, 64, Config.saveLayout 1 (packed 64 [x.pc, f.nextOff]) % 2 ^ 512⟩] else []) ++
  countPuts ff

/-- The row record, in core 0's slab (R239). -/
def recordPuts (s : State) (c : Nat) (f : Frz) : List SavePut :=
  let x := s.ctx c
  let t : State := { s with cur := { Cursor.none with ctx := c, timed := x.timed } }
  let ctl := fun n => (ctlRead t n).toNat
  let b := 50 * 4096
  let lat := x.latch.filter fun l => decide (f.rowF < l.at_ + 30)
  [⟨b, 8, x.pc⟩, ⟨b + 8, 8, f.nextOff⟩] ++
  saveRow (b + 0x10) 8 15 (fun i => ctl ([0x002, 0x001, 0x013, 0x041, 0x050, 0x051, 0x060].getD i (0x070 + (i - 7)))) ++
  (List.range x.loops.length).map (fun i =>
    let l := x.loops.getD i ⟨0#32, 0, 0⟩
    ⟨b + 0x88 + 16 * i, 16, l.count.toNat + 2 ^ 32 * l.start + 2 ^ 80 * l.stop⟩) ++
  [⟨b + 0xC8, 8, (f.wins.head?.map fun w => w.2.toNat).getD 0⟩, ⟨b + 0xD0, 8, if !(isQ c) && f.cmode then 1 else 0⟩,
   ⟨b + 0xD8, 8, twos 64 f.f⟩, ⟨b + 0xE0, 8, f.state.toNat⟩, ⟨b + 0xE8, 1, lat.length⟩] ++
  (List.range (Nat.min 30 lat.length)).flatMap (fun i =>
    let l := lat.getD i ⟨0, 0, []⟩
    saveRow (b + 0xF0 + 32 * i) 4 l.words.length (fun j => (l.words.getD j 0#32).toNat) ++
    [⟨b + 0xF0 + 32 * i + 28, 1, l.words.length⟩, ⟨b + 0xF0 + 32 * i + 29, 1, twos 8 ((l.at_ : Int) - (f.rowF : Int))⟩])

/-- The channels that a context owns, ascending. -/
def chansOf (s : State) (c : Nat) : List Nat := (s.chans.rows.filter fun r => r.2.owner == some c).map Prod.fst

/-- Every field of the slab of a frozen core that is not 0. -/
def savePuts (s : State) (c col : Nat) (f : Frz) : List SavePut :=
  let k := s.core c col
  -- the FIFO that the core consumes, as it was at F (R235, R414)
  let ff := ((f.counts.find? fun x => x.1 == stackOf c col).map Prod.snd).getD (consumed s c col)
  let crownGate := f.state.getLsbD 2 && f.fifo == []
  let chs := chansOf s c
  controlPuts s c col f ff ++
  saveRow 4096 24 64 (fun i => gentBits (s.gent (64 * coreKey c col + i))) ++
  saveRow 8192 4096 16 (fun n => (k.v.get 0#32768 n).toNat) ++
  saveRow (18 * 4096) 8192 4 (fun n => (k.z.get 0#65536 n).toNat) ++
  inFlightPuts s c f col ++
  (List.range 2).flatMap (fun i => peelPuts s (2 * coreKey c col + i) i f.rowF) ++
  ((s.stackAt (stackOf c col)).rings.rows.filter fun r => r.2.v && r.2.job == (s.ctx c).job).flatMap (fun r =>
    ⟨47 * 4096 + 512 * r.1, 16, ringBits r.2⟩ ::
      r.2.slots.rows.map fun x => ⟨47 * 4096 + 512 * r.1 + 16 + 5 * x.1, 5, ringSlotBits x.2⟩) ++
  (if crownGate then [] else fifoPuts ff) ++
  (if col = 0 then recordPuts s c f ++ [⟨50 * 4096 + 0x4B0, 4, chs.length⟩] ++
    saveRow (51 * 4096) 160 (Nat.min 288 chs.length) (fun i =>
      Config.saveLayout 2 (packed 32 (chanFields (s.chan (chs.getD i 0)) (chs.getD i 0))) % 2 ^ 1280) else [])

/-- A core's save slab is written whole: its fields, and 0 elsewhere. -/
def saveCore (s : State) (c col : Nat) (f : Frz) : State :=
  let b := saveBase s c col
  let t : State := { s with mem := memClear s.mem b (b + 262144) }
  (savePuts s c col f).foldl (fun t p => if p.val = 0 then t else t.store (b + p.at_) p.len p.val) t

/-- The cells of the slab that core c of a context saves into. -/
def slabCells (s : State) (c col : Nat) : List Host.Cell :=
  let b := saveBase s c col
  memBelow (memFrom s.mem b) (b + 262144)

/-- A frozen context's save area is written, and the management core keeps its copy (R235, R237, R241). -/
def saveCtx (s : State) (c : Nat) : State := match (s.ctx c).frz with
  | none => s
  | some f =>
    let s2 := (List.range 16).foldl (fun t col => saveCore t c col f) s
    s2.modCtx c fun x => { x with frz := x.frz.map fun f => { f with copy := (List.range 16).flatMap fun col => slabCells s2 c col } }

/-! ### Rewriting by the host (R241) -/

/-- A byte of core col's slab that the host may rewrite: the s, p, v, k, z, e, g and h registers, FLAGS and ROUND, and in core 0's
slab ARG0 to ARG7 (R237, R239, R241). -/
def hostByte (col o : Nat) : Bool :=
  decide (o < 0x101) || (decide (0x108 ≤ o) && decide (o < 0x118)) || (decide (0x200 ≤ o) && decide (o < 0x2C0)) ||
  (decide (0x400 ≤ o) && decide (o < 0xC00)) || (decide (8192 ≤ o) && decide (o < 26 * 4096)) ||
  (col == 0 && decide (50 * 4096 + 0x48 ≤ o) && decide (o < 50 * 4096 + 0x88))

/-- The cells of core col's slab that are the host's to rewrite, or those that are not, of a list. -/
def cellsFor (s : State) (c col : Nat) (host : Bool) (l : List Host.Cell) : List Host.Cell :=
  let b := saveBase s c col
  l.filter fun x => decide (b ≤ x.1) && decide (x.1 < b + 262144) && hostByte col (x.1 - b) == host

/-- A byte outside the permitted fields of a frozen context's save area differs from the management core's copy (R241). -/
def edited (s : State) (c : Nat) : Bool := match (s.ctx c).frz with
  | some f => (List.range 16).any fun col => cellsFor s c col false s.mem != cellsFor s c col false f.copy
  | none => false

/-- A core's registers as its save slab holds them: s0, p0 and k0 keep their values, a shape and an address generator their stored
forms; a reserved ROUND leaves the mode as it was (R46, R57, R59, R68, R73, R145, R240, R241). -/
def reloadCore (s : State) (b : Nat) (k : CoreCtx) : CoreCtx :=
  let w := fun (o n : Nat) => s.load (b + o) n
  let tbl := fun {w' : Nat} (d : BitVec w') (n o len : Nat) =>
    (List.range n).foldl (fun (t : Tbl (BitVec w')) i => t.put d i (BitVec.ofNat w' (w (o + len * i) len))) .empty
  { k with
    s := (tbl 0#64 32 0 8).put 0#64 0 0#64, p := BitVec.ofNat 8 (w 0x100 1) ||| 1#8, flags := BitVec.ofNat 5 (w 0x108 8),
    round := if w 0x110 8 % 8 < 5 then BitVec.ofNat 3 (w 0x110 8) else k.round,
    randKey := BitVec.ofNat 128 (w 0x118 16), randPos := BitVec.ofNat 64 (w 0x128 8), randFill := Nat.min 32 (w 0x130 8),
    g := (List.range 4).foldl (fun t i =>
      let x := BitVec.ofNat 128 (w (0x200 + 16 * i) 16)
      t.put 0#128 i (x &&& (0xFFFFFFFFFFFFFFC00000FFFFFFFFFFC0#128))) .empty,
    h := (List.range 8).foldl (fun t i =>
      let x := BitVec.ofNat 128 (w (0x240 + 16 * i) 16)
      t.put 0#128 i (shapeOf (x.setWidth 64) (x.extractLsb' 64 64))) .empty,
    e := tbl 0#2048 4 0x400 256, k := (tbl 0#1024 8 0x800 128).put 0#1024 0 0#1024, v := tbl 0#32768 16 8192 4096,
    z := tbl 0#65536 4 (18 * 4096) 8192 }

/-- An entry of the outstanding global access table as its 24 bytes hold it (R166). -/
def reloadEntry (x : Nat) (g : GEnt) : GEnt :=
  { g with loc := BitVec.ofNat 46 x, state := BitVec.ofNat 2 (x / 2 ^ 46), done := x / 2 ^ 48 % 2 ^ 16, beats := x / 2 ^ 64 % 2 ^ 16,
           kind := BitVec.ofNat 8 (x / 2 ^ 80), issue := BitVec.ofNat 32 (x / 2 ^ 96), gaddr := BitVec.ofNat 64 (x / 2 ^ 128) }
/-- A FIFO with the entries and counts that a slab holds; the rows keep their times. -/
def reloadFifo (s : State) (b : Nat) (x : Fifo) : Fifo :=
  { x with rows := (List.range x.rows.length).map fun i =>
             (BitVec.ofNat 2048 (s.load (b + 49 * 4096 + 256 * i) 256), (x.rows.getD i (0#2048, 0)).2),
           pushes := x.pushes / 2 ^ 32 * 2 ^ 32 + s.load (b + 0xC80) 4, popped := x.popped / 2 ^ 32 * 2 ^ 32 + s.load (b + 0xC84) 4 }
/-- The fields of the row record: NEXTPC, the registers that a program writes or a trap leaves, and the loop stack (R239). -/
def reloadRow (s : State) (b : Nat) (x : Ctx) : Ctx :=
  let w := fun (o n : Nat) => s.load (b + 50 * 4096 + o) n
  { x with
    pc := w 0 8, rowoff := BitVec.ofNat 8 (w 0x20 8), touched := BitVec.ofNat 35 (w 0x28 8), sstep := (w 0x30 8).testBit 0,
    retrylim := BitVec.ofNat 3 (w 0x38 8), trapinfo := BitVec.ofNat 64 (w 0x40 8),
    args := (List.range 8).foldl (fun a i => a.put 0#64 i (BitVec.ofNat 64 (w (0x48 + 8 * i) 8))) .empty,
    loops := (List.range x.loops.length).map fun i =>
      { count := BitVec.ofNat 32 (w (0x88 + 16 * i) 4), start := w (0x8C + 16 * i) 6, stop := w (0x92 + 16 * i) 6 },
    frz := x.frz.map fun f => { f with nextOff := Nat.max 1 (w 8 8), cmode := (w 0xD0 8).testBit 0 } }
/-- Some byte of a range of core col's slab is not as the management core's copy has it. -/
def slabDiffers (s : State) (c col : Nat) (f : Frz) (from_ to_ : Nat) : Bool :=
  let b := saveBase s c col
  let at_ := fun (m : List Host.Cell) => memBelow (memFrom m (b + from_)) (b + to_)
  at_ s.mem != at_ f.copy
/-- A context reloads its save area before its restart: whatever the host or another module has changed there counts, as far as the spec
lays the bytes out (R236, R240, R241; log 15). The FIFO of a context that only a crown gate froze stays as it is (R144, R414). -/
def reloadCtx (s : State) (c : Nat) : State := match (s.ctx c).frz with
  | none => s
  | some f =>
    let t := (List.range 16).foldl (fun t col =>
      let b := saveBase s c col
      let ch := slabDiffers s c col f
      let t1 := if ch 0 4096 || ch 8192 (26 * 4096) then t.modCore c col fun k => reloadCore s b k else t
      let t2 := (List.range 64).foldl (fun t i =>
        let o := 4096 + 24 * i
        if ch o (o + 24) then t.modGent (64 * coreKey c col + i) fun g => reloadEntry (s.load (b + o) 24) g else t) t1
      if isQ c || (f.state.getLsbD 2 && f.fifo == []) || !(ch 0xC80 0xC88 || ch (49 * 4096) (50 * 4096)) then t2
      else
        let st := stackOf c col
        if f.fifo.any fun y => y.1 == st then
          t2.modCtx c fun x => { x with frz := x.frz.map fun z =>
            { z with fifo := z.fifo.map fun y => if y.1 = st then (st, reloadFifo s b y.2) else y } }
        else t2.modStack st fun k =>
          if dieOf c = 0 then { k with down := reloadFifo s b k.down } else { k with up := reloadFifo s b k.up }) s
    if slabDiffers s c 0 f (50 * 4096) (51 * 4096) then t.modCtx c (reloadRow s (saveBase s c 0)) else t

/-- The bytes of a field in the save slab: offset, length, value; p registers with the bits that stay. -/
def fieldPut (f : SaveField) (p : Nat) : SavePut := match f with
  | .s n x => ⟨8 * n, 8, x.toNat⟩
  | .p n b => ⟨0x100, 1, (CoreCtx.write { CoreCtx.init with p := BitVec.ofNat 8 p } (.p n b)).p.toNat ||| 1⟩
  | .v n x => ⟨8192 + 4096 * n, 4096, x.toNat⟩
  | .k n x => ⟨0x800 + 128 * n, 128, x.toNat⟩
  | .z n x => ⟨18 * 4096 + 8192 * n, 8192, x.toNat⟩
  | .e n x => ⟨0x400 + 256 * n, 256, x.toNat⟩
  | .g n x => ⟨0x200 + 16 * n, 16, x.toNat⟩
  | .h n x => ⟨0x240 + 16 * n, 16, x.toNat⟩
  | .flags x => ⟨0x108, 8, x.toNat⟩
  | .round x => ⟨0x110, 8, x.toNat⟩
  | .arg n x => ⟨50 * 4096 + 0x48 + 8 * n, 8, x.toNat⟩
  | .other blk byte x => ⟨4096 * blk + byte, 1, x.toNat⟩

/-- A field that no save area has: a register number past the last, a byte past the slab. -/
def fieldOut : SaveField → Bool
  | .s n _ => decide (32 ≤ n)
  | .p n _ | .k n _ | .h n _ | .arg n _ => decide (8 ≤ n)
  | .v n _ => decide (16 ≤ n)
  | .z n _ | .e n _ | .g n _ => decide (4 ≤ n)
  | .other blk byte _ => decide (64 ≤ blk) || decide (4096 ≤ byte)
  | .flags _ | .round _ => false

/-- The job whose frozen record holds a context that has left its row. -/
def savedJob (s : State) (c : Nat) : Option Nat :=
  (s.jobs.rows.find? fun r => r.2.state == .preempted && r.2.saved.any fun v => v.ctx == c).map Prod.fst

/-- The job of a context whose save area is written: that of a frozen resident one, or of one that has left its row. -/
def savedOwner (s : State) (c : Nat) : Option Nat := match (s.ctx c).frz with
  | some z => if z.saved then some (s.ctx c).job else none
  | none => savedJob s c

/-- The answer of the mailbox that serves the host, or the secure firmware (R422). -/
def boxAnswer (s : State) (secure : Bool) (x : Nat) : State := if secure then { s with secBox := x } else { s with mailbox := x }

/-- HOST_SAVE_AREA_WRITE: the host, or secure firmware for a job of the secure world, writes a field of the save area of a frozen
job, or reads it, as host debug does in any save area where the debug fuse is blown. It writes bytes: the registers follow at the
restart, and the continue command is refused while a byte outside the permitted fields differs (R240, R241, R434). -/
def execHostSaveAreaWrite (ctx col : Nat) (f : SaveEdit) (s : State) : Host.Outcome State Fault Refusal :=
  if fieldOut f.field ∨ 16 ≤ col ∨ 64 ≤ ctx then .next (boxAnswer s f.secure 1)
  else match savedOwner s ctx with
    | none => .next (boxAnswer s f.secure 1)
    | some j =>
      let shut := recWorld (s.job j).record && !f.secure
      let b := spadAddr (stackOf ctx (match f.field with | .arg .. => 0 | _ => col)) (262144 * (recSave (s.job j).record + dieOf ctx))
      let p := fieldPut f.field (s.load (b + 0x100) 1)
      if f.read then
        if shut && !Config.debugFuse then .next (boxAnswer s f.secure 1)
        else .next (boxAnswer { s with readBack := s.readBack.put none 69 (some (s.load (b + p.at_) p.len)) } f.secure 0)
      else if shut || !(s.job j).trapped then .next (boxAnswer s f.secure 1)
      else .next (boxAnswer (s.store (b + p.at_) p.len p.val) f.secure 0)

end Sys2Proof.Machine
end

