-- ==== Sys2Proof/Machine/Stop.lean ====
section
/-! DEFINITION. Stops, saves, restarts, single step, watchdog and power gates (R31, R43, R78, R124, R126, R144, R157, R231 to
R249, R413, R414, R420, R446). -/

namespace Sys2Proof.Machine

open Sys2Proof State

/-! ### Steps and the watchdog (R43, R234, R244) -/

/-- A trap taken without a word at the F of the cycle before: the check of the cycle notes it with its rank; the step that
takes it freezes the job (R234). -/
def lateTrap (s : State) (cls cause : Nat) (cur : Cursor) (at_ : Word) : State :=
  if (s.ctx cur.ctx).job = 0 ∨ (s.ctx cur.ctx).frz.isSome then s
  else if s.probe then
    { s with found := s.found ++ [{ cls := cls, cur := cur, cause := cause, sub := 0, slot := .nowhere, past := false, ord := s.ord,
                                    act := none }] }
  else s.freezeTrap cur (.of cause 0) .nowhere 1 at_

/-- The step trap of the bundle issued at a chip cycle: a LAUNCH in it goes on to its enqueue in real time (R244). -/
def stepTrap (s : State) (cur : Cursor) (at_ : Nat) : State :=
  lateTrap { s with agenda := s.agenda.map fun e => match e.act with
    | .deferredAccessPerform { id := _, op := .launch _ _ _ } =>
      if e.cur.ctx = cur.ctx ∧ e.cur.seq = cur.seq then { e with clk := .chip, due := s.now + (e.due - s.clkNow e.clk) } else e
    | _ => e } 2 12 cur (s.cycleBase + BitVec.ofNat 64 at_)

/-- SINGLE_STEP_TRAP: the bundle issued in the cycle before takes trap 0x0C (R244). The number is its chip cycle. -/
def execSingleStepTrap (s : State) : Host.Outcome State Fault Refusal := .next (stepTrap s s.cur s.arg)

/-- The trap of a context whose count of the watchdog has run out (R43, R231). -/
def dogTrap (s : State) (c : Nat) : State :=
  lateTrap s 3 15 { Cursor.none with ctx := c, bundle := (s.ctx c).pc } (s.cycleBase + BitVec.ofNat 64 (s.part (s.partOf c)).ran)

/-- WATCHDOG: a context has issued nothing for 2^24 domain cycles (R43, R231). The number names the context. -/
def execWatchdog (s : State) : Host.Outcome State Fault Refusal :=
  let c := s.arg
  let p := s.partOf c
  if s.dom p - (s.ctx c).lastIssue = 16777217 then .next (dogTrap s c) else .next s

/-! ### Stops (R31, R234, R245, R246, R420, R446) -/

/-- TRAPINFO and the event of a stop of a context, decided at a chip cycle; the save of one that was frozen already runs again (R414,
R420). -/
def stopMark (s : State) (c : Nat) (at_ : Word) : State :=
  let x := s.ctx c
  let info := trapInfo x.pc .nowhere (dieOf c) 0 0 11
  let e := mkEvent 2 11 0 0 x.job info (coreBits s.module c 0) at_ (recTagOf (s.job x.job).record) 0#64 0#64 0#64
  s.modCtx c fun x => { x with trapinfo := info, frz := x.frz.map fun f => { f with ev := f.ev ++ [(corePlace c 0 2, e)], saved := false } }

/-- Contexts of a job that has not started yet are taken as frozen before their first bundles. -/
def unstart (s : State) (j : Nat) (cs : List Nat) : State :=
  match s.agenda.find? fun e => e.act == .jobStart && e.arg == j with
  | none => s
  | some e =>
    let rem := e.due - s.clkNow e.clk
    cs.foldl (fun t c => t.modCtx c fun x =>
      { x with due := t.rowClk (rowOf c) + rem + x.rowoff.toNat, dueDelayed := false, lastIssue := t.dom (s.job j).part + (rem : Int) }) s

/-- The contexts of a job that run, in the order of R234. -/
def liveCtxs (s : State) (j : Nat) : List Nat := (s.ctxsOf j).filter fun c => (s.ctx c).frz.isNone

/-- A stop of a job takes effect, decided 16 chip cycles ago: a job that runs freezes, a context that a gate has frozen before with it,
and the first context records the cause (R420); one that is frozen is released as saved; one that is being saved is released at
the end of its save (R245). -/
def stopJob (s : State) (j : Nat) : State :=
  let b := s.job j
  match b.state with
  | .running | .waiting =>
    let s1 := if b.state = .waiting then
        { unstart s j (s.ctxsOf j) with agenda := s.agenda.filter fun e => !(e.act == .jobStart && e.arg == j) }
      else s
    let s2 := match s1.ctxsOf j with
      | c :: _ =>
        let t := ((s1.ctxsOf j).filter fun d => (s1.ctx d).frz.isSome).foldl
          (fun t d => raiseFstate t d (if d = c then 2#5 else 18#5)) (s1.freezeJob j 1 c 2#5)
        stopMark t c (s.cycle - 16#64)
      | [] => s1
    (s2.modJob j fun b => { b with state := .saving }).startSave j
  | .frozen => (cancelRestart s j).after .chip 0 Cursor.none j .preemptSaveComplete
  | _ => s

/-- The contexts that a gate of a stack freezes: those of its crown row, or those of both rows. -/
def gateCtxs (st : Nat) (whole : Bool) : List Nat :=
  let row := st / 16
  (if whole then [2 * row, 2 * row + 1] else []) ++ [32 + 2 * row, 33 + 2 * row]

/-- The FIFOs of a stack go into the frozen records of their consumers and are emptied (R446). -/
def takeFifos (s : State) (st : Nat) : State :=
  let k := s.stackAt st
  let give := fun (t : State) (c : Nat) (f : Fifo) => syncFifo (t.modCtx c fun x =>
    { x with frz := x.frz.map fun z => { z with fifo := z.fifo ++ [(st, f)] } }) c (st % 16) f
  (give (give s (brimP st) k.down) (crownP st) k.up).modStack st fun k => { k with up := .init, down := .init }

/-- The stop of a power gate takes effect: the resident contexts that run freeze, one whose restart had begun stays frozen, and the gate
closes 8,192 chip cycles after the latest F (R413, R446; log 69). -/
def stopGate (s : State) (st : Nat) (whole : Bool) : State :=
  let cs := (gateCtxs st whole).filter fun c => decide ((s.ctx c).job ≠ 0) && (s.ctx c).frz.isNone
  let again := (gateCtxs st whole).filter fun c => match (s.ctx c).frz with | some f => f.restart.isSome | none => false
  let s0 := cs.foldl (fun t c => let j := (t.ctx c).job; if (t.job j).state = .waiting then unstart t j [c] else t)
    (holdAtGate (s.dropRestart again) again)
  let s1 := cs.foldl (fun t c => stopMark (t.freezeCtx c 1 (4#5 ||| (if pastPending (t.ctx c) then 8#5 else 0#5))) c (s.cycle - 16#64)) s0
  let s2 := cs.foldl (fun t c =>
    let (n, u) := t.takeFree
    u.after .chip (512 + Config.saveTime n % 4096) Cursor.none (ofCtx c) .preemptSaveComplete) s1
  let s3 := if whole then takeFifos s2 st else s2
  let last := cs.foldl (fun m c => Nat.max m (s.part (s.partOf c)).ran) (if cs = [] then s.now - 16 else 0)
  s3.after .chip (last + 8192 - s.now) Cursor.none st (if whole then .stackGateComplete else .crownGateComplete)

/-- A single step of one of the contexts that is due at the F of a stop that takes effect in a hold tick: the step comes first
(R234). -/
def stepAtF (s : State) (cs : List Nat) : Option Sched := s.agenda.find? fun e =>
  e.act == .singleStepTrap && cs.contains e.cur.ctx && (s.part (s.partOf e.cur.ctx)).still

/-- A context whose count of the watchdog ran out in the last cycle before the hold in which a stop takes effect: its trap has the same F and
comes before the stop (R43, R234). -/
def dogAtF (s : State) (cs : List Nat) : Option Nat := cs.find? fun c =>
  let p := s.partOf c
  (s.part p).still && (s.job (s.ctx c).job).state == .running && decide (s.dom p - (s.ctx c).lastIssue = 16777216)

/-- PREEMPTION_STOP: a stop decided 16 chip cycles ago takes effect. The number names a job, or past 2^40 and 2^41 the stack
of a crown or whole-stack gate. Of traps with the same F it comes last (R234). -/
def execPreemptionStop (s : State) : Host.Outcome State Fault Refusal :=
  let a := s.arg
  let live := if 2 ^ 41 ≤ a then (gateCtxs (a - 2 ^ 41) true).filter fun c => decide ((s.ctx c).job ≠ 0) && (s.ctx c).frz.isNone
    else if 2 ^ 40 ≤ a then (gateCtxs (a - 2 ^ 40) false).filter fun c => decide ((s.ctx c).job ≠ 0) && (s.ctx c).frz.isNone
    else if (s.job a).state = .running then liveCtxs s a else []
  let step := stepAtF s live
  let dog := dogAtF s live
  if s.probe then match step, dog, live with
    | some e, _, _ =>
      .next { s with found := s.found ++ [{ cls := 2, cur := e.cur, cause := 12, sub := 0, slot := .nowhere, past := false, ord := s.ord,
                                            act := none }] }
    | none, some c, _ => .next (dogTrap s c)
    | none, none, c :: _ =>
      .next { s with found := s.found ++ [{ cls := 4, cur := { Cursor.none with ctx := c }, cause := 11, sub := 0, slot := .nowhere,
                                            past := false, ord := s.ord, act := none }] }
    | none, none, [] => .next s
  else
    let t := match step, dog with
      | some e, _ => stepTrap s e.cur e.arg
      | none, some c => dogTrap s c
      | none, none => s
    .next (if 2 ^ 41 ≤ a then stopGate t (a - 2 ^ 41) true
      else if 2 ^ 40 ≤ a then stopGate t (a - 2 ^ 40) false
      else stopJob t a)

/-! ### The save (R124, R137, R144, R235, R245) -/

/-- The save of one frozen context has completed: its area is written and its events posted. -/
def saveDone (s : State) (c : Nat) : State := match (s.ctx c).frz with
  | none => s
  | some f =>
    if f.saved then s else
      let s1 := (saveCtx s c).modCtx c fun x => { x with frz := x.frz.map fun f => { f with saved := true, ev := [] } }
      f.ev.foldl (fun t e => t.post e.1 e.2) s1

/-- The record of a LAUNCH of a job is still on its way to its queue (R244). -/
def launchBusy (s : State) (j : Nat) : Bool := s.agenda.any fun e => match e.act with
  | .launchRecordWrite (.core c _ _) _ _ => decide ((s.ctx c).job = j)
  | .deferredAccessPerform { id := _, op := .launch _ _ _ } => decide ((s.ctx e.cur.ctx).job = j)
  | _ => false

/-- Commands of a job's channels are still under way: beats, replays or guard sequences (R124). -/
def dramBusy (s : State) (j : Nat) : Bool :=
  (s.agenda.any fun e => decide (e.cur ≠ Cursor.none) && decide ((s.ctx e.cur.ctx).job = j) && State.runsOn e) ||
  s.chans.rows.any fun r => r.2.owner.isSome && decide (r.2.job = j) && (r.2.guard.isSome || decide (r.2.replays ≠ []))

/-- FSTATE of a context that leaves its row for a pre-emption. -/
def leftState (f : Frz) : BitVec 5 := (f.state &&& 27#5) ||| 2#5

/-- The frozen record of a context that is about to leave its row; a context that a gate froze restarts with its job
(R124, R144, R237). -/
def recordOf (s : State) (c : Nat) : Saved :=
  let x := s.ctx c
  let ff := (List.range 16).filterMap fun col =>
    let st := stackOf c col
    if isQ c then none else some (st, match x.frz with
      | some f => match f.fifo.find? fun y => y.1 == st with
        | some y => y.2
        | none => consumed s c col
      | none => consumed s c col)
  { ctx := c,
    record := { x with frz := x.frz.map fun f => { f with state := leftState f, fifo := [] } },
    cores := (List.range 16).map fun col => (coreKey c col, s.core c col),
    peels := (List.range 32).map fun i => (32 * c + i, s.peel (32 * c + i)),
    chans := (chansOf s c).map fun ch => (ch, s.chan ch),
    fifos := ff,
    gops := ((List.range 1024).map fun i => (1024 * c + i, s.gent (1024 * c + i))).filter fun g => g.2.state != 0#2,
    waits := s.waiting.filter fun w => w.cur.ctx == c }

/-- The saved record of a context that leaves its row shows the pre-emption, in the save area and in the management core's copy: that of
one frozen by a trap keeps the rest, and the FIFOs that leave with it are there (R144, R237, R239, R245). -/
def markLeft (s : State) (c : Nat) : State := match (s.ctx c).frz with
  | none => s
  | some f =>
    let t := setFstate s c (leftState f)
    if isQ c then t else (List.range 16).foldl (fun t col =>
      if f.fifo.any fun y => y.1 == stackOf c col then t else syncFifo t c col (consumed s c col)) t

/-- A pre-empted job leaves its rows: its contexts and channels are released, its slabs stay, its record returns with status
0x02 (R31, R124, R137, R245). -/
def leaveRows (s0 : State) (j : Nat) : State :=
  let b := s0.job j
  let cs := s0.ctxsOf j
  let s := cs.foldl markLeft s0
  let recs := cs.map (recordOf s)
  let s1 := cs.foldl (fun t c =>
    let t1 := if isQ c then t else (List.range 16).foldl (fun t col => t.modStack (stackOf c col) fun k =>
      if dieOf c = 0 then { k with down := .init } else { k with up := .init }) t
    freeCtx t1 c) s
  let s2 := (recChans b.record).foldl (fun t ch => if (t.chan ch).job = j then freeChan t ch else t) s1
  let r := (b.record &&& ~~~(255#2048)) ||| 2#2048
  let s3 := s2.modJob j fun b => { b with saved := recs, state := .preempted, record := r }
  let q := s3.queue b.queue
  let s4 := putQueue s3 b.queue { q with ents := q.ents.map fun e => if e.job = j then { e with record := r, status := 2#8 } else e } false
  cs.foldl clearGates (postStatus s4 b.queue (recordId s b.queue j) r j 2)

/-- PREEMPT_SAVE_COMPLETE: the save of a frozen job, or of one context that a gate froze, has completed; a job that was
stopped leaves its rows once its commands are done, within the bound of R245 (R124, R244 to R246). The number names the job or the
context and, times 2^42, the cycles it has waited. -/
def execPreemptSaveComplete (s : State) : Host.Outcome State Fault Refusal :=
  let n := s.arg % 2 ^ 42
  let late := decide (1300 ≤ s.arg / 2 ^ 42)
  let again := fun (t : State) => t.after .chip 1 Cursor.none (s.arg + 2 ^ 42) .preemptSaveComplete
  if 2 ^ 40 ≤ n then .next (saveDone s (n - 2 ^ 40))
  else if launchBusy s n && !late then .next (again s)
  else
    let s1 := (s.ctxsOf n).foldl saveDone s
    if (s.job n).stop then .next (if dramBusy s n && !late then again s1 else leaveRows s1 n)
    else .next (s1.modJob n fun b => { b with state := .frozen })

/-! ### Continue and end (R141, R240, R241) -/

/-- An event of a job waits in the dispatcher (R141). -/
def eventWaits (s : State) (j : Nat) : Bool := s.waitEv.any fun e => e.2.extractLsb' 32 32 == BitVec.ofNat 32 j

/-- HOST_CONTINUE: a job frozen by a trap begins its restart, once it is saved and its event has entered, unless a field that
may not change was changed (R141, R240, R241). The rows of one that was pre-empted and placed again re-open in hold ticks (R126).
The number names the job. -/
def execHostContinue (s : State) : Host.Outcome State Fault Refusal :=
  let j := s.arg
  let b := s.job j
  if b.state ≠ .frozen ∨ !b.trapped ∨ eventWaits s j ∨ (s.ctxsOf j).any (edited s) then .next { s with mailbox := 1 }
  else .next { beginRestart (s.modJob j fun b => { b with trapped := false }) j (decide (b.saved ≠ [])) with mailbox := 0 }

/-- HOST_END: a job frozen by a trap is released (R33, R241). The number names the job. -/
def execHostEnd (s : State) : Host.Outcome State Fault Refusal :=
  let b := s.job s.arg
  if (b.state = .frozen ∨ b.state = .preempted) ∧ b.trapped then .next { releaseJob s s.arg with mailbox := 0 }
  else .next { s with mailbox := 1 }

/-! ### Restart (R148, R231, R240) -/

/-- An entry of a frozen record comes back, n cycles after the restart cycle; an array command takes its array cycles at the
frame positions it now has (R148, R240, R341). -/
def putBack (s : State) (i : Nat × Sched) : State :=
  let e := i.2
  let back := fun (t : State) (a : Instr) =>
    { t with agenda := t.agenda ++ [{ e with due := t.clkNow e.clk + i.1, act := a }] }
  match e.act with
  | .matrixResultLanding m =>
    let st := stackOf e.cur.ctx e.cur.col
    let now := s.frame0 e.cur.ctx e.cur.col
    let f0 : Int := now + (i.1 : Int) - (m.last + 31 + m.delay : Nat)
    let vals := m.vals.map fun v => v + (f0 - m.f0)
    let s1 := s.modStack st fun k => { k with arr := k.arr ++ vals.filter fun v => decide (now < v) }
    back s1 (.matrixResultLanding { m with f0 := f0, vals := vals })
  | a => back s a

/-- The times of a FIFO moved by the domain cycles between F and the restart. -/
def moveFifo (f : Fifo) (d : Int) : Fifo :=
  { f with rows := f.rows.map fun r => (r.1, r.2 + d), pops := f.pops.map fun p => p + d }

/-- The registers of a context moved on by d row-clock cycles to its restart, at a domain cycle (R240). The count of the watchdog
goes on through the freeze; one that it ran out in begins anew (R43; log 70). -/
def moveCtx (x : Ctx) (now nextOff d : Nat) (dom : Int) : Ctx :=
  { x with
    due := now + nextOff, dueDelayed := x.wait == .none, lastIssue := if dom - x.lastIssue < 16777217 then x.lastIssue else dom,
    res := true, frz := none, since := now + 1,
    latch := x.latch.map fun l => { l with at_ := l.at_ + d },
    occ := x.occ.map fun o => { o with from_ := o.from_ + d },
    haltAt := x.haltAt.map fun t => t + d,
    wait := match x.wait with
      | .vote a t at_ seen => .vote a t (at_ + d) seen
      | .fence n at_ done => .fence n (at_ + d) (done.map fun y => (y.1, y.2 + d))
      | w => w }

/-- AMODE and CMODE of a job that was pre-empted return as the freeze captured them (R74, R235). The window length in force takes
the restored WIN at once, as at a placement (log 102). -/
def restoreModes (s : State) (c : Nat) (f : Frz) : State :=
  let j := (s.ctx c).job
  if !((s.job j).saved.any fun v => v.ctx == c) then s
  else
    let s1 := f.wins.foldl (fun t w => t.modStack w.1 fun k => { k with win := w.2, force := w.2 }) s
    let s2 : State := if isQ c then s1 else { s1 with cmode := s1.cmode.put false (rowNo c) f.cmode }
    s2.modJob j fun b => { b with saved := b.saved.filter fun v => v.ctx != c }

/-- A frozen context runs again: this is its restart cycle r, and its cycle F + n runs at r + n (R66, R126, R144, R148, R157,
R240). -/
def restartCtx (s0 : State) (c : Nat) : State :=
  let s := reloadCtx s0 c
  match (s.ctx c).frz with
  | none => s
  | some f =>
    let x := s.ctx c
    let p := s.partOf c
    let now := s.rowClk (rowOf c)
    let d := now - f.rowF
    let dd := s.dom p - f.f
    let s1 := s.setCtx c (moveCtx x now f.nextOff d (s.dom p))
    let s2 := (List.range 32).foldl (fun t i => t.modPeel (32 * c + i) fun q =>
      if q.kind = 0 then q else { q with base := q.base + d, start := q.start + d }) s1
    let s3 := f.items.foldl putBack s2
    let s4 := if isQ c then s3 else (List.range 16).foldl (fun t col =>
      let st := stackOf c col
      match f.fifo.find? fun y => y.1 == st with
      | some y => t.modStack st fun k =>
        if dieOf c = 0 then { k with down := moveFifo y.2 dd } else { k with up := moveFifo y.2 dd }
      | none =>
        -- a crown gate leaves the other end running, and the times of the rows with it
        if f.state.getLsbD 2 && f.fifo == [] then t
        else t.modStack st fun k => if dieOf c = 0 then { k with down := moveFifo k.down dd } else { k with up := moveFifo k.up dd }) s3
    let s5 := loadRow (restoreModes s4 c f) x.job (s.job x.job).record c
    wakeWaiting s5 (fun w => w.cur.ctx == c) fun _ => 1

/-- JOB_RESTART: the restart cycle of a frozen context; its job runs (R240). The number names the context. -/
def execJobRestart (s : State) : Host.Outcome State Fault Refusal :=
  let c := s.arg - 2 ^ 40
  let j := (s.ctx c).job
  if j = 0 ∨ (s.ctx c).frz.isNone then .next s
  else .next (restartCtx (s.modJob j fun b => { b with state := if b.state = .frozen then .running else b.state }) c)

/-! ### Power gates (R78, R413, R446) -/

/-- A gate of a stack. -/
def gateOf (s : State) (st : Nat) (whole : Bool) : Gate := if whole then (s.stackAt st).whole else (s.stackAt st).crown
/-- Change it. -/
def modGate (s : State) (st : Nat) (whole : Bool) (f : Gate → Gate) : State :=
  s.modStack st fun k => if whole then { k with whole := f k.whole } else { k with crown := f k.crown }

/-- Gating starts: the contexts concerned freeze within 16 chip cycles; where none is resident the gate closes 8,192 chip
cycles on (R413, R446). -/
def startGate (s : State) (st : Nat) (whole : Bool) : State :=
  let s1 := modGate s st whole fun g => { g with gating := true }
  if (gateCtxs st whole).any fun c => (s.ctx c).job ≠ 0 then
    s1.after .chip 16 Cursor.none ((if whole then 2 ^ 41 else 2 ^ 40) + st) .preemptionStop
  else s1.after .chip 8192 Cursor.none st (if whole then .stackGateComplete else .crownGateComplete)

/-- Ungating starts: it ends 8,192 chip cycles on. -/
def startUngate (s : State) (st : Nat) (whole : Bool) : State :=
  (modGate s st whole fun g => { g with ungating := true }).after .chip 8192 Cursor.none st
    (if whole then .stackUngateComplete else .crownUngateComplete)

/-- A request is set; one that is set already, or that meets a running transition, starts nothing (R413). -/
def setReq (s : State) (st : Nat) (whole : Bool) : State :=
  let g := gateOf s st whole
  let s1 := modGate s st whole fun g => { g with req := true }
  if g.req ∨ g.gated ∨ g.gating ∨ g.ungating then s1 else startGate s1 st whole

/-- A request is cleared: ungating starts where the gate is closed (R413). -/
def clearReq (s : State) (st : Nat) (whole : Bool) : State :=
  let g := gateOf s st whole
  let s1 := modGate s st whole fun g => { g with req := false }
  if g.req ∧ g.gated ∧ !g.ungating then startUngate s1 st whole else s1

/-- A gate has closed; without a request it opens again at once (R413). -/
def gateDone (s : State) (st : Nat) (whole : Bool) : State :=
  let s1 := modGate s st whole fun g => { g with gating := false, gated := true }
  if (gateOf s st whole).req then s1 else startUngate s1 st whole

/-- The contexts that a gate held begin their restart, unless another gate holds them; in a job that is frozen and has not begun its own
restart they wait as companions (R240, R246, R413, R446). One whose event has not entered waits (R141). -/
def ungateCtxs (s : State) (st : Nat) (whole : Bool) : State :=
  (gateCtxs st whole).foldl (fun t c => match (t.ctx c).frz with
    | none => t
    | some f =>
      let j := (t.ctx c).job
      if !(f.state.getLsbD 2) ∨ f.restart.isSome ∨ heldByGate t c then t
      else if !f.saved ∨ eventWaits t j then
        t.after .chip 1 Cursor.none (2 ^ 40 + st) (if whole then .stackUngateComplete else .crownUngateComplete)
      else if (t.job j).state = .running ∨ (t.job j).state = .waiting ∨ ((t.job j).state = .frozen ∧ !(t.job j).trapped) then
        beginCtx t (t.partOf c) c
      else setFstate t c ((f.state &&& 27#5) ||| 16#5)) s

/-- A gate has opened: a request made meanwhile is decided now, else the contexts it held begin their restart (R413). -/
def ungateDone (s : State) (st : Nat) (whole : Bool) : State :=
  let s1 := modGate s st whole fun g => { g with gated := false, ungating := false }
  if (gateOf s st whole).req then startGate s1 st whole else ungateCtxs s1 st whole

/-- PGATE_CREQ_SET: a request for the crown core of a stack (R78, R413). The number names the stack. -/
def execPgateCreqSet (s : State) : Host.Outcome State Fault Refusal := .next (setReq (ctlPort s) s.arg false)
/-- PGATE_CREQ_CLEAR: the request is withdrawn (R78, R413). -/
def execPgateCreqClear (s : State) : Host.Outcome State Fault Refusal := .next (clearReq (ctlPort s) s.arg false)
/-- PGATE_SREQ_SET: a request for the whole stack (R78, R446). -/
def execPgateSreqSet (s : State) : Host.Outcome State Fault Refusal := .next (setReq (ctlPort s) s.arg true)
/-- PGATE_SREQ_CLEAR: the request is withdrawn (R78, R446). -/
def execPgateSreqClear (s : State) : Host.Outcome State Fault Refusal := .next (clearReq (ctlPort s) s.arg true)
/-- CROWN_GATE_COMPLETE: CGATED rises (R413). -/
def execCrownGateComplete (s : State) : Host.Outcome State Fault Refusal := .next (gateDone s s.arg false)
/-- CROWN_UNGATE_COMPLETE: CGATED falls, and the frozen crown contexts begin their restart (R246, R413). -/
def execCrownUngateComplete (s : State) : Host.Outcome State Fault Refusal :=
  .next (if 2 ^ 40 ≤ s.arg then ungateCtxs s (s.arg - 2 ^ 40) false else ungateDone s s.arg false)
/-- STACK_GATE_COMPLETE: SGATED rises (R446). -/
def execStackGateComplete (s : State) : Host.Outcome State Fault Refusal := .next (gateDone s s.arg true)
/-- STACK_UNGATE_COMPLETE: SGATED falls, and the frozen contexts begin their restart (R446). -/
def execStackUngateComplete (s : State) : Host.Outcome State Fault Refusal :=
  .next (if 2 ^ 40 ≤ s.arg then ungateCtxs s (s.arg - 2 ^ 40) true else ungateDone s s.arg true)

end Sys2Proof.Machine
end

