-- ==== Sys2Proof/Machine/Module.lean ====
section
/-! DEFINITION. The module as system software meets it: invalidation of translations, the host event queue, the domain window
map, host access to far memory, boot and resets, measurement and attestation, links and domains, repair records (R41, R108,
R132, R140, R141, R159, R248, R424, R428 to R438). -/

namespace Sys2Proof.Machine

open Sys2Proof State

/-- A mailbox answer: done. -/
def accept (s : State) : State := { s with mailbox := 0 }
/-- A mailbox answer: failure, with nothing changed. -/
def decline (s : State) : State := { s with mailbox := 1 }
/-- A virtual function that the module has and whose scrub is not outstanding (R2, R165). -/
def vfOk (s : State) (n : Nat) : Bool := decide (n < 256) && !(s.refused.contains (.vf n))

/-! ### Invalidation (R159, R248) -/

/-- The tags of the translations that a waiting operation holds; one still in its walk holds none (R159). -/
def waitTags (w : Waiting) : List Nat := match w.what with
  | .exchange p _ => p.tags
  | .gop _ _ _ _ tags | .grel _ _ _ _ tags _ => tags
  | _ => []

/-- The operations of a job that hold a translation of some kind: exchanges in a peel, pending entries of the global access table,
and operations that wait with their address translated (R159). -/
def holdersOf (s : State) (j : Nat) (hit : Nat → Bool) : List Cursor :=
  let mine := fun (c : Cursor) => (s.ctx c.ctx).job == j
  ((s.peels.rows.filter fun r => r.2.kind != 0 && mine r.2.cur && r.2.tags.any hit).map fun r => r.2.cur) ++
  ((s.gtab.rows.filter fun r => r.2.state == 1#2 && mine r.2.cur && r.2.tags.any hit).map fun r => r.2.cur) ++
  ((s.waiting.filter fun w => mine w.cur && (waitTags w).any hit).map Waiting.cur)

/-- An operation still holds its translation. -/
def stillHolds (s : State) (c : Cursor) : Bool :=
  (s.peels.rows.any fun r => r.2.kind != 0 && r.2.cur == c && !(r.2.tags == [])) ||
  (s.gtab.rows.any fun r => r.2.state == 1#2 && r.2.cur == c && !(r.2.tags == [])) ||
  (s.waiting.any fun w => w.cur == c && !(waitTags w == []))

/-- An exchange as its revoked translation leaves it (R242). -/
def Peel.revoked (p : Peel) : Peel := { p with state := 1, stA := [], stB := [], pair := [], tags := [] }
/-- The frozen work of a context whose exchanges in some peels are abandoned: no beat of them crosses, and one that no channel binds
holds its locks to the cycle at which it would have completed; a bound one completes with its last DWR (R242). -/
def cutItems (f : Frz) (ord : Nat) (ks : List (Nat × Peel)) : List (Nat × Sched) :=
  (f.items.filter fun i => match i.2.act with
    | .exchangeBeatCrossing | .xchtPairLanding => !(ks.any fun k => k.1 == 2 * coreKey i.2.cur.ctx i.2.cur.col + i.2.arg)
    | .exchangeComplete => !(ks.any fun k => k.1 == 2 * coreKey i.2.cur.ctx i.2.cur.col + i.2.arg && peelChans k.2 == [])
    | _ => true) ++
  (ks.filter fun k => peelChans k.2 == []).map fun k =>
    ((match peelDone k.2 with | some t => Nat.max 1 (t - f.rowF) | none => 1),
      { clk := .row (rowOf k.2.cur.ctx), due := 0, ord := ord + k.1, cur := { k.2.cur with ctx := k.1 / 32, col := k.1 / 2 % 16 },
        arg := k.1 % 2, act := .exchangeComplete })
/-- The deferred 0x05 of an operation, in the first cycle after its restart (R248). -/
def revokeTrap (ord : Nat) (c : Cursor) : Nat × Sched :=
  (1, { clk := .row (rowOf c.ctx), due := 0, ord := ord, cur := c, arg := 0, act := .invalidationComplete })

/-- The operations of a frozen context that hold a translation, by their cursor and its tags, are abandoned with it revoked; the context
takes the deferred 0x05 in the first cycle after its restart, and its save area shows it (R242, R248). -/
def revoke (s : State) (c : Nat) (hit : Cursor → List Nat → Bool) : State := match (s.ctx c).frz with
  | none => s
  | some f =>
    let ks := s.peels.rows.filter fun r => r.1 / 32 == c && r.2.kind != 0 && hit r.2.cur r.2.tags
    let gs := (s.gtab.rows.filter fun r => r.1 / 1024 == c && r.2.state == 1#2 && hit r.2.cur r.2.tags).map Prod.fst
    let ws := s.waiting.filter fun w => w.cur.ctx == c && hit w.cur (waitTags w)
    let ops := (ks.map fun k => k.2.cur) ++ (gs.map fun g => (s.gent g).cur) ++ ws.map Waiting.cur
    let s1 : State := { s with nextId := s.nextId + 2049, waiting := s.waiting.filter fun w => !(ws.contains w) }
    let s2 := ks.foldl (fun t k => t.modPeel k.1 Peel.revoked) s1
    let s3 := gs.foldl (fun t g =>
      syncEntry ((ackWrite t c (t.gent g).wr).modGent g fun e => { e with state := 3#2, tags := [] }) c (g / 64 % 16) (g % 64)) s2
    let s4 := ops.foldl (fun t o => t.modCore c o.col fun k => { k with acqs := k.acqs.filter fun a => a != o }) s3
    ks.foldl (fun t k => syncPeel t k.1) (s4.modCtx c fun x => { x with frz := x.frz.map fun f' =>
      { f' with items := cutItems f (s.nextId + 1) ks ++ ops.map (revokeTrap s.nextId) } })

/-- The same for the frozen records of a job that has left its rows: each is worked on as if its context stood in its row. -/
def revokeSaved (s : State) (j : Nat) (hit : Nat → Bool) : State :=
  if (s.job j).state ≠ .preempted then s
  else (s.job j).saved.foldl (fun t v =>
    let ks := v.peels.filter fun p => p.2.kind != 0 && p.2.tags.any hit
    let gs := v.gops.filter fun g => g.2.state == 1#2 && g.2.tags.any hit
    let ws := v.waits.filter fun w => (waitTags w).any hit
    let ops := (ks.map fun k => k.2.cur) ++ (gs.map fun g => g.2.cur) ++ ws.map Waiting.cur
    if ops = [] then t
    else
      let v' : Saved := { v with
        peels := v.peels.map fun p => if ks.contains p then (p.1, p.2.revoked) else p,
        gops := v.gops.map fun g => if gs.contains g then (g.1, { g.2 with state := 3#2, tags := [] }) else g,
        waits := v.waits.filter fun w => !(ws.contains w),
        cores := v.cores.map fun k => (k.1, { k.2 with acqs := k.2.acqs.filter fun a => !(ops.contains a) }),
        record := { v.record with frz := v.record.frz.map fun f =>
          { f with items := cutItems f (t.nextId + 1) ks ++ ops.map (revokeTrap t.nextId) } } }
      let t1 : State := { t with nextId := t.nextId + 2049 }
      let t2 := t1.modJob j fun b => { b with saved := b.saved.map fun w => if w.ctx = v.ctx then v' else w }
      onSaved t2 j v' fun u => ks.foldl (fun u k => syncPeel u k.1)
        (gs.foldl (fun u g => syncEntry (ackWrite u v.ctx g.2.wr) v.ctx (g.1 / 64 % 16) (g.1 % 64)) u)) s

/-- The walks in progress of a job discard their results and walk again (R159). -/
def restartWalks (s : State) (j : Nat) : State :=
  (s.waiting.filter fun w => (s.ctx w.cur.ctx).job == j && match w.what with
    | .walk .. => true
    | _ => false).foldl (fun t w =>
      let (n, u) := t.takeFree
      { u with agenda := u.agenda.map fun e => if e.act == .translationWalkComplete && e.arg == w.id then
          { e with due := u.clkNow e.clk + 1 + Config.walkTime n } else e }) s

/-- An invalidation begins: frozen operations are revoked, walks begin again, and it completes once the other holders have (R159,
R248). -/
def invalidate (s : State) (j : Nat) (hit : Nat → Bool) : State :=
  let hs := (holdersOf s j hit).filter fun c => (s.ctx c.ctx).frz.isNone
  let s1 := restartWalks (((s.ctxsOf j).foldl (fun t c => revoke t c fun _ tags => tags.any hit) (revokeSaved s j hit))) j
  let id := s1.nextId
  let s2 : State := { s1 with nextId := id + 1, invals := s1.invals ++ [{ id := id, holders := hs }] }
  s2.after .chip 1 Cursor.none id .invalidationComplete

/-- A cached entry begins its reload; it ends with the same event, numbered 1 (R159). -/
def startReload (s : State) (j n : Nat) : State :=
  let (k, s1) := s.takeFree
  s1.after .chip (1 + Config.reloadTime k) Cursor.none 1 (.invalidateRangeEntry j n)

/-- The cached copies of a range entry take the table's value. -/
def reload (s : State) (j n : Nat) : State :=
  let e := s.rangeEnt (recRt (s.job j).record) n
  { s with ranges := s.ranges.mapRows none fun _ x => x.map fun y => if y.1 = j then (y.1, y.2.set n e) else y }

/-- INVALIDATE_RANGE_ENTRY: a management command names one range entry of a job; a cached one is reloaded (R159). The number
1 marks the end of that reload, which waits while the table's channel is owned (R424). -/
def execInvalidateRangeEntry (job entry : Nat) (s : State) : Host.Outcome State Fault Refusal :=
  if s.arg = 1 then
    if (s.chan (256 + recRt (s.job job).record / 2 ^ 36)).owner.isSome then
      .next (s.repost .chip 1 1 (.invalidateRangeEntry job entry))
    else .next (reload s job entry)
  else
    let s1 := invalidate s job fun t => t == entry
    .next (accept (if entry < 16 then startReload s1 job entry else s1))

/-- INVALIDATE_PAGE: a management command names one virtual page of 256 KiB of a job (R155, R159). -/
def execInvalidatePage (job page : Nat) (s : State) : Host.Outcome State Fault Refusal :=
  let va := page * 2 ^ 18
  let hit := fun (t : Nat) => decide (256 ≤ t) && decide (t = pageTag ((t - 256) / 2 ^ 40) (va / 2 ^ ((t - 256) / 2 ^ 40)))
  let s1 : State := { s with pages := s.pages.mapRows [] fun _ l => l.filter fun p => !(p.job == job && decide (va / 2 ^ p.size = p.page)) }
  .next (accept (invalidate s1 job hit))

/-- INVALIDATE_JOB: every translation of a job is invalidated (R159). The number names the job. -/
def execInvalidateJob (s : State) : Host.Outcome State Fault Refusal :=
  let j := s.arg
  let s1 : State := { s with pages := s.pages.mapRows [] fun _ l => l.filter fun p => p.job != j }
  .next (accept ((List.range 16).foldl (fun t n => startReload t j n) (invalidate s1 j fun _ => true)))

/-- INVALIDATION_COMPLETE: an invalidation waits for its last holder, then 64 cycles, and is complete (R159). It does not wait for one
whose context has frozen meanwhile: that one is revoked (R248). The number names it, past 2^40 at its end. With a cursor it is the
trap 0x05 of a revoked operation after its restart (R248). -/
def execInvalidationComplete (s : State) : Host.Outcome State Fault Refusal :=
  if s.cur ≠ Cursor.none then .next (s.takeDeferred s.cur s.cur.slot 5 0)
  else if 2 ^ 40 ≤ s.arg then .next { s with invals := s.invals.filter fun i => i.id != s.arg - 2 ^ 40 }
  else match s.invals.find? fun i => i.id == s.arg with
    | none => .next s
    | some i =>
      let t := ((i.holders.filter fun h => stillHolds s h).map Cursor.ctx).eraseDups.foldl (fun t c =>
        revoke t c fun h tags => i.holders.contains h && tags != []) s
      if i.holders.any (stillHolds t) then .next (t.repost .chip 1 s.arg .invalidationComplete)
      else .next (t.after .chip 64 Cursor.none (2 ^ 40 + s.arg) .invalidationComplete)

/-! ### The host event queue (R140, R141) -/

/-- HOST_EVENT_HEAD_ADVANCE: the host consumes the oldest entries. The number says how many (R141). -/
def execHostEventHeadAdvance (s : State) : Host.Outcome State Fault Refusal := .next { s with events := s.events.drop s.arg }

/-- The host event queue as a virtual function reads it: the entries whose job came from one of its queues, in their order (R423). -/
def vfEvents (s : State) (vf : Nat) : List (BitVec 512) := s.events.filter fun e =>
  let q := s.fromQueue.get 0 (e.extractLsb' 32 32).toNat
  decide (q ≠ 0) && (s.qmap.get 0#64 vf).getLsbD (q - 1)

/-- WAITING_EVENT_ENTRY: the loss event, then waiting events enter as far as there is room (R141). -/
def execWaitingEventEntry (s : State) : Host.Outcome State Fault Refusal := .next s.settleEvents

/-! ### Far memory from the host die, and the domain window map (R108, R424, R434, R436) -/

/-- The number of a host unit: harts 0 to 63, then root ports 0 to 3 (R2, R424). -/
def hostKey : HostUnit → Nat
  | .hart n => if n < 64 then n else 68
  | .rootPort n => if n < 4 then 64 + n else 68

/-- A host unit reaches nothing: one that the host die has not; a root port that a failed boot holds in reset, whose scrub is
outstanding, whose request is no DMA, or that is of the secure world and was asked outside an IDE stream (R2, R165, R425, R431). -/
def hostRefused (s : State) (a : HostAccess) : Bool := match a.unit with
  | .hart n => decide (64 ≤ n)
  | .rootPort n => decide (4 ≤ n) || s.bootFail.isSome || s.refused.contains (.root n) || (match a.req with
      | .dma ide => s.worldOf (.root n) && !ide
      | _ => true)

/-- The register window: one page for each function (R423). -/
def windowBase : Nat := 2 ^ 42
/-- Bytes of the register window at an offset: at the start of page n + 1 the queue map of virtual function n; the others are open, as
number k gives them (R423). -/
def windowBytes (s : State) (k o n : Nat) : Nat := (List.range n).foldr (fun i acc =>
  let a := o + i
  (if 4096 ≤ a ∧ a % 4096 < 8 then (s.qmap.get 0#64 (a / 4096 - 1)).toNat / 2 ^ (8 * (a % 4096)) % 256
   else Config.windowByte k a % 256) + 256 * acc) 0

/-- HOST_FAR_MEMORY_ACCESS: an application core or a root port reads or writes far memory, or an application core the register window,
where nothing that the spec names can be written. An access waits while its channel has an owner; a block of the secure world reads as
its ciphertext, and a write into one leaves plain contents open (R422 to R425, R434). Root ports reach far memory only (R425). -/
def execHostFarMemoryAccess (write : HostAccess) (addr len val : Nat) (s : State) : Host.Outcome State Fault Refusal :=
  let far := decide (addr + len ≤ 2 ^ 41)
  let (n, s1) := s.takeFree
  let give := fun (x : Nat) => { s1 with readBack := s1.readBack.put none (hostKey write.unit) (some x) }
  if hostRefused s write || (!far && match write.unit with | .rootPort _ => true | _ => false) then .next (decline s)
  else if !far then
    if windowBase ≤ addr ∧ addr + len ≤ windowBase + 257 * 4096 then
      .next (if write.write then s else give (windowBytes s n (addr - windowBase) len))
    else .fault .noAddress
  else if (farBlocks addr len).any fun b => (s.chan (256 + b / 16777216)).owner.isSome then
    .next (s.repost .chip 1 s.arg (.hostFarMemoryAccess write addr len val))
  else if write.write then
    let bs := (farBlocks addr len).filter (farSecure s)
    .next (bs.foldl (fun t b =>
      let (n, u) := t.takeFree
      u.store (fBase + 4096 * b) 4096 (Config.cipher n % 2 ^ 32768)) (s.store (fBase + addr) len (val % 2 ^ (8 * len))))
  else .next (give (storedBytes s addr len n))

/-- A slab that a running job uses. -/
def slabUsed (s : State) (st slab : Nat) : Bool :=
  s.jobs.rows.any fun r => r.2.state != .preempted && r.2.state != .ending && (s.slabsOf r.1).getLsbD (96 * st + slab)

/-- DOMAIN_WINDOW_MAP_WRITE: an entry of the window map changes, but for slabs that a running job uses (R108). -/
def execDomainWindowMapWrite (w : Nat) (entry : Option (Nat × Nat × Bool)) (s : State) : Host.Outcome State Fault Refusal :=
  let busy := fun (e : Option (Nat × Nat × Bool)) => match e with
    | some (st, slab, _) => slabUsed s st slab
    | none => false
  let bad := match entry with
    | some (st, slab, _) => decide (256 ≤ st) || decide (96 ≤ slab)
    | none => false
  if decide (4096 ≤ w) || bad || busy entry || busy (s.winMap.get none w) then .next (decline s)
  else .next (accept { s with winMap := s.winMap.put none w entry })

/-! ### The tick register (R429) -/

/-- A job is resident, frozen or pre-empted. -/
def anyJob (s : State) : Bool := s.jobs.rows.any fun r => r.2.state != .ending
/-- A job is resident: placed, and neither frozen nor pre-empted (R38, R428). -/
def anyResident (s : State) : Bool := s.jobs.rows.any fun r => r.2.state == .placing || r.2.state == .waiting || r.2.state == .running

/-- TICK_REGISTER_WRITE: LOG2 is stored within 8 to 16 and takes effect at the next multiple of 65,536 chip cycles; refused
while a job is held (R40, R429). -/
def execTickRegisterWrite (x : Word) (s : State) : Host.Outcome State Fault Refusal :=
  if anyJob s then .next (decline s)
  else
    let v := Nat.max 8 (Nat.min 16 (x.extractLsb' 0 5).toNat)
    let s1 : State := { s with tickLog2 := v, tickBusy := true, agenda := s.agenda.filter fun e => e.act != .tickPeriodChange }
    .next (accept (s1.after .chip (65536 - s.cycle.toNat % 65536) Cursor.none 0 .tickPeriodChange))

/-- TICK_PERIOD_CHANGE: the written period takes effect and BUSY clears (R429). -/
def execTickPeriodChange (s : State) : Host.Outcome State Fault Refusal := .next { s with tickNow := s.tickLog2, tickBusy := false }

/-! ### Measurement, boot and resets (R81, R110, R131, R132, R171, R430 to R433) -/

/-- Bytes as numbers. -/
def octets (l : List (BitVec 8)) : List Nat := l.map BitVec.toNat

/-- A measurement register extended by an image (R432). -/
def extendMr (mr : BitVec 512) (image : List (BitVec 8)) : BitVec 512 :=
  shake256 (leBytes 64 mr.toNat ++ leBytes 64 (shake256 (octets image)).toNat)

/-- MR_EXTEND: MR5 to MR7 are extended on request of the physical function (R430, R432). -/
def execMrExtend (n : Nat) (image : List (BitVec 8)) (s : State) : Host.Outcome State Fault Refusal :=
  if n < 5 ∨ 7 < n then .next (decline s)
  else .next (accept { s with mrs := s.mrs.put 0#512 n (extendMr (s.mrs.get 0#512 n) image) })

/-- SVN_COMMIT: the fused version advances to the version of an image that was accepted (R431). -/
def execSvnCommit (v : Word) (s : State) : Host.Outcome State Fault Refusal :=
  if s.accepted.contains v && decide (s.svn ≤ v) then .next (accept { s with svn := v }) else .next (decline s)

/-- An image is accepted (R431). -/
def imageOk (svn : Word) (i : BootImage) : Bool :=
  let h := shake256 (octets i.key)
  ((List.range 4).any fun k => Config.keyIntact k && Config.keyHash k == h) && Config.mlDsaVerify i.key i.content i.sig &&
    decide (svn ≤ i.version)

/-- A boot stage: copy A, then copy B; a stage that fails stops the boot (R430, R431). -/
def bootStage (s : State) (n : Nat) : State :=
  if s.bootFail.isSome then s
  else
    let tries := (s.bootA[n - 1]?).toList ++ (s.bootB[n - 1]?).toList
    match tries.find? (imageOk s.svn) with
    | none => { s with bootFail := some n }
    | some i =>
      { s with mrs := s.mrs.put 0#512 n (extendMr (s.mrs.get 0#512 n) i.content),
               accepted := s.accepted ++ [i.version] }

/-- The stages of a reset: the boot ROM is measured, stages 1 to 4 are verified and measured, and the identity key is derived and
signed by the base key (R430 to R433). -/
def boot (s : State) : State :=
  let s1 : State := { s with mrs := s.mrs.put 0#512 0 (extendMr 0#512 Config.bootRom) }
  let s2 := [1, 2, 3, 4].foldl bootStage s1
  let seed := (shake256 (octets Config.deviceSecret ++ leBytes 64 (s2.mrs.get 0#512 0).toNat ++
      leBytes 64 (s2.mrs.get 0#512 1).toNat)).setWidth 256
  { s2 with identity := seed, identityPub := Config.mlDsaPublic seed,
            identityCert := Config.mlDsaSign Config.baseSeed (Config.mlDsaPublic seed) }

/-- What system software, the boot store and other modules will still do: entries a reset does not take away (log 8). -/
def isInput (e : Sched) : Bool := e.clk == .chip && match e.act with
  | .launchRecordWrite who _ _ => (match who with | .core .. => false | _ => true)
  | .qmapWrite .. | .registerWrite .. | .queueDisable | .hostContinue | .hostEnd | .hostEventHeadAdvance | .invalidatePage ..
  | .invalidateJob | .worldMapWrite .. | .scrubRequestEnqueue _ | .tickRegisterWrite _ | .coldReset | .svnCommit _ | .mrExtend ..
  | .attestationRequest .. | .linkUp .. | .domainAlignment .. | .linkKeyAgreement .. | .hostFarMemoryAccess ..
  | .domainWindowMapWrite .. | .repairRecordCommit | .hostSaveAreaWrite .. => true
  | .invalidateRangeEntry .. | .warmReset => e.arg != 1
  | _ => false

/-- The soft-repair register of a channel from its repair records: spare 0, then spare 1 (R131, R132). -/
def softOf (fuses : List (BitVec 7)) : BitVec 16 :=
  let half := fun (o : Option (BitVec 7)) => match o with
    | some l => (1#1 ++ l : BitVec 8)
    | none => 0#8
  half (fuses[1]?) ++ half (fuses[0]?)

/-- A channel after a reset: its fuses stay (R132). -/
def resetChan (_ : Nat) (x : Chan) : Chan := { Chan.init with fuses := x.fuses }

/-- Reset values with what survives any reset: fuses, boot store, and what is still to come from outside. Every tower waits for its
soft-repair registers (R132). -/
def resetState (s : State) (shift : Nat) : State :=
  { State.reset with
    nextId := s.nextId, mark := s.nextId, free := s.free, checked := s.checked, svn := s.svn, bootA := s.bootA, bootB := s.bootB,
    chans := s.chans.mapRows Chan.init resetChan, reloading := true,
    agenda := (s.agenda.filter isInput).map fun e => { e with due := e.due - shift } }

/-- The end of a reset's boot: the soft-repair registers are reloaded some time later (R430). -/
def finishBoot (s : State) : State :=
  let t := boot s
  if t.bootFail.isSome then t
  else
    let (n, t1) := t.takeFree
    t1.after .chip (1 + Config.bootTime n) Cursor.none 1 .warmReset

/-- COLD_RESET: everything takes its reset value and every memory is scrubbed to 0; the stages run (R81, R106, R110, R132,
R430). -/
def execColdReset (s : State) : Host.Outcome State Fault Refusal := .next (finishBoot (resetState s s.now))

/-- A reset that keeps tower and far memory, their metadata and their errors, and the counters that only a cold reset clears: chip
cycles, hold ticks, performance (R60, R81, R132, R170, R171). -/
def warmState (s : State) : State :=
  { resetState s 0 with
    now := s.now, cycleBase := s.cycleBase, mem := memClear s.mem 0 tBase,
    lines := s.lines, lineWorld := s.lineWorld, bad := ⟨s.bad.rows.filter fun r => decide (tBase ≤ 32 * r.1)⟩,
    parts := s.parts.mapRows Part.init fun _ p => { Part.init with holds := p.holds }, perf := s.perf }

/-- WARM_RESET: everything but DRAM contents, fuses and CYCLE takes its reset value, the stages run again, and the soft-repair
registers are reloaded from the repair records, after which scrubs of the towers may begin (R132, R171, R430). The number 1 marks that
reload. -/
def execWarmReset (s : State) : Host.Outcome State Fault Refusal :=
  if s.arg = 1 then
    .next (startScrubs { s with chans := s.chans.mapRows Chan.init fun n x => { x with soft := if n < 256 then softOf x.fuses else x.soft },
                                reloading := false })
  else .next (finishBoot (warmState s))

/-- MODULE_TRIP: the logic stack loses power and nothing is saved; every placed record is cancelled, an alarm names the sensor,
and the logic stack restarts as from cold reset, its counters at 0, with DRAM kept; the host die keeps its queues and events (R60,
R170, R441). The number names the sensor. -/
def execModuleTrip (s : State) : Host.Outcome State Fault Refusal :=
  let w := { warmState s with
    cycleBase := -(BitVec.ofNat 64 s.now), parts := .empty, perf := .empty,
    events := s.events, waitEv := s.waitEv, dropped := s.dropped, qmap := s.qmap, fromQueue := s.fromQueue,
    queues := s.queues.mapRows LQueue.init fun _ q =>
      { q with ents := q.ents.filter fun e => e.status == 0#8 || e.status == 4#8 } }
  let gone := s.queues.rows.flatMap fun r => (r.2.ents.filter fun e => e.status == 1#8 || e.status == 2#8).map fun e => (r.1, e)
  let w1 := gone.foldl (fun t e => postStatus t e.1 e.2.id e.2.record e.2.job 3) w
  .next (finishBoot (w1.post (unitPlace 5 s.arg) (mkEvent 5 0 0 0 0 0#64 0#31 s.cycle 0#64 (BitVec.ofNat 64 s.arg)
    (BitVec.ofNat 64 (Config.reading s.arg s.now)) 0#64)))

/-! ### Attestation (R433 to R435, R438) -/

/-- A report's bytes 0 to 0x2FF; KEMHASH is the hash of the encapsulation key that the report binds, or 0. -/
def reportBody (s : State) (job : Nat) (nonce : BitVec 512) (kem : Option (List (BitVec 8))) : List Nat :=
  let kemHash : BitVec 512 := match kem with
    | some k => shake256 (octets k)
    | none => 0#512
  let meas := match (s.job job).meas with
    | some m => m.toNat
    | none => 0
  leBytes 4 1 ++ leBytes 4 (if Config.debugFuse then 1 else 0) ++ leBytes 8 s.module.toNat ++ leBytes 64 nonce.toNat ++
  (List.range 8).flatMap (fun n => leBytes 64 (s.mrs.get 0#512 n).toNat) ++ leBytes 4 (s.svn.toNat % 2 ^ 32) ++ leBytes 4 job ++
  leBytes 64 (if job = 0 then 0 else meas) ++ leBytes 64 kemHash.toNat ++ leBytes 40 0

/-- ATTESTATION_REQUEST: a signed report of the device or of a job, asked for by the physical function or a virtual one; refused for a job
that has ended or is being released (R434, R438). -/
def execAttestationRequest (vf : Option Nat) (job : Nat) (nonce : BitVec 512) (kem : Option (List (BitVec 8))) (s : State) :
    Host.Outcome State Fault Refusal :=
  let b := s.job job
  if vf.any (fun n => !(vfOk s n)) ∨ (job ≠ 0 ∧ (b.record = 0#2048 ∨ b.state = .ending)) then .next (decline s)
  else
    let body := reportBody s job nonce kem
    let sig := (Config.mlDsaSign s.identity (body.map fun x => BitVec.ofNat 8 x)).toNat
    .next (accept { s with report := some (BitVec.ofNat 32768 (ofLe (body ++ leBytes 3309 sig))) })

/-! ### Links and domains (R41, R108, R426, R428, R437) -/

/-- LINK_UP: a port comes up with its peer, unless the peer reports this module's own number (R428). -/
def execLinkUp (port peer : Nat) (s : State) : Host.Outcome State Fault Refusal :=
  if 18 ≤ port ∨ peer = s.module.toNat ∨ s.bootFail.isSome then .next (decline s)
  else .next (accept { s with ports := s.ports.put Port.init port { Port.init with up := true, peer := peer } })

/-- DOMAIN_ALIGNMENT: the module joins a domain while no job is resident: it takes the domain's chip cycle count, and for each partition
its members and the domain cycle at which step 0 began; refused where the tick periods differ or a member is no module of a domain
(R3, R41, R171, R428, R429). -/
def execDomainAlignment (cycle : Word) (log2 : Nat) (parts : List (Nat × List Nat × Int)) (s : State) :
    Host.Outcome State Fault Refusal :=
  if anyResident s || log2 != s.tickNow || (parts.any fun p => p.2.1.any fun m => !(moduleOk m)) then .next (decline s)
  else .next (accept (parts.foldl (fun t p => t.modPart p.1 fun x => { x with members := p.2.1, origin := p.2.2 })
    { s with cycleBase := cycle - BitVec.ofNat 64 s.now }))

/-- Keys agreed for a port come into force. -/
def takeKeys (p : Port) : Port :=
  { p with out := if p.nextOut.isSome then p.nextOut else p.out, inn := if p.nextIn.isSome then p.nextIn else p.inn,
           outAt := if p.nextOut.isSome then p.nextSeq else p.outAt, nextOut := none, nextIn := none }

/-- The key and salt of a direction of a port, from the secret that the ML-KEM encapsulation shares (R437). -/
def linkKey (port : Nat) (out : Bool) (secret : BitVec 256) : BitVec 288 :=
  (shake256 (leBytes 32 secret.toNat ++ octets (Config.portNumbers port out))).setWidth 288

/-- LINK_KEY_AGREEMENT: the roots of trust of both sides share a secret for one direction of a port; its key and salt take effect at a
step boundary, or at once while no partition runs (R437; log 8). -/
def execLinkKeyAgreement (port : Nat) (out : Bool) (secret : BitVec 256) (s : State) : Host.Outcome State Fault Refusal :=
  if !(s.port port).up then .next { s with secBox := 1 }
  else
    let key := linkKey port out secret
    let s1 := s.modPort port fun p => if out then { p with nextOut := some key } else { p with nextIn := some key }
    .next { (if s.parts.rows.any fun r => r.2.live then s1 else s1.modPort port takeKeys) with secBox := 0 }

/-! ### Repair records (R132) -/

/-- REPAIR_RECORD_COMMIT: the swaps of a pseudo-channel go into its fuses, which hold two. The number names the channel. -/
def execRepairRecordCommit (s : State) : Host.Outcome State Fault Refusal :=
  if 256 ≤ s.arg then .next (decline s)
  else .next (accept (s.modChan s.arg fun x => { x with fuses := (x.fuses ++ x.swaps).take 2, swaps := [] }))

end Sys2Proof.Machine
end

