-- ==== Sys2Proof/Machine/Clocks.lean ====
section
/-! DEFINITION. What the clocks bring: global ticks, domain steps and their boundaries, scratchpad refresh windows, hold runs,
sensors and power (R25, R34 to R42, R105 to R107, R172, R173, R225, R359, R392, R427, R437, R439 to R441). -/

namespace Sys2Proof.Machine

open Sys2Proof State

/-! ### Ticks (R25, R40, R172, R392) -/

/-- The cursor of work that concerns a whole row context. -/
def ctxCur (c : Nat) : Cursor := { Cursor.none with ctx := c, nw := 1 }

/-- The running contexts of a partition. -/
def runningIn (s : State) (p : Nat) : List Nat := (List.range 64).filter fun c =>
  let x := s.ctx c
  decide (x.job ≠ 0) && (s.job x.job).part == p && (s.job x.job).state == .running && x.frz.isNone

/-- A context can take the tick or step of the present cycle: its wait is not ended already, and it did not restart in this very
cycle, which stands for its F (R25, R240). -/
def seesTick (s : State) (c : Nat) : Bool :=
  (s.releaseAt c).isNone && decide ((s.ctx c).since ≤ s.rowClk (rowOf c))

/-- Release the waiting contexts of a partition whose wait an event ends, each ROWOFF later. -/
def releaseWaits (s : State) (p : Nat) (off : CtxWait → Option Nat) : State :=
  (runningIn s p).foldl (fun t c => match if seesTick t c then off (t.ctx c).wait else none with
    | some n => t.after (.row (rowOf c)) n (ctxCur c) c .realignRelease
    | none => t) s

/-- GLOBAL_TICK: TICK counts, but for the tick at count 0; REALIGN and WAITK that wait for it go on (R40, R172). The number
names the partition. -/
def execGlobalTick (s : State) : Host.Outcome State Fault Refusal :=
  let p := s.arg
  let s1 := s.modPart p fun x => { x with tick := if 0 < s.dom p then x.tick + 1#64 else x.tick }
  let k := (s1.part p).tick
  .next (releaseWaits s1 p fun w => match w with
    | .realign off => some off
    | .waitTick n off => if n ≤ k then some off else none
    | _ => none)

/-! ### Domain steps (R41, R42, R173, R225, R359, R427) -/

/-- The order of step-timed writes at one boundary: issue cycle, source module, rank at the source (R225). -/
def arrivalLt (a b : Remote) : Bool :=
  let k := fun (r : Remote) => match r.step with
    | some t => (t.2.1, r.srcModule, t.2.2)
    | none => (0, r.srcModule, 0)
  decide ((k a).1 < (k b).1 ∨ ((k a).1 = (k b).1 ∧ ((k a).2.1 < (k b).2.1 ∨ ((k a).2.1 = (k b).2.1 ∧ (k a).2.2 < (k b).2.2))))

/-- Insert a transfer in that order. -/
def arrivalInsert (r : Remote) : List Remote → List Remote
  | [] => [r]
  | x :: l => if arrivalLt r x then r :: x :: l else x :: arrivalInsert r l

/-- The transfers of a boundary in their order: the reads, then the writes (R225). -/
def boundaryOrder (l : List Remote) : List Remote :=
  let m := l.foldl (fun a r => arrivalInsert r a) []
  let reads := fun (r : Remote) => match r.op with | .read _ => true | _ => false
  m.filter reads ++ m.filter fun r => !(reads r)

/-- The slots that the step-timed exchanges of a boundary will exchange, as the step has left them: their blocks are read with the
boundary's reads (R359). -/
def boundaryOlds (s : State) (l : List Remote) : List (Nat × Block × BitVec 32) := l.filterMap fun r => match r.op with
  | .exchange .. => match windowSlot s r with
    | .ok a => some (slotOf a, BitVec.ofNat 32768 (s.load a 4096), (s.slot (slotOf a)).version)
    | .error _ => none
  | _ => none

/-- The next beat of a step-timed transfer performs: the state after it, and what is left of the transfer. One whose place is gone, or
that meets data that cannot be corrected, is refused; one that meets a locked slot waits for it, and performs in a service window (R97,
R107; log 103). -/
def boundaryBeat (s : State) (olds : List (Nat × Block × BitVec 32)) (r : Remote) : State × List Remote := match windowSlot s r with
  | .error k => (refuseRemote s r k, [])
  | .ok a =>
    if remoteBusy s r a then (s.after .chip 1 Cursor.none 0 (.remoteAccessPerform { r with step := none }), [])
    else if beatBad s r a then (refuseRemote (beatNote s r a) r .data, [])
    else
      let t := match r.op, olds.find? fun o => o.1 == slotOf a with
        | .exchange x v, some o =>
          remoteCross (beatNote s r a) r a x v (o.2.1.toNat / 2 ^ (512 * r.beat) % 2 ^ 512) o.2.2.toNat
        | _, _ => remotePerform s r a
      (t, if r.beat + 1 < remoteBeats r.op then [{ r with beat := r.beat + 1 }] else [])

/-- The bank of a transfer. -/
def arrivalBank (s : State) (r : Remote) : Option Nat := match windowSlot s r with
  | .ok a => some (bankOfSlot (slotOf a))
  | .error _ => none

/-- One cycle of the performs of a partition's boundary: each bank performs one beat, of the first transfer that is left for it (R42,
R225). -/
def boundaryCycle (s : State) (p : Nat) : State :=
  let x := s.part p
  let olds := if x.olds = [] then boundaryOlds s x.arrivals else x.olds
  let r := (boundaryOrder x.arrivals).foldl (fun (u : State × List Nat × List Remote) r => match arrivalBank u.1 r with
    | none => ((boundaryBeat u.1 olds r).1, u.2.1, u.2.2)
    | some b =>
      if u.2.1.contains b then (u.1, u.2.1, u.2.2 ++ [r])
      else
        let y := boundaryBeat u.1 olds r
        (y.1, b :: u.2.1, u.2.2 ++ y.2)) (s, [], [])
  r.1.modPart p fun x => { x with arrivals := r.2.2, olds := if r.2.2 = [] then [] else olds }

/-- The most beats that transfers bring to one bank. -/
def mostBeats (s : State) (l : List Remote) : Nat :=
  let bs := l.filterMap fun r => match windowSlot s r with
    | .ok a => some (bankOfSlot (slotOf a), remoteBeats r.op)
    | .error _ => none
  bs.foldl (fun m b => Nat.max m ((bs.filter fun c => c.1 == b.1).foldl (fun n c => n + c.2) 0)) 0
/-- The cycles by which a partition's boundary performs exceed the 1,792 of the alignment delay (R42). -/
def excess (s : State) (p : Nat) : Nat := mostBeats s (s.part p).arrivals - 1792

/-- The domain cycles from the first of the step that ends: to its last cycle, or in the next step's first cycle to that. -/
def stepAge (s : State) (p : Nat) : Nat := let d := (s.stepDom p % 65536).toNat; if d = 0 then 65536 else d
/-- The table entries of step-timed S-D exchanges of a partition that were issued in the step that ends (R359). -/
def steppedOf (s : State) (p : Nat) : List (Nat × GEnt) := s.gtab.rows.filter fun r =>
  let g := r.2
  let c := r.1 / 1024
  g.state == 1#2 && g.kind == 4#8 && g.stepped && decide (s.partOf c = p) && decide ((s.ctx c).job ≠ 0) && decide (g.done = 0) &&
    decide ((BitVec.ofInt 32 (s.dom p) - g.issue).toNat ≤ stepAge s p)
/-- They are to send their blocks in this cycle, each as a piece of work of its own. -/
def sendStepped (s : State) (p : Nat) : State :=
  (steppedOf s p).foldl (fun t r => t.after .chip 0 r.2.cur (128 + r.1) .domainStepBoundary) s
/-- One of them sends its local blocks as they stand, marked with its issue's domain cycle; blocks that cannot be read send nothing
and raise 0x07 (R107, R225, R242, R359). -/
def sendOne (s : State) (key : Nat) : State :=
  let g := s.gent key
  let c := key / 1024
  let p := s.partOf c
  let k := g.dest
  let x := s.peel k
  if s.sideBad (localSide x) x.n then s.failRemote k x
  else
    let issue := (s.dom p).toNat - (BitVec.ofInt 32 (s.dom p) - g.issue).toNat
    (s.xchRequests x).foldl (fun w q =>
      w.sendRequest c (key / 64 % 16) (key % 64) q.1 q.2.1 g.secure (.exchange q.2.2.1 q.2.2.2) (some (p, issue, rank g.cur)))
      (s.noteSide (localSide x) x.n)

/-- A guard sequence of a partition's channels is in progress. -/
def guardIn (s : State) (p : Nat) : Bool := s.chans.rows.any fun r => r.2.guard.isSome && match r.2.owner with
  | some c => s.partOf c == p
  | none => false

/-- All the performs of a partition's boundary, one after the other: where no alignment hold gives them cycles (R41, R225). -/
def boundaryPerforms (s : State) (p : Nat) : State :=
  let l := (s.part p).arrivals
  ((List.range (l.foldl (fun n r => n + remoteBeats r.op) 0)).foldl (fun t _ => boundaryCycle t p) s).modPart p fun x =>
    { x with arrivals := [], olds := [] }

/-- DOMAIN_STEP_BOUNDARY: a partition has run the last cycle of its step. A partition of this module alone goes straight on, unless its
performs need more than the fixed delay holds; else it holds, no less than the 2,048 cycles of the alignment delay, and waits for
the other modules (R41, R42). The number names the partition; 64 more mark the first held cycle, in which its step-timed exchanges
send; from 128 on it names the table entry of one of them (R225, R359). -/
def execDomainStepBoundary (s : State) : Host.Outcome State Fault Refusal :=
  if 128 ≤ s.arg then .next (sendOne s (s.arg - 128))
  else if 64 ≤ s.arg then .next (sendStepped s (s.arg - 64))
  else
    let p := s.arg
    let x := s.part p
    if x.members = [] ∧ excess s p = 0 then .next (s.after (.part p) 1 Cursor.none (p + 128) .domainStepStart)
    else
      let s1 := (startHold s p .boundary).modPart p fun x =>
        { x with boundary := some s.now, ready := s.now + (if x.members = [] then 0 else 2048) }
      let s2 := (s1.after .chip 1 Cursor.none (p + 64) .domainStepBoundary).after .chip 4194305 Cursor.none (p + 64 * s.now) .boundaryHoldTimeout
      .next (if x.members = [] then s2.after .chip 1 Cursor.none (p + 64) .domainStepStart else s2)

/-- DOMAIN_STEP_START: the modules of a partition agree on the start of the next step: 2,048 cycles after the latest of them reached
the boundary or the latest transfer landed. The boundary's performs take the last 1,792 of these, a beat in each bank and cycle, and
more where they need it; the hold ends with them, and never while a guard sequence runs. In the step's first cycle STEP counts, waits for a step end, and agreed link keys come into
force (R42, R123, R173, R225, R392, R437). The number names the partition; 64 more mark that the agreement is reached, 128 the
step's first cycle. -/
def execDomainStepStart (s : State) : Host.Outcome State Fault Refusal :=
  let p := s.arg % 64
  let x := s.part p
  let held := x.boundary.isSome && (x.causes.contains .boundary || x.fresh.contains .boundary)
  if s.arg < 128 then
    if !held then .next s
    else if s.arg < 64 then
      .next ((s.modPart p fun x => { x with ready := Nat.max x.ready (s.now + 2047) }).after .chip 0 Cursor.none (p + 64) .domainStepStart)
    else if x.members = [] then
      if s.now < x.ready + excess s p ∨ guardIn s p then .next (s.repost .chip 1 s.arg .domainStepStart)
      else .next ((stopHold (boundaryPerforms s p) p .boundary).after (.part p) 1 Cursor.none (p + 128) .domainStepStart)
    else
      let s1 := if x.ready ≤ s.now + 1791 then boundaryCycle s p else s
      if s.now < x.ready ∨ (s1.part p).arrivals ≠ [] ∨ guardIn s1 p then .next (s1.repost .chip 1 s.arg .domainStepStart)
      else .next ((stopHold s1 p .boundary).after (.part p) 1 Cursor.none (p + 128) .domainStepStart)
  else if s.stepDom p % 65536 ≠ 0 ∨ s.stepDom p ≤ 0 ∨ !x.live then .next s
  else
    let s0 := if x.boundary.isNone then boundaryPerforms (sendStepped s p) p else s
    let s1 := s0.modPart p fun x => { x with step := x.step + 1#64, boundary := none }
    let k := (s1.part p).step
    let s2 : State := { s1 with ports := s1.ports.mapRows Port.init fun _ q => takeKeys q }
    .next (releaseWaits s2 p fun w => match w with
      | .waitStep n off => if n ≤ k then some off else none
      | _ => none)

/-- The ports that have not delivered a partition's transfers of the step: those towards its other modules that have failed or over which
none has come (R427; log 112). -/
def missingPorts (s : State) (p : Nat) : List Nat :=
  let x := s.part p
  ((x.members.map portTo).eraseDups).filter fun n => (s.port n).failed || !(x.arrivals.any fun r => portTo r.srcModule == n)

/-- BOUNDARY_HOLD_TIMEOUT: a boundary hold has lasted more than 2^22 chip cycles: every job of the partition is pre-empted, and
the ports that failed to deliver are logged (R427). The number names the partition and, times 64, the hold's first cycle. -/
def execBoundaryHoldTimeout (s : State) : Host.Outcome State Fault Refusal :=
  let p := s.arg % 64
  if (s.part p).boundary ≠ some (s.arg / 64) then .next s
  else
    let s1 := (missingPorts s p).foldl (fun t n => t.logLink n (linkW0 n 1 3 0 (s.port n).peer (s.port n).nextSeq)) s
    .next ((s1.jobs.rows.filter fun r => r.2.part == p).foldl (fun t r => decideStop t r.1) s1)

/-! ### Scratchpad refresh (R38, R105, R107) -/

/-- BANK_REFRESH_WINDOW: a bank's refresh window begins: it pays one owed window and writes back the codewords and metadata that
reads corrected. The number holds stack and bank. -/
def execBankRefreshWindow (s : State) : Host.Outcome State Fault Refusal := .next (refreshBank s (s.arg / 16) (s.arg % 16))

/-! ### Hold runs (R35, R123, R129) -/

/-- HOLD_RUN_END: a hold run ends in this cycle, unless a guard sequence of its partition still runs, or another burst of the
channel is to be replayed; a number of 1 only ends the hold (R35, R123, R129). -/
def execHoldRunEnd (part : Nat) (c : HoldCause) (s : State) : Host.Outcome State Fault Refusal :=
  if guardIn s part then .next (s.repost .chip 1 s.arg (.holdRunEnd part c))
  else match c with
    | .replay ch => if s.arg = 1 then .next (stopHold s part c) else
      let s1 := s.modChan ch fun x => { x with replays := x.replays.drop 1 }
      if (s1.chan ch).replays = [] then .next (stopHold s1 part c) else .next (nextReplay s1 ch (s.now + 1))
    | _ => .next (stopHold s part c)

/-! ### Sensors and power (R35, R36, R439 to R441) -/

/-- The limit of a sensor in tenths, where a reading at or above it holds (R439). Sensors: 0 to 31 rows, 32 to 47 layers, 48 to
55 towers, 56 to 87 far channels, 88 to 91 host die, 92 inlet, 93 outlet, 94 flow. -/
def sensorLimit (n : Nat) : Option Nat :=
  if n < 32 then some 1050 else if n < 48 then some 900 else if n < 56 then some 950 else if n < 88 then some 850
  else if n < 92 then some 1050 else none

/-- The channels of a tower or far sensor. -/
def sensorChans (n : Nat) : List Nat :=
  if 48 ≤ n ∧ n < 56 then (List.range 32).map fun i => 32 * (n - 48) + i
  else if 56 ≤ n ∧ n < 88 then [256 + (n - 56)] else []

/-- Commands that a partition issued to a sensor's device in the last 65,536 chip cycles (R439). -/
def cmdCount (s : State) (n p : Nat) : Nat :=
  ((sensorChans n).flatMap fun ch => (s.chan ch).cmds.filter fun c => c.2.2.2 == p && decide (c.2.2.1 ≤ s.now) && decide (s.now < c.2.2.1 + 65536)).length

/-- The live partitions. -/
def liveParts (s : State) : List Nat := (s.parts.rows.map Prod.fst).eraseDups.filter fun p => (s.part p).live

/-- The partitions that hold for a sensor: the dominant one, or those tied (R35, R439). -/
def holdersFor (s : State) (n : Nat) : List Nat :=
  let ps := liveParts s
  if sensorChans n = [] then ps.filter fun p => Config.dominates n p s.now
  else
    let m := ps.foldl (fun m p => Nat.max m (cmdCount s n p)) 0
    ps.filter fun p => decide (0 < m) && cmdCount s n p == m

/-- The time at which a thermal or power limit has stayed exceeded for 1 ms at the full rate: 3,600,000 cycles (R36). -/
def alarmTime : Nat := 3600000
/-- The next look at a partition's limits: when the oldest of them comes to 1 ms. -/
def limitWatch (s : State) (p : Nat) : State :=
  let l := (s.part p).limits
  if l = [] ∨ s.agenda.any (fun e => e.act == .thermalAlarm && e.arg == p) then s
  else s.after .chip (l.foldl (fun m x => Nat.min m (x.2 + alarmTime)) (s.now + alarmTime) - s.now) Cursor.none p .thermalAlarm

/-- Start a cause on some partitions and end it on the others; each keeps since when the limit has stayed exceeded (R35, R36). -/
def setHolds (s : State) (c : HoldCause) (on : List Nat) : State := (liveParts s).foldl (fun t p =>
  let x := t.part p
  if on.contains p then
    limitWatch ((startHold t p c).modPart p fun x => { x with limits := if x.limits.any fun y => y.1 == c then x.limits else x.limits ++ [(c, s.now)] }) p
  else if x.causes.contains c ∨ x.fresh.contains c then
    (t.modPart p fun x => { x with limits := x.limits.filter fun y => y.1 != c }).after .chip 0 Cursor.none 0 (.holdRunEnd p c)
  else t) s

/-- A notice or alarm of a sensor: its number and reading in DETAIL (R140). -/
def sensorEvent (s : State) (kind n : Nat) : State :=
  s.post (unitPlace kind n) (mkEvent kind 0 0 0 0 0#64 0#31 s.cycle 0#64 (BitVec.ofNat 64 n) (BitVec.ofNat 64 (Config.reading n s.now)) 0#64)

/-- One sensor's sample. -/
def sampleOne (s : State) (n : Nat) : State :=
  let r := Config.reading n s.now
  let before := Config.reading n (s.now - 4096)
  match sensorLimit n with
  | some lim =>
    let s1 := setHolds s (.thermal n) (if lim ≤ r then holdersFor s n else [])
    if lim ≤ r ∧ 32 ≤ n ∧ n < 48 then
      ((liveParts s).filter fun p => Config.heated n p s.now && !((holdersFor s n).contains p)).foldl (fun t _ => sensorEvent t 4 n) s1
    else s1
  | none =>
    if (n = 92 ∧ 450 ≤ r ∧ before < 450) ∨ (n = 94 ∧ r < 20 ∧ 20 ≤ before) then sensorEvent s 5 n else s

/-- The sensor whose reading trips the module (R441); a flow below 1.0 L/min after 10 ms (36,000,000 cycles). -/
def tripping (s : State) : Option Nat :=
  match (List.range 93).find? fun n =>
      let r := Config.reading n s.now
      (decide (n < 32) && decide (1150 ≤ r)) || (decide (32 ≤ n) && decide (n < 48) && decide (1000 ≤ r)) ||
      (n == 92 && decide (500 ≤ r)) with
  | some n => some n
  | none => match s.flowLow with
    | some t => if t + 36000000 ≤ s.now then some 94 else none
    | none => none

/-- SENSOR_SAMPLE: every sensor is sampled: limits start and end holds, alarms and notices are posted, and a critical reading
trips the module (R35, R439, R441). -/
def execSensorSample (s : State) : Host.Outcome State Fault Refusal :=
  let s1 := (List.range 95).foldl sampleOne s
  let s2 : State := { s1 with flowLow := if Config.reading 94 s.now < 10 then some (s1.flowLow.getD s.now) else none }
  .next (match tripping s2 with
    | some n => s2.after .chip 1 Cursor.none n .moduleTrip
    | none => s2)

/-- POWER_ESTIMATE: above the cap, the partitions with the largest share hold (R35, R440). -/
def execPowerEstimate (s : State) : Host.Outcome State Fault Refusal :=
  .next (setHolds s .power (if s.powerLimit.toNat < Config.power s.now then
    (liveParts s).filter fun p => Config.largestShare p s.now else []))

/-- What an alarm of a limit tells: its sensor and that one's reading, or number 95 and the module's power (R140; log 17). -/
def limitEvent (s : State) (c : HoldCause) : State := match c with
  | .thermal n => sensorEvent s 5 n
  | _ => s.post (unitPlace 5 95) (mkEvent 5 0 0 0 0 0#64 0#31 s.cycle 0#64 95#64 (BitVec.ofNat 64 (Config.power s.now)) 0#64)

/-- THERMAL_ALARM: a limit has stayed exceeded for 1 ms at the full rate: the alarm is posted and every job of the partition is pre-empted (R36).
The number names the partition. -/
def execThermalAlarm (s : State) : Host.Outcome State Fault Refusal :=
  let p := s.arg
  let past := (s.part p).limits.filter fun x => decide (x.2 + alarmTime ≤ s.now)
  if past ≠ [] then
    let s1 := past.foldl (fun t x => limitEvent t x.1) s
    .next ((s1.jobs.rows.filter fun r => r.2.part == p).foldl (fun t r => decideStop t r.1)
      (s1.modPart p fun x => { x with limits := [] }))
  else .next (limitWatch s p)

end Sys2Proof.Machine
end

