-- ==== Sys2Proof/Machine/Control.lean ====
section
/-! DEFINITION. Control transfers and loops: majors 0x07 and 0x08, with the row vote and the end of a loop body (R20,
R21, R23, R184, R289 to R292). -/

namespace Sys2Proof.Machine

open Sys2Proof State

/-- The word address a signed offset from the executing bundle names; an address below 0 lies beyond every image. -/
def target (s : State) (off : Int) : Nat := (((s.cur.bundle : Int) + off) % 2 ^ 64).toNat

/-- The row takes a transfer: the target issues 4 cycles on, and the bundle's end-of-body processing is skipped (R20,
R291). -/
def take (s : State) (pc : Nat) : State := s.modCtx s.cur.ctx fun x =>
  { x with pc := pc, due := s.clk + 4, dueDelayed := false, moved := true }

/-- A control word decided on the head core alone (R20): it reads registers and takes its target where its condition
holds. -/
def jump (h : Hd) (rd : List Reg) (cond : State → Bool) (dst : State → Nat) (s : State) :
    Host.Outcome State Fault Refusal :=
  s.rowWord h (fun s => s.early rd) fun s => if cond s then take s (dst s) else s

/-- J: always (R289). -/
def execJ (h : Hd) (i : BitVec 13) (s : State) : Host.Outcome State Fault Refusal :=
  jump h [] (fun _ => true) (fun s => target s i.toInt) s

/-- JZ: taken when s[A] = 0 (R289). -/
def execJz (h : Hd) (a : BitVec 5) (i : BitVec 13) (s : State) : Host.Outcome State Fault Refusal :=
  jump h [.s a.toNat] (fun s => s.rs a == 0#64) (fun s => target s i.toInt) s

/-- JNZ: taken when s[A] is not 0 (R289). -/
def execJnz (h : Hd) (a : BitVec 5) (i : BitVec 13) (s : State) : Host.Outcome State Fault Refusal :=
  jump h [.s a.toNat] (fun s => s.rs a != 0#64) (fun s => target s i.toInt) s

/-- JP: taken when p[A] = 1 (R289). -/
def execJp (h : Hd) (a : BitVec 5) (i : BitVec 13) (s : State) : Host.Outcome State Fault Refusal :=
  jump h [.p a.toNat] (fun s => s.rp a.toNat) (fun s => target s i.toInt) s

/-- A core's share of JANY or JALL: it contributes p[A]; on the head core the row stops until the vote is in, 32 cycles
on (R21, R290). -/
def voteWord (all b : Bool) (a : BitVec 5) (i : BitVec 13) (s : State) : Host.Outcome State Fault Refusal :=
  s.word ⟨b, false, 0#3⟩ (fun s => s.early [.p a.toNat]) fun s =>
    let v := s.rp a.toNat
    if s.cur.col = 0 then
      (s.modCtx s.cur.ctx fun x => { x with wait := .vote all (target s i.toInt) s.clk [v] }).afterMe
        32 s.cur.ctx .rowVoteResult
    else s.modCtx s.cur.ctx fun x => match x.wait with
      | .vote l t at_ seen => { x with wait := .vote l t at_ (seen ++ [v]) }
      | _ => x

/-- JANY: taken when p[A] = 1 on at least one core of the row (R289, R290). -/
def execJany (b : Bool) (a : BitVec 5) (i : BitVec 13) (s : State) : Host.Outcome State Fault Refusal :=
  voteWord false b a i s

/-- JALL: taken when p[A] = 1 on all 16 cores (R289, R290). -/
def execJall (b : Bool) (a : BitVec 5) (i : BitVec 13) (s : State) : Host.Outcome State Fault Refusal :=
  voteWord true b a i s

/-- CALL: the return address goes to s[A] on every core whose guard holds; the head core transfers (R290). -/
def execCall (h : Hd) (a : BitVec 5) (i : BitVec 13) (s : State) : Host.Outcome State Fault Refusal :=
  s.word h (fun _ => none) fun s =>
    let s1 := s.land 1 [.s a.toNat (BitVec.ofNat 64 (s.cur.bundle + s.cur.nw))] 0#5
    if s.cur.col = 0 then take s1 (target s i.toInt) else s1

/-- RET: the target is s[A] of the head core (R290). -/
def execRet (h : Hd) (a : BitVec 5) (s : State) : Host.Outcome State Fault Refusal :=
  jump h [.s a.toNat] (fun _ => true) (fun s => (s.rs a).toNat) s

/-! ### Loops (R184, R291, R292) -/

/-- The word address after the bundle at an address; beyond the image, the end of the image. -/
def bundleAfter (s : State) (j pc : Nat) : Nat := match s.fetchBundle j pc with
  | .words ws => pc + ws.length
  | .endless => pc + 7
  | .beyond => ((s.job j).extent + 3) / 4

/-- LOOP and LOOPI with count n and end offset I8 (R291). Where R184 and R291 differ, on a count of 0 with four levels held, this
follows the pseudocode of R291: the body is skipped (log 94). -/
def loopWord (h : Hd) (rd : List Reg) (n : State → BitVec 32) (i : BitVec 8) (s : State) :
    Host.Outcome State Fault Refusal :=
  s.rowWord h (fun s => firstTrap
      [if i.toInt < (s.cur.nw : Int) then some .illegal else none, s.early rd,
       if n s ≠ 0#32 ∧ 4 ≤ s.myCtx.loops.length then some .illegal else none]) fun s =>
    if n s = 0#32 then take s (bundleAfter s s.myCtx.job (s.cur.bundle + i.toNat))
    else s.modCtx s.cur.ctx fun x =>
      { x with loops := { count := n s, start := s.cur.bundle + s.cur.nw, stop := s.cur.bundle + i.toNat } :: x.loops }

/-- LOOP: the count is bits [31:0] of the head core's s[A] (R291). -/
def execLoop (h : Hd) (a : BitVec 5) (i : BitVec 8) (s : State) : Host.Outcome State Fault Refusal :=
  loopWord h [.s a.toNat] (fun s => (s.rs a).setWidth 32) i s

/-- LOOPI: the count is 32 * D + A (R291). -/
def execLoopi (h : Hd) (d a : BitVec 5) (i : BitVec 8) (s : State) : Host.Outcome State Fault Refusal :=
  loopWord h [] (fun _ => BitVec.ofNat 32 (32 * d.toNat + a.toNat)) i s

/-- LBRK: pop the top level and go to the bundle after its end (R291). -/
def execLbrk (h : Hd) (s : State) : Host.Outcome State Fault Refusal :=
  s.rowWord h (fun s => if s.myCtx.loops = [] then some .illegal else none) fun s =>
    match s.myCtx.loops with
    | l :: r => take (s.modCtx s.cur.ctx fun x => { x with loops := r }) (bundleAfter s s.myCtx.job l.stop)
    | [] => s

/-! ### Their events -/

/-- ROW_VOTE_RESULT: the combined vote reaches the head core; the row goes on 1 cycle later, or at the target 4 cycles
later (R21). A bundle that ends a loop body and does not transfer closes its pass (R291). -/
def execRowVoteResult (s : State) : Host.Outcome State Fault Refusal :=
  match (s.ctx s.arg).wait with
  | .vote all t _ seen =>
    if (if all then seen.all id else seen.any id) then
      .next (s.modCtx s.arg fun x =>
        { x with wait := .none, pc := t, due := s.rowClk (rowOf s.arg) + 4, dueDelayed := false, moved := true })
    else
      .next ((s.modCtx s.arg fun x =>
        { x with wait := .none, due := s.rowClk (rowOf s.arg) + 1, dueDelayed := false }).after
          (.row (rowOf s.arg)) 0 s.cur s.arg .loopEnd)
  | _ => .next s

/-- End processing of a bundle at b: each level whose end is b counts down; the first that is not at 0 goes back to its
start, one at 0 is popped (R291). -/
def endLoops (b : Nat) : List LoopLvl → List LoopLvl × Option Nat
  | [] => ([], none)
  | l :: r =>
    if l.stop = b then
      if l.count - 1#32 = 0#32 then endLoops b r else ({ l with count := l.count - 1#32 } :: r, some l.start)
    else (l :: r, none)

/-- LOOP_END: the end of a loop body at its head-core execution (R184, R291). -/
def execLoopEnd (s : State) : Host.Outcome State Fault Refusal :=
  let x := s.ctx s.arg
  if x.moved then .next s else
    match endLoops s.cur.bundle x.loops with
    | (ls, some p) => .next (s.setCtx s.arg { x with loops := ls, pc := p, dueDelayed := false })
    | (ls, none) => .next (s.setCtx s.arg { x with loops := ls })

end Sys2Proof.Machine
end

