-- ==== Sys2Proof/Machine/Sparse.lean ====
section
/-! DEFINITION. Sparse streams, major 0x17, and attention state, major 0x15 (R325 to R333). -/

namespace Sys2Proof.Machine

open Sys2Proof State

/-! ### Sparse streams, major 0x17 -/

/-- A mask from 1,024 stream positions. -/
def maskOf (l : List Bool) : Mask := BitVec.ofNat 1024 (packList 1 (l.map fun b => if b then 1 else 0))
/-- The padding index (R326). -/
def padding : Nat := 0xFFFFFFFF

/-- VISECT: the matches of two index streams, and which stream ends first (R326). -/
def execVisect (h : Hd) (d a b : BitVec 4) (s : State) : Host.Outcome State Fault Refusal :=
  vecWord h 16 [vr a, vr b] (fun s =>
    let x := elems 32 (s.rv a.toNat)
    let y := elems 32 (s.rv b.toNat)
    let top := fun (l : List Nat) => (l.filter fun e => e != padding).foldl (fun m e => Nat.max m (e + 1)) 0
    let k := d.toNat % 8
    ([.k k (BitVec.allOnes 1024) (maskOf (x.map fun e => e != padding && y.contains e)),
      .k (k + 1) (BitVec.allOnes 1024) (maskOf (y.map fun e => e != padding && x.contains e)),
      .p 6 (decide (top x ≤ top y))], 0#5)) s

/-- The selected elements of a register in stream order. -/
def picked (k : Mask) (w : Nat) (v : Block) : List Nat :=
  ((flats w).filter fun p => sel k w p.1 p.2).map fun p => elem w v p.1 p.2

/-- VCOMP: the selected elements move to the front, zeros follow (R327). -/
def execVcomp (h : Hd) (d a : BitVec 4) (t k : BitVec 2) (s : State) : Host.Outcome State Fault Refusal :=
  let w := tyBits t
  vecWord h 16 [vr a, kr k] (fun s =>
    ([.v d.toNat (BitVec.allOnes 32768) (BitVec.ofNat 32768 (packList w (picked (ks s k) w (s.rv a.toNat))))], 0#5)) s

/-- Give each selected position the next element of a stream. -/
def spread : List Bool → List Nat → List Nat
  | [], _ => []
  | false :: r, l => 0 :: spread r l
  | true :: r, x :: l => x :: spread r l
  | true :: r, [] => 0 :: spread r []

/-- VEXPD: the leading elements move to the selected positions (R327). -/
def execVexpd (h : Hd) (d a : BitVec 4) (t k : BitVec 2) (s : State) : Host.Outcome State Fault Refusal :=
  let w := tyBits t
  vecWord h 16 [vr a, kr k] (fun s =>
    let m := ks s k
    let l := spread ((flats w).map fun p => sel m w p.1 p.2) (elems w (s.rv a.toNat))
    ([.v d.toNat (selBits m w) (BitVec.ofNat 32768 (packList w l))], 0#5)) s

/-- For each position, whether it is selected and an earlier selected one holds its value. -/
def repeats : List (Bool × Nat) → List Nat → List Bool
  | [], _ => []
  | (b, x) :: r, seen => (b && seen.contains x) :: repeats r (if b then x :: seen else seen)

/-- VCONF: the selected positions whose value an earlier selected position holds (R328). -/
def execVconf (h : Hd) (d a : BitVec 4) (t k : BitVec 2) (s : State) : Host.Outcome State Fault Refusal :=
  let w := tyBits t
  vecWord h 16 [vr a, kr k] (fun s =>
    let m := ks s k
    let v := s.rv a.toNat
    let l := repeats ((flats w).map fun p => (sel m w p.1 p.2, elem w v p.1 p.2)) []
    let bits := if w = 64 then l.flatMap fun b => [b, b] else l
    ([.k (d.toNat % 8) (BitVec.allOnes 1024) (maskOf bits)], 0#5)) s

/-- The steps of a segmented sum: position, start bits and values; each with the flags that reach it (R329). A segment's first
element passes as it is, a NaN with its payload (log 89). -/
def segSum (f : Fmt) (md : RMode) : Option (Nat × BitVec 5) → List (Nat × Bool) → List (Nat × BitVec 5)
  | _, [] => []
  | acc, (x, start) :: r =>
    let v : Nat × BitVec 5 := match acc with
      | some a => if start then (x, 0#5) else
          let y := addFp f md (f.dec a.1) (f.dec x)
          (y.1, y.2 ||| a.2)
      | none => (x, 0#5)
    v :: segSum f md (some v) r

/-- VSEGS: the segmented inclusive sum of VA; a nonzero element of VB starts a segment (R329). -/
def execVsegs (h : Hd) (d a b : BitVec 4) (t k : BitVec 2) (s : State) : Host.Outcome State Fault Refusal :=
  let f := tyFmt t
  let w := f.bits
  vecWord h 22 [vr a, vr b, kr k] (fun s =>
    lanesOf w (sel (ks s k) w) d.toNat (segSum f (modeOf s.me.round) none
      (List.zip (elems w (s.rv a.toNat)) ((elems w (s.rv b.toNat)).map fun e => e != 0)))) s

/-! ### Attention state, major 0x15 (R330 to R333) -/

/-- VMERGE3: merge two online-softmax states row by row (R331, R207). -/
def execVmerge3 (h : Hd) (d a b : BitVec 4) (s : State) : Host.Outcome State Fault Refusal :=
  vecWord h 24 [vr a, .v (a.toNat + 1), vr b, .v (b.toNat + 1)] (fun s =>
    let oa := s.rv a.toNat
    let ma := s.rv (a.toNat + 1)
    let ob := s.rv b.toNat
    let mb := s.rv (b.toNat + 1)
    let rows := (List.range 16).map fun r =>
      mergeS (elem 32 ma r 0) (elem 32 ma r 1) (rowElems 32 oa r) (elem 32 mb r 0) (elem 32 mb r 1) (rowElems 32 ob r)
    ([.v d.toNat (BitVec.allOnes 32768) (BitVec.ofNat 32768 (packList 2048 (rows.map fun x => packList 32 x.1.2.2))),
      .v (d.toNat + 1) (packBlock 32 fun _ j => if j < 2 then 2 ^ 32 - 1 else 0)
        (BitVec.ofNat 32768 (packList 2048 (rows.map fun x => packList 32 [x.1.1, x.1.2.1])))],
     orFlags (rows.map Prod.snd))) s

/-- VTMASK: elements whose ancestor bit is 0 become minus infinity (R333). -/
def execVtmask (h : Hd) (d a b : BitVec 4) (k : BitVec 2) (s : State) : Host.Outcome State Fault Refusal :=
  vecWord h 10 [vr a, vr b, kr k] (fun s =>
    let x := s.rv a.toNat
    let y := s.rv b.toNat
    lanes 32 (ks s k) d.toNat fun r j =>
      (if (elem 64 y r 0).testBit j then elem 32 x r j else 0xFF800000, 0#5)) s

/-- One row of VSMX: the weights, and the new maximum, sum and rescaling factor, with their flags (R207, R332). -/
def softRow (m l : Nat) (x : List Nat) : (List Nat × Nat × Nat × Nat) × BitVec 5 :=
  let nan := Fmt.f32.nanCode
  let isNan := fun c => (Fmt.f32.dec c).isNan
  let isSnan := fun c => (Fmt.f32.dec c).isSnan
  if isNan m || x.any isNan then
    ((x.map fun _ => nan, nan, nan, nan), flagIf (isSnan m || x.any isSnan) flNV)
  else
    let top := treeSum (fmax .f32) (x.map fun e => (e, 0#5))
    let m' := (fmax .f32 m top.1).1
    if Fmt.f32.dec m' = .inf true then ((x.map fun _ => 0, m', 0, 0), 0#5)
    else
      let ps := x.map fun e => weightS e m'
      let sum := treeSum add32 ps
      let al := weightS m m'
      let l' := combineS al.1 l 0x3F800000 sum.1
      ((ps.map Prod.fst, m', l'.1, al.1), sum.2 ||| al.2 ||| l'.2)

/-- VSMX: one step of the online softmax (R332). -/
def execVsmx (h : Hd) (d a b : BitVec 4) (s : State) : Host.Outcome State Fault Refusal :=
  vecWord h 32 [vr a, vr b] (fun s =>
    let x := s.rv a.toNat
    let y := s.rv b.toNat
    let rows := (List.range 16).map fun r => softRow (elem 32 y r 0) (elem 32 y r 1) (rowElems 32 x r)
    ([.v d.toNat (BitVec.allOnes 32768) (BitVec.ofNat 32768 (packList 2048 (rows.map fun q => packList 32 q.1.1))),
      .v b.toNat (packBlock 32 fun _ j => if j < 3 then 2 ^ 32 - 1 else 0)
        (BitVec.ofNat 32768 (packList 2048 (rows.map fun q => packList 32 [q.1.2.1, q.1.2.2.1, q.1.2.2.2])))],
     orFlags (rows.map Prod.snd))) s

end Sys2Proof.Machine
end

