-- ==== Sys2Proof/Machine/VecMem.lean ====
section
/-! DEFINITION. Vector memory, major 0x16 (R315 to R324). -/

namespace Sys2Proof.Machine

open Sys2Proof State

/-- One selected access of a vector memory word: its row, its address, its bit position in the register and its bytes. -/
structure VAcc where
  row : Nat
  ea : Int
  pos : Nat
  len : Nat
  deriving DecidableEq, Repr

/-- The flat address of an access whose base was aligned. -/
def VAcc.flat (s : State) (a : VAcc) : Except Trap Nat := s.ownAddr (BitVec.ofInt 64 a.ea) 1

/-- The perform offset of a row (R316): one cycle a row, or two for gathers and scatters. -/
def rowOff (wide : Bool) (r : Nat) : Nat := 2 + (if wide then 2 else 1) * r

/-- The slots a word's rows touch, with their perform offsets. -/
def vaccSlots (s : State) (wide : Bool) (l : List VAcc) : List (Nat × Nat) :=
  (l.map fun a => (rowOff wide a.row, slotOf (valOf (a.flat s)))).eraseDups

/-- The checks of a vector access (R318, R443): base alignment and addresses, early registers, then locks, windows and
conflicts. -/
def vaccTrap (s : State) (addr data : List Reg) (base : Word) (align : Nat) (wide : Bool) (l : List VAcc) : Option Trap :=
  firstTrap [s.known addr (addrTrap ((if base.toNat % align ≠ 0 then some .translation else none) :: l.map fun a => trapOf (a.flat s))),
    s.early (addr ++ data), s.accessTrap (vaccSlots s wide l)]

/-- Join runs that follow one another. -/
def mergeRuns (l : List Run) : List Run := l.foldr (fun a acc => match acc with
  | b :: r => if b.addr = a.addr + a.len ∧ b.pos = a.pos + 8 * a.len then { a with len := a.len + b.len } :: r
    else a :: b :: r
  | [] => [a]) []

/-- Join stores that follow one another in one codeword: no event of a row stands behind one of another codeword (R318). -/
def mergePuts (l : List Put) : List Put := l.foldr (fun a acc => match acc with
  | b :: r =>
    if b.addr = a.addr + a.len ∧ a.addr / 32 = b.addr / 32 then { a with len := a.len + b.len, val := a.val + b.val * 2 ^ (8 * a.len) } :: r
    else a :: b :: r
  | [] => [a]) []

/-- The reads of a row. -/
def rowRuns (s : State) (l : List VAcc) (r : Nat) : List Run :=
  mergeRuns ((l.filter fun a => a.row == r).map fun a => { addr := valOf (a.flat s), len := a.len, pos := a.pos })
/-- The writes of a row, from the store data. -/
def rowPuts (s : State) (v : Block) (l : List VAcc) (r : Nat) : List Put :=
  mergePuts ((l.filter fun a => a.row == r).map fun a =>
    { addr := valOf (a.flat s), len := a.len, val := (v.toNat >>> a.pos) % 2 ^ (8 * a.len) })

/-- Enter a load's rows and its landing; `mask` is what the result writes (R316, R317). -/
def vload (s : State) (tagged wide : Bool) (lat d : Nat) (mask : Block) (l : List VAcc) : State :=
  let id := s.freshId
  let s1 := s.bump.placeAcc (vaccSlots s wide l)
  let s2 := (List.range 16).foldl (fun t r =>
    match rowRuns s l r with
    | [] => t
    | runs => t.access (rowOff wide r) id (.vload tagged runs)) s1
  s2.landId id lat [.v d mask 0#32768] 0#5

/-- Enter a store's rows. -/
def vstore (s : State) (wide : Bool) (v : Block) (l : List VAcc) : State :=
  let id := s.freshId
  let s1 := s.bump.placeAcc (vaccSlots s wide l)
  (List.range 16).foldl (fun t r =>
    match rowPuts s v l r with
    | [] => t
    | puts => t.access (rowOff wide r) id (.vstore puts)) s1

/-! ### Block loads and stores (R319, R320) -/

/-- The address of a block access: s[SA] + 4,096 * VI. -/
def blockEa (s : State) (a : BitVec 5) (i : BitVec 4) : Int := ((s.rs a).toNat : Int) + 4096 * i.toNat
/-- The selected containers of a block access. -/
def blockAccs (s : State) (a : BitVec 5) (i : BitVec 4) (k : BitVec 2) : List VAcc :=
  let m := ks s k
  ((flats 32).filter fun p => sel m 32 p.1 p.2).map fun p =>
    { row := p.1, ea := blockEa s a i + (256 * p.1 + 4 * p.2 : Nat), pos := elemPos 32 p.1 p.2, len := 4 }

/-- VLD: the block under Sel (R319). -/
def execVld (h : Hd) (v : BitVec 4) (a : BitVec 5) (i : BitVec 4) (k : BitVec 2) (s : State) :
    Host.Outcome State Fault Refusal :=
  s.word h (fun s => vaccTrap s [.s a.toNat, kr k] [] (s.rs a) 4096 false (blockAccs s a i k)) fun s =>
    vload s false false 20 v.toNat (selBits (ks s k) 32) (blockAccs s a i k)

/-- VST: the register to the block under Sel (R319). -/
def execVst (h : Hd) (v : BitVec 4) (a : BitVec 5) (i : BitVec 4) (k : BitVec 2) (s : State) :
    Host.Outcome State Fault Refusal :=
  s.word h (fun s => vaccTrap s [.s a.toNat, kr k] [vr v] (s.rs a) 4096 false (blockAccs s a i k)) fun s =>
    vstore s false (s.rv v.toNat) (blockAccs s a i k)

/-- VLDT: VLD after a check of the slot's TAG and LOCK at e, which reads its metadata: a lock of its own context is an exchange lock, one
of any other a tag mismatch (R107, R320). The compare is an access of its own, of no bytes, where no row is read (R210). -/
def execVldt (h : Hd) (v : BitVec 4) (a : BitVec 5) (i : BitVec 4) (k : BitVec 2) (s : State) :
    Host.Outcome State Fault Refusal :=
  s.word h (fun s =>
    let at_ : VAcc := { row := 0, ea := blockEa s a i, pos := 0, len := 4 }
    let slot := slotOf (valOf (at_.flat s))
    let m := s.slot slot
    let tagReg : Reg := .s (a.toNat + 1)
    firstTrap [s.known [.s a.toNat, kr k] (addrTrap [if (s.rs a).toNat % 4096 ≠ 0 then some .translation else none, trapOf (at_.flat s)]),
      s.early [.s a.toNat, kr k, tagReg], if s.ctxLock slot 0 then some (.sched 10) else none,
      if s.timed then s.portTrap (vaccSlots s false (blockAccs s a i k)) else none,
      if m.lock ∨ m.tag ≠ (s.rs (a + 1#5)).setWidth 8 then some (.sched 2) else none]) fun s =>
    let slot := slotOf (valOf ({ row := 0, ea := blockEa s a i, pos := 0, len := 4 : VAcc }.flat s))
    let s1 := s.noteMeta slot s.myJob
    if s.metaBad slot then s1.takeDeferred s.cur s.cur.slot 7 0
    else
      let t := vload s1 true false 20 v.toNat (selBits (ks s k) 32) (blockAccs s a i k)
      if blockAccs s a i k = [] then t.access 2 0 (.vload true [{ addr := 4096 * slot, len := 0, pos := 0 }]) else t

/-! ### Strided and windowed access (R321, R57) -/

/-- Bytes of an element of a shape: 2^ESZ (R57). -/
def shapeE (h : Quad) : Nat := 2 ^ (h.extractLsb' 96 4).toNat
/-- The walk of a shape: each element in range or not, with its address. -/
def walkAccs (s : State) (a : BitVec 5) (hx : Quad) (m : Mask) : List VAcc :=
  let e := shapeE hx
  let n0 := (hx.extractLsb' 0 16).toNat
  let n1 := (hx.extractLsb' 16 16).toNat
  (flats (8 * e)).filterMap fun p =>
    let a0 := (hx.extractLsb' 64 8).toInt + (p.2 : Int)
    let a1 := (hx.extractLsb' 72 8).toInt + (p.1 : Int)
    if sel m (8 * e) p.1 p.2 && decide (0 ≤ a0) && decide (a0 < (n0 : Int)) && decide (0 ≤ a1) && decide (a1 < (n1 : Int)) then
      some { row := p.1, len := e, pos := elemPos (8 * e) p.1 p.2,
             ea := ((s.rs a).toNat : Int) +
               (e : Int) * (a0 * (hx.extractLsb' 32 16).toInt + a1 * (hx.extractLsb' 48 16).toInt) }
    else none

/-- VLDS: the walk of h[VI]; positions out of range read zero (R321). -/
def execVlds (h : Hd) (v : BitVec 4) (a : BitVec 5) (i : BitVec 3) (k : BitVec 2) (s : State) :
    Host.Outcome State Fault Refusal :=
  s.word h (fun s =>
    let hx := s.rh i.toNat
    vaccTrap s [.s a.toNat, .h i.toNat, kr k] [] (s.rs a) (shapeE hx) false (walkAccs s a hx (ks s k))) fun s =>
    let hx := s.rh i.toNat
    vload s false false 20 v.toNat (selBits (ks s k) (8 * shapeE hx)) (walkAccs s a hx (ks s k))

/-- VSTS: the register to the walk of h[VI]; of two positions at one address the later is kept (R321). -/
def execVsts (h : Hd) (v : BitVec 4) (a : BitVec 5) (i : BitVec 3) (k : BitVec 2) (s : State) :
    Host.Outcome State Fault Refusal :=
  s.word h (fun s =>
    let hx := s.rh i.toNat
    vaccTrap s [.s a.toNat, .h i.toNat, kr k] [vr v] (s.rs a) (shapeE hx) false (walkAccs s a hx (ks s k))) fun s =>
    vstore s false (s.rv v.toNat) (walkAccs s a (s.rh i.toNat) (ks s k))

/-! ### Gather and scatter (R322 to R324) -/

/-- The selected containers of a gather or scatter: s[SA] + 4 * index. -/
def indexAccs (s : State) (a : BitVec 5) (i : BitVec 4) (k : BitVec 2) : List VAcc :=
  let m := ks s k
  let x := s.rv i.toNat
  ((flats 32).filter fun p => sel m 32 p.1 p.2).map fun p =>
    { row := p.1, ea := ((s.rs a).toNat : Int) + 4 * (elem 32 x p.1 p.2 : Nat), pos := elemPos 32 p.1 p.2, len := 4 }

/-- The accesses whose address no earlier one names. -/
def firstOnly (l : List VAcc) : List VAcc :=
  (l.foldl (fun (a : List VAcc × List Int) x => if a.2.contains x.ea then a else (x :: a.1, x.ea :: a.2)) ([], [])).1.reverse

/-- The checks of a gather or scatter. -/
def indexTrap (s : State) (a : BitVec 5) (i : BitVec 4) (k : BitVec 2) (data : List Reg) (l : List VAcc) : Option Trap :=
  vaccTrap s [.s a.toNat, vr i, kr k] data (s.rs a) 4 true l

/-- VGATH: VD[r,c] := mem32[s[SA] + 4 * VI[r,c]] (R322). -/
def execVgath (h : Hd) (v : BitVec 4) (a : BitVec 5) (i : BitVec 4) (k : BitVec 2) (s : State) :
    Host.Outcome State Fault Refusal :=
  s.word h (fun s => indexTrap s a i k [] (indexAccs s a i k)) fun s =>
    vload s false true 36 v.toNat (selBits (ks s k) 32) (indexAccs s a i k)

/-- VSCAT: mem32[s[SA] + 4 * VI[r,c]] := V[r,c]; of equal addresses the later container is kept (R322). -/
def execVscat (h : Hd) (v : BitVec 4) (a : BitVec 5) (i : BitVec 4) (k : BitVec 2) (s : State) :
    Host.Outcome State Fault Refusal :=
  s.word h (fun s => indexTrap s a i k [vr v] (indexAccs s a i k)) fun s =>
    vstore s true (s.rv v.toNat) (indexAccs s a i k)

/-- VSCATC: of equal addresses the first container is kept; p6 says whether any was dropped (R323). Its result is that of its accesses: it moves with their deferral (R18). -/
def execVscatc (h : Hd) (v : BitVec 4) (a : BitVec 5) (i : BitVec 4) (k : BitVec 2) (s : State) :
    Host.Outcome State Fault Refusal :=
  s.word h (fun s => indexTrap s a i k [vr v] (firstOnly (indexAccs s a i k))) fun s =>
    let l := indexAccs s a i k
    let f := firstOnly l
    (vstore s true (s.rv v.toNat) f).landId s.freshId 36 [.p 6 (decide (f.length ≠ l.length))] 0#5

/-- The containers of a VSCADD grouped by address, in order of their first, with the row of the first (R324). -/
def addGroups (s : State) (v : Block) (l : List VAcc) : List (Nat × AddGroup) :=
  (firstOnly l).map fun a => (a.row,
    { addr := valOf (a.flat s),
      vals := (l.filter fun x => x.ea == a.ea).map fun x => BitVec.ofNat 32 (v.toNat >>> x.pos) })

/-- VSCADD: all containers of one address are added in FP32 as one event, in the row cycle of the first; the flags are
raised together at i + 36 (R324). -/
def execVscadd (h : Hd) (v : BitVec 4) (a : BitVec 5) (i : BitVec 4) (k : BitVec 2) (s : State) :
    Host.Outcome State Fault Refusal :=
  s.word h (fun s => indexTrap s a i k [vr v] (firstOnly (indexAccs s a i k))) fun s =>
    let l := indexAccs s a i k
    let gs := addGroups s (s.rv v.toNat) l
    let id := s.freshId
    let s1 := s.bump.placeAcc (vaccSlots s true (firstOnly l))
    let s2 := (List.range 16).foldl (fun t r =>
      match (gs.filter fun g => g.1 == r).map Prod.snd with
      | [] => t
      | row => t.access (rowOff true r) id (.scatAdd s.me.round row)) s1
    s2.landId id 36 [] 0#5

end Sys2Proof.Machine
end

