-- ==== Sys2Proof/Machine/Dispatch.lean ====
section
/-! DEFINITION. One arm per step of the module: each is a direct call of its meaning. -/

namespace Sys2Proof.Machine

open Sys2Proof

/-- What one word or event does to the state. -/
def exec (i : Instr) (s : State) : Host.Outcome State Fault Refusal :=
  match i with
  | .add h d a b w => Sys2Proof.Machine.execAdd h d a b w s
  | .sub h d a b w => Sys2Proof.Machine.execSub h d a b w s
  | .mul h d a b w => Sys2Proof.Machine.execMul h d a b w s
  | .mulh h d a b w => Sys2Proof.Machine.execMulh h d a b w s
  | .div h d a b w => Sys2Proof.Machine.execDiv h d a b w s
  | .divu h d a b w => Sys2Proof.Machine.execDivu h d a b w s
  | .rem h d a b w => Sys2Proof.Machine.execRem h d a b w s
  | .remu h d a b w => Sys2Proof.Machine.execRemu h d a b w s
  | .and h d a b w => Sys2Proof.Machine.execAnd h d a b w s
  | .or h d a b w => Sys2Proof.Machine.execOr h d a b w s
  | .xor h d a b w => Sys2Proof.Machine.execXor h d a b w s
  | .shl h d a b w => Sys2Proof.Machine.execShl h d a b w s
  | .shr h d a b w => Sys2Proof.Machine.execShr h d a b w s
  | .sar h d a b w => Sys2Proof.Machine.execSar h d a b w s
  | .min h d a b w => Sys2Proof.Machine.execMin h d a b w s
  | .max h d a b w => Sys2Proof.Machine.execMax h d a b w s
  | .clz h d a w => Sys2Proof.Machine.execClz h d a w s
  | .popc h d a w => Sys2Proof.Machine.execPopc h d a w s
  | .addi h d a imm => Sys2Proof.Machine.execAddi h d a imm s
  | .muli h d a imm => Sys2Proof.Machine.execMuli h d a imm s
  | .andi h d a imm => Sys2Proof.Machine.execAndi h d a imm s
  | .ori h d a imm => Sys2Proof.Machine.execOri h d a imm s
  | .xori h d a imm => Sys2Proof.Machine.execXori h d a imm s
  | .shli h d a imm => Sys2Proof.Machine.execShli h d a imm s
  | .shri h d a imm => Sys2Proof.Machine.execShri h d a imm s
  | .sari h d a imm => Sys2Proof.Machine.execSari h d a imm s
  | .li h d imm => Sys2Proof.Machine.execLi h d imm s
  | .lis h d imm => Sys2Proof.Machine.execLis h d imm s
  | .fadd h d a b w => Sys2Proof.Machine.execFadd h d a b w s
  | .fsub h d a b w => Sys2Proof.Machine.execFsub h d a b w s
  | .fmul h d a b w => Sys2Proof.Machine.execFmul h d a b w s
  | .fma h d a b w => Sys2Proof.Machine.execFma h d a b w s
  | .fdiv h d a b w => Sys2Proof.Machine.execFdiv h d a b w s
  | .fsqrt h d a w => Sys2Proof.Machine.execFsqrt h d a w s
  | .fmin h d a b w => Sys2Proof.Machine.execFmin h d a b w s
  | .fmax h d a b w => Sys2Proof.Machine.execFmax h d a b w s
  | .fcvtif h d a b w => Sys2Proof.Machine.execFcvtif h d a b w s
  | .fcvtfi h d a b w => Sys2Proof.Machine.execFcvtfi h d a b w s
  | .fcvtw h d a w => Sys2Proof.Machine.execFcvtw h d a w s
  | .fclass h d a w => Sys2Proof.Machine.execFclass h d a w s
  | .ld h d a imm => Sys2Proof.Machine.execLd h d a imm s
  | .lw h d a imm => Sys2Proof.Machine.execLw h d a imm s
  | .lwu h d a imm => Sys2Proof.Machine.execLwu h d a imm s
  | .st h d a imm => Sys2Proof.Machine.execSt h d a imm s
  | .sw h d a imm => Sys2Proof.Machine.execSw h d a imm s
  | .amoadd h o d a b w => Sys2Proof.Machine.execAmoadd h o d a b w s
  | .amoand h o d a b w => Sys2Proof.Machine.execAmoand h o d a b w s
  | .amoor h o d a b w => Sys2Proof.Machine.execAmoor h o d a b w s
  | .amoxor h o d a b w => Sys2Proof.Machine.execAmoxor h o d a b w s
  | .amomin h o d a b w => Sys2Proof.Machine.execAmomin h o d a b w s
  | .amomax h o d a b w => Sys2Proof.Machine.execAmomax h o d a b w s
  | .amoswap h o d a b w => Sys2Proof.Machine.execAmoswap h o d a b w s
  | .amocas h o d a b w => Sys2Proof.Machine.execAmocas h o d a b w s
  | .j h imm => Sys2Proof.Machine.execJ h imm s
  | .jz h a imm => Sys2Proof.Machine.execJz h a imm s
  | .jnz h a imm => Sys2Proof.Machine.execJnz h a imm s
  | .jp h a imm => Sys2Proof.Machine.execJp h a imm s
  | .jany last a imm => Sys2Proof.Machine.execJany last a imm s
  | .jall last a imm => Sys2Proof.Machine.execJall last a imm s
  | .call h a imm => Sys2Proof.Machine.execCall h a imm s
  | .ret h a => Sys2Proof.Machine.execRet h a s
  | .loop h a imm => Sys2Proof.Machine.execLoop h a imm s
  | .loopi h d a imm => Sys2Proof.Machine.execLoopi h d a imm s
  | .lbrk h => Sys2Proof.Machine.execLbrk h s
  | .peq h d a b w => Sys2Proof.Machine.execPeq h d a b w s
  | .pne h d a b w => Sys2Proof.Machine.execPne h d a b w s
  | .plt h d a b w => Sys2Proof.Machine.execPlt h d a b w s
  | .ple h d a b w => Sys2Proof.Machine.execPle h d a b w s
  | .pltu h d a b w => Sys2Proof.Machine.execPltu h d a b w s
  | .pfeq h d a b w => Sys2Proof.Machine.execPfeq h d a b w s
  | .pflt h d a b w => Sys2Proof.Machine.execPflt h d a b w s
  | .pand h d a b => Sys2Proof.Machine.execPand h d a b s
  | .por h d a b => Sys2Proof.Machine.execPor h d a b s
  | .pnot h d a => Sys2Proof.Machine.execPnot h d a s
  | .vadd h d a b t k => Sys2Proof.Machine.execVadd h d a b t k s
  | .vsub h d a b t k => Sys2Proof.Machine.execVsub h d a b t k s
  | .vmul h d a b t k => Sys2Proof.Machine.execVmul h d a b t k s
  | .vmin h d a b t k => Sys2Proof.Machine.execVmin h d a b t k s
  | .vmax h d a b t k => Sys2Proof.Machine.execVmax h d a b t k s
  | .vand h d a b t k => Sys2Proof.Machine.execVand h d a b t k s
  | .vor h d a b t k => Sys2Proof.Machine.execVor h d a b t k s
  | .vxor h d a b t k => Sys2Proof.Machine.execVxor h d a b t k s
  | .vshl h d a b t k => Sys2Proof.Machine.execVshl h d a b t k s
  | .vshr h d a b t k => Sys2Proof.Machine.execVshr h d a b t k s
  | .vsar h d a b t k => Sys2Proof.Machine.execVsar h d a b t k s
  | .vceq h d a b t k => Sys2Proof.Machine.execVceq h d a b t k s
  | .vclt h d a b t k => Sys2Proof.Machine.execVclt h d a b t k s
  | .vsel h d a b t k => Sys2Proof.Machine.execVsel h d a b t k s
  | .vfadd h d a b t k => Sys2Proof.Machine.execVfadd h d a b t k s
  | .vfsub h d a b t k => Sys2Proof.Machine.execVfsub h d a b t k s
  | .vfmul h d a b t k => Sys2Proof.Machine.execVfmul h d a b t k s
  | .vfma h d a b t k => Sys2Proof.Machine.execVfma h d a b t k s
  | .vfmin h d a b t k => Sys2Proof.Machine.execVfmin h d a b t k s
  | .vfmax h d a b t k => Sys2Proof.Machine.execVfmax h d a b t k s
  | .vfdiv h d a b t k => Sys2Proof.Machine.execVfdiv h d a b t k s
  | .vfsqrt h d a t k => Sys2Proof.Machine.execVfsqrt h d a t k s
  | .vfrsq h d a t k => Sys2Proof.Machine.execVfrsq h d a t k s
  | .vfexp2 h d a t k => Sys2Proof.Machine.execVfexp2 h d a t k s
  | .vflog2 h d a t k => Sys2Proof.Machine.execVflog2 h d a t k s
  | .vfceq h d a b t k => Sys2Proof.Machine.execVfceq h d a b t k s
  | .vfclt h d a b t k => Sys2Proof.Machine.execVfclt h d a b t k s
  | .vfcle h d a b t k => Sys2Proof.Machine.execVfcle h d a b t k s
  | .vcvt h d a b t k => Sys2Proof.Machine.execVcvt h d a b t k s
  | .vcvti h d a b t k => Sys2Proof.Machine.execVcvti h d a b t k s
  | .vcvtf h d a b t k => Sys2Proof.Machine.execVcvtf h d a b t k s
  | .vqmx h d a b t k => Sys2Proof.Machine.execVqmx h d a b t k s
  | .vdqmx h d a b t k => Sys2Proof.Machine.execVdqmx h d a b t k s
  | .vrotr h d a b t k => Sys2Proof.Machine.execVrotr h d a b t k s
  | .vbcr h d a b t k => Sys2Proof.Machine.execVbcr h d a b t k s
  | .vsumr h d a b t k => Sys2Proof.Machine.execVsumr h d a b t k s
  | .vmaxr h d a b t k => Sys2Proof.Machine.execVmaxr h d a b t k s
  | .vscanr h d a b t k => Sys2Proof.Machine.execVscanr h d a b t k s
  | .vlrecr h d a b t k => Sys2Proof.Machine.execVlrecr h d a b t k s
  | .vrotc h d a b t k => Sys2Proof.Machine.execVrotc h d a b t k s
  | .vbcc h d a b t k => Sys2Proof.Machine.execVbcc h d a b t k s
  | .vsumc h d a b t k => Sys2Proof.Machine.execVsumc h d a b t k s
  | .vmaxc h d a b t k => Sys2Proof.Machine.execVmaxc h d a b t k s
  | .vscanc h d a b t k => Sys2Proof.Machine.execVscanc h d a b t k s
  | .vtrn h d a t k => Sys2Proof.Machine.execVtrn h d a t k s
  | .vmerge3 h d a b => Sys2Proof.Machine.execVmerge3 h d a b s
  | .vtmask h d a b k => Sys2Proof.Machine.execVtmask h d a b k s
  | .vsmx h d a b => Sys2Proof.Machine.execVsmx h d a b s
  | .vld h v a imm k => Sys2Proof.Machine.execVld h v a imm k s
  | .vst h v a imm k => Sys2Proof.Machine.execVst h v a imm k s
  | .vldt h v a imm k => Sys2Proof.Machine.execVldt h v a imm k s
  | .vlds h v a imm k => Sys2Proof.Machine.execVlds h v a imm k s
  | .vsts h v a imm k => Sys2Proof.Machine.execVsts h v a imm k s
  | .vgath h v a imm k => Sys2Proof.Machine.execVgath h v a imm k s
  | .vscat h v a imm k => Sys2Proof.Machine.execVscat h v a imm k s
  | .vscatc h v a imm k => Sys2Proof.Machine.execVscatc h v a imm k s
  | .vscadd h v a imm k => Sys2Proof.Machine.execVscadd h v a imm k s
  | .visect h d a b => Sys2Proof.Machine.execVisect h d a b s
  | .vcomp h d a t k => Sys2Proof.Machine.execVcomp h d a t k s
  | .vexpd h d a t k => Sys2Proof.Machine.execVexpd h d a t k s
  | .vconf h d a t k => Sys2Proof.Machine.execVconf h d a t k s
  | .vsegs h d a b t k => Sys2Proof.Machine.execVsegs h d a b t k s
  | .vmov h d a t k => Sys2Proof.Machine.execVmov h d a t k s
  | .vmovx h d a b t k => Sys2Proof.Machine.execVmovx h d a b t k s
  | .vsplat h d imm t k => Sys2Proof.Machine.execVsplat h d imm t k s
  | .vins h d a b k => Sys2Proof.Machine.execVins h d a b k s
  | .vext h d a b k => Sys2Proof.Machine.execVext h d a b k s
  | .vrand h d k => Sys2Proof.Machine.execVrand h d k s
  | .kand h d a b => Sys2Proof.Machine.execKand h d a b s
  | .kor h d a b => Sys2Proof.Machine.execKor h d a b s
  | .kxor h d a b => Sys2Proof.Machine.execKxor h d a b s
  | .knot h d a => Sys2Proof.Machine.execKnot h d a s
  | .kpop h d a => Sys2Proof.Machine.execKpop h d a s
  | .kfirst h d a => Sys2Proof.Machine.execKfirst h d a s
  | .kset h d e => Sys2Proof.Machine.execKset h d e s
  | .mma h z a b f => Sys2Proof.Machine.execMma h z a b f s
  | .mmaz h z a b f => Sys2Proof.Machine.execMmaz h z a b f s
  | .mmat h z a b f => Sys2Proof.Machine.execMmat h z a b f s
  | .mwin h z a b f => Sys2Proof.Machine.execMwin h z a b f s
  | .mmax h z a b f => Sys2Proof.Machine.execMmax h z a b f s
  | .mcsr h z a b f => Sys2Proof.Machine.execMcsr h z a b f s
  | .mbsr h z a b f => Sys2Proof.Machine.execMbsr h z a b f s
  | .m24 h z a b f => Sys2Proof.Machine.execM24 h z a b f s
  | .zrd h z b f => Sys2Proof.Machine.execZrd h z b f s
  | .zwr h z b f => Sys2Proof.Machine.execZwr h z b f s
  | .zclr h z => Sys2Proof.Machine.execZclr h z s
  | .esld h z a f => Sys2Proof.Machine.execEsld h z a f s
  | .amode h f => Sys2Proof.Machine.execAmode h f s
  | .mshape h a b f => Sys2Proof.Machine.execMshape h a b f s
  | .xch h x y c => Sys2Proof.Machine.execXch h x y c s
  | .xchc h x y v => Sys2Proof.Machine.execXchc h x y v s
  | .xcht h x y c => Sys2Proof.Machine.execXcht h x y c s
  | .xrot h x => Sys2Proof.Machine.execXrot h x s
  | .xver h x y => Sys2Proof.Machine.execXver h x y s
  | .xverRead h x y => Sys2Proof.Machine.execXverRead h x y s
  | .send h x c => Sys2Proof.Machine.execSend h x c s
  | .recv h x c => Sys2Proof.Machine.execRecv h x c s
  | .vfpush h x c => Sys2Proof.Machine.execVfpush h x c s
  | .vfpop h x c => Sys2Proof.Machine.execVfpop h x c s
  | .vffree h x => Sys2Proof.Machine.execVffree h x s
  | .dact h c imm => Sys2Proof.Machine.execDact h c imm s
  | .drd h c => Sys2Proof.Machine.execDrd h c s
  | .dwr h c => Sys2Proof.Machine.execDwr h c s
  | .dpre h c imm => Sys2Proof.Machine.execDpre h c imm s
  | .dprea h c => Sys2Proof.Machine.execDprea h c s
  | .dref h c => Sys2Proof.Machine.execDref h c s
  | .ssbind h x y c => Sys2Proof.Machine.execSsbind h x y c s
  | .ssadv h y c => Sys2Proof.Machine.execSsadv h y c s
  | .ssroll h y c => Sys2Proof.Machine.execSsroll h y c s
  | .ssfork h x y c => Sys2Proof.Machine.execSsfork h x y c s
  | .ssdrop h c => Sys2Proof.Machine.execSsdrop h c s
  | .ssfind h x y c => Sys2Proof.Machine.execSsfind h x y c s
  | .gld h x y c => Sys2Proof.Machine.execGld h x y c s
  | .gst h x y c => Sys2Proof.Machine.execGst h x y c s
  | .gacq h x y => Sys2Proof.Machine.execGacq h x y s
  | .grel h x y => Sys2Proof.Machine.execGrel h x y s
  | .gamo h x y c => Sys2Proof.Machine.execGamo h x y c s
  | .gmrg h x y c => Sys2Proof.Machine.execGmrg h x y c s
  | .agset h x y c => Sys2Proof.Machine.execAgset h x y c s
  | .agen h x y c => Sys2Proof.Machine.execAgen h x y c s
  | .syscall h imm => Sys2Proof.Machine.execSyscall h imm s
  | .trapi h imm => Sys2Proof.Machine.execTrapi h imm s
  | .fence h b => Sys2Proof.Machine.execFence h b s
  | .realign h => Sys2Proof.Machine.execRealign h s
  | .waitk h a b => Sys2Proof.Machine.execWaitk h a b s
  | .halt h => Sys2Proof.Machine.execHalt h s
  | .getc h d imm => Sys2Proof.Machine.execGetc h d imm s
  | .setc h d imm => Sys2Proof.Machine.execSetc h d imm s
  | .setb h d imm => Sys2Proof.Machine.execSetb h d imm s
  | .clrb h d imm => Sys2Proof.Machine.execClrb h d imm s
  | .launch h d a b => Sys2Proof.Machine.execLaunch h d a b s
  | .yield h imm => Sys2Proof.Machine.execYield h imm s
  | .hdr last d => Sys2Proof.Machine.execHdr last d s
  | .launchRecordWrite who queue rec => Sys2Proof.Machine.execLaunchRecordWrite who queue rec s
  | .qmapWrite vf x => Sys2Proof.Machine.execQmapWrite vf x s
  | .registerWrite r x => Sys2Proof.Machine.execRegisterWrite r x s
  | .scrubRequestEnqueue b => Sys2Proof.Machine.execScrubRequestEnqueue b s
  | .scrubComplete b => Sys2Proof.Machine.execScrubComplete b s
  | .invalidateRangeEntry job entry => Sys2Proof.Machine.execInvalidateRangeEntry job entry s
  | .invalidatePage job page => Sys2Proof.Machine.execInvalidatePage job page s
  | .worldMapWrite b w => Sys2Proof.Machine.execWorldMapWrite b w s
  | .tickRegisterWrite x => Sys2Proof.Machine.execTickRegisterWrite x s
  | .svnCommit v => Sys2Proof.Machine.execSvnCommit v s
  | .mrExtend n image => Sys2Proof.Machine.execMrExtend n image s
  | .attestationRequest vf job nonce kem => Sys2Proof.Machine.execAttestationRequest vf job nonce kem s
  | .linkUp port peer => Sys2Proof.Machine.execLinkUp port peer s
  | .domainAlignment cycle log2 parts => Sys2Proof.Machine.execDomainAlignment cycle log2 parts s
  | .linkKeyAgreement port out key => Sys2Proof.Machine.execLinkKeyAgreement port out key s
  | .holdRunEnd part c => Sys2Proof.Machine.execHoldRunEnd part c s
  | .remoteAccessPerform r => Sys2Proof.Machine.execRemoteAccessPerform r s
  | .resultLanding f => Sys2Proof.Machine.execResultLanding f s
  | .matrixResultLanding m => Sys2Proof.Machine.execMatrixResultLanding m s
  | .deferredAccessPerform a => Sys2Proof.Machine.execDeferredAccessPerform a s
  | .drdBeatArrival ch peel burst q => Sys2Proof.Machine.execDrdBeatArrival ch peel burst q s
  | .dwrBeatDelivery ch peel burst q => Sys2Proof.Machine.execDwrBeatDelivery ch peel burst q s
  | .burstCheckFailure ch burst lane write => Sys2Proof.Machine.execBurstCheckFailure ch burst lane write s
  | .laneTestComplete ch lanes => Sys2Proof.Machine.execLaneTestComplete ch lanes s
  | .gOpReply ctx col entry data => Sys2Proof.Machine.execGOpReply ctx col entry data s
  | .remoteAcknowledge ctx col entry => Sys2Proof.Machine.execRemoteAcknowledge ctx col entry s
  | .remoteNack ctx col entry k => Sys2Proof.Machine.execRemoteNack ctx col entry k s
  | .flitAcknowledge port seq => Sys2Proof.Machine.execFlitAcknowledge port seq s
  | .mergeContributionArrival r => Sys2Proof.Machine.execMergeContributionArrival r s
  | .recvRowArrival ctx col hop die t row => Sys2Proof.Machine.execRecvRowArrival ctx col hop die t row s
  | .randkeyWrite hi clear set => Sys2Proof.Machine.execRandkeyWrite hi clear set s
  | .randposWrite clear set => Sys2Proof.Machine.execRandposWrite clear set s
  | .touchedClear bits => Sys2Proof.Machine.execTouchedClear bits s
  | .amodeWrite win => Sys2Proof.Machine.execAmodeWrite win s
  | .cmodeWrite mode => Sys2Proof.Machine.execCmodeWrite mode s
  | .hostFarMemoryAccess write addr len val => Sys2Proof.Machine.execHostFarMemoryAccess write addr len val s
  | .domainWindowMapWrite w entry => Sys2Proof.Machine.execDomainWindowMapWrite w entry s
  | .hostSaveAreaWrite ctx col f => Sys2Proof.Machine.execHostSaveAreaWrite ctx col f s
  | .queueDisable => Sys2Proof.Machine.execQueueDisable s
  | .dispatchDecision => Sys2Proof.Machine.execDispatchDecision s
  | .effectivePriorityRise => Sys2Proof.Machine.execEffectivePriorityRise s
  | .placement => Sys2Proof.Machine.execPlacement s
  | .rejectedRecordLeaves => Sys2Proof.Machine.execRejectedRecordLeaves s
  | .jobStart => Sys2Proof.Machine.execJobStart s
  | .jobEnd => Sys2Proof.Machine.execJobEnd s
  | .preemptionStop => Sys2Proof.Machine.execPreemptionStop s
  | .preemptSaveComplete => Sys2Proof.Machine.execPreemptSaveComplete s
  | .hostContinue => Sys2Proof.Machine.execHostContinue s
  | .hostEnd => Sys2Proof.Machine.execHostEnd s
  | .jobRestart => Sys2Proof.Machine.execJobRestart s
  | .hostEventHeadAdvance => Sys2Proof.Machine.execHostEventHeadAdvance s
  | .waitingEventEntry => Sys2Proof.Machine.execWaitingEventEntry s
  | .invalidateJob => Sys2Proof.Machine.execInvalidateJob s
  | .invalidationComplete => Sys2Proof.Machine.execInvalidationComplete s
  | .tickPeriodChange => Sys2Proof.Machine.execTickPeriodChange s
  | .coldReset => Sys2Proof.Machine.execColdReset s
  | .warmReset => Sys2Proof.Machine.execWarmReset s
  | .sensorSample => Sys2Proof.Machine.execSensorSample s
  | .powerEstimate => Sys2Proof.Machine.execPowerEstimate s
  | .thermalAlarm => Sys2Proof.Machine.execThermalAlarm s
  | .moduleTrip => Sys2Proof.Machine.execModuleTrip s
  | .globalTick => Sys2Proof.Machine.execGlobalTick s
  | .realignRelease => Sys2Proof.Machine.execRealignRelease s
  | .domainStepBoundary => Sys2Proof.Machine.execDomainStepBoundary s
  | .domainStepStart => Sys2Proof.Machine.execDomainStepStart s
  | .boundaryHoldTimeout => Sys2Proof.Machine.execBoundaryHoldTimeout s
  | .watchdog => Sys2Proof.Machine.execWatchdog s
  | .programRefreshDebtWrap => Sys2Proof.Machine.execProgramRefreshDebtWrap s
  | .holdRefreshDebtWrap => Sys2Proof.Machine.execHoldRefreshDebtWrap s
  | .guardSequenceComplete => Sys2Proof.Machine.execGuardSequenceComplete s
  | .unownedChannelRefresh => Sys2Proof.Machine.execUnownedChannelRefresh s
  | .bankRefreshWindow => Sys2Proof.Machine.execBankRefreshWindow s
  | .randomQueueRefill => Sys2Proof.Machine.execRandomQueueRefill s
  | .exchangeBeatCrossing => Sys2Proof.Machine.execExchangeBeatCrossing s
  | .xchtPairLanding => Sys2Proof.Machine.execXchtPairLanding s
  | .exchangeComplete => Sys2Proof.Machine.execExchangeComplete s
  | .exchangeDeferredStart => Sys2Proof.Machine.execExchangeDeferredStart s
  | .dwrWriteStatus => Sys2Proof.Machine.execDwrWriteStatus s
  | .burstReplay => Sys2Proof.Machine.execBurstReplay s
  | .translationWalkComplete => Sys2Proof.Machine.execTranslationWalkComplete s
  | .gOpDeferredIssue => Sys2Proof.Machine.execGOpDeferredIssue s
  | .releasePerform => Sys2Proof.Machine.execReleasePerform s
  | .flitReplay => Sys2Proof.Machine.execFlitReplay s
  | .recvRowMissing => Sys2Proof.Machine.execRecvRowMissing s
  | .rowVoteResult => Sys2Proof.Machine.execRowVoteResult s
  | .fenceRelease => Sys2Proof.Machine.execFenceRelease s
  | .loopEnd => Sys2Proof.Machine.execLoopEnd s
  | .mshapeTakeEffect => Sys2Proof.Machine.execMshapeTakeEffect s
  | .singleStepTrap => Sys2Proof.Machine.execSingleStepTrap s
  | .touchedBitClear => Sys2Proof.Machine.execTouchedBitClear s
  | .amodeWindowChange => Sys2Proof.Machine.execAmodeWindowChange s
  | .pgateCreqSet => Sys2Proof.Machine.execPgateCreqSet s
  | .pgateCreqClear => Sys2Proof.Machine.execPgateCreqClear s
  | .pgateSreqSet => Sys2Proof.Machine.execPgateSreqSet s
  | .pgateSreqClear => Sys2Proof.Machine.execPgateSreqClear s
  | .crownGateComplete => Sys2Proof.Machine.execCrownGateComplete s
  | .crownUngateComplete => Sys2Proof.Machine.execCrownUngateComplete s
  | .stackGateComplete => Sys2Proof.Machine.execStackGateComplete s
  | .stackUngateComplete => Sys2Proof.Machine.execStackUngateComplete s
  | .repairRecordCommit => Sys2Proof.Machine.execRepairRecordCommit s
  | .regionScrubRun => Sys2Proof.Machine.execRegionScrubRun s

end Sys2Proof.Machine
end

