-- ==== Sys2Proof/Machine/Run.lean ====
section
/-! DEFINITION. The machine's clockwork: the order of the work of one chip cycle, the check of a cycle for traps, issue,
and the advance of the clocks with the events they bring (R19, R34, R38, R40, R211, R234, R445). -/

namespace Sys2Proof.Machine

open Sys2Proof State

/-! ### The order of a cycle's work (log 4) -/

/-- The key of an access among those that perform in one cycle: ring events by the rank of R164; else timed before untimed, P before
Q, the longer deferred first, then R211 (R18). -/
def accessKey (e : Sched) (ring : Bool) : List Nat :=
  if ring then [3, 0, 0, ringRank e.cur, e.ord]
  else [3, if timedEntry e then 0 else 1 + e.cur.ctx % 2, 2 ^ 20 - Nat.min (2 ^ 20) e.arg, rank e.cur, e.ord]

/-- A result that only writes control registers. -/
def ctlOnly (f : Flight) : Bool := f.writes ≠ [] && f.writes.all fun w => match w with | .ctl .. => true | _ => false

/-- A ring word, whose operations on one stack apply in the order of R164. -/
def ringWordIs : Instr → Bool
  | .ssbind .. | .ssadv .. | .ssroll .. | .ssfork .. | .ssdrop .. | .ssfind .. => true
  | _ => false

/-- The key of an entry among those of one chip cycle; keys are compared as lists. Results of one core land in the order of their
bundles and ports (R47). A refresh wrap with 512 in its number follows the words (R178). The physical function's record writes come
before the virtual functions' (R139; log 105). -/
def taskKey (e : Sched) : List Nat := match e.act with
  | .registerWrite .. | .queueDisable | .worldMapWrite .. | .qmapWrite .. => [0, 0, e.ord]
  | .launchRecordWrite who _ _ => match who with
    | .core c _ _ => [0, 1, stackOf c e.cur.col, c, e.ord]
    | .pf => [0, 2, 0, e.ord]
    | .vf n => [0, 2, n + 1, e.ord]
  -- of crossings that meet on a port the timed ones go first, then P's, then Q's (R18, R104)
  | .exchangeBeatCrossing | .xchtPairLanding | .dwrBeatDelivery .. => [1, 0, if timedEntry e then 0 else 1 + e.cur.ctx % 2, e.ord]
  | .drdBeatArrival .. | .recvRowArrival .. => [1, 0, 0, e.ord]
  -- a held command of a Q owner comes after the wraps of its cycle, as its words do (R178)
  | .guardSequenceComplete => if e.cur = Cursor.none then [0, 5, e.ord] else [0, 6, e.ord]
  | .exchangeComplete => [1, 1, e.ord]
  | .dwrWriteStatus => [1, 2, e.ord]
  | .holdRunEnd .. => [1, 3, e.ord]
  | .randkeyWrite .. | .randposWrite .. | .touchedClear .. | .amodeWrite .. | .cmodeWrite .. =>
    [2, 0, dieOf e.cur.ctx, e.ord]
  | .pgateCreqSet | .pgateCreqClear | .pgateSreqSet | .pgateSreqClear =>
    if e.cur = Cursor.none then [2, 2, 0, e.ord] else [2, 0, dieOf e.cur.ctx, e.ord]
  | .crownGateComplete | .crownUngateComplete | .stackGateComplete | .stackUngateComplete => [2, 2, 0, e.ord]
  | .resultLanding f =>
    if ctlOnly f then [2, 0, dieOf e.cur.ctx, e.ord] else [2, 1, dieOf e.cur.ctx, e.cur.seq, e.cur.slot.port, e.ord]
  | .matrixResultLanding _ => [2, 1, dieOf e.cur.ctx, e.cur.seq, e.cur.slot.port, e.ord]
  | .mshapeTakeEffect | .randomQueueRefill | .touchedBitClear => [2, 2, 0, e.ord]
  | .deferredAccessPerform a => accessKey e (match a.op with | .ring .. => true | _ => false)
  | .releasePerform => accessKey e false
  | .remoteAccessPerform _ | .mergeContributionArrival _ | .recvRowMissing => [3, 3, 0, 0, e.ord]
  | .fenceRelease => [4, 0, e.ord]
  | .loopEnd => [5, 1, e.ord]
  | .programRefreshDebtWrap => if 512 ≤ e.arg then [5, 0, e.ord] else [0, 5, e.ord]
  | i =>
    if ringWordIs i then [4, 2, ringRank e.cur, e.ord]
    else if (wordInfo 0 i).isSome then [4, 1, rank e.cur, e.ord] else [0, 5, e.ord]

/-- Order of keys. -/
def keyLt : List Nat → List Nat → Bool
  | [], [] => false
  | [], _ => true
  | _, [] => false
  | a :: r, b :: q => if a < b then true else if b < a then false else keyLt r q

namespace State

/-- An entry is due: its clock has reached its cycle. -/
def isDue (s : State) (e : Sched) : Bool := decide (e.due ≤ s.clkNow e.clk)

/-- The first due entry of the agenda. -/
def firstDue (s : State) : Option Sched := s.agenda.foldl (fun b e =>
  if s.isDue e then match b with
    | none => some e
    | some x => if keyLt (taskKey e) (taskKey x) then some e else b
  else b) none

/-- A job that ends in this cycle (R33). -/
def endingJob (s : State) : Option Nat :=
  (s.jobs.rows.find? fun r => r.2.state == .running &&
    (s.ctxsOf r.1).all s.ctxEnded).map Prod.fst

/-- A piece of work of the present cycle. -/
inductive Task where
  | entry (e : Sched)
  | issue (c : Nat)
  | jobEnds (j : Nat)
  deriving DecidableEq, Repr

/-- The next piece of work of the present cycle, if one is left. -/
def nextTask (s : State) : Option Task :=
  match s.firstDue with
  | some e =>
    if (taskKey e).headD 0 ≤ 4 then some (.entry e)
    else match s.issuer with
      | some c => some (.issue c)
      | none => some (.entry e)
  | none => match s.issuer with
    | some c => some (.issue c)
    | none => s.endingJob.map .jobEnds

/-- Take an entry from the agenda and make its cursor the executing one. -/
def begin_ (s : State) (e : Sched) : State :=
  { s with agenda := s.agenda.filter fun x => x.ord != e.ord, cur := e.cur, arg := e.arg, ord := e.ord }

/-- The state in which a context's bundle has issued and its first word is about to run on the head core. -/
def issued (s : State) (c : Nat) (ws : List (BitVec 32)) (ps : List Placed) : State :=
  let s0 := ({ s with cur := s.headCur c .nowhere ws.length }).issueWords c ws ps
  let s1 := (List.range 16).foldl (fun t col => t.tally c col 4 1) s0
  match ps with
  | p :: _ => { s1 with cur := s.headCur c p.slot ws.length, arg := 0, ord := s1.nextId }
  | [] => s1

/-- Issue a context's bundle and run its first word; a bundle that may not issue traps instead (R121, R252, R257). -/
def runIssue (s : State) (c : Nat) : Host.Outcome State Fault Refusal :=
  match s.checkIssue c with
  | .trap slot t =>
    if s.probe then .next ((s.trapAt false (s.headCur c slot 0) slot t).modCtx c fun x => { x with wait := .halted })
    else .next (s.trapAt false (s.headCur c slot 0) slot t)
  | .go ws ps => match ps with
    | p :: _ => exec p.ins (s.issued c ws ps)
    | [] => .next s

/-- Run one piece of work. -/
def runTask (s : State) : Task → Host.Outcome State Fault Refusal
  | .entry e => exec e.act (s.begin_ e)
  | .issue c => s.runIssue c
  | .jobEnds j => exec .jobEnd { s with arg := j, cur := Cursor.none, ord := 0 }

/-! ### Checking a cycle for traps (R234; log 5) -/

/-- The entry a task runs: that of the agenda, or the first word of a bundle that issues. -/
def taskEntry (s : State) (f : Found) : Task → Option Sched
  | .entry e => some e
  | .issue c => match s.checkIssue c with
    | .go _ (p :: _) => some { clk := .row (rowOf c), due := 0, ord := 0, cur := f.cur, arg := 0, act := p.ins }
    | _ => none
  | .jobEnds _ => none

/-- Run the work of the cycle up to its job ends on a copy, noting traps, each with the entry that met it. -/
def probeLoop : Nat → State → State
  | 0, s => s
  | n + 1, s => match s.nextTask with
    | none => s
    | some t =>
      if (match t with | .jobEnds _ => true | _ => false) then s
      else match s.runTask t with
        | .next s' => probeLoop n { s' with found := s'.found.map fun f =>
            if f.act.isSome then f else { f with act := s.taskEntry f t } }
        | _ => s

/-- The trap that the present cycle takes, if any. -/
def cycleTrap (s : State) : Option Found :=
  firstFound (probeLoop 1000000 { s with probe := true, found := [] }).found

/-- A context's bundle issues in the present cycle with all its words pending, none run (R242; log 104). -/
def issueOnly (s : State) (c : Nat) : State := match s.checkIssue c with
  | .go ws (p :: ps) =>
    let s1 := { s with cur := s.headCur c .nowhere ws.length }
    (s1.issueWords c ws (p :: ps)).after (.row (rowOf c)) 0 (s1.headCur c p.slot ws.length) 0 p.ins
  | _ => s

/-- The word of a cursor runs, and where it is not the failing event itself, the access that it enters in the same cycle: what the
failing operation of a deferred trap does (R242). -/
def runFailing (s : State) (e : Sched) : Host.Outcome State Fault Refusal :=
  let s1 := if (s.ctx e.cur.ctx).seq < e.cur.seq then s.issueOnly e.cur.ctx else s
  match s1.agenda.find? fun x => x.cur == e.cur && (wordInfo 0 x.act).isSome with
  | none => .next s
  | some w => match exec w.act (s1.begin_ w) with
    | .next s2 =>
      if (wordInfo 0 e.act).isSome then .next s2
      else match s2.agenda.find? fun x => x.cur == e.cur && s2.isDue x with
        | some x => exec x.act (s2.begin_ x)
        | none => .next s2
    | o => o

/-- Take the trap found: a deferred one after its event has abandoned its operation (R242); a step, watchdog or stop by its own
event. -/
def takeFound (s : State) (f : Found) : Host.Outcome State Fault Refusal :=
  let t : Trap := { cause := f.cause, sub := f.sub, past := f.past }
  let freeze := fun (o : Host.Outcome State Fault Refusal) => match o with
    | .next s' => .next (if f.cls ≤ 1 then s'.freezeTrap f.cur t f.slot 1 s.cycle else s')
    | o => o
  if f.cls = 0 then freeze (.next s)
  else match f.act with
    | none => freeze (.next s)
    | some e => freeze (match e.act with
      | .exchangeBeatCrossing => .next (failCrossing (s.begin_ e))
      -- of a port that fails in this very cycle (R149, R231)
      | .remoteNack .. => exec e.act (s.begin_ e)
      | _ => if s.agenda.any fun x => x.ord == e.ord && x.act == e.act then exec e.act (s.begin_ e) else s.runFailing e)

/-! ### The advance of the clocks -/

/-- A hold run leaves this chip cycle free (R35; log 17). -/
def freeCycle (s : State) (p : Nat) (causes : List HoldCause) : Bool :=
  (causes.all fun c => match c with | .thermal _ => true | .power => true | _ => false) &&
    (s.now % 16 == 0 || Config.freeCycle p s.now)

/-- The partition's clock in the chip cycle that begins: the causes detected before hold from now on (R34, R35), but none before its
count begins (R38). The fixed alignment delay of a step boundary counts no hold ticks (R42). A cycle that a limit's hold leaves free
beyond one in 16 lets the limit's time begin anew (R36; log 17). -/
def partTick (s : State) (n : Nat) (p : Part) : Part :=
  if !p.live then p else
    let causes := p.causes ++ p.fresh.filter fun c => !(p.causes.contains c)
    let begun := decide (1 ≤ (s.now : Int) - (p.lag : Int) - p.base)
    let free := s.freeCycle n causes
    let still := decide (causes ≠ []) && begun && !free
    let delay := causes == [.boundary] && p.members ≠ [] && match p.boundary with
      | some t => decide (s.now ≤ t + 2048)
      | none => false
    { p with causes := causes, fresh := [], still := still, lag := p.lag + (if still then 1 else 0),
             limits := if free && causes ≠ [] && s.now % 16 ≠ 0 then p.limits.map fun x => (x.1, s.now) else p.limits,
             holds := p.holds + (if still && !delay then 1#64 else 0#64), ran := if p.still then p.ran else s.now - 1 }

/-- The rows whose clock stands (R34, R445). -/
def rowTick (s : State) : Tbl Nat :=
  (List.range 32).foldl (fun t r =>
    if s.rowStill r then t.put 0 r (t.get 0 r + 1) else t) s.rowLag

/-- A channel counts a domain cycle of its owner (R176). -/
def chanRuns (s : State) (x : Chan) : Bool := match x.owner with
  | some c => (s.ctx c).frz.isNone && !(s.part (s.partOf c)).still
  | none => false

/-- A channel in the chip cycle that begins, its debts' phases included (R120, R178). -/
def chanTick (s : State) (x : Chan) : Chan :=
  if s.chanRuns x then { x with clk := x.clk + 1, progPhase := (x.progPhase + 1) % 14040 }
  else { x with holdPhase := (x.holdPhase + 1) % 14040 }

/-- A stack's refresh account in the chip cycle that begins (R38): a window owed every 4,096 chip cycles; one eighth paid
by a hold tick of the driving partition. -/
def stackTick (s : State) (st : Nat) (k : Stack) : Stack :=
  let j := (s.ctx (brimP st)).job
  let still := decide (j ≠ 0) && (s.part (s.job j).part).still
  let k1 := if s.now % 256 = 0 then
      let q := s.now % 4096 / 256
      { k with owed := k.owed.put 0 q (k.owed.get 0 q + 1) }
    else k
  if still then (List.range 16).foldl (fun k q =>
      if 0 < k.owed.get 0 q then
        let e := k.paidHold.get 0 q + 1
        if e = 8 then { k with paidHold := k.paidHold.put 0 q 0, owed := k.owed.put 0 q (k.owed.get 0 q - 1) }
        else { k with paidHold := k.paidHold.put 0 q e }
      else k) k1
  else k1

/-- The stacks under a resident brim P context that the table does not list: their frames follow its partition's clock (R38). -/
def drivenStacks (s : State) : List Nat :=
  ((List.range 16).filter fun r => decide ((s.ctx (2 * r)).job ≠ 0)).flatMap fun r =>
    ((List.range 16).map fun col => 16 * r + col).filter fun st => !(s.stack.rows.any fun x => x.1 == st)
/-- The refresh accounts of all stacks whose frames may lag real time (R38). -/
def stackTicks (s : State) : Tbl Stack :=
  let t := s.stack.mapRows Stack.init (s.stackTick)
  if s.now % 256 = 0 then s.drivenStacks.foldl (fun t st => t.put Stack.init st (s.stackTick st Stack.init)) t else t

/-- The events that a chip cycle itself counts on the cores of the contexts with a resident job: chip cycles, domain cycles, hold ticks,
array cycles, and waits of a REALIGN (R186; log 106). -/
def perfTick (s : State) : State :=
  if s.perf.rows = [] then s else
    (List.range 64).foldl (fun t c =>
      if (s.ctx c).job = 0 then t else
        let still := (s.part (s.partOf c)).still
        let realigns := match (s.ctx c).wait with
          | .realign _ => (s.ctx c).frz.isNone && !still
          | _ => false
        (List.range 16).foldl (fun t col =>
          let u := (t.tally c col 1 1).tally c col (if still then 3 else 2) 1
          let u := if s.arrayBusy c col && !(s.rowStill (rowOf c)) then u.tally c col 8 1 else u
          if realigns then u.tally c col 0x12 1 else u) t) s

/-- A Q context of another partition than its row's P context, in a hold tick of its own in which the row goes on (R445). -/
def ownHold (s : State) (c : Nat) : Bool :=
  let p := s.partOf (c - 1)
  isQ c && decide ((s.ctx c).job ≠ 0) && decide ((s.ctx (c - 1)).job ≠ 0) && decide (s.partOf c ≠ p) && (s.ctx c).frz.isNone &&
    (s.part (s.partOf c)).still && !(s.rowStill (rowOf c))

/-- Words and waits of a context that its own hold ticks stop: DRAM commands and the end of a REALIGN (R445). -/
def holdsWith : Instr → Bool
  | .dact .. | .drd .. | .dwr .. | .dpre .. | .dprea .. | .dref .. | .realignRelease | .guardSequenceComplete => true
  | _ => false

/-- A hold tick of its own stops such a Q context's issue and its DRAM commands, held ones included: they come one cycle of the row
later (R371, R445). A due cycle that a YIELD gave counts in the row clock alone (R398). -/
def ownHolds (s : State) : State := (List.range 64).foldl (fun t c =>
  if !(s.ownHold c) then t else
    { t.modCtx c fun x => if x.rowDue then x else { x with due := x.due + 1 } with
      waiting := t.waiting.map fun w => match w.what with
        | .command i ch o d => if w.cur.ctx = c ∧ d ≠ 0 then { w with what := .command i ch (o + 1) (d + 1) } else w
        | _ => w,
      agenda := t.agenda.map fun (e : Sched) =>
        if e.cur.ctx = c && e.cur != Cursor.none && holdsWith e.act then { e with due := e.due + 1 } else e }) s

/-- The clocks one chip cycle on. -/
def tickClocks (s : State) : State :=
  let s1 := { s with now := s.now + 1, checked := false, found := [], probe := false, banks := [], exBanks := [], svc := [], ports_ := [],
                     lateEv := [], logKeys := [], mark := s.nextId,
                     jobs := s.jobs.mapRows Job.init fun _ j => { j with digestPrev := j.digest } }
  let s2 := { s1 with parts := s1.parts.mapRows Part.init (s1.partTick) }
  let s3 := { s2 with rowLag := s2.rowTick, chans := s2.chans.mapRows Chan.init fun _ x => s2.chanTick x,
                      stack := s2.stackTicks }
  let s4 := { s3 with frames := s3.noteFrames }
  s4.slipArrays.ownHolds.perfTick

/-- The events that the clocks bring in a chip cycle, each with the number it names. -/
def clockEvents (s : State) : List (Nat × Instr) :=
  let run := s.parts.rows.filter fun r => r.2.live && !r.2.still && decide (0 ≤ s.dom r.1)
  (run.filter fun r => s.stepDom r.1 % 65536 == 65535).map (fun r => (r.1, .domainStepBoundary)) ++
  (run.filter fun r => s.dom r.1 % (s.tickPeriod : Int) == 0).map (fun r => (r.1, .globalTick)) ++
  (if s.now % 4096 = 0 then [(0, .sensorSample)] else []) ++
  (if s.now % 1024 = 0 then [(0, .powerEstimate)] else []) ++
  (s.chans.rows.filter fun r => s.chanRuns r.2 && r.2.progPhase == 0).map (fun r => (r.1, .programRefreshDebtWrap)) ++
  (s.chans.rows.filter fun r => !(s.chanRuns r.2) && r.2.holdPhase == 0).map (fun r =>
    (r.1, if r.2.owner.isSome then .holdRefreshDebtWrap else .unownedChannelRefresh)) ++
  (((s.stack.rows.map Prod.fst ++ s.drivenStacks).filter fun st =>
      s.frameIn st 0 % 256 == 0 && !((s.ctx (brimP st)).job != 0 && (s.part (s.partOf (brimP st))).still)).map fun st =>
    (16 * st + s.frameIn st 0 / 256, .bankRefreshWindow)) ++
  (s.queues.rows.filter fun r => match r.2.candSince with
      | some t => decide (t < s.now) && (s.now - t) % 2 ^ 20 == 0
      | none => false).map (fun r => (r.1, .effectivePriorityRise)) ++
  (if s.queues.rows.any fun r => r.2.ents.any fun e => e.status == 0#8 || e.status == 2#8 || e.status == 4#8
    then [(0, .dispatchDecision)] else []) ++
  (if (s.waitEv ≠ [] ∨ s.dropped ≠ 0) ∧ s.events.length < 4096 then [(0, .waitingEventEntry)] else []) ++
  ((List.range 64).filter fun c => let x := s.ctx c
      decide (x.job ≠ 0) && (s.job x.job).state == .running && x.frz.isNone &&
      !(s.part (s.partOf c)).still && decide (s.dom (s.partOf c) - x.lastIssue = 16777217)).map (fun c => (c, .watchdog))

/-- Refills of the random-bits queues of resident contexts, from their placement on (R146). -/
def refills (s : State) : List Cursor :=
  ((List.range 64).filter fun c => decide ((s.ctx c).job ≠ 0) && (s.ctx c).frz.isNone &&
      ((s.job (s.ctx c).job).state == .running || (s.job (s.ctx c).job).state == .waiting) &&
      !(s.part (s.partOf c)).still).flatMap fun c =>
    ((List.range 16).filter fun col => decide ((s.core c col).randFill < 32)).map fun col =>
      { Cursor.none with ctx := c, col := col }

/-- Q contexts that could have issued in the cycle that ends and slipped (R15, R186). -/
def tallySlips (s : State) : State :=
  if s.perf.rows = [] then s else
    ((List.range 64).filter fun c => isQ c && s.mayIssue c).foldl (fun t c =>
      (List.range 16).foldl (fun t col => t.tally c col 5 1) t) s

/-- Q contexts that wait in a YIELD go on once their P context is gone or has ended, its work landed (R393, R398). -/
def freeYields (s : State) : State := (List.range 32).foldl (fun t r =>
  let p := t.ctx (2 * r)
  let q := t.ctx (2 * r + 1)
  match q.wait with
  | .yield n =>
    let gone := decide (p.job = 0) || t.ctxEnded (2 * r)
    if gone ∧ q.job ≠ 0 ∧ q.frz.isNone then
      t.setCtx (2 * r + 1) { q with wait := .none, due := t.rowClk r + n + 1, dueDelayed := false, rowDue := true }
    else t
  | _ => t) s

/-- A context is frozen by its own trap of R121, and not as a companion: cause 0x04, subcode 0x0D (R79, R239). -/
def overdueTrap (s : State) (c : Nat) : Bool := match (s.ctx c).frz with
  | some f => f.state.getLsbD 0 && !f.state.getLsbD 4 && (s.ctx c).trapinfo.extractLsb' 0 16 == 0x0D04#16
  | none => false
/-- The guard pays the refresh that the trap of R121 withheld, while the owner is frozen by it (R121, R123). -/
def payOverdue (s : State) : State :=
  (s.chans.rows.filter fun r => r.2.overdue && r.2.guard.isNone && r.2.owner.any s.overdueTrap).foldl (fun t r => startGuard t r.1 2) s

/-- The next chip cycle begins. -/
def advance (s : State) : State :=
  let s1 := (payOverdue (freeYields (tallySlips s))).tickClocks
  let s2 := s1.clockEvents.foldl (fun t e => t.after .chip 0 Cursor.none e.1 e.2) s1
  s2.refills.foldl (fun t c => t.after .chip 0 c 0 .randomQueueRefill) { s2 with mark := s2.nextId }

/-- One step of the module: check the cycle, or take its trap, or run its next piece of work, or begin the next cycle. -/
def stepRun (s : State) : Host.Outcome State Fault Refusal :=
  if s.checked then match s.nextTask with
    | some t => s.runTask t
    | none => .next s.advance
  else match s.cycleTrap with
    | some f => s.takeFound f
    | none => .next { s with checked := true }

end State

end Sys2Proof.Machine
end

