-- ==== Sys2Proof/Machine/Step.lean ====
section
/-! DEFINITION. The step of the module, and the placing of one instruction where the next step fetches (log 2, log 7). -/

namespace Sys2Proof.Machine

open Sys2Proof

/-- One step: a check of the present chip cycle, a trap, one piece of the cycle's work, or the next cycle. -/
def step (s : State) : Host.Outcome State Fault Refusal := s.stepRun

/-- The word that closes a bundle whose first word has S = 0: DPREA s0 under a guard that never holds. -/
def closingWord : Nat := 0xD5100000

/-- The instruction w stored at the entry of a resident, running P context of brim row 0, so that the very next step
issues and runs it. -/
def State.withFetchWord (s : State) (_nbits w : Nat) : State :=
  let rec_ : BitVec 2048 := 65536#2048
  let at_ := fBase + 4096
  let m := memWrite s.mem at_ 4 w
  let m := if w / 2 ^ 31 % 2 = 0 then memWrite m (at_ + 4) 4 closingWord else m
  { s with
    mem := m, checked := true, probe := false, found := [],
    agenda := s.agenda.filter fun e => !(s.isDue e),
    jobs := s.jobs.put Job.init 1 { s.job 1 with record := rec_, state := .running, part := 0, extent := 8192 },
    parts := s.parts.put Part.init 0 { s.part 0 with live := true, still := false },
    ctxs := s.ctxs.put Ctx.init 0 { s.ctx 0 with
      job := 1, timed := true, pc := 1024, due := s.rowClk 0, dueDelayed := true, wait := .none, frz := none,
      haltAt := none, occ := [], sstep := false } }

end Sys2Proof.Machine
end

