-- ==== Sys2Proof/Safety.lean ====
section
/-! DEFINITION. What counts as a safe step, and the words in which the claims about the machine are said. -/

namespace Sys2Proof

open Sys2Proof.Machine

/-- An outcome that goes on. -/
def GoesOn (o : Host.Outcome State Fault Refusal) : Prop := ∃ t, o = .next t

/-- A step from a state goes on. -/
def SafeStep (s : State) : Prop := GoesOn (Machine.step s)

namespace Machine

open Sys2Proof State

/-! ### When a word runs -/

/-- No read of one of these registers is early (R17). -/
def Settled (s : State) (l : List Reg) : Prop := s.early l = none

/-- The executing context holds a job, and the word's guard, whose predicate is not read early, holds (R251, R277). -/
def Runs (s : State) (h : Hd) : Prop := s.myCtx.job ≠ 0 ∧ s.guard h = true ∧ Settled s [.p h.p.toNat]

/-- The same on the head core of the row. -/
def RunsHead (s : State) (h : Hd) : Prop := Runs s h ∧ s.cur.col = 0

/-- No word of this cycle that ranks later meets these accesses (R104): none takes a conflict from them. -/
def NoLater (s : State) (acc : List (Nat × Nat)) : Prop :=
  s.timed = false ∨ ∀ e ∈ s.clashes ((acc.map fun x => (x.1, bankOfSlot x.2)).eraseDups), s.ahead e = true

/-! ### What a word leaves -/

/-- The state with one entry more, n row-clock cycles on, of the executing core; nothing else changes. -/
def withEntry (s : State) (n arg : Nat) (a : Instr) : State :=
  { s with agenda := s.agenda ++ [{ clk := .row (rowOf s.cur.ctx), due := s.clk + n, ord := s.nextId, cur := s.cur,
                                    arg := arg, act := a }],
           nextId := s.nextId + 1 }

/-- The state with one result more on its way: due n cycles on through the port of the word's slot; nothing else changes. -/
def withResult (s : State) (id n : Nat) (ws : List RegWrite) (fl : BitVec 5) : State :=
  withEntry s n 0 (.resultLanding { id := id, port := s.cur.slot.port, writes := ws, flags := fl, delay := 0, reply := false,
                                         fifo := false })

/-- The state in which the executing core's random-bits queue has delivered n rows; nothing else changes (R145). -/
def drawn (s : State) (n : Nat) : State :=
  s.setCore s.cur.ctx s.cur.col { s.me with randPos := s.me.randPos + BitVec.ofNat 64 n, randFill := s.me.randFill - n }

/-- The state with one number used up. -/
def numbered (s : State) : State := { s with nextId := s.nextId + 1 }

/-- An access of the executing core is due n cycles on. -/
def Enters (s t : State) (n id : Nat) (op : AccessOp) : Prop :=
  ∃ e ∈ t.agenda, e.clk = .row (rowOf s.cur.ctx) ∧ e.due = s.clk + n ∧ e.cur = s.cur ∧
    e.act = .deferredAccessPerform { id := id, op := op }

/-- A result of the executing word is due n cycles on. -/
def Lands (s t : State) (n id : Nat) (ws : List RegWrite) (fl : BitVec 5) : Prop :=
  ∃ e ∈ t.agenda, e.clk = .row (rowOf s.cur.ctx) ∧ e.due = s.clk + n ∧ e.cur = s.cur ∧
    e.act = .resultLanding { id := id, port := s.cur.slot.port, writes := ws, flags := fl, delay := 0, reply := false,
                                         fifo := false }

/-- Part of an access of the executing core is due n cycles on: it reads len bytes at an address into the bits of its result from
pos on. -/
def ReadsAt (s t : State) (n id : Nat) (tagged : Bool) (a len pos : Nat) : Prop :=
  ∃ runs, Enters s t n id (.vload tagged runs) ∧ ∃ g ∈ runs, ∃ k, g.addr + k = a ∧ g.pos + 8 * k = pos ∧ k + len ≤ g.len

/-- Part of an access of the executing core is due n cycles on: it writes len bytes of a number at an address. -/
def WritesAt (s t : State) (n id a len val : Nat) : Prop :=
  ∃ puts, Enters s t n id (.vstore puts) ∧ ∃ g ∈ puts, ∃ k, g.addr + k = a ∧ k + len ≤ g.len ∧
    g.val / 2 ^ (8 * k) % 2 ^ (8 * len) = val % 2 ^ (8 * len)

/-- Every access of a vector memory word has a good address, and none meets a lock, a window or a conflict (R318). -/
def AccsOk (s : State) (wide : Bool) (l : List VAcc) : Prop :=
  (∀ a ∈ l, ∃ f, a.flat s = .ok f) ∧ s.accessTrap (vaccSlots s wide l) = none

/-- Every byte of memory is as before. -/
def SameBytes (s t : State) : Prop := ∀ a, t.byte a = s.byte a

/-- Every register of every core and every byte of memory is as before. -/
def SameData (s t : State) : Prop := t.cores = s.cores ∧ SameBytes s t

/-- Nothing has changed but what is pending and the numbers given out. -/
def OnlyPending (s t : State) : Prop := t = { s with agenda := t.agenda, waiting := t.waiting, nextId := t.nextId }

/-! ### Values -/

/-- A register read as a signed number of the width W (R277). -/
def valS (w : Bool) (x : Word) : Int := if w then x.toInt else (x.setWidth 32).toInt
/-- A register read as an unsigned number of the width W (R277). -/
def valU (w : Bool) (x : Word) : Nat := if w then x.toNat else (x.setWidth 32).toNat
/-- The number of bits of W. -/
def bitsW (w : Bool) : Nat := if w then 64 else 32
/-- A number modulo 2^w in a register; a 32-bit one sign-extended (R277). -/
def wrapped (w : Bool) (n : Int) : Word := if w then BitVec.ofInt 64 n else (BitVec.ofInt 32 n).signExtend 64

/-- A register after a write under a mask of bits. -/
def merged {n : Nat} (old mask x : BitVec n) : BitVec n := (old &&& ~~~mask) ||| (x &&& mask)

/-- The element widths of the vector types (R261). -/
def IsWidth (w : Nat) : Prop := w = 8 ∨ w = 16 ∨ w = 32 ∨ w = 64

/-- A result for v[d] is on its way that writes f to every element where `on` holds and leaves the other elements alone; nothing
else changes. -/
def WrittenWhere (s t : State) (n w d : Nat) (on : Nat → Nat → Bool) (f : Nat → Nat → Nat) (fl : BitVec 5) : Prop :=
  ∃ m x : Block, t = withResult s 0 n [.v d m x] fl ∧ ∀ r < 16, ∀ j < perRow w,
    elem w m r j = (if on r j then 2 ^ w - 1 else 0) ∧ (on r j → elem w x r j = f r j % 2 ^ w)

/-- The same where a mask selects the elements (R298). -/
def Elementwise (s t : State) (n w d : Nat) (k : Mask) (f : Nat → Nat → Nat) (fl : BitVec 5) : Prop :=
  WrittenWhere s t n w d (sel k w) f fl

/-- A result for k[d] is on its way in which the bit of every selected container says whether f holds of all its elements; no
other bit is written, and nothing else changes (R299). -/
def Compared (s t : State) (n w d : Nat) (k : Mask) (f : Nat → Nat → Bool) (fl : BitVec 5) : Prop :=
  ∃ m x : Mask, t = withResult s 0 n [.k d m x] fl ∧ ∀ r < 16, ∀ c < 64,
    m.getLsbD (64 * r + c) = sel k w r (c * 32 / w) ∧ (sel k w r (c * 32 / w) → x.getLsbD (64 * r + c) =
      if w = 64 then f r (c / 2) else (List.range (32 / w)).all fun i => f r (c * (32 / w) + i))

/-- The flags of the selected elements together (R298, R67). -/
def laneFlags (w : Nat) (k : Mask) (f : Nat → Nat → BitVec 5) : BitVec 5 :=
  orFlags ((flats w).map fun p => if sel k w p.1 p.2 then f p.1 p.2 else 0#5)

/-- The value of a decoded number as a fraction. -/
def Fp.value : Fp → ℚ
  | .num neg m e => (if neg then -1 else 1) * (m : ℚ) * (2 : ℚ) ^ e
  | _ => 0

/-- A code is the exact value v, of a sign, rounded to a format by a mode, where the result does not overflow: to nearest, no finite
number of the format lies nearer, and of two as near it is the even one; upwards and downwards it is the nearest number on its side,
toward zero the largest that is not beyond; and it is inexact exactly where it differs (R191, R196). -/
def Rounded (f : Fmt) (md : RMode) (neg : Bool) (v : ℝ) (r : Nat × BitVec 5) : Prop :=
  let val := fun (c : Nat) => (((f.dec c).value : ℚ) : ℝ)
  let y := val r.1
  let finite := fun (c : Nat) => c < 2 ^ f.bits ∧ ∃ b n g, f.dec c = .num b n g
  r.2 &&& flOF = 0#5 →
    finite r.1 ∧ (f.dec r.1).sign = neg ∧ (r.2 &&& flNX = 0#5 ↔ y = v) ∧
    (∀ c, finite c →
      let z := val c
      (md = .rne → |v - y| ≤ |v - z| ∧ (|v - y| = |v - z| → z ≠ y → r.1 % 2 = 0)) ∧
      (md = .rup → v ≤ y ∧ (v ≤ z → y ≤ z)) ∧ (md = .rdn → y ≤ v ∧ (z ≤ v → z ≤ y)) ∧
      (md = .rtz → |y| ≤ |v| ∧ (|z| ≤ |v| → |z| ≤ |y|)))

/-! ### Parts of the machine -/

/-- The state with one row context replaced; the rest stays. -/
def inCtx (s : State) (c : Nat) (f : Ctx → Ctx) : State := { s with ctxs := s.ctxs.put Ctx.init c (f (s.ctx c)) }

/-- The row takes a transfer: its next bundle is at a word address, 4 cycles on (R20). -/
def goesTo (s : State) (pc : Nat) : State :=
  inCtx s s.cur.ctx fun x => { x with pc := pc, due := s.clk + 4, dueDelayed := false, moved := true }

/-- The word address that a signed word offset from the executing bundle names (R289). -/
def offsetFrom (s : State) (off : Int) : Nat := (((s.cur.bundle : Int) + off) % 2 ^ 64).toNat

/-- The executing word takes a trap for the reason, whether the cycle is only checked or runs: while it is checked the trap is
noted, else the whole job is frozen and TRAPINFO written (R233, R234). -/
def Trapped (s t : State) (cause sub : Nat) (past : Bool) : Prop :=
  if s.probe then
    ∃ e, t.found = s.found ++ [e] ∧ e.cur = s.cur ∧ e.cause = cause ∧ e.sub = sub ∧ e.slot = s.cur.slot ∧ e.past = past
  else s.myCtx.job ≠ 0 → s.myCtx.frz = none →
    (t.ctx s.cur.ctx).trapinfo = trapInfo s.cur.bundle s.cur.slot (dieOf s.cur.ctx) s.cur.col sub cause ∧
    (t.ctx s.cur.ctx).past = (if past then some s.cur.seq else s.myCtx.past) ∧
    (∀ c < 64, (s.ctx c).job = s.myCtx.job → (t.ctx c).frz.isSome) ∧
    (t.job s.myCtx.job).state = .saving ∧ (t.job s.myCtx.job).trapped = true

end Machine

end Sys2Proof
end

