-- ==== Sys2Proof/Certificates/Slice0/Obligations.lean ====
section
/-! DEFINITION. The statements for the provers: what the spec's rules say of the machine, in the words of Safety.lean. -/

open Sys2Proof Sys2Proof.Machine Sys2Proof.Machine.State

/-! ### Encoding (R250, R260 to R268) -/

/-- A well-formed instruction that has a word decodes from it, operands and all (R264, R265); exactly the words of a bundle have
one, and every well-formed word has one (R260). -/
def Obligations.EncodedInstructionsDecode : Prop :=
  ∀ i : Instr, (encode i).isSome = (wordInfo 0 i).isSome ∧
    ∀ w, i.wellFormed = true → encode i = some w → decodeWord w = .ok i

/-- A word that decodes gives a well-formed instruction whose encoding is that very word: no bit is dropped and no second word
means the same (R250, R262, R266). -/
def Obligations.DecodedWordsReencode : Prop :=
  ∀ (w : BitVec 32) (i : Instr), decodeWord w = .ok i → i.wellFormed = true ∧ encode i = some w

/-- Words of the spec's examples decode to what they stand for (R278, R281, R282, R289, R298, R299, R310, R344, R385). -/
def Obligations.SampleWordsDecode : Prop :=
  decodeWord 0x80001844#32 = .ok (.add ⟨true, false, 0#3⟩ 3#5 1#5 2#5 false) ∧
  decodeWord 0x8407FFFE#32 = .ok (.li ⟨true, false, 0#3⟩ 7#5 0xFFFE#16) ∧
  decodeWord 0x880352D8#32 = .ok (.fma ⟨true, false, 0#3⟩ 10#5 11#5 12#5 false) ∧
  decodeWord 0x8E087FFA#32 = .ok (.jnz ⟨true, false, 0#3⟩ 3#5 0x1FFA#13) ∧
  decodeWord 0xB2008500#32 = .ok (.kand ⟨true, false, 0#3⟩ 4#3 1#3 2#3)

/-- A word of a reserved major opcode is refused for its major, and no other word is (R264, R266). -/
def Obligations.ReservedMajorsAreRefused : Prop :=
  ∀ w : BitVec 32, (majSlot (majOf w) = none ↔ decodeWord w = .error .major)

/-! ### The step (R19, R34, R234, R252, R257) -/

/-- Where the next piece of work is the issue of a context's bundle, the word at its address decodes to an instruction and the
bundle passes the checks of its issue, the step is that instruction's meaning on the head core, with the bundle issued: the
context's next bundle is the one after it, in the next cycle of its row (R19, R252, R257, R258). -/
def Obligations.StepRunsDecodedInstruction : Prop :=
  ∀ (s : State) (c : Nat) (w : BitVec 32) (i : Instr) (ws : List (BitVec 32)) (ps : List Placed),
    s.checked = true → s.nextTask = some (.issue c) →
    s.imageWord (s.ctx c).job (s.ctx c).pc = some w → decodeWord w = .ok i → s.checkIssue c = .go ws ps →
    ∃ p, ps.head? = some p ∧ p.ins = i ∧ ws.head? = some w ∧ step s = exec i (s.issued c ws ps) ∧
      (s.issued c ws ps).cur = s.headCur c p.slot ws.length ∧
      ((s.issued c ws ps).ctx c).pc = (s.ctx c).pc + ws.length ∧
      ((s.issued c ws ps).ctx c).due = s.rowClk (rowOf c) + 1 ∧
      (s.issued c ws ps).cores = s.cores ∧ (s.issued c ws ps).mem = s.mem

/-- A step takes the trap that its cycle meets, or marks the cycle as checked, or runs the entry that is due, or, where nothing is
left, begins the next cycle (R34, R234; the order of a cycle's work is the model's, log 4, and so is its check for traps, log 5). -/
def Obligations.StepChecksRunsOrAdvances : Prop :=
  ∀ s : State,
    (∀ f, s.checked = false → s.cycleTrap = some f → step s = s.takeFound f) ∧
    (s.checked = false → s.cycleTrap = none → step s = .next { s with checked := true }) ∧
    (∀ e, s.checked = true → s.nextTask = some (.entry e) → step s = exec e.act (s.begin_ e)) ∧
    (s.checked = true → s.nextTask = none →
      step s = .next s.advance ∧ s.advance.now = s.now + 1 ∧ s.advance.checked = false ∧ s.advance.mem = s.mem)

/-- Memory keeps its canonical form through every step from any state (R82; the form is the model's, log 3). -/
def Obligations.StepKeepsMemoryCanonical : Prop :=
  ∀ s t : State, Memory.wf s.mem = true → step s = .next t → Memory.wf t.mem = true

/-- Reset memory is in canonical form (log 3). -/
def Obligations.ResetMemoryIsCanonical : Prop := Memory.wf State.reset.mem = true

/-- What cold reset leaves: no job, no running context, the registers' reset values (R44, R48, R60, R68, R71, R73, R77, R111, R133,
R171). -/
def Obligations.ResetLeavesTheSpecifiedValues : Prop :=
  State.reset.now = 0 ∧ (∀ c, (State.reset.ctx c).job = 0 ∧ (State.reset.ctx c).retrylim = 3#3 ∧
      (State.reset.ctx c).trapinfo = 0#64 ∧ (State.reset.ctx c).touched = 0#35 ∧ (State.reset.ctx c).loops = []) ∧
  (∀ c col n, (State.reset.core c col).s.get 0#64 n = 0#64 ∧ (State.reset.core c col).v.get 0#32768 n = 0#32768 ∧
      (State.reset.core c col).k.get 0#1024 n = 0#1024 ∧ (State.reset.core c col).z.get 0#65536 n = 0#65536) ∧
  (∀ c col, (State.reset.core c col).p = 1#8 ∧ (State.reset.core c col).flags = 0#5 ∧ (State.reset.core c col).round = 0#3) ∧
  (∀ st, (State.reset.stackAt st).win = 1#2) ∧ (∀ n, (State.reset.chan n).owner = none) ∧
  (∀ q, (State.reset.queue q).en = false ∧ (State.reset.queue q).ents = [])

/-! ### Scalar words (R277 to R284, R293) -/

/-- ADD, SUB, MUL, MULH, AND, OR, XOR, MIN and MAX: the numbers they give, by the widths of R277, land 1 or 3 cycles on in s[D] and
nothing else changes (R278). -/
def Obligations.IntegerWordsGiveTheirResults : Prop :=
  ∀ (s : State) (h : Hd) (d a b : BitVec 5) (w : Bool), Runs s h → Settled s [.s a.toNat, .s b.toNat] →
    let x := valS w (s.rs a)
    let y := valS w (s.rs b)
    let gives := fun (i : Instr) (n : Nat) (r : Int) => exec i s = .next (withResult s 0 n [.s d.toNat (wrapped w r)] 0#5)
    gives (.add h d a b w) 1 (x + y) ∧ gives (.sub h d a b w) 1 (x - y) ∧ gives (.mul h d a b w) 3 (x * y) ∧
    gives (.mulh h d a b w) 3 (x * y / 2 ^ bitsW w) ∧
    gives (.and h d a b w) 1 (valU w (s.rs a &&& s.rs b)) ∧ gives (.or h d a b w) 1 (valU w (s.rs a ||| s.rs b)) ∧
    gives (.xor h d a b w) 1 (valU w (s.rs a ^^^ s.rs b)) ∧
    gives (.min h d a b w) 1 (min x y) ∧ gives (.max h d a b w) 1 (max x y)

/-- Division and remainder: no operand traps, no flag is raised; a divisor of 0 and the most negative number over -1 give the table's
values; every other pair the quotient truncated toward zero and its remainder (R279, R278). -/
def Obligations.DivisionNeverTraps : Prop :=
  ∀ (s : State) (h : Hd) (d a b : BitVec 5) (w : Bool), Runs s h → Settled s [.s a.toNat, .s b.toNat] →
    let x := valS w (s.rs a)
    let y := valS w (s.rs b)
    let ux := valU w (s.rs a)
    let uy := valU w (s.rs b)
    let m : Int := -(2 ^ (bitsW w - 1))
    let gives := fun (i : Instr) (r : Int) => exec i s = .next (withResult s 0 14 [.s d.toNat (wrapped w r)] 0#5)
    gives (.div h d a b w) (if y = 0 then -1 else if x = m ∧ y = -1 then m else Int.tdiv x y) ∧
    gives (.divu h d a b w) (if uy = 0 then 2 ^ bitsW w - 1 else ((ux / uy : Nat) : Int)) ∧
    gives (.rem h d a b w) (if y = 0 then x else if x = m ∧ y = -1 then 0 else Int.tmod x y) ∧
    gives (.remu h d a b w) (if uy = 0 then (ux : Int) else ((ux % uy : Nat) : Int))

/-- The shifts move by the amount modulo the width; CLZ counts the zero bits above the highest 1 bit, POPC the 1 bits (R278). -/
def Obligations.ShiftsAndCountsGiveTheirResults : Prop :=
  ∀ (s : State) (h : Hd) (d a b : BitVec 5) (w : Bool), Runs s h →
    let x := valU w (s.rs a)
    let n := valU w (s.rs b) % bitsW w
    let gives := fun (i : Instr) (r : Int) => exec i s = .next (withResult s 0 1 [.s d.toNat (wrapped w r)] 0#5)
    (Settled s [.s a.toNat, .s b.toNat] →
      gives (.shl h d a b w) (x * 2 ^ n) ∧ gives (.shr h d a b w) ((x / 2 ^ n : Nat) : Int) ∧
      gives (.sar h d a b w) (valS w (s.rs a) / 2 ^ n)) ∧
    (Settled s [.s a.toNat] →
      (∃ k, gives (.clz h d a w) k ∧ 0 ≤ k ∧ k ≤ bitsW w ∧ (x : Int) < 2 ^ (bitsW w - k.toNat) ∧
        (k < bitsW w → 2 ^ (bitsW w - 1 - k.toNat) ≤ x)) ∧
      gives (.popc h d a w) (((Finset.range (bitsW w)).filter fun i => x.testBit i).card : Nat))

/-- The immediate forms and the constants: 64-bit results land 1 cycle on, MULI 3; nothing else changes (R280, R281). -/
def Obligations.ImmediatesGiveTheirResults : Prop :=
  ∀ (s : State) (h : Hd) (d a : BitVec 5) (i8 : BitVec 8) (i6 : BitVec 6) (i16 : BitVec 16), Runs s h →
    let x := valS true (s.rs a)
    let ux := valU true (s.rs a)
    let k := i8.toInt
    let gives := fun (i : Instr) (n : Nat) (r : Int) => exec i s = .next (withResult s 0 n [.s d.toNat (wrapped true r)] 0#5)
    (Settled s [.s a.toNat] →
      gives (.addi h d a i8) 1 (x + k) ∧ gives (.muli h d a i8) 3 (x * k) ∧
      gives (.andi h d a i8) 1 (valU true (s.rs a &&& wrapped true k)) ∧
      gives (.ori h d a i8) 1 (valU true (s.rs a ||| wrapped true k)) ∧
      gives (.xori h d a i8) 1 (valU true (s.rs a ^^^ wrapped true k)) ∧
      gives (.shli h d a i6) 1 (ux * 2 ^ i6.toNat) ∧ gives (.shri h d a i6) 1 ((ux / 2 ^ i6.toNat : Nat) : Int) ∧
      gives (.sari h d a i6) 1 (x / 2 ^ i6.toNat)) ∧
    gives (.li h d i16) 1 i16.toInt ∧
    (Settled s [.s d.toNat] → gives (.lis h d i16) 1 (valU true (s.rs d) * 2 ^ 16 + i16.toNat))

/-- The floating words: the rounded result with its flags lands 4 (f32) or 5 (f64) cycles on, a quotient or a root 14 or 22; nothing
else changes (R282, R190). -/
def Obligations.FloatingWordsGiveTheirResults : Prop :=
  ∀ (s : State) (h : Hd) (d a b : BitVec 5) (w : Bool), Runs s h →
    let f := if w then Fmt.f64 else Fmt.f32
    let md := modeOf s.me.round
    let ca := valU w (s.rs a)
    let cb := valU w (s.rs b)
    let x := f.dec ca
    let y := f.dec cb
    let gives := fun (i : Instr) (n : Nat) (r : Nat × BitVec 5) =>
      exec i s = .next (withResult s 0 n [.s d.toNat (BitVec.ofNat 64 r.1)] r.2)
    let lat := if w then 5 else 4
    let long := if w then 22 else 14
    (Settled s [.s a.toNat, .s b.toNat] →
      gives (.fadd h d a b w) lat (addFp f md x y) ∧ gives (.fsub h d a b w) lat (addFp f md x y.neg) ∧
      gives (.fmul h d a b w) lat (mulFp f md x y) ∧ gives (.fdiv h d a b w) long (divFp f md x y) ∧
      gives (.fmin h d a b w) lat (fmin f ca cb) ∧ gives (.fmax h d a b w) lat (fmax f ca cb)) ∧
    (Settled s [.s a.toNat, .s b.toNat, .s d.toNat] →
      gives (.fma h d a b w) lat (fmaFp f md x y (f.dec (valU w (s.rs d))))) ∧
    (Settled s [.s a.toNat] → gives (.fsqrt h d a w) long (sqrtFp f md x))

/-- FCLASS writes a mask with exactly one bit, that of the operand's class by its sign, exponent and fraction fields, and raises no
flag (R284). -/
def Obligations.ClassMaskHasOneBit : Prop :=
  ∀ (s : State) (h : Hd) (d a : BitVec 5) (w : Bool), Runs s h → Settled s [.s a.toNat] →
    let f := if w then Fmt.f64 else Fmt.f32
    let c := valU w (s.rs a)
    let neg := decide (2 ^ (f.bits - 1) ≤ c)
    let ex := c / 2 ^ f.fb % 2 ^ f.eb
    let fr := c % 2 ^ f.fb
    let bit_ : Nat :=
      if ex = 2 ^ f.eb - 1 then
        (if fr = 0 then (if neg then 0 else 7) else if fr < 2 ^ (f.fb - 1) then 8 else 9)
      else if ex = 0 then
        (if fr = 0 then (if neg then 3 else 4) else if neg then 2 else 5)
      else if neg then 1 else 6
    exec (.fclass h d a w) s = .next (withResult s 0 (if w then 5 else 4) [.s d.toNat (BitVec.ofNat 64 (2 ^ bit_))] 0#5)

/-- The scalar conversions: an integer of the kind to the format, the format to an integer of the kind, and one format to the other, rounded
by ROUND.MODE. Outside SR nothing but the result changes; in SR a row of the random-bits queue is used up, and an empty queue traps with
schedule subcode 8 and no result (R282, R283, R146, R193). The rows of random bits are AES-128 as FIPS 197 has it (log 9). -/
def Obligations.ScalarConversionsGiveTheirResults : Prop :=
  ∀ (s : State) (h : Hd) (d a b : BitVec 5) (w : Bool), Runs s h → Settled s [.s a.toNat] →
    let f := if w then Fmt.f64 else Fmt.f32
    let g := if w then Fmt.f32 else Fmt.f64
    let lat := if w then 5 else 4
    let x := f.dec (valU w (s.rs a))
    let n : Int := if b.toNat = 0 then (s.rs a).toInt else if b.toNat = 1 then (s.rs a).toNat
      else if b.toNat = 2 then valS false (s.rs a) else valU false (s.rs a)
    let lo : Int := if b.toNat = 0 then -2 ^ 63 else if b.toNat = 2 then -2 ^ 31 else 0
    let hi : Int := if b.toNat = 0 then 2 ^ 63 - 1 else if b.toNat = 1 then 2 ^ 64 - 1 else if b.toNat = 2 then 2 ^ 31 - 1 else 2 ^ 32 - 1
    let int := fun (r : Int × BitVec 5) => (BitVec.ofInt 64 r.1, r.2)
    let flt := fun (r : Nat × BitVec 5) => (BitVec.ofNat 64 r.1, r.2)
    let all := fun (P : Instr → (RMode → Word × BitVec 5) → Prop) =>
      P (.fcvtif h d a b w) (fun md => flt (cvtFromInt f md n)) ∧ P (.fcvtfi h d a b w) (fun md => int (cvtInt lo hi md x)) ∧
      P (.fcvtw h d a w) (fun md => flt (cvtFp f md (g.dec (valU (!w) (s.rs a)))))
    (s.me.round ≠ 4#3 → all fun i r =>
      exec i s = .next (withResult s 0 lat [.s d.toNat (r (modeOf s.me.round)).1] (r (modeOf s.me.round)).2)) ∧
    (s.me.round = 4#3 → s.me.randFill ≠ 0 → all fun i r =>
      let u := (randRow s.me.randKey s.me.randPos.toNat).toNat % 65536
      let s' := s.setCore s.cur.ctx s.cur.col { s.me with randPos := s.me.randPos + 1#64, randFill := s.me.randFill - 1 }
      exec i s = .next (withResult s' 0 lat [.s d.toNat (r (.sr u)).1] (r (.sr u)).2)) ∧
    (s.me.round = 4#3 → s.me.randFill = 0 → all fun i _ => exec i s = .next (s.takeTrap (.sched 8)))

/-- Rounding is correct in every format: a result without overflow has the sign of the exact value; to nearest, no finite number of the
format lies nearer, and of two as near it is the even one; upwards and downwards it is the nearest number on its side, toward zero the
largest that is not beyond; and it is inexact exactly where it differs (R191, R196). Where an E4M3 result overflows is the model's reading
(log 22). -/
def Obligations.RoundingIsCorrect : Prop :=
  ∀ (f : Fmt) (md : RMode) (neg : Bool) (m : Nat) (e : Int), 0 < m →
    Rounded f md neg (((Fp.num neg m e).value : ℚ) : ℝ) (roundFp f md neg m e)

/-- Sums, products and fused products of numbers round the exact value once, and so do quotients, roots and reciprocal roots; a zero sum
or product is a zero (R191, R195, R197, R301). A NaN operand gives the format's canonical NaN, with NV where an operand signals; so do the
invalid operations, with NV: infinities of opposite sign added, zero times infinity, zero over zero, infinity over infinity, the root of a
negative number. A number over zero is infinite and raises DZ alone (R194, R195). -/
def Obligations.ArithmeticFollowsItsRules : Prop :=
  ∀ (f : Fmt) (md : RMode) (x y z : Fp),
    let nan := fun (nv : Bool) => (f.nanCode, if nv then flNV else 0#5)
    let rounds := fun (r : Nat × BitVec 5) (v : ℚ) =>
      (v ≠ 0 → ∃ neg q d, (Fp.num neg q d).value = v ∧ r = roundFp f md neg q d) ∧
      (v = 0 → r.2 = 0#5 ∧ (r.1 = 0 ∨ r.1 = f.signBit true))
    (∀ a m e b n g c k j, x = .num a m e → y = .num b n g → z = .num c k j →
      rounds (addFp f md x y) (x.value + y.value) ∧ rounds (mulFp f md x y) (x.value * y.value) ∧
      rounds (fmaFp f md x y z) (x.value * y.value + z.value) ∧
      (0 < m → 0 < n → Rounded f md (a != b) (((x.value / y.value : ℚ)) : ℝ) (divFp f md x y))) ∧
    (∀ m e, 0 < m → let v : ℝ := (((Fp.num false m e).value : ℚ) : ℝ)
      Rounded f md false (Real.sqrt v) (sqrtFp f md (.num false m e)) ∧
      Rounded f md false (1 / Real.sqrt v) (rsqrtFp f md (.num false m e))) ∧
    (x.isNan ∨ y.isNan → addFp f md x y = nan (x.isSnan || y.isSnan) ∧ mulFp f md x y = nan (x.isSnan || y.isSnan) ∧
      divFp f md x y = nan (x.isSnan || y.isSnan) ∧ fmaFp f md x y z = nan (x.isSnan || y.isSnan || z.isSnan)) ∧
    (x.isNan → sqrtFp f md x = nan x.isSnan) ∧
    (∀ a, addFp f md (.inf a) (.inf !a) = nan true) ∧
    (x.isZero → y.isInf → mulFp f md x y = nan true ∧ mulFp f md y x = nan true) ∧
    (x.isZero → y.isZero → divFp f md x y = nan true) ∧ (x.isInf → y.isInf → divFp f md x y = nan true) ∧
    (∀ m e, 0 < m → sqrtFp f md (.num true m e) = nan true) ∧
    (∀ a m e, 0 < m → y.isZero → divFp f md (.num a m e) y = (f.signBit (a != y.sign) + f.infCode, flDZ))

/-- The predicate words land their bit in p[D] 1 cycle on, the float compares with their flags; nothing else changes (R293, R195). -/
def Obligations.PredicateWordsGiveTheirBits : Prop :=
  ∀ (s : State) (h : Hd) (d a b : BitVec 5) (w : Bool), Runs s h →
    let x := valS w (s.rs a)
    let y := valS w (s.rs b)
    let f := if w then Fmt.f64 else Fmt.f32
    let u := f.dec (valU w (s.rs a))
    let v := f.dec (valU w (s.rs b))
    let nan := u.isNan || v.isNan
    let gives := fun (i : Instr) (r : Bool) (fl : BitVec 5) => exec i s = .next (withResult s 0 1 [.p d.toNat r] fl)
    (Settled s [.s a.toNat, .s b.toNat] →
      gives (.peq h d a b w) (x == y) 0#5 ∧ gives (.pne h d a b w) (x != y) 0#5 ∧ gives (.plt h d a b w) (decide (x < y)) 0#5 ∧
      gives (.ple h d a b w) (decide (x ≤ y)) 0#5 ∧
      gives (.pltu h d a b w) (decide (valU w (s.rs a) < valU w (s.rs b))) 0#5 ∧
      gives (.pfeq h d a b w) (!nan && !(ltFp u v) && !(ltFp v u)) (if u.isSnan || v.isSnan then flNV else 0#5) ∧
      gives (.pflt h d a b w) (!nan && ltFp u v) (if nan then flNV else 0#5)) ∧
    (Settled s [.p a.toNat, .p b.toNat] →
      gives (.pand h d a b) (s.rp a.toNat && s.rp b.toNat) 0#5 ∧ gives (.por h d a b) (s.rp a.toNat || s.rp b.toNat) 0#5) ∧
    (Settled s [.p a.toNat] → gives (.pnot h d a) (!(s.rp a.toNat)) 0#5)

/-- A scalar result lands whole in its 64-bit register, whichever the width of its word; s0 reads as 0 whatever its storage holds, a
write to it changes no register, and it takes the write port all the same (R49). -/
def Obligations.ScalarResultsLandInTheirRegister : Prop :=
  ∀ (s : State) (id port n : Nat) (x : Word) (fl : BitVec 5), isQ s.cur.ctx = false → portKey s.cur port ∉ s.ports_ →
    s.rs 0#5 = 0#64 ∧
    ∃ t, exec (.resultLanding { id := id, port := port, writes := [.s n x], flags := fl, delay := 0, reply := false, fifo := false }) s = .next t ∧
      (∀ m, (t.core s.cur.ctx s.cur.col).s.get 0#64 m = if m = n ∧ n ≠ 0 then x else s.me.s.get 0#64 m) ∧
      t.ports_ = portKey s.cur port :: s.ports_ ∧
      (t.core s.cur.ctx s.cur.col).flags = s.me.flags ||| fl ∧ (t.core s.cur.ctx s.cur.col).p = s.me.p ∧
      (∀ c col, (c, col) ≠ (s.cur.ctx, s.cur.col) → coreKey c col ≠ coreKey s.cur.ctx s.cur.col → t.core c col = s.core c col) ∧
      t.ctxs = s.ctxs ∧ t.mem = s.mem
/-! ### Control transfers and loops (R20, R21, R184, R289 to R292) -/

/-- The transfers are decided on the head core under its guard: taken, the target issues 4 cycles on; not taken, nothing changes. The
target is the bundle's address plus the signed offset, for RET s[A]; CALL leaves the address of the next bundle in s[A] of every core
whose guard holds (R289, R290). A negative target is read modulo 2^64, the model's choice (log 35). -/
def Obligations.TransfersGoToTheirTargets : Prop :=
  ∀ (s : State) (h : Hd) (a : BitVec 5) (i : BitVec 13), Runs s h →
    let there := offsetFrom s i.toInt
    let link := withResult s 0 1 [.s a.toNat (BitVec.ofNat 64 (s.cur.bundle + s.cur.nw))] 0#5
    let when_ := fun (c : Prop) (_ : Decidable c) (i : Instr) => exec i s = .next (if c then goesTo s there else s)
    (s.cur.col = 0 →
      exec (.j h i) s = .next (goesTo s there) ∧
      (Settled s [.s a.toNat] → when_ (s.rs a = 0#64) inferInstance (.jz h a i) ∧ when_ (s.rs a ≠ 0#64) inferInstance (.jnz h a i) ∧
        exec (.ret h a) s = .next (goesTo s (s.rs a).toNat)) ∧
      (Settled s [.p a.toNat] → when_ (s.rp a.toNat = true) inferInstance (.jp h a i)) ∧
      exec (.call h a i) s = .next (goesTo link there)) ∧
    (s.cur.col ≠ 0 → exec (.call h a i) s = .next link)

/-- A word that acts on the row does nothing on any core but the head core, whatever its guard there (R20, R289, R291, R387); a word whose
guard does not hold changes nothing but a performance counter, without counters nothing; one whose guard's predicate is still in flight
takes a schedule fault of subcode 1, whatever the predicate held (R17, R22, R50, R251, R277). That an early guard traps before anything else
of its word is the model's reading (log 80). -/
def Obligations.WordsThatDoNothing : Prop :=
  ∀ (s : State) (h : Hd) (d a b : BitVec 5) (w : Bool) (i13 : BitVec 13) (i11 : BitVec 11) (i8 : BitVec 8) (o : BitVec 2)
    (va vb vd : BitVec 4) (t k z : BitVec 2), s.myCtx.job ≠ 0 →
    (s.cur.col ≠ 0 → ∀ i ∈ [Instr.j h i13, .jz h a i13, .jnz h a i13, .jp h a i13, .ret h a, .loop h a i8, .loopi h d a i8, .lbrk h,
        .syscall h i11, .trapi h i11, .realign h, .waitk h a b, .halt h, .yield h i11, .launch h d a b], exec i s = .next s) ∧
    (∀ i ∈ [Instr.add h d a b w, .div h d a b w, .addi h d a i8, .fadd h d a b w, .fcvtw h d a w, .ld h d a i8, .st h d a i8,
        .amoadd h o d a b w, .amocas h o d a b w, .peq h d a b w, .pand h d a b, .vadd h vd va vb t k, .vfma h vd va vb t k,
        .vcvt h vd va vb t k, .vsumr h vd va w t k, .vld h vd a va k, .vst h vd a va k, .zrd h z vd b, .esld h z a b, .mshape h a b d,
        .send h a b, .recv h vd b, .call h a i13] ++ (if ctlExists i11.toNat then [.getc h d i11, .setc h d i11] else []) ++
        (if s.cur.col = 0 then [.jz h a i13, .loop h a i8] else []),
      (¬ Settled s [.p h.p.toNat] → exec i s = .next (s.takeTrap (.sched 1))) ∧
      (Settled s [.p h.p.toNat] → s.guard h = false → s.perf.rows = [] → exec i s = .next s))

/-- JANY and JALL: each core adds its p[A] to the vote; on the head core the row stops and the result is due 32 cycles on; the result
takes the target 4 cycles later where one core or all voted 1, else the row goes on 1 cycle later (R21, R290). -/
def Obligations.RowVotesDecideTheTransfer : Prop :=
  ∀ (s : State) (b : Bool) (a : BitVec 5) (i : BitVec 13), s.myCtx.job ≠ 0 → Settled s [.p a.toNat] →
    let v := s.rp a.toNat
    let starts := fun (all : Bool) => withEntry (inCtx s s.cur.ctx fun x =>
      { x with wait := .vote all (offsetFrom s i.toInt) s.clk [v] }) 32 s.cur.ctx .rowVoteResult
    (s.cur.col = 0 → exec (.jany b a i) s = .next (starts false) ∧ exec (.jall b a i) s = .next (starts true)) ∧
    (∀ all t at_ seen, s.cur.col ≠ 0 → s.myCtx.wait = .vote all t at_ seen →
      let adds := inCtx s s.cur.ctx fun x => { x with wait := .vote all t at_ (seen ++ [v]) }
      exec (.jany b a i) s = .next adds ∧ exec (.jall b a i) s = .next adds) ∧
    (∀ all t at_ seen, (s.ctx s.arg).wait = .vote all t at_ seen →
      let yes := if all then ∀ x ∈ seen, x = true else ∃ x ∈ seen, x = true
      ∃ u, exec .rowVoteResult s = .next u ∧ (u.ctx s.arg).wait = .none ∧
        (yes → (u.ctx s.arg).pc = t ∧ (u.ctx s.arg).due = s.rowClk (rowOf s.arg) + 4 ∧ u.agenda = s.agenda) ∧
        (¬ yes → (u.ctx s.arg).pc = (s.ctx s.arg).pc ∧ (u.ctx s.arg).due = s.rowClk (rowOf s.arg) + 1) ∧
        u.cores = s.cores ∧ u.mem = s.mem)

/-- LOOP and LOOPI push a level, or, with a count of 0, go past the body; LBRK pops the top level and goes past its end. An end before
the body, a fifth level and a pop of nothing are illegal (R291, R292). That a count of 0 skips the body with four levels held as well,
where R184 traps, is the model's reading (log 94). -/
def Obligations.LoopWordsKeepTheStack : Prop :=
  ∀ (s : State) (h : Hd) (d a : BitVec 5) (i : BitVec 8), RunsHead s h →
    let at_ := s.cur.bundle
    let past := fun (p : Nat) => goesTo s (bundleAfter s s.myCtx.job p)
    let acts := fun (w : Instr) (n : BitVec 32) =>
      (i.toInt < s.cur.nw → exec w s = .next (s.takeTrap .illegal)) ∧
      (s.cur.nw ≤ i.toInt → n = 0#32 → exec w s = .next (past (at_ + i.toNat))) ∧
      (s.cur.nw ≤ i.toInt → n ≠ 0#32 → s.myCtx.loops.length < 4 → exec w s = .next (inCtx s s.cur.ctx fun x =>
        { x with loops := { count := n, start := at_ + s.cur.nw, stop := at_ + i.toNat } :: x.loops })) ∧
      (s.cur.nw ≤ i.toInt → n ≠ 0#32 → 4 ≤ s.myCtx.loops.length → exec w s = .next (s.takeTrap .illegal))
    (Settled s [.s a.toNat] → acts (.loop h a i) ((s.rs a).setWidth 32)) ∧
    acts (.loopi h d a i) (BitVec.ofNat 32 (32 * d.toNat + a.toNat)) ∧
    (s.myCtx.loops = [] → exec (.lbrk h) s = .next (s.takeTrap .illegal)) ∧
    (∀ l r, s.myCtx.loops = l :: r → exec (.lbrk h) s =
      .next (goesTo (inCtx s s.cur.ctx fun x => { x with loops := r }) (bundleAfter s s.myCtx.job l.stop)))

/-- At the end bundle of a body every level that ends there counts down: the ones that reach 0 are popped, inner first, until one has
passes left, whose start issues next; a bundle that transferred ends nothing, and a level that ends elsewhere stays (R184, R291,
R292). -/
def Obligations.LoopEndCountsDown : Prop :=
  ∀ (s : State) (gone rest : List LoopLvl), (s.ctx s.arg).loops = gone ++ rest →
    (∀ l ∈ gone, l.stop = s.cur.bundle ∧ l.count = 1#32) →
    ∃ t, exec .loopEnd s = .next t ∧ t.cores = s.cores ∧ t.mem = s.mem ∧ t.agenda = s.agenda ∧
      ((s.ctx s.arg).moved = true → t = s) ∧
      ((s.ctx s.arg).moved = false →
        (rest = [] → (t.ctx s.arg).loops = [] ∧ (t.ctx s.arg).pc = (s.ctx s.arg).pc) ∧
        (∀ l r, rest = l :: r → l.stop ≠ s.cur.bundle → (t.ctx s.arg).loops = rest ∧ (t.ctx s.arg).pc = (s.ctx s.arg).pc) ∧
        (∀ l r, rest = l :: r → l.stop = s.cur.bundle → l.count ≠ 1#32 →
          (t.ctx s.arg).loops = { l with count := l.count - 1#32 } :: r ∧ (t.ctx s.arg).pc = l.start))

/-! ### Vector words (R294 to R314) -/

/-- The integer vector words: every selected element gets its result modulo 2^w 10 cycles on, 18 for i64; the others keep their value,
no flag is raised and nothing else changes. VSEL writes every element, VA where the mask holds and VB elsewhere; the compares write the
bits of their selected containers (R295, R296, R298, R299). -/
def Obligations.VectorIntegerWords : Prop :=
  ∀ (s : State) (h : Hd) (d a b : BitVec 4) (t k : BitVec 2), Runs s h → Settled s [.v a.toNat, .v b.toNat, .k k.toNat] →
    let w := tyBits t
    let n := if t = 3#2 then 18 else 10
    let x := fun r j => elem w (s.rv a.toNat) r j
    let y := fun r j => elem w (s.rv b.toNat) r j
    let sx_ := fun r j => sx w (x r j)
    let sy := fun r j => sx w (y r j)
    let m := s.rk k.toNat
    let gives := fun (i : Instr) (f : Nat → Nat → Int) =>
      ∃ u, exec i s = .next u ∧ Elementwise s u n w d.toNat m (fun r j => code w (f r j)) 0#5
    let holds := fun (i : Instr) (f : Nat → Nat → Bool) => ∃ u, exec i s = .next u ∧ Compared s u n w (d.toNat % 8) m f 0#5
    gives (.vadd h d a b t k) (fun r j => sx_ r j + sy r j) ∧ gives (.vsub h d a b t k) (fun r j => sx_ r j - sy r j) ∧
    gives (.vmul h d a b t k) (fun r j => sx_ r j * sy r j) ∧ gives (.vmin h d a b t k) (fun r j => min (sx_ r j) (sy r j)) ∧
    gives (.vmax h d a b t k) (fun r j => max (sx_ r j) (sy r j)) ∧
    gives (.vand h d a b t k) (fun r j => (x r j &&& y r j : Nat)) ∧ gives (.vor h d a b t k) (fun r j => (x r j ||| y r j : Nat)) ∧
    gives (.vxor h d a b t k) (fun r j => (x r j ^^^ y r j : Nat)) ∧
    gives (.vshl h d a b t k) (fun r j => x r j * 2 ^ (y r j % w)) ∧
    gives (.vshr h d a b t k) (fun r j => (x r j / 2 ^ (y r j % w) : Nat)) ∧
    gives (.vsar h d a b t k) (fun r j => sx_ r j / 2 ^ (y r j % w)) ∧
    holds (.vceq h d a b t k) (fun r j => x r j == y r j) ∧ holds (.vclt h d a b t k) (fun r j => decide (sx_ r j < sy r j)) ∧
    (∃ u, exec (.vsel h d a b t k) s = .next u ∧
      Elementwise s u n w d.toNat (BitVec.allOnes 1024) (fun r j => if sel m w r j then x r j else y r j) 0#5)

/-- The floating vector words: every selected element gets its rounded result, 10 cycles on (18 for f64; 24 for quotients, roots, powers and
logarithms), the flags of the selected elements are raised with it, and nothing else changes (R296, R300 to R302). The powers and logarithms
are correctly rounded by a method of the model's (log 12). -/
def Obligations.VectorFloatingWords : Prop :=
  ∀ (s : State) (h : Hd) (d a b : BitVec 4) (t k : BitVec 2), Runs s h →
    let f := tyFmt t
    let md := modeOf s.me.round
    let n := if t = 3#2 then 18 else 10
    let m := s.rk k.toNat
    let cx := fun r j => elem f.bits (s.rv a.toNat) r j
    let cy := fun r j => elem f.bits (s.rv b.toNat) r j
    let x := fun r j => f.dec (cx r j)
    let y := fun r j => f.dec (cy r j)
    let z := fun r j => f.dec (elem f.bits (s.rv d.toNat) r j)
    let gives := fun (i : Instr) (n : Nat) (g : Nat → Nat → Nat × BitVec 5) => ∃ u, exec i s = .next u ∧
      Elementwise s u n f.bits d.toNat m (fun r j => (g r j).1) (laneFlags f.bits m fun r j => (g r j).2)
    let holds := fun (i : Instr) (g : Nat → Nat → Bool × BitVec 5) => ∃ u, exec i s = .next u ∧
      Compared s u n f.bits (d.toNat % 8) m (fun r j => (g r j).1) (laneFlags f.bits m fun r j => (g r j).2)
    (Settled s [.v a.toNat, .v b.toNat, .k k.toNat] →
      gives (.vfadd h d a b t k) n (fun r j => addFp f md (x r j) (y r j)) ∧
      gives (.vfsub h d a b t k) n (fun r j => addFp f md (x r j) (y r j).neg) ∧
      gives (.vfmul h d a b t k) n (fun r j => mulFp f md (x r j) (y r j)) ∧
      gives (.vfmin h d a b t k) n (fun r j => fmin f (cx r j) (cy r j)) ∧
      gives (.vfmax h d a b t k) n (fun r j => fmax f (cx r j) (cy r j)) ∧
      gives (.vfdiv h d a b t k) 24 (fun r j => divFp f md (x r j) (y r j)) ∧
      holds (.vfceq h d a b t k) (fun r j => feq (x r j) (y r j)) ∧ holds (.vfclt h d a b t k) (fun r j => flt (x r j) (y r j)) ∧
      holds (.vfcle h d a b t k) (fun r j => fle (x r j) (y r j))) ∧
    (Settled s [.v a.toNat, .v b.toNat, .v d.toNat, .k k.toNat] →
      gives (.vfma h d a b t k) n (fun r j => fmaFp f md (x r j) (y r j) (z r j))) ∧
    (Settled s [.v a.toNat, .k k.toNat] →
      gives (.vfsqrt h d a t k) 24 (fun r j => sqrtFp f md (x r j)) ∧ gives (.vfrsq h d a t k) 24 (fun r j => rsqrtFp f md (x r j)) ∧
      gives (.vfexp2 h d a t k) 24 (fun r j => exp2Fp f md (cx r j)) ∧ gives (.vflog2 h d a t k) 24 (fun r j => log2Fp f md (cx r j)))

/-- VCVT, VCVTI and VCVTF: the wider type counts the elements, each of them under the mask of its destination width; VDQMX gives the f32
value of a code under its block's scale. In SR mode 16 rows of random bits are used up and each element takes its 16 bits of its row;
outside SR the queue stays (R192, R193, R303, R304, R305, R206). The value -2^128 of an MXINT code is the model's choice (log 95), and the
rows of random bits are AES-128 as FIPS 197 has it (log 9). -/
def Obligations.VectorConversions : Prop :=
  ∀ (s : State) (h : Hd) (d a b : BitVec 4) (t k : BitVec 2), Runs s h →
    let m := s.rk k.toNat
    let sr := s.me.round = 4#3
    let s' := if sr then drawn s 16 else s
    let mode := fun r j => if sr then
        RMode.sr ((randRow s.me.randKey (s.me.randPos.toNat + r)).toNat / 2 ^ (16 * (j % 128)) % 65536) else modeOf s.me.round
    let gives := fun (i : Instr) (ws wd : Nat) (g : RMode → Nat → Nat × BitVec 5) => ∃ u, exec i s = .next u ∧
      WrittenWhere s' u (if ws = 64 ∨ wd = 64 then 18 else 10) wd d.toNat
        (fun r j => decide (j < min (perRow ws) (perRow wd)) && sel m wd r j)
        (fun r j => (g (mode r j) (elem ws (s.rv a.toNat) r j)).1)
        (orFlags ((flats wd).map fun p => if p.2 < min (perRow ws) (perRow wd) ∧ sel m wd p.1 p.2 = true then
          (g (mode p.1 p.2) (elem ws (s.rv a.toNat) p.1 p.2)).2 else 0#5))
    let o := otherFmt (b.toNat % 8)
    let f := tyFmt t
    let g := intKind (b.toNat % 8)
    (Settled s [.v a.toNat, .k k.toNat] → (sr → 16 ≤ s.me.randFill) →
      (b.getLsbD 3 = false → gives (.vcvt h d a b t k) f.bits o.bits fun md x => cvtFp o md (f.dec x)) ∧
      (b.getLsbD 3 = true → gives (.vcvt h d a b t k) o.bits f.bits fun md x => cvtFp f md (o.dec x)) ∧
      gives (.vcvti h d a b t k) f.bits g.1 (fun md x =>
        (code g.1 (cvtInt g.2.1 g.2.2 md (f.dec x)).1, (cvtInt g.2.1 g.2.2 md (f.dec x)).2)) ∧
      gives (.vcvtf h d a b t k) (tyBits t) o.bits (fun md x =>
        cvtFromInt o md (if b.getLsbD 3 then (x : Int) else sx (tyBits t) x))) ∧
    (Settled s [.v a.toNat, .k k.toNat] → sr → s.me.randFill < 16 →
      ∀ i ∈ [Instr.vcvt h d a b t k, .vcvti h d a b t k, .vcvtf h d a b t k], exec i s = .next (s.takeTrap (.sched 8))) ∧
    (Settled s [.v a.toNat, .v b.toNat, .k k.toNat] → ∃ u, exec (.vdqmx h d a b t k) s = .next u ∧
      Elementwise s u 10 32 d.toNat m (fun r j =>
        mxValue (mxBits t.toNat).1 (mxBits t.toNat).2 (elem 8 (s.rv b.toNat) 0 (8 * r + j / 32)) (elem 8 (s.rv a.toNat) r j)) 0#5)

/-- VQMX: each block of 32 elements gives 32 code bytes in its row of VD and one scale byte in VB; the other bytes of both keep their value
(R204, R205, R305). The rows of random bits are AES-128 as FIPS 197 has it (log 9). -/
def Obligations.MicroscaledQuantisation : Prop :=
  ∀ (s : State) (h : Hd) (d a b : BitVec 4) (t k : BitVec 2), Runs s h → Settled s [.v a.toNat] →
    let f := tyFmt t
    let n := perRow f.bits
    let mx := mxBits k.toNat
    let sr := s.me.round = 4#3
    let s' := if sr then drawn s 16 else s
    let mode := fun r j => if sr then
        RMode.sr ((randRow s.me.randKey (s.me.randPos.toNat + r)).toNat / 2 ^ (16 * (j % 128)) % 65536) else modeOf s.me.round
    let q := fun r c => quantBlock mx.1 mx.2 ((List.range 32).map fun i =>
      (f.dec (elem f.bits (s.rv a.toNat) r (32 * c + i)), mode r (32 * c + i)))
    (sr → 16 ≤ s.me.randFill) →
    ∃ mc mk xc xk fl, exec (.vqmx h d a b t k) s = .next (withResult s' 0 10 [.v d.toNat mc xc, .v b.toNat mk xk] fl) ∧
      (∀ r < 16, ∀ j < 256, elem 8 mc r j = (if j < n then 255 else 0) ∧
        (j < n → elem 8 xc r j = (q r (j / 32)).2.1.getD (j % 32) 0 % 256)) ∧
      (∀ r < 16, ∀ c < 8, elem 8 mk 0 (8 * r + c) = (if c < n / 32 then 255 else 0) ∧
        (c < n / 32 → elem 8 xk 0 (8 * r + c) = (q r c).1 % 256)) ∧ (∀ j, 128 ≤ j → j < 4096 → elem 8 mk 0 j = 0) ∧
      fl = orFlags ((List.range 16).flatMap fun r => (List.range (n / 32)).map fun c => (q r c).2.2)

/-- The row words: VROTR and VBCR take each element from its row, 16 cycles on; an integer VSUMR gives every element the sum of its row,
VMAXR its greatest element and VSCANR the sum of the elements up to it, the floating forms by the tree and the scan of R208 and R209; VLRECR
runs its recurrence along the row from the last element of VD, 22 cycles on (R306, R307). That a NaN which a scan passes on unchanged keeps
its payload is the model's reading (log 89). -/
def Obligations.RowAxisWords : Prop :=
  ∀ (s : State) (h : Hd) (d a b : BitVec 4) (t k : BitVec 2), Runs s h →
    let m := s.rk k.toNat
    let md := modeOf s.me.round
    let w := tyBits t
    let n := perRow w
    let f := tyFmt t
    let p := perRow f.bits
    let x := fun r j => elem w (s.rv a.toNat) r j
    let cx := fun r j => elem f.bits (s.rv a.toNat) r j
    let at0 := fun r => elem w (s.rv b.toNat) r 0
    let root := fun (op : Bool → BitVec 2 → RMode → Nat → Nat → Nat × BitVec 5) r =>
      treeSum (op false t md) ((List.range p).map fun j => (accIn false t (cx r j), 0#5))
    let scan := fun r => scanAll (scanOp false t md) (Nat.log2 p) ((List.range p).map fun j => (cx r j, 0#5))
    let gives := fun (i : Instr) (n w : Nat) (g : Nat → Nat → Nat) (fl : BitVec 5) =>
      ∃ u, exec i s = .next u ∧ Elementwise s u n w d.toNat m g fl
    (Settled s [.v a.toNat, .v b.toNat, .k k.toNat] →
      gives (.vrotr h d a b t k) 16 w (fun r j => x r ((j + n - at0 r % n) % n)) 0#5 ∧
      gives (.vbcr h d a b t k) 16 w (fun r _ => x r (at0 r % n)) 0#5) ∧
    (Settled s [.v a.toNat, .k k.toNat] →
      gives (.vsumr h d a true t k) 16 w (fun r _ => ((List.range n).map (x r)).sum) 0#5 ∧
      (∃ top : Nat → Nat, (∀ r, (∃ j < n, top r = x r j) ∧ ∀ j < n, sx w (x r j) ≤ sx w (top r)) ∧
        gives (.vmaxr h d a true t k) 16 w (fun r _ => top r) 0#5) ∧
      gives (.vscanr h d a true t k) 16 w (fun r j => ((List.range (j + 1)).map (x r)).sum) 0#5 ∧
      gives (.vsumr h d a false t k) 16 (accFmt t).bits (fun r _ => (root sumOp r).1)
        (laneFlags (accFmt t).bits m fun r _ => (root sumOp r).2) ∧
      gives (.vmaxr h d a false t k) 16 (accFmt t).bits (fun r _ => (root maxOp r).1)
        (laneFlags (accFmt t).bits m fun r _ => (root maxOp r).2) ∧
      gives (.vscanr h d a false t k) 16 f.bits (fun r j => ((scan r).getD j (0, 0#5)).1)
        (laneFlags f.bits m fun r j => ((scan r).getD j (0, 0#5)).2)) ∧
    (Settled s [.v a.toNat, .v b.toNat, .v d.toNat, .k k.toNat] →
      ∃ (v : Nat → Nat → Nat) (g : Nat → Nat → BitVec 5),
        (∀ r j, let prev := if j = 0 then elem f.bits (s.rv d.toNat) r (p - 1) else v r (j - 1)
          (v r j, g r j) = fmaFp f md (f.dec (cx r j)) (f.dec prev) (f.dec (elem f.bits (s.rv b.toNat) r j))) ∧
        gives (.vlrecr h d a b t k) 22 f.bits v (laneFlags f.bits m fun r j => orFlags ((List.range (j + 1)).map (g r))))

/-- The column words: VROTC and VBCC take each element from its column, 12 cycles on; an integer VSUMC, VMAXC and VSCANC give the column's
sum, its greatest element and the sums down the rows, the floating ones by the tree and the scan, rounded to the element's type; VTRN
transposes each tile of 16 by 16 elements, 14 cycles on (R308, R309). That a NaN which a scan passes on unchanged keeps its payload is the
model's reading (log 89). -/
def Obligations.ColumnAxisWords : Prop :=
  ∀ (s : State) (h : Hd) (d a b : BitVec 4) (t k : BitVec 2), Runs s h →
    let m := s.rk k.toNat
    let md := modeOf s.me.round
    let w := tyBits t
    let f := tyFmt t
    let x := fun r j => elem w (s.rv a.toNat) r j
    let cx := fun r j => elem f.bits (s.rv a.toNat) r j
    let at0 := fun j => elem w (s.rv b.toNat) 0 j
    let root := fun (op : Bool → BitVec 2 → RMode → Nat → Nat → Nat × BitVec 5) j =>
      let v := treeSum (op false t md) ((List.range 16).map fun r => (accIn false t (cx r j), 0#5))
      if f = accFmt t then v else
        let c := cvtFp f md (Fmt.f32.dec v.1)
        (c.1, c.2 ||| v.2)
    let scan := fun j => scanAll (scanOp false t md) 4 ((List.range 16).map fun r => (cx r j, 0#5))
    let gives := fun (i : Instr) (n w : Nat) (g : Nat → Nat → Nat) (fl : BitVec 5) =>
      ∃ u, exec i s = .next u ∧ Elementwise s u n w d.toNat m g fl
    (Settled s [.v a.toNat, .v b.toNat, .k k.toNat] →
      gives (.vrotc h d a b t k) 12 w (fun r j => x ((r + 16 - at0 j % 16) % 16) j) 0#5 ∧
      gives (.vbcc h d a b t k) 12 w (fun _ j => x (at0 j % 16) j) 0#5) ∧
    (Settled s [.v a.toNat, .k k.toNat] →
      gives (.vsumc h d a true t k) 12 w (fun _ j => ((List.range 16).map fun r => x r j).sum) 0#5 ∧
      (∃ top : Nat → Nat, (∀ j, (∃ r < 16, top j = x r j) ∧ ∀ r < 16, sx w (x r j) ≤ sx w (top j)) ∧
        gives (.vmaxc h d a true t k) 12 w (fun _ j => top j) 0#5) ∧
      gives (.vscanc h d a true t k) 12 w (fun r j => ((List.range (r + 1)).map fun i => x i j).sum) 0#5 ∧
      gives (.vsumc h d a false t k) 12 f.bits (fun _ j => (root sumOp j).1) (laneFlags f.bits m fun _ j => (root sumOp j).2) ∧
      gives (.vmaxc h d a false t k) 12 f.bits (fun _ j => (root maxOp j).1) (laneFlags f.bits m fun _ j => (root maxOp j).2) ∧
      gives (.vscanc h d a false t k) 12 f.bits (fun r j => ((scan j).getD r (0, 0#5)).1)
        (laneFlags f.bits m fun r j => ((scan j).getD r (0, 0#5)).2) ∧
      gives (.vtrn h d a t k) 14 w (fun r j => x (j % 16) (j / 16 * 16 + r)) 0#5)

/-- The moves: VMOV copies, VMOVX copies from the other cluster all rows or one, VSPLAT spreads its immediate, VINS puts row 0 into one row,
VEXT spreads one row, 6 cycles on; VRAND takes the next 16 rows of random bits, 18 cycles on, and traps with schedule subcode 8 where the
queue holds fewer. Elements that the mask leaves out keep their value (R310 to R312, R146). The rows of random bits are AES-128 as FIPS 197
has it (log 9). -/
def Obligations.VectorMoves : Prop :=
  ∀ (s : State) (h : Hd) (d a b : BitVec 4) (i8 : BitVec 8) (t k : BitVec 2), Runs s h →
    let m := s.rk k.toNat
    let x := fun r j => elem 32 (s.rv a.toNat) r j
    let on := fun r j => sel m 32 r j
    (Settled s [.v a.toNat, .k k.toNat] →
      (∃ u, exec (.vmov h d a t k) s = .next u ∧
        Elementwise s u 6 (tyBits t) d.toNat m (fun r j => elem (tyBits t) (s.rv a.toNat) r j) 0#5) ∧
      (∃ u, exec (.vmovx h d a b t k) s = .next u ∧
        WrittenWhere s u 6 32 d.toNat (fun r j => on r j && (decide (t = 0#2) || decide (r = b.toNat))) x 0#5) ∧
      (∃ u, exec (.vins h d a b k) s = .next u ∧
        WrittenWhere s u 6 32 d.toNat (fun r j => on r j && decide (r = b.toNat)) (fun _ j => x 0 j) 0#5) ∧
      (∃ u, exec (.vext h d a b k) s = .next u ∧ WrittenWhere s u 6 32 d.toNat on (fun _ j => x b.toNat j) 0#5)) ∧
    (Settled s [.k k.toNat] →
      (∃ u, exec (.vsplat h d i8 t k) s = .next u ∧
        Elementwise s u 6 (tyBits t) d.toNat m (fun _ _ => code (tyBits t) i8.toInt) 0#5) ∧
      (16 ≤ s.me.randFill → ∃ u, exec (.vrand h d k) s = .next u ∧
        WrittenWhere (drawn s 16) u 18 32 d.toNat on
          (fun r j => (randRow s.me.randKey (s.me.randPos.toNat + r)).toNat / 2 ^ (32 * j)) 0#5) ∧
      (s.me.randFill < 16 → exec (.vrand h d k) s = .next (s.takeTrap (.sched 8))))

/-- The mask words write all 1,024 bits of k[D] 2 cycles on and change nothing else: the logic of two masks, the complement, as many low
bits as the source holds ones, its lowest 1 bit, or s[S] in every row (R313, R314). -/
def Obligations.MaskWords : Prop :=
  ∀ (s : State) (h : Hd) (d a b : BitVec 3) (e : BitVec 5), Runs s h →
    let x := s.rk a.toNat
    let y := s.rk b.toNat
    let gives := fun (i : Instr) (f : Nat → Prop) => ∃ v : Mask,
      exec i s = .next (withResult s 0 2 [.k d.toNat (BitVec.allOnes 1024) v] 0#5) ∧ ∀ n < 1024, (v.getLsbD n = true ↔ f n)
    (Settled s [.k a.toNat, .k b.toNat] →
      gives (.kand h d a b) (fun n => x.getLsbD n = true ∧ y.getLsbD n = true) ∧
      gives (.kor h d a b) (fun n => x.getLsbD n = true ∨ y.getLsbD n = true) ∧
      gives (.kxor h d a b) (fun n => x.getLsbD n ≠ y.getLsbD n)) ∧
    (Settled s [.k a.toNat] →
      gives (.knot h d a) (fun n => x.getLsbD n = false) ∧
      gives (.kpop h d a) (fun n => n < ((Finset.range 1024).filter fun i => x.getLsbD i = true).card) ∧
      gives (.kfirst h d a) (fun n => x.getLsbD n = true ∧ ∀ i < n, x.getLsbD i = false)) ∧
    (Settled s [.s e.toNat] → gives (.kset h d e) (fun n => (s.rs e).getLsbD (n % 64) = true))

/-! ### Scalar memory (R83, R84, R285 to R288) -/

/-- A scratchpad address is good for the executing core exactly where bit 63 is set, bits 62 to 33 are 0, the offset lies below 24 MiB, it
names the core's own stack (by number, or by bit 32), it is a multiple of the access size, and the slab is the job's and of its world; it
then names that byte of the stack. A slab of the other world gives a world violation, every other failure a translation fault. An offset
of 24 bits never reaches the bound of 0x1800000, so that this test never fails (log 25) (R83, R84, R165, R286). -/
def Obligations.ScratchpadAddressesAreChecked : Prop :=
  ∀ (s : State) (ea : Word) (z : Nat), 0 < z →
    let off := ea.toNat % 2 ^ 24
    let here := ea.getLsbD 32 = true ∨ ea.toNat / 2 ^ 24 % 2 ^ 8 = s.myStack
    let good := ea.getLsbD 63 = true ∧ ea.toNat / 2 ^ 33 % 2 ^ 30 = 0 ∧ off < 0x1800000 ∧ here ∧ off % z = 0
    let granted := (s.job s.myCtx.job).slabs.getLsbD (96 * s.myStack + off / 262144) = true
    let other := s.worldOf (.slab s.myStack (off / 262144)) ≠ s.myCtx.world
    (good → granted → ¬ other → s.ownAddr ea z = .ok (s.myStack * 25165824 + off)) ∧
    (good → other → s.ownAddr ea z = .error .world) ∧
    (good → ¬ granted → ¬ other → s.ownAddr ea z = .error .translation) ∧
    (¬ good → s.ownAddr ea z = .error .translation)

/-- The scalar loads, stores and atomics: with a good address and no lock, window or conflict in the way, the access is due 2 cycles on (4
for an atomic), a load's value 4 on, an atomic's old value 8 on; registers and memory stay until then, and where no later word of the cycle
meets the access nothing else changes. An address that fails traps, an offset counts in access sizes. An untimed release waits (R285 to
R288, R220). That an access performs as an event of its own is the model's form (log 11). -/
def Obligations.ScalarMemoryWords : Prop :=
  ∀ (s : State) (h : Hd) (o : BitVec 2) (d a b : BitVec 5) (i : BitVec 8) (w : Bool) (f : Nat), Runs s h → Settled s [.s a.toNat] →
    let ea := fun (z : Nat) => s.rs a + BitVec.ofInt 64 (i.toInt * z)
    let free := fun (n : Nat) => s.accessTrap [(n, slotOf f)] = none
    let quiet := fun (n : Nat) (t : State) => SameData s t ∧ (NoLater s [(n, slotOf f)] → OnlyPending s t)
    let loads := fun (x : Instr) (z : Nat) (sg : Bool) => s.ownAddr (ea z) z = .ok f → free 2 → ∃ t, exec x s = .next t ∧
      Enters s t 2 s.nextId (.load f z sg d.toNat) ∧ Lands s t 4 s.nextId [.s d.toNat 0#64] 0#5 ∧ quiet 2 t
    let stores := fun (x : Instr) (z : Nat) => s.ownAddr (ea z) z = .ok f → Settled s [.s d.toNat] → free 2 → ∃ t, exec x s = .next t ∧
      Enters s t 2 0 (.store { addr := f, len := z, val := (s.rs d).toNat % 2 ^ (8 * z) }) ∧ quiet 2 t
    let z := if w then 8 else 4
    let amo := fun (x : Instr) (n : Nat) => s.ownAddr (s.rs a) z = .ok f → Settled s ([.s b.toNat] ++ if n = 7 then [.s d.toNat] else []) →
      free 4 → (s.timed = true → o.getLsbD 1 = true → relReady s s.cur (touchedWrites s s.cur.ctx) = true) →
      let op := AccessOp.amo n f w (s.rs b) (s.rs d) d.toNat
      ∃ t, exec x s = .next t ∧ Lands s t 8 s.nextId [.s d.toNat 0#64] 0#5 ∧ SameBytes s t ∧
        (∀ c col, (t.core c col).s = (s.core c col).s) ∧
        (s.timed = true ∨ o.getLsbD 1 = false → Enters s t 4 s.nextId op) ∧
        (s.timed = false → o.getLsbD 1 = true →
          { id := s.nextId, cur := s.cur, what := .release { id := s.nextId, op := op } (touchedWrites s s.cur.ctx) } ∈ t.waiting ∧
          ∃ e ∈ t.agenda, e.due = s.clk + 4 ∧ e.cur = s.cur ∧ e.arg = s.nextId ∧ e.act = .releasePerform) ∧
        (o.getLsbD 0 = true → s.timed = false → s.cur ∈ (t.core s.cur.ctx s.cur.col).acqs)
    let fails := fun (x : Instr) (ea : Word) (z : Nat) => ∀ e, s.ownAddr ea z = .error e → exec x s = .next (s.takeTrap e)
    loads (.ld h d a i) 8 false ∧ loads (.lw h d a i) 4 true ∧ loads (.lwu h d a i) 4 false ∧ stores (.st h d a i) 8 ∧
    stores (.sw h d a i) 4 ∧ amo (.amoadd h o d a b w) 0 ∧ amo (.amoand h o d a b w) 1 ∧ amo (.amoor h o d a b w) 2 ∧
    amo (.amoxor h o d a b w) 3 ∧ amo (.amomin h o d a b w) 4 ∧ amo (.amomax h o d a b w) 5 ∧ amo (.amoswap h o d a b w) 6 ∧
    amo (.amocas h o d a b w) 7 ∧ fails (.ld h d a i) (ea 8) 8 ∧ fails (.lw h d a i) (ea 4) 4 ∧ fails (.lwu h d a i) (ea 4) 4 ∧
    fails (.st h d a i) (ea 8) 8 ∧ fails (.sw h d a i) (ea 4) 4 ∧ fails (.amoadd h o d a b w) (s.rs a) z ∧
    fails (.amocas h o d a b w) (s.rs a) z

/-- An access that performs: a load fills its result with the bytes, lowest first, sign-extended where the word says so; a store changes its
bytes and no other; an atomic gives the old value and leaves the new one, AMOCAS only where the old value matches; no register changes yet.
An untimed access whose bank or slot is not free waits a cycle and changes no data (R18, R91, R215, R285, R287). That an access performs as
an event of its own is the model's form (log 11). -/
def Obligations.AccessesPerform : Prop :=
  ∀ (s : State) (id : Nat), Memory.wf s.mem = true → s.bad.rows = [] →
    let num := fun (a n : Nat) => ((List.range n).map fun i => (s.byte (a + i)).toNat * 256 ^ i).sum
    let fills := fun (t : State) (x : RegWrite) => id ≠ 0 → ∀ e ∈ s.agenda, ∀ f, e.act = .resultLanding f → f.id = id →
      { e with act := .resultLanding { f with writes := f.writes.map fun _ => x } } ∈ t.agenda
    let only := fun (t : State) (a n v : Nat) => ∀ x, t.byte x =
      if a ≤ x ∧ x < a + n then BitVec.ofNat 8 (v / 256 ^ (x - a)) else s.byte x
    let runs := fun (op : AccessOp) => s.timed = true ∨ mustWait s { id := id, op := op } = false
    (∀ a n sg d, n ≤ 8 → runs (.load a n sg d) → ∃ t, exec (.deferredAccessPerform { id := id, op := .load a n sg d }) s = .next t ∧
      SameData s t ∧ fills t (.s d (if sg then (BitVec.ofNat (8 * n) (num a n)).signExtend 64 else BitVec.ofNat 64 (num a n)))) ∧
    (∀ p, runs (.store p) → ∃ t, exec (.deferredAccessPerform { id := id, op := .store p }) s = .next t ∧
      t.cores = s.cores ∧ t.agenda = s.agenda ∧ only t p.addr p.len p.val) ∧
    (∀ op a w y cmp d, op < 8 → runs (.amo op a w y cmp d) →
      let z := if w then 8 else 4
      let old := num a z
      let v := y.toNat % 2 ^ (8 * z)
      let sg := fun (x : Nat) => sx (8 * z) x
      let new : Option Nat := if op = 0 then some ((old + v) % 2 ^ (8 * z)) else if op = 1 then some (old &&& v)
        else if op = 2 then some (old ||| v) else if op = 3 then some (old ^^^ v)
        else if op = 4 then some (if sg v < sg old then v else old) else if op = 5 then some (if sg old < sg v then v else old)
        else if op = 6 then some v else if old = cmp.toNat % 2 ^ (8 * z) then some v else none
      ∃ t, exec (.deferredAccessPerform { id := id, op := .amo op a w y cmp d }) s = .next t ∧ t.cores = s.cores ∧
        (∀ x, new = some x → only t a z x) ∧ (new = none → SameBytes s t) ∧
        fills t (.s d (if w then BitVec.ofNat 64 old else (BitVec.ofNat 32 old).signExtend 64))) ∧
    (∀ puts, runs (.vstore puts) → ∃ t, exec (.deferredAccessPerform { id := id, op := .vstore puts }) s = .next t ∧
      t.cores = s.cores ∧ ∀ x, (∀ p ∈ puts, ¬ (p.addr ≤ x ∧ x < p.addr + p.len)) → t.byte x = s.byte x) ∧
    (∀ op, s.timed = false → mustWait s { id := id, op := op } = true →
      ∃ t, exec (.deferredAccessPerform { id := id, op := op }) s = .next t ∧ SameData s t ∧
        ∃ e ∈ t.agenda, e.due = s.clk + 1 ∧ e.cur = s.cur ∧ e.arg = s.arg + 1 ∧ e.act = .deferredAccessPerform { id := id, op := op })

/-! ### Streams, attention and vector memory (R315 to R333) -/

/-- VISECT marks the positions of each stream whose index the other holds, and p6 says whether the first ends no later; VCOMP moves the
selected elements to the front and zeros follow, VEXPD moves the leading ones to the selected positions; VSEGS sums segment by segment.
VTMASK puts minus infinity where the ancestor bit is 0; VMERGE3 and VSMX write each row's result of the online softmax into their pair of
registers and leave the other containers of the state register (R326, R327, R329, R331 to R333, R207). How signalling NaNs go through VSMX
and VMERGE3 (log 36) and a NaN through VSEGS unchanged (log 89) are the model's readings. -/
def Obligations.SparseAndAttentionWords : Prop :=
  ∀ (s : State) (h : Hd) (d a b : BitVec 4) (t k : BitVec 2), Runs s h →
    let m := s.rk k.toNat
    let w := tyBits t
    let all := 16 * perRow w
    let x := fun (w p : Nat) => elem w (s.rv a.toNat) 0 p
    let y := fun (w p : Nat) => elem w (s.rv b.toNat) 0 p
    let on := fun p => sel m w 0 p = true
    let before := fun p => ((Finset.range p).filter fun q => sel m w 0 q = true).card
    let f := tyFmt t
    let reg := fun (q : BitVec 4) (r j : Nat) => elem 32 (s.rv q.toNat) r j
    let reg1 := fun (q : BitVec 4) (r j : Nat) => elem 32 (s.rv (q.toNat + 1)) r j
    (Settled s [.v a.toNat, .v b.toNat] → ∃ ma mb less, exec (.visect h d a b) s = .next (withResult s 0 16
        [.k (d.toNat % 8) (BitVec.allOnes 1024) ma, .k (d.toNat % 8 + 1) (BitVec.allOnes 1024) mb, .p 6 less] 0#5) ∧
      (∀ p < 1024, (ma.getLsbD p = true ↔ x 32 p ≠ 0xFFFFFFFF ∧ ∃ q < 1024, y 32 q = x 32 p) ∧
        (mb.getLsbD p = true ↔ y 32 p ≠ 0xFFFFFFFF ∧ ∃ q < 1024, x 32 q = y 32 p)) ∧
      (less = true ↔ ∀ p < 1024, x 32 p ≠ 0xFFFFFFFF → ∃ q < 1024, y 32 q ≠ 0xFFFFFFFF ∧ x 32 p ≤ y 32 q)) ∧
    (Settled s [.v a.toNat, .k k.toNat] →
      (∃ v, exec (.vcomp h d a t k) s = .next (withResult s 0 16 [.v d.toNat (BitVec.allOnes 32768) v] 0#5) ∧
        ∀ p < all, (on p → elem w v 0 (before p) = x w p) ∧ (before all ≤ p → elem w v 0 p = 0)) ∧
      (∃ u, exec (.vexpd h d a t k) s = .next u ∧
        Elementwise s u 16 w d.toNat m (fun r j => x w (before (perRow w * r + j))) 0#5)) ∧
    (Settled s [.v a.toNat, .v b.toNat, .k k.toNat] →
      (∃ (v : Nat → Nat) (g : Nat → BitVec 5), v 0 = x f.bits 0 ∧ g 0 = 0#5 ∧
        (∀ p, if y f.bits (p + 1) = 0 then
            let r := addFp f (modeOf s.me.round) (f.dec (v p)) (f.dec (x f.bits (p + 1)))
            v (p + 1) = r.1 ∧ g (p + 1) = r.2 ||| g p
          else v (p + 1) = x f.bits (p + 1) ∧ g (p + 1) = 0#5) ∧
        ∃ u, exec (.vsegs h d a b t k) s = .next u ∧ Elementwise s u 22 f.bits d.toNat m (fun r j => v (perRow f.bits * r + j))
          (laneFlags f.bits m fun r j => g (perRow f.bits * r + j))) ∧
      (∃ u, exec (.vtmask h d a b k) s = .next u ∧ Elementwise s u 10 32 d.toNat m
        (fun r j => if (reg b r 0 + 2 ^ 32 * reg b r 1).testBit j then reg a r j else 0xFF800000) 0#5)) ∧
    (Settled s [.v a.toNat, .v (a.toNat + 1), .v b.toNat, .v (b.toNat + 1)] →
      let q := fun r => mergeS (reg1 a r 0) (reg1 a r 1) ((List.range 64).map (reg a r)) (reg1 b r 0) (reg1 b r 1)
        ((List.range 64).map (reg b r))
      ∃ v mm st fl, exec (.vmerge3 h d a b) s = .next (withResult s 0 24
          [.v d.toNat (BitVec.allOnes 32768) v, .v (d.toNat + 1) mm st] fl) ∧ fl = orFlags ((List.range 16).map fun r => (q r).2) ∧
        ∀ r < 16, elem 32 st r 0 = (q r).1.1 % 2 ^ 32 ∧ elem 32 st r 1 = (q r).1.2.1 % 2 ^ 32 ∧
          ∀ j < 64, elem 32 mm r j = (if j < 2 then 2 ^ 32 - 1 else 0) ∧ elem 32 v r j = (q r).1.2.2.getD j 0 % 2 ^ 32) ∧
    (Settled s [.v a.toNat, .v b.toNat] →
      let q := fun r => softRow (reg b r 0) (reg b r 1) ((List.range 64).map (reg a r))
      ∃ v mm st fl, exec (.vsmx h d a b) s = .next (withResult s 0 32
          [.v d.toNat (BitVec.allOnes 32768) v, .v b.toNat mm st] fl) ∧ fl = orFlags ((List.range 16).map fun r => (q r).2) ∧
        ∀ r < 16, elem 32 st r 0 = (q r).1.2.1 % 2 ^ 32 ∧ elem 32 st r 1 = (q r).1.2.2.1 % 2 ^ 32 ∧
          elem 32 st r 2 = (q r).1.2.2.2 % 2 ^ 32 ∧
          ∀ j < 64, elem 32 mm r j = (if j < 3 then 2 ^ 32 - 1 else 0) ∧ elem 32 v r j = (q r).1.1.getD j 0 % 2 ^ 32)

/-- VCONF writes every bit of its mask: the bit of a position, both bits of the pair for i64, is 1 exactly when the position is selected
and an earlier selected one holds its value; nothing else changes (R328). -/
def Obligations.VconfMarksRepeats : Prop :=
  ∀ (s : State) (h : Hd) (d a : BitVec 4) (t k : BitVec 2), (Instr.vconf h d a t k).wellFormed = true → Runs s h →
    Settled s [.v a.toNat, .k k.toNat] →
    let w := tyBits t
    let on := fun p => sel (s.rk k.toNat) w 0 p = true
    let x := fun p => elem w (s.rv a.toNat) 0 p
    ∃ m : Mask, exec (.vconf h d a t k) s = .next (withResult s 0 16 [.k (d.toNat % 8) (BitVec.allOnes 1024) m] 0#5) ∧
      ∀ p < 16 * perRow w, ∀ i < w / 32,
        (m.getLsbD (w / 32 * p + i) = true ↔ on p ∧ ∃ q < p, on q ∧ x q = x p)

/-- The vector memory words: with an aligned base, good addresses and no lock, window or conflict, row r performs 2 + r cycles on (2 + 2 r
for gathers and scatters), each selected element between its place in the register and its address; a load's result lands 20 (36) cycles on
under the mask; VSCATC keeps the first of equal addresses and says in p6 whether one fell away, VSCADD adds all containers of an address as
one group; registers and memory stay until then (R316 to R324). An empty mask that makes no access (log 27), the rounding mode of VSCADD
(log 37) and the locks that trap a VLDT (log 108) are the model's readings. -/
def Obligations.VectorMemoryWords : Prop :=
  ∀ (s : State) (h : Hd) (v : BitVec 4) (a : BitVec 5) (i : BitVec 4) (hx : BitVec 3) (k : BitVec 2), Runs s h →
    let m := s.rk k.toNat
    let id := s.nextId
    let regs := Settled s [.s a.toNat, .k k.toNat]
    let data := Settled s [.v v.toNat]
    let aligned := fun (z : Nat) => (s.rs a).toNat % z = 0
    let shape := s.rh hx.toNat
    let walk := walkAccs s a shape m
    let picks := indexAccs s a i k
    let quiet := fun (wide : Bool) (l : List VAcc) (t : State) =>
      SameData s t ∧ (NoLater s (vaccSlots s wide l) → OnlyPending s t)
    let reads := fun (x : Instr) (tagged : Bool) (wide : Bool) (w : Nat) (l : List VAcc) => ∃ t, exec x s = .next t ∧
      Lands s t (if wide then 36 else 20) id [.v v.toNat (selBits m w) 0#32768] 0#5 ∧ quiet wide l t ∧
      ∀ e ∈ l, ∀ f, e.flat s = .ok f → e.row < 16 → ReadsAt s t (rowOff wide e.row) id tagged f e.len e.pos
    let writes := fun (x : Instr) (wide : Bool) (l : List VAcc) => ∃ t, exec x s = .next t ∧ quiet wide l t ∧
      ∀ e ∈ l, ∀ f, e.flat s = .ok f → e.row < 16 →
        WritesAt s t (rowOff wide e.row) id f e.len ((s.rv v.toNat).toNat / 2 ^ e.pos)
    let block := blockAccs s a i k
    (∀ r < 16, ∀ c < 64, sel m 32 r c = true → { row := r, ea := (s.rs a).toNat + 4096 * i.toNat + (256 * r + 4 * c : Nat), pos := elemPos 32 r c, len := 4 } ∈ block) ∧
    (∀ r < 16, ∀ c < 64, sel m 32 r c = true →
      { row := r, ea := (s.rs a).toNat + 4 * (elem 32 (s.rv i.toNat) r c : Nat), pos := elemPos 32 r c, len := 4 } ∈ picks) ∧
    (regs → aligned 4096 → AccsOk s false block → reads (.vld h v a i k) false false 32 block ∧
      (data → writes (.vst h v a i k) false block)) ∧
    (regs → aligned 4096 → AccsOk s false block → Settled s [.s (a.toNat + 1)] →
      (∃ f, ({ row := 0, ea := blockEa s a i, pos := 0, len := 4 } : VAcc).flat s = .ok f ∧ s.ctxLock (slotOf f) 0 = false ∧
        (s.slot (slotOf f)).lock = false ∧ s.badMeta.get 0 (slotOf f) = 0 ∧ (s.slot (slotOf f)).tag = (s.rs (a + 1#5)).setWidth 8) →
      reads (.vldt h v a i k) true false 32 block) ∧
    (Settled s [.s a.toNat, .h hx.toNat, .k k.toNat] → aligned (shapeE shape) → AccsOk s false walk →
      reads (.vlds h v a hx k) false false (8 * shapeE shape) walk ∧ (data → writes (.vsts h v a hx k) false walk)) ∧
    (Settled s [.s a.toNat, .v i.toNat, .k k.toNat] → aligned 4 →
      (AccsOk s true picks → reads (.vgath h v a i k) false true 32 picks ∧ (data → writes (.vscat h v a i k) true picks)) ∧
      (data → AccsOk s true (firstOnly picks) →
        (∃ t, exec (.vscatc h v a i k) s = .next t ∧ quiet true (firstOnly picks) t ∧
          Lands s t 36 id [.p 6 (decide (¬ (picks.map VAcc.ea).Nodup))] 0#5 ∧
          ∀ e ∈ firstOnly picks, ∀ f, e.flat s = .ok f → WritesAt s t (rowOff true e.row) id f 4 ((s.rv v.toNat).toNat / 2 ^ e.pos)) ∧
        (∃ t, exec (.vscadd h v a i k) s = .next t ∧ quiet true (firstOnly picks) t ∧ Lands s t 36 id [] 0#5 ∧
          ∀ e ∈ firstOnly picks, ∀ f, e.flat s = .ok f → ∃ gs, Enters s t (rowOff true e.row) id (.scatAdd s.me.round gs) ∧
            { addr := f, vals := (picks.filter fun x => x.ea == e.ea).map fun x => BitVec.ofNat 32 ((s.rv v.toNat).toNat >>> x.pos) } ∈ gs)))

/-! ### The matrix array (R335 to R351) -/

/-- The array commands: with good operands and no lock, window, conflict or reserved cycle in the way, every operand row is read in its
cycle, the command reserves its array cycles and its result is due 31 cycles after the last of them; no register and no byte changes
yet. A command whose guard does not hold reserves its cycles and does nothing else. An untimed command reserves at its execution (log 28),
and a run of MWIN that is out of range is not read (log 26) (R336 to R341, R343, R344, R346, R347). -/
def Obligations.MatrixCommands : Prop :=
  ∀ (s : State) (h : Hd) (z : BitVec 2) (a b f : BitVec 5), s.myCtx.job ≠ 0 →
    let st := s.myStack
    let runs := fun (x : Instr) (kind : MatKind) (occ : Nat) (rd : List Reg) (taps : Nat) (e0 e1 : Nat) (base : Bool) (rs : List MRead) =>
      let run := s.arrayEnd s.cur.ctx s.cur.col 0 occ
      let cmd := fun (id taps : Nat) (eA eB : Scales) (null : Bool) => Instr.matrixResultLanding
        { id := id, kind := kind, z := z.toNat, fmt := f.toNat, taps := taps, eA := eA, eB := eB, rows := [], delay := 0, defer := 0,
          f0 := s.frame0 s.cur.ctx s.cur.col, win := winLen (s.stackAt st).force, occ := occ, last := run.last, vals := run.vals,
          null := null }
      (Runs s h → Settled s rd → base = true → (∀ r ∈ rs, ∃ g, r.addr = .ok g) → s.accessTrap (readSlots rs) = none →
        (s.timed = true → run.bad = false) →
        ∃ t, exec x s = .next t ∧ SameData s t ∧ (∀ v ∈ run.vals, v ∈ (t.stackAt st).arr) ∧
          (∀ r ∈ rs, ∀ g, r.addr = .ok g → ∃ l, Enters s t r.off s.nextId (.matRows l) ∧ (r.key, g, r.len) ∈ l) ∧
          ∃ e ∈ t.agenda, e.clk = .row (rowOf s.cur.ctx) ∧ e.due = s.clk + (run.last + 31) ∧ e.cur = s.cur ∧
            e.act = cmd s.nextId taps (s.re e0) (s.re e1) false) ∧
      (s.guard h = false → Settled s [.p h.p.toNat] → ∃ t, exec x s = .next t ∧ SameData s t ∧ t.ctxs = s.ctxs ∧
        t.agenda = (withEntry s (run.last + 31) 0 (cmd 0 0 0#2048 0#2048 true)).agenda ∧ ∀ v ∈ run.vals, v ∈ (t.stackAt st).arr)
    let occ := denseOcc f.toNat
    let rd := [Reg.s a.toNat, .s b.toNat]
    let mx := rd ++ if f.toNat = 6 ∨ f.toNat = 7 ∨ f.toNat = 8 then [.e 0, .e 1] else []
    let dense := denseReads s (s.rs a) (s.rs b) f.toNat
    let hz := s.rh z.toNat
    runs (.mma h z a b f) .mma occ mx 1 0 1 true dense ∧ runs (.mmaz h z a b f) .mmaz occ mx 1 0 1 true dense ∧
    runs (.mmat h z a b f) .mmat occ mx 1 0 1 true dense ∧ runs (.mmax h z a b f) .mmax occ (rd ++ [.e 2, .e 3]) 1 2 3 true dense ∧
    runs (.mwin h z a b f) .mwin (tapsOf hz * max occ 16) (rd ++ [.h z.toNat]) (tapsOf hz) 0 1 ((ownSpad s (s.rs a)).isNone)
      (winReads s (s.rs a) (s.rs b) hz f.toNat) ∧
    runs (.mcsr h z a b f) .mcsr 64 rd 1 0 1 true (csrReads s (s.rs a) (s.rs b)) ∧
    runs (.mbsr h z a b f) .mbsr 64 rd 1 0 1 true (csrReads s (s.rs a) (s.rs b)) ∧
    runs (.m24 h z a b f) .m24 occ rd 1 0 1 true (m24Reads s (s.rs a) (s.rs b))

/-- An array command's result lands whole: z[Z] becomes the tile computed from the rows it read and from z[Z] as it stands, its flags are
raised, no other register and no byte changes. In an exact form each output element is the accumulator plus the exact sum of its products,
rounded once to nearest: of a dense command those of a row of A and a column of B. A nullified command lands nothing (R55, R200, R203, R338,
R341, R344). That an exact form with a NaN operand takes its flags from R200 is the model's reading (log 21). -/
def Obligations.MatrixResultsLand : Prop :=
  (∀ (s : State) (m : MatCmd), m.null = true → exec (.matrixResultLanding m) s = .next s) ∧
  (∀ (s : State) (m : MatCmd), m.null = false → isQ s.cur.ctx = false → m.delay = 0 → m.defer = 0 →
    portKey s.cur s.cur.slot.port ∉ s.ports_ → (s.timed = true ∨ zPending s m.z = false) →
    ∃ t, exec (.matrixResultLanding m) s = .next t ∧
      let u := t.core s.cur.ctx s.cur.col
      (∀ n, u.z.get 0#65536 n = if n = m.z then (matResult m (s.rz m.z)).1 else s.rz n) ∧
      u.flags = s.me.flags ||| (matResult m (s.rz m.z)).2 ∧ u.s = s.me.s ∧ u.v = s.me.v ∧ u.k = s.me.k ∧ u.p = s.me.p ∧ u.e = s.me.e ∧
      t.mem = s.mem ∧ t.ctxs = s.ctxs ∧ t.agenda = s.agenda) ∧
  (∀ (m : MatCmd) (z : Tile), 2 ≤ m.fmt → m.fmt ≤ 9 → ∀ r < 32, ∀ n < 64,
    let el := fun (x : Tile) => x.toNat / 2 ^ (32 * (64 * r + n)) % 2 ^ 32
    let ps := ((matProducts m).1.getD r []).getD n []
    let old := if m.kind = .mmaz then 0 else el z
    el (matResult m z).1 = (if ps = [] then old else (exactAcc ps old).1) ∧
    (m.kind = .mma ∨ m.kind = .mmaz ∨ m.kind = .mmax → ps = List.zip (matA m r) (matB m 0 (matK m.fmt) n)) ∧
    (m.kind = .mmat → ps = List.zip (matA m r) (matBT m n))) ∧
  (∀ (prods : List (Fp × Fp)) (z : Nat), let n := fun (x : Fp) => ∃ a m e, x = .num a m e
    (∀ p ∈ prods, n p.1 ∧ n p.2) → n (Fmt.f32.dec z) →
    let v := (Fmt.f32.dec z).value + (prods.map fun p => p.1.value * p.2.value).sum
    (v ≠ 0 → ∃ neg q d, (Fp.num neg q d).value = v ∧ exactAcc prods z = roundFp .f32 .rne neg q d) ∧
    (v = 0 → (exactAcc prods z).2 = 0#5 ∧ ((exactAcc prods z).1 = 0 ∨ (exactAcc prods z).1 = 2 ^ 31)))

/-- The accumulator, scale and mode words: ZRD and ZWR move a half tile, ZCLR zeroes one, ESLD reads its scale bytes 2 cycles on and lands
8 on under the mask of FMT, AMODE enters its window, and MSHAPE holds its shape for the third bundle that follows; nothing else changes
(R350, R351, R57, R58, R63, R71). -/
def Obligations.AccumulatorAndModeWords : Prop :=
  ∀ (s : State) (h : Hd) (z : BitVec 2) (a b f : BitVec 5) (v : BitVec 4) (at_ : Nat), Runs s h →
    let half := 32768 * f.toNat
    let n := if f = 0#5 then 256 else 128
    let lo := if f = 2#5 then 128 else 0
    (Settled s [.z z.toNat] → exec (.zrd h z v f) s = .next (withResult s 0 8
      [.v v.toNat (BitVec.allOnes 32768) ((s.rz z.toNat).extractLsb' half 32768)] 0#5)) ∧
    (Settled s [.v v.toNat] → f.toNat < 2 → ∃ x m, exec (.zwr h z v f) s = .next (withResult s 0 8 [.z z.toNat x m] 0#5) ∧
      ∀ i < 65536, m.getLsbD i = decide (half ≤ i ∧ i < half + 32768) ∧
        (half ≤ i → i < half + 32768 → x.getLsbD i = (s.rv v.toNat).getLsbD (i - half))) ∧
    exec (.zclr h z) s = .next (withResult s 0 2 [.z z.toNat 0#65536 (BitVec.allOnes 65536)] 0#5) ∧
    (Settled s [.s a.toNat] → s.ownAddr (s.rs a) n = .ok at_ → s.accessTrap [(2, slotOf at_)] = none →
      ∃ t m, exec (.esld h z a f) s = .next t ∧ SameData s t ∧ (NoLater s [(2, slotOf at_)] → OnlyPending s t) ∧
        Enters s t 2 s.nextId (.esld z.toNat { addr := at_, len := n, pos := 8 * lo }) ∧ Lands s t 8 s.nextId [.e z.toNat m 0#2048] 0#5 ∧
        ∀ i < 2048, m.getLsbD i = decide (8 * lo ≤ i ∧ i < 8 * (lo + n))) ∧
    (dieOf s.cur.ctx = 0 → isQ s.cur.ctx = false → stackForeign s s.myStack = false →
      exec (.amode h f) s = .next (withEntry s 1 0 (.amodeWrite (f.setWidth 2)))) ∧
    (Settled s [.s a.toNat, .s b.toNat] → exec (.mshape h a b f) s = .next (s.setCore s.cur.ctx s.cur.col
      { s.me with pendH := s.me.pendH ++ [(f.toNat, shapeOf (s.rs a) (s.rs b), s.cur.seq + 3)] }))
/-! ### Peel words (R86 to R102, R142 to R144, R354 to R384) -/

/-- The exchange words: one that is planned, meets no trap and finds its engine, its slots, its channels and the table free starts: its
engine holds it, its slots lock, and between scratchpads its first beats cross at the base cycle of R93; one that is not free waits, and one
whose translation needs a walk waits for it. XROT starts on the head core alone. No register and no byte changes yet (R92 to R94, R97, R101,
R158, R354, R358 to R363). That a peel of the other world traps (log 97), that an untimed exchange waits for its core's own lock (log 38)
and how an XCHT meets windows and ports (log 40) are the model's readings. -/
def Obligations.ExchangeWordsStartOrWait : Prop :=
  ∀ (s : State) (h : Hd) (x y v : BitVec 5) (c : BitVec 6), Runs s h → Settled s [.s x.toNat, .s y.toNat] →
    let sn := s.rs x
    let sf := s.rs y
    let k := s.wordPeel
    let does := fun (w : Instr) (kind cnt : Nat) (expect : BitVec 32) (micro : Word) =>
      s.xchTrap false kind sn sf cnt micro = none →
      (∀ pl, s.xchPlan false kind sn sf cnt = .ok pl →
        let p := s.newPeel kind sn sf pl expect micro
        (s.timed = true ∨ s.xchBlocked k p = false → ∃ t, exec w s = .next t ∧ SameData s t ∧ (t.peel k).kind = p.kind ∧ (t.peel k).a = pl.a ∧
          (t.peel k).b = pl.b ∧ (t.peel k).n = pl.n ∧ (∀ q ∈ xchSlots p, (t.slot q).lock = true) ∧
          (pl.a.isS = true → pl.b.isS = true → ∃ e ∈ t.agenda, e.clk = .row (rowOf s.cur.ctx) ∧ e.due = p.base ∧
            p.base = s.clk + 6 + pathOf pl.a pl.b ∧ e.cur = s.cur ∧ e.act = .exchangeBeatCrossing)) ∧
        (s.timed = false → s.xchBlocked k p = true → ∃ t, exec w s = .next t ∧ SameData s t ∧ t.agenda = s.agenda ∧
          t.waiting = s.waiting ++ [{ id := s.nextId, cur := s.cur, what := .exchange p k }])) ∧
      (s.xchPlan false kind sn sf cnt = .error none → ∃ t, exec w s = .next t ∧ SameData s t ∧
        t.waiting = s.waiting ++ [{ id := s.nextId, cur := s.cur, what := .walk w [sn, sf, expect.setWidth 64, micro] }] ∧
        ∃ e ∈ t.agenda, e.cur = s.cur ∧ e.arg = s.nextId ∧ s.clk < e.due ∧ e.act = .translationWalkComplete)
    does (.xch h x y c) 1 c.toNat 0#32 0#64 ∧
    (Settled s [.s x.toNat, .s y.toNat, .s v.toNat] → does (.xchc h x y v) 2 0 ((s.rs v).setWidth 32) 0#64) ∧
    (Settled s [.s x.toNat, .s y.toNat, .s (x.toNat + 1)] → does (.xcht h x y c) 3 c.toNat 0#32 (s.rs (x + 1#5))) ∧
    (∀ a b, sn.getLsbD 63 = true → sf.getLsbD 63 = true → s.sideS sn (c.toNat + 1) = .ok a → s.sideS sf (c.toNat + 1) = .ok b →
      s.xchPlan false 1 sn sf c.toNat = .ok { a := a, b := b, n := c.toNat + 1, stepped := false }) ∧
    (s.cur.col = 0 → s.timed = true → s.peelTrap = none → s.cur.cmode = true → s.engineHeld k = false → ∀ a, rotSide s sn = .ok a →
      let p := rotPeel s sn a
      s.xchSched true k (rotSlots p) (portCycles p s.clk) = none →
      ∃ t, exec (.xrot h x) s = .next t ∧ SameData s t ∧ t.peel k = p ∧ (∀ q ∈ rotSlots p, (t.slot q).lock = true) ∧
        ∃ e ∈ t.agenda, e.due = s.clk + 7 ∧ e.cur = s.cur ∧ e.act = .exchangeBeatCrossing) ∧
    (s.cur.col ≠ 0 → exec (.xrot h x) s = .next s)

/-- The other peel words: XVER writes or reads a slot's metadata 2 cycles on; SEND sends its 16 rows from the second cycle on, RECV expects
them then and lands 20 cycles on; VFPUSH enters a row, VFPOP takes the oldest row a pop may see, VFFREE counts the free places; AGSET stores
a generator, AGEN gives BASE + x STRIDE and traps at or past MAXLEN (R59, R142, R143, R183, R364 to R368, R384). That XVER takes any address
inside the block (log 39), and the locks that trap it (log 108), are the model's readings. -/
def Obligations.PeelWordsGiveTheirResults : Prop :=
  ∀ (s : State) (h : Hd) (x y : BitVec 5) (v r4 : BitVec 4) (c : BitVec 5) (g : BitVec 2) (f n : Nat), Runs s h →
    let dst := clusterP s (c.getLsbD 4)
    let hop := c.toNat % 16
    (Settled s [.s x.toNat] → xverSlot s (s.rs x) = .ok n → s.ctxLock n 2 = false → s.accessTrap [(2, n)] = none →
      (Settled s [.s y.toNat] → ∃ t, exec (.xver h x y) s = .next t ∧ SameData s t ∧ (NoLater s [(2, n)] → OnlyPending s t) ∧
        Enters s t 2 0 (.xverWrite n ((s.rs y).setWidth 32))) ∧
      (∃ t, exec (.xverRead h x y) s = .next t ∧ SameData s t ∧ (NoLater s [(2, n)] → OnlyPending s t) ∧
        Enters s t 2 s.nextId (.xverRead n y.toNat) ∧ Lands s t 4 s.nextId [.s y.toNat 0#64] 0#5)) ∧
    (Settled s [.s x.toNat] → s.ownAddr (s.rs x) 4096 = .ok f → partnerTrap s dst = none → s.timed = true →
      s.accessTrap (sendSlots f) = none → s.cur.cmode = false → (s.ctx dst).frz = none →
      ∃ t, exec (.send h x c) s = .next t ∧ SameData s t ∧ (NoLater s (sendSlots f) → OnlyPending s t) ∧ ∀ r < 16,
        Enters s t (2 + r) 0 (.sendRow (f + 256 * r) r dst ((s.cur.col + hop) % 16) (2 + 2 * min hop (16 - hop)))) ∧
    (s.timed = true → s.cur.cmode = false → ∃ t, exec (.recv h v c) s = .next t ∧ SameData s t ∧ OnlyPending s t ∧
      Lands s t 20 s.nextId [.v v.toNat 0#32768 0#32768] 0#5 ∧ ∀ r < 16, ∃ e ∈ t.agenda, e.due = s.clk + (2 + r) ∧ e.cur = s.cur ∧
        e.arg = recvCode s.nextId hop (c.toNat / 16) r ∧ e.act = .recvRowMissing) ∧
    (fifoTrap s = none →
      (Settled s [.v v.toNat] → occupancy (fifoOut s) (myDom s) < 16 → ∃ t, exec (.vfpush h v r4) s = .next t ∧ SameData s t ∧
        t.agenda = s.agenda ∧ (fifoOut t).rows = (fifoOut s).rows ++ [(rowOfBlock (s.rv v.toNat) r4.toNat, myDom s)] ∧
        (fifoIn t).rows = (fifoIn s).rows ∧ (fifoOut t).pops = (fifoOut s).pops) ∧
      (∀ q d rest, (fifoIn s).rows = (q, d) :: rest → d + 6 ≤ myDom s → ∃ t m w, exec (.vfpop h v r4) s = .next t ∧ SameData s t ∧
        (fifoIn t).rows = rest ∧ (fifoOut t).rows = (fifoOut s).rows ∧ myDom s ∈ (fifoIn t).pops ∧
        (∃ e ∈ t.agenda, e.clk = .row (rowOf s.cur.ctx) ∧ e.due = s.clk + 4 ∧ e.cur = s.cur ∧ e.act = .resultLanding
          { id := 0, port := s.cur.slot.port, writes := [.v v.toNat m w], flags := 0#5, delay := 0, reply := false, fifo := true }) ∧
        ∀ r < 16, ∀ j < 64, elem 32 m r j = (if r = r4.toNat then 2 ^ 32 - 1 else 0) ∧
          (r = r4.toNat → elem 32 w r j = q.toNat / 2 ^ (32 * j) % 2 ^ 32)) ∧
      exec (.vffree h x) s = .next (withResult s 0 2 [.s x.toNat (BitVec.ofNat 64 (16 - occupancy (fifoOut s) (myDom s)))] 0#5)) ∧
    (Settled s [.s x.toNat, .s y.toNat] → ∃ q : Quad, exec (.agset h x y g) s = .next (withResult s 0 2 [.g g.toNat q] 0#5) ∧
      q.toNat % 2 ^ 64 = (s.rs x).toNat % 2 ^ 48 / 64 * 64 ∧ q.toNat / 2 ^ 64 = (s.rs y).toNat / 64 * 64) ∧
    (Settled s [.s y.toNat, .g g.toNat] →
      let q := (s.rg g.toNat).toNat
      (q / 2 ^ 96 ≤ (s.rs y).toNat → exec (.agen h x y g) s = .next (s.takeTrap .translation)) ∧
      ((s.rs y).toNat < q / 2 ^ 96 → exec (.agen h x y g) s = .next (withResult s 0 2 [.s x.toNat
        (BitVec.ofNat 64 ((q % 2 ^ 48 + (s.rs y).toNat * (q / 2 ^ 64 % 2 ^ 32)) % 2 ^ 48))] 0#5)))

/-- The channel commands: one that owns its channel and passes the checks opens its row, or brings its four beats (tower 63 to 72 or far 102
to 120 cycles on for reads, 33 to 42 or 54 to 72 for writes and what deferred crossings of its exchange add), or closes its banks, or starts
a refresh, and loads its counters; no register and no byte changes yet. A read's beats also come in real time. One of a Q owner that meets a
guard sequence waits (R114, R116, R119, R120, R122, R176, R369 to R371). The order of a DWR's own checks is the model's reading (log 51). -/
def Obligations.ChannelCommandsIssue : Prop :=
  ∀ (s : State) (h : Hd) (c : BitVec 5) (i8 : BitVec 8) (i4 : BitVec 4), Runs s h → Settled s [.s c.toNat] →
    let ch := (s.rs c).toNat
    let x := s.chan ch
    let tower := ch < 256
    let free := fun (w : Instr) => cmdHeld s (s.rs c) = false ∧ cmdTrap s (s.rs c) (cmdOf w) = none
    let beats := fun (t : State) (first step : Nat) (a : Nat → Instr) => ∀ q < 4, ∃ e ∈ t.agenda,
      e.clk = .row (rowOf s.cur.ctx) ∧ e.due = s.clk + (first + step * (q + 1)) ∧ e.cur = s.cur ∧ e.act = a q
    (free (.dact h c i8) → ∀ k, (bindsSeen s ch)[i8.toNat / 64 % 2]? = some k →
      let side := if i8.toNat / 128 = 1 then (s.peel k).b else if sideA (s.peel k) ch then (s.peel k).a else (s.peel k).b
      let br := bankRow side (i8.toNat % 64)
      ∃ t, exec (.dact h c i8) s = .next t ∧ SameData s t ∧ t.agenda = s.agenda ∧
        (∀ b, (t.chan ch).rows.get 0 b = if b = br.1 then br.2 + 1 else x.rows.get 0 b) ∧
        (t.chan ch).actRw.get 0 br.1 = max (x.actRw.get 0 br.1) (x.clk + if tower then 48 else 64) ∧
        (t.chan ch).actPre.get 0 br.1 = max (x.actPre.get 0 br.1) (x.clk + if tower then 108 else 152)) ∧
    (free (.drd h c) → ∀ k, binding0 s ch = some k → ∃ t, exec (.drd h c) s = .next t ∧ SameData s t ∧
      rdOf (t.peel k) ch = rdOf (s.peel k) ch + 1 ∧
      beats t (if tower then 60 else 96) (if tower then 3 else 6) (.drdBeatArrival ch k (rdOf (s.peel k) ch)) ∧
      ∀ q < 4, ∃ e ∈ t.agenda, e.clk = .chip ∧ e.due = s.now + (if tower then 63 + 3 * q else 102 + 6 * q) ∧ e.cur = s.cur ∧ e.arg = 1 ∧
        e.act = .drdBeatArrival ch k (rdOf (s.peel k) ch) q) ∧
    (free (.dwr h c) → ∀ k, binding0 s ch = some k → s.timed = false → ∃ t, exec (.dwr h c) s = .next t ∧ SameData s t ∧
      wrOf (t.peel k) ch = wrOf (s.peel k) ch + 1 ∧ (t.ctx s.cur.ctx).touched.getLsbD (chanSlice ch) = true ∧
      beats t ((if tower then 30 else 48) + (s.peel k).late) (if tower then 3 else 6) (.dwrBeatDelivery ch k (wrOf (s.peel k) ch))) ∧
    (free (.dpre h c i4) → ∃ t, exec (.dpre h c i4) s = .next t ∧ SameData s t ∧ t.agenda = s.agenda ∧
      (∀ b, (t.chan ch).rows.get 0 b = if b = i4.toNat then 0 else x.rows.get 0 b) ∧
      (x.rows.get 0 i4.toNat ≠ 0 →
        (t.chan ch).preAct.get 0 i4.toNat = max (x.preAct.get 0 i4.toNat) (x.clk + if tower then 48 else 64))) ∧
    (free (.dprea h c) → ∃ t, exec (.dprea h c) s = .next t ∧ SameData s t ∧ t.agenda = s.agenda ∧
      ∀ b < 16, (t.chan ch).rows.get 0 b = 0) ∧
    (free (.dref h c) → ∃ t, exec (.dref h c) s = .next t ∧ SameData s t ∧ t.agenda = s.agenda ∧
      (t.chan ch).rfc = max x.rfc (x.clk + if tower then 792 else 1008) ∧
      (x.progPhase ≠ 0 → (t.chan ch).progDebt = max (-4) (x.progDebt - 1) ∧ (t.chan ch).overdue = x.overdue)) ∧
    (∀ w ∈ [Instr.dact h c i8, .drd h c, .dwr h c, .dpre h c i4, .dprea h c, .dref h c],
      (cmdHeld s (s.rs c) = true → ∃ t due, exec w s = .next t ∧ SameData s t ∧
        t.waiting = s.waiting ++ [{ id := s.nextId, cur := s.cur, what := .command w ch s.clk due }]) ∧
      (∀ e, cmdHeld s (s.rs c) = false → cmdTrap s (s.rs c) (cmdOf w) = some e → exec w s = .next (s.takeTrap e)))

/-- The ring words enter their event 2 cycles on, SSFIND its result 4 on; the events: a bind makes slot 0 the keyed head, an advance
keys the next free slot and makes it the head, a roll goes back to a key and releases later ones, a fork refers to another sequence's
slot, a drop clears the entry; a fault of the table is a ring trap (R162 to R164, R372 to R376). That a roll ends the fork, and which
slot is meant where two hold one key, is the model's reading (log 45). -/
def Obligations.RingWordsKeepTheTables : Prop :=
  (∀ (s : State) (h : Hd) (x y : BitVec 5) (q : BitVec 4) (a : BitVec 5) (c : BitVec 6), Runs s h →
    let st := s.myStack
    let pos := (s.rs y).toNat % 2 ^ 32
    let enters := fun (w : Instr) (op : RingOp) => (ringCheck s op = none →
        exec w s = .next (withEntry s 2 0 (.deferredAccessPerform { id := 0, op := .ring st op }))) ∧
      (∀ e, ringCheck s op = some e → exec w s = .next (s.takeTrap e))
    (Settled s [.s x.toNat, .s y.toNat] →
      (∀ b, bindBase s x y = .ok b → enters (.ssbind h x y q) (bindOp s y q.toNat b)) ∧
      enters (.ssfork h x y q) (.fork q.toNat ((s.rs x).toNat % 16) pos)) ∧
    (Settled s [.s y.toNat] → enters (.ssadv h y a) (.adv (a.toNat % 16) pos (a.getLsbD 4)) ∧ enters (.ssroll h y q) (.roll q.toNat pos) ∧
      let op := RingOp.find (c.toNat % 16) pos x.toNat (c.toNat / 16) (y == 0#5)
      (ringCheck s op = none → exec (.ssfind h x y c) s = .next (withResult (withEntry (numbered s) 2 0
        (.deferredAccessPerform { id := s.nextId, op := .ring st op })) s.nextId 4 [.s x.toNat 0#64, .p 6 false] 0#5))) ∧
    enters (.ssdrop h q) (.drop q.toNat)) ∧
  (∀ (s : State) (st : Nat) (op : RingOp),
    ∃ t, exec (.deferredAccessPerform { id := 0, op := .ring st op }) s = .next t ∧ SameData s t ∧
      (t.stackAt st).rings = ringDo (s.stackAt st).rings op) ∧
  (∀ (t : Tbl Ring) (q base sb ns key job : Nat) (w : Bool), let r := ringOf (ringDo t (.bind q base sb ns key job w)) q
    r.v = true ∧ r.job = job ∧ r.world = w ∧ r.head = 0 ∧ r.base = base ∧ (r.slot 0).valid = true ∧
      (r.slot 0).key = BitVec.ofNat 32 key ∧ ∀ i, i ≠ 0 → (r.slot i).valid = false) ∧
  (∀ (t : Tbl Ring) (q pos i : Nat) (pin : Bool), (ringOf t q).next = some i →
    let r := ringOf (ringDo t (.adv q pos pin)) q
    r.head = i ∧ r.forked = false ∧ (r.slot i).valid = true ∧ (r.slot i).key = BitVec.ofNat 32 pos ∧ (r.slot i).pin = pin ∧
      ∀ j, j ≠ i → r.slot j = (ringOf t q).slot j) ∧
  (∀ (t : Tbl Ring) (q pos i : Nat), (ringOf t q).keyed pos = some i → let r := ringOf (ringDo t (.roll q pos)) q
    r.head = i ∧ r.forked = false ∧ ∀ j ≤ (ringOf t q).nslot, let old := (ringOf t q).slot j
      (r.slot j).valid = (old.valid && !(decide (pos % 2 ^ 32 < old.key.toNat) && !old.pin && decide (old.ref = 0)))) ∧
  (∀ (t : Tbl Ring) (q src pos i : Nat), (ringOf t src).keyed pos = some i →
    let u := ringDo t (.fork q src pos)
    (ringOf u q).forked = true ∧ (ringOf u q).fseq = src ∧ (ringOf u q).fslot = i ∧
      ((ringOf u src).slot i).ref = ((ringOf t src).slot i).ref + 1) ∧
  (∀ (t : Tbl Ring) (q : Nat), ringOf (ringDo t (.drop q)) q = Ring.init) ∧
  (∀ (t : Tbl Ring) (job : Nat) (w : Bool) (op : RingOp), ringTrap t job w op ∈ [none, some .ringFault, some .world, some .translation])

/-- The G-ops: with an aligned address that a window of another module translates and no trap, a relaxed one takes a free entry of its
core's table, kept with its kind, its global address and its destination, and no register and no byte changes yet; a full table or an
outstanding acquire makes an untimed one wait, a release of an untimed context waits for its condition, and both keep the place they
translated to; a missing translation waits for its walk; an address that fails traps (R159, R166, R220, R221, R377 to R382). Which
permissions GACQ and GREL need (log 46), and that no stores are merged (log 119), are the model's. -/
def Obligations.GlobalWordsTakeAnEntry : Prop :=
  ∀ (s : State) (h : Hd) (x y : BitVec 5) (c2 : BitVec 2) (c6 : BitVec 6) (x3 : BitVec 3) (c4 : BitVec 4), Runs s h →
    Settled s [.s y.toNat] →
    let calm := fun (t : State) => SameBytes s t ∧
      ∀ a b, (t.core a b).s = (s.core a b).s ∧ (t.core a b).v = (s.core a b).v ∧ (t.core a b).p = (s.core a b).p
    let waits := fun (t : State) (what : WaitWhat) => t.waiting = s.waiting ++ [{ id := s.nextId, cur := s.cur, what := what }]
    let does := fun (w : Instr) (kind len dest : Nat) (data : List Reg) =>
      ∃ q, gReqOf w (gVals s w) = some q ∧ q.kind = kind ∧ q.len = len ∧ q.align = len ∧ q.addr = s.rs y ∧ q.dest = dest ∧
        (∀ e, gAddrTrap s false q = some e → exec w s = .next (s.takeTrap e)) ∧
        (gAddrTrap s false q = none → (q.stepped = true → s.timed = true) → Settled s data → gBusyTrap s q = none →
          (∀ p, gPlace s false q = .ok p →
            let tags := s.tagOf q.addr.toNat
            ((q.rel = false ∨ s.timed = true) → gBlocked s q p = false → ∃ t i, exec w s = .next t ∧ s.gFree s.cur.ctx s.cur.col = some i ∧
              calm t ∧ let g := t.gent (gKey s.cur.ctx s.cur.col i)
              g.state = 1#2 ∧ g.kind = BitVec.ofNat 8 kind ∧ g.gaddr = BitVec.ofNat 64 (p.module * 2 ^ 48 + p.phys) ∧ g.dest = dest ∧
                g.vec = q.vec ∧ g.beats = (len + 63) / 64) ∧
            ((q.rel = false ∨ s.timed = true) → gBlocked s q p = true → ∃ t, exec w s = .next t ∧ calm t ∧
              waits t (.gop w (gVals s w) p.module p.phys tags)) ∧
            (q.rel = true → s.timed = false → ∃ t, exec w s = .next t ∧ calm t ∧
              waits t (.grel w (gVals s w) p.module p.phys tags (touchedWrites s s.cur.ctx)) ∧
              ∃ e ∈ t.agenda, e.due = s.clk + 1 ∧ e.cur = s.cur ∧ e.arg = s.nextId ∧ e.act = .releasePerform)) ∧
          (gPlace s false q = .error none → ∃ t, exec w s = .next t ∧ calm t ∧ waits t (.walk w (gWalkVals s (gVals s w) q))))
    let n := if c2.getLsbD 0 then 4096 else 8
    does (.gld h x y c2) 0 n (if c2.getLsbD 0 then x.toNat % 16 else x.toNat) [] ∧
    does (.gst h x y c2) 1 n 0 [if c2.getLsbD 0 then .v (x.toNat % 16) else .s x.toNat] ∧
    does (.gacq h x y) 5 8 x.toNat [] ∧ does (.grel h x y) 6 8 0 [.s x.toNat] ∧
    does (.gamo h x y c6) 2 (if c6.getLsbD 3 then 8 else 4) x.toNat
      ([.s x.toNat] ++ if c6.toNat % 8 = 7 then [.s (x.toNat + 1)] else []) ∧
    does (.gmrg h x3 y c4) 3 512 0 [.v (2 * x3.toNat), .v (2 * x3.toNat + 1), .s (y.toNat + 1)]

/-- SEND, RECV, XROT, VFPUSH, VFPOP, VFFREE and the step-timed forms of XCH, GLD and GST need TIMED = 1: with TIMED = 0 each that meets no
earlier check takes a schedule fault of subcode 9, "untimed use of a timed operation", at the instruction, and no register and no byte
changes (R24). -/
def Obligations.TimedOperationsNeedTimed : Prop :=
  ∀ (s : State) (h : Hd) (x y : BitVec 5) (v r4 : BitVec 4) (c : BitVec 5) (c6 : BitVec 6) (c2 : BitVec 2) (f : Nat) (a : Side),
    Runs s h → s.timed = false →
    let traps := fun (i : Instr) => ∃ t, exec i s = .next t ∧ t = s.takeTrap (.sched 9) ∧ SameData s t
    let ends := partnerTrap s (if dieOf s.cur.ctx = 0 then crownP s.myStack else brimP s.myStack) = none ∧ isQ s.cur.ctx = false ∨
      isQ s.cur.ctx = true ∧ (s.ctx (brimP s.myStack)).job ≠ 0 ∧ (s.ctx (brimP s.myStack)).job = (s.ctx (crownP s.myStack)).job
    (Settled s [.s x.toNat] → s.ownAddr (s.rs x) 4096 = .ok f → partnerTrap s (clusterP s (c.getLsbD 4)) = none → traps (.send h x c)) ∧
    traps (.recv h v c) ∧
    (s.cur.col = 0 → Settled s [.s x.toNat] → s.peelTrap = none → rotSide s (s.rs x) = .ok a → traps (.xrot h x)) ∧
    (ends → traps (.vfpush h v r4) ∧ traps (.vfpop h v r4) ∧ traps (.vffree h x)) ∧
    (Settled s [.s x.toNat, .s y.toNat] → ∀ pl, s.xchPlan false 1 (s.rs x) (s.rs y) c6.toNat = .ok pl → pl.stepped = true → s.peelTrap = none →
      (∀ l, pl.a = .d l ∨ pl.b = .d l → ∀ m ∈ l, s.linkTrap s.myCtx.world m.1 = none) →
      traps (.xch h x y c6)) ∧
    (c2.getLsbD 1 = true → Settled s [.s y.toNat] →
      (∀ q p, gReqOf (.gld h x y c2) (gVals s (.gld h x y c2)) = some q → gPlace s false q = .ok p →
        s.linkTrap s.myCtx.world p.module = none → traps (.gld h x y c2)) ∧
      (Settled s [if c2.getLsbD 0 then .v (x.toNat % 16) else .s x.toNat] → ∀ q p, gReqOf (.gst h x y c2) (gVals s (.gst h x y c2)) = some q → gPlace s false q = .ok p →
        s.linkTrap s.myCtx.world p.module = none → traps (.gst h x y c2)))

/-! ### System words (R25, R61 to R80, R386 to R399) -/

/-- The system words of the row: SYSCALL and TRAPI take traps 0x0E and 0x0D that a continue goes past; FENCE passes in a timed context once
its scope is done, else traps, and in an untimed one begins the row's wait; REALIGN and WAITK wait for a tick or step; HALT ends the row 30
cycles on, when core 15 executes it; YIELD idles P and lets a waiting Q go on; the header does nothing at execution (R25, R218, R224, R231,
R258, R389 to R393, R398, R399). What each scope of FENCE covers beyond the table of R224 is the model's reading (log 57). -/
def Obligations.SystemWords : Prop :=
  ∀ (s : State) (h : Hd) (a b : BitVec 5) (i : BitVec 11) (d : BitVec 10) (g : Bool),
    (s.myCtx.job ≠ 0 → exec (.hdr g d) s = .next s) ∧
    (RunsHead s h →
      (∀ w cause, (w, cause) ∈ [(Instr.syscall h i, 14), (.trapi h i, 13)] →
        (s.myCtx.past ≠ some s.cur.seq → exec w s = .next (s.takeTrap { cause := cause, sub := 0, past := true })) ∧
        (s.myCtx.past = some s.cur.seq → exec w s = .next (inCtx s s.cur.ctx fun x => { x with past := none }))) ∧
      exec (.realign h) s = .next (inCtx s s.cur.ctx fun x => { x with wait := .realign x.rowoff.toNat }) ∧
      (Settled s [.s a.toNat] → exec (.waitk h a b) s = .next (inCtx s s.cur.ctx fun x =>
        { x with wait := if b.getLsbD 0 then .waitStep (s.rs a) x.rowoff.toNat else .waitTick (s.rs a) x.rowoff.toNat })) ∧
      exec (.halt h) s = .next (inCtx s s.cur.ctx fun x => { x with haltAt := some (s.clk + 30) }) ∧
      (isQ s.cur.ctx = true → exec (.yield h i) s = .next (inCtx s s.cur.ctx fun x => { x with wait := .yield i.toNat })) ∧
      (isQ s.cur.ctx = false → ∃ t, exec (.yield h i) s = .next t ∧ t.cores = s.cores ∧ t.mem = s.mem ∧ t.agenda = s.agenda ∧
        (t.ctx s.cur.ctx).due = s.clk + 1 + i.toNat ∧
        (∀ n, (s.ctx (s.cur.ctx + 1)).wait = .yield n →
          (t.ctx (s.cur.ctx + 1)).wait = .none ∧ (t.ctx (s.cur.ctx + 1)).due = s.clk + 1 + i.toNat))) ∧
    (Runs s h → s.timed = true →
      (fenceDone s s.cur b.toNat s.mark = true → exec (.fence h b) s = .next s) ∧
      (fenceDone s s.cur b.toNat s.mark = false → exec (.fence h b) s = .next (s.takeTrap (.sched 10)))) ∧
    (Runs s h → s.timed = false →
      let waits := if s.cur.col = 0 then inCtx s s.cur.ctx fun x => { x with wait := .fence b.toNat s.clk [] } else s
      exec (.fence h b) s = .next (withEntry waits 0 (8 * s.mark + b.toNat) .fenceRelease))

/-- The control-register words: GETC reads each register of R60; SETC, SETB and CLRB write the RW bits of their registers 1 cycle on and
leave the others, a write of a read-only one changes nothing, and SSTEP, RETRYLIM and PGATE trap outside privilege; a number that names
no register is illegal whatever the guard holds. A DIGEST that writes to other modules without an answer may have changed is open (log
42). LAUNCH, privileged, reads its record at once and lands its outcome 40 cycles on (R60 to R80, R394 to R397). -/
def Obligations.ControlRegisterWords : Prop :=
  (∀ (s : State) (h : Hd) (d : BitVec 5) (i : BitVec 11), s.myCtx.job ≠ 0 → ctlExists i.toNat = false →
    ∀ w ∈ [Instr.getc h d i, .setc h d i, .setb h d i, .clrb h d i], exec w s = .next (s.takeTrap .illegal)) ∧
  ∀ (s : State) (h : Hd) (d a b : BitVec 5) (i : BitVec 11), Runs s h →
    let n := i.toNat
    let x := s.myCtx
    let k := s.me
    let one := fun (b : Bool) => if b then 1 else 0
    let st := s.stackAt s.myStack
    let reads := [(0x003, k.flags.setWidth 64), (0x004, k.round.setWidth 64), (0x010, s.cycleBase + BitVec.ofNat 64 s.now),
      (0x011, (s.part (s.job x.job).part).tick), (0x012, (s.part (s.job x.job).part).step), (0x013, x.rowoff.setWidth 64),
      (0x020, (s.stackAt s.myStack).win.setWidth 64), (0x030, k.randKey.setWidth 64), (0x031, (k.randKey >>> 64).setWidth 64),
      (0x032, k.randPos), (0x040, (s.job x.job).digestPrev), (0x041, x.touched.setWidth 64),
      (0x050, if x.sstep then 1#64 else 0#64), (0x051, x.retrylim.setWidth 64), (0x060, x.trapinfo),
      (0x001, BitVec.ofNat 64 (x.job % 2 ^ 32 + x.queue.toNat * 2 ^ 32 + one (isQ s.cur.ctx) * 2 ^ 38)),
      (0x002, BitVec.ofNat 64 (one s.timed + 2 * one (isQ s.cur.ctx) + 4 * one x.world + 8 * one x.priv + 16 * one x.res +
        256 * x.prio.toNat)),
      (0x021, BitVec.ofNat 64 (one (s.cmode.get false (rowNo s.cur.ctx)))),
      (0x052, BitVec.ofNat 64 (one st.crown.req + 2 * one st.whole.req + 256 * one st.crown.gated + 512 * one st.whole.gated))] ++
      (List.range 8).map fun j => (0x070 + j, x.args.get 0#64 j)
    let writes := [(0x003, 0x1F#64, false), (0x004, 7#64, false), (0x013, 0xFF#64, true), (0x050, 1#64, true), (0x051, 7#64, true)] ++
      (List.range 8).map fun j => (0x070 + j, BitVec.allOnes 64, true)
    let lands := fun (w : Instr) (clear set : Word) => exec w s = .next (withResult s 0 1 [.ctl n clear set] 0#5)
    (∀ v, (n, v) ∈ reads → (n = 0x040 → digestOpen s = false) → exec (.getc h d i) s = .next (withResult s 0 1 [.s d.toNat v] 0#5)) ∧
    (n = 0x040 → digestOpen s = true → ∃ v t, exec (.getc h d i) s = .next t ∧ SameData s t ∧ Lands s t 1 0 [.s d.toNat v] 0#5) ∧
    (n = 0x000 → exec (.getc h d i) s = .next (withResult s 0 1 [.s d.toNat (BitVec.ofNat 64
      (s.module.toNat * 2 ^ 17 + s.myStack % 256 * 2 ^ 9 + dieOf s.cur.ctx % 2 * 2 ^ 8 + rowNo s.cur.ctx * 2 ^ 4 + s.cur.col % 16))] 0#5)) ∧
    (Settled s [.s d.toNat] → ∀ rw head, (n, rw, head) ∈ writes → (n = 0x050 ∨ n = 0x051 → x.priv = true ∨ s.cur.col ≠ 0) →
      ((head = false ∨ s.cur.col = 0) → lands (.setc h d i) rw (s.rs d &&& rw) ∧ lands (.setb h d i) 0#64 (s.rs d &&& rw) ∧
        lands (.clrb h d i) (s.rs d &&& rw) 0#64) ∧
      (head = true → s.cur.col ≠ 0 → exec (.setc h d i) s = .next s ∧ exec (.setb h d i) s = .next s ∧ exec (.clrb h d i) s = .next s)) ∧
    (Settled s [.s d.toNat] → n ∈ [0x000, 0x001, 0x010, 0x011, 0x012, 0x040, 0x060] →
      exec (.setc h d i) s = .next s ∧ exec (.setb h d i) s = .next s ∧ exec (.clrb h d i) s = .next s) ∧
    (x.priv = false → s.cur.col = 0 → n ∈ [0x050, 0x051, 0x052] → ∀ w ∈ [Instr.setc h d i, .setb h d i, .clrb h d i],
      exec w s = .next (s.takeTrap .privileged)) ∧
    (s.cur.col = 0 → x.priv = false → exec (.launch h d a b) s = .next (s.takeTrap .privileged)) ∧
    (s.cur.col = 0 → ∀ f, s.ownAddr (s.rs a) 256 = .ok f → launchTrap s a b = none → ∃ t, exec (.launch h d a b) s = .next t ∧
      SameData s t ∧ Enters s t 0 s.nextId (.launch f (s.rs b).toNat d.toNat) ∧ Lands s t 40 s.nextId [.s d.toNat 0#64] 0#5)

/-! ### Traps (R118, R231 to R249) -/

/-- A trap freezes every context of its job, writes TRAPINFO, drops all that was due and keeps it in the frozen records, and its save
completes within 6,000 chip cycles of the freeze; registers and memory stay. A world violation shows CAUSE 0xFF only and is logged. The
timing guard reports the lowest failing subcode, and of the traps of a cycle the first of the order of R234 is taken (R79, R118, R169,
R233 to R235, R245, R249). That a save takes 512 chip cycles at least is the model's choice (log 6), and so is its reading of what goes on
through a freeze: the beats and write statuses of bursts issued before F (log 13). -/
def Obligations.TrapsFreezeTheJob : Prop :=
  (∀ (s : State) (e : Trap), let t := s.takeTrap e
    Trapped s t e.cause e.sub e.past ∧ SameData s t ∧ (s.probe = false → s.myCtx.job ≠ 0 → s.myCtx.frz = none →
      (e.cause = 6 → (t.ctx s.cur.ctx).trapinfo = 0xFF#64 ∧ ∃ n x, t.secLog = Log.add s.secLog 256 n x) ∧
      (∃ d ∈ t.agenda, d.clk = .chip ∧ s.now + 512 ≤ d.due ∧ d.due ≤ s.now + 5999 ∧ d.arg = s.myCtx.job ∧ d.act = .preemptSaveComplete) ∧
      ∀ c < 64, (s.ctx c).job = s.myCtx.job → (s.ctx c).frz = none →
        (∀ d ∈ t.agenda, d.cur.ctx = c → d.cur ≠ Cursor.none → runsOn d = true) ∧
        ∃ z, (t.ctx c).frz = some z ∧ ∀ d ∈ s.agenda, d.cur.ctx = c → d.cur ≠ Cursor.none → runsOn d = false →
          d.act ∉ [.singleStepTrap, .jobRestart, .programRefreshDebtWrap, .randomQueueRefill] → ∃ n, (n, d) ∈ z.items)) ∧
  (∀ (s : State) (ch : Nat) (c : Cmd) (k : Nat),
    guardTrap s ch c = some (.timing k) ↔ k ∈ guardFails s ch c ∧ ∀ j ∈ guardFails s ch c, k ≤ j) ∧
  (∀ (l : List Found) (f : Found), firstFound l = some f → f ∈ l ∧ ∀ g ∈ l, Found.before g f = false)

/-! ### Events of a core (R58, R61, R62, R71 to R75, R145, R390) -/

/-- The writes of RANDKEY, RANDPOS, AMODE, CMODE, TOUCHED and PGATE enter their step 1 cycle on; control-register writes that land change
the RW bits given, reserved values of ROUND and RETRYLIM are ignored; the steps: a pending shape becomes the register, a half of the key
or the position changes and the queue of random rows empties, a refill adds one row up to 32, bits of TOUCHED clear at once or with the
last acknowledgement, WIN changes and takes effect at a frame-clock multiple of 64 as the core sees that clock, CMODE changes; the last
core's report ends a FENCE (R46, R58, R61, R62, R66 to R68, R70 to R78, R337, R390). A write whose port is taken lands one cycle later
(R47). That SETB cancels a clear of TOUCHED that still waits, and which writes a clear waits for, is the model's reading (log 58). -/
def Obligations.CoreEventsTakeEffect : Prop :=
  (∀ (s : State) (h : Hd) (d : BitVec 5), Runs s h → Settled s [.s d.toNat] →
    let x := s.rs d
    let st := s.myStack
    let puts := fun (n : BitVec 11) (m : Word) (f : Word → Word → State) =>
      exec (.setc h d n) s = .next (f m (x &&& m)) ∧ exec (.setb h d n) s = .next (f 0#64 (x &&& m)) ∧
      exec (.clrb h d n) s = .next (f (x &&& m) 0#64)
    puts 0x030#11 (BitVec.allOnes 64) (fun a b => withEntry s 1 0 (.randkeyWrite false a b)) ∧
    puts 0x031#11 (BitVec.allOnes 64) (fun a b => withEntry s 1 0 (.randkeyWrite true a b)) ∧
    puts 0x032#11 (BitVec.allOnes 64) (fun a b => withEntry s 1 0 (.randposWrite a b)) ∧
    (dieOf s.cur.ctx ≠ 1 → isQ s.cur.ctx = false → stackWorldBad s st false = false → puts 0x020#11 3#64 fun a b =>
      withEntry s 1 0 (.amodeWrite (((s.stackAt st).win &&& ~~~(a.setWidth 2)) ||| b.setWidth 2))) ∧
    (isQ s.cur.ctx = false → s.cur.col = 0 → puts 0x021#11 1#64 fun a b =>
      withEntry s 1 0 (.cmodeWrite ((s.cmode.get false (rowNo s.cur.ctx) && !a.getLsbD 0) || b.getLsbD 0))) ∧
    (s.cur.col = 0 → puts 0x041#11 0x7FFFFFFFF#64 fun a b =>
      withEntry (withResult s 0 1 [.ctl 0x041 0#64 b] 0#5) 1 s.mark (.touchedClear ((a &&& ~~~b).setWidth 35))) ∧
    (s.myCtx.priv = true → stackWorldBad s st (x.getLsbD 1) = false → stackWorldBad s st false = false → puts 0x052#11 3#64 fun a b =>
      let one := fun (t : State) (i : Nat) (on off : Instr) =>
        if b.getLsbD i then withEntry t 1 st on else if a.getLsbD i then withEntry t 1 st off else t
      one (one s 0 .pgateCreqSet .pgateCreqClear) 1 .pgateSreqSet .pgateSreqClear)) ∧
  (∀ (s : State) (id port n delay : Nat) (a b : Word),
    let f : Flight := { id := id, port := port, writes := [.ctl n a b], flags := 0#5, delay := delay, reply := false, fifo := false }
    portTaken s (portKey s.cur port) (portRank s.cur.ctx (decide (delay ≠ 0))) = true →
    ∃ t, exec (.resultLanding f) s = .next t ∧ SameData s t ∧ ∃ e ∈ t.agenda, e.cur = s.cur ∧ e.due = s.clk + 1 ∧
      e.act = .resultLanding { f with delay := delay + 1 }) ∧
  (∀ (s : State) (id port n delay : Nat) (a b : Word),
    portTaken s (portKey s.cur port) (portRank s.cur.ctx (decide (delay ≠ 0))) = false → ∃ t,
    exec (.resultLanding { id := id, port := port, writes := [.ctl n a b], flags := 0#5, delay := delay, reply := false, fifo := false }) s = .next t ∧
    SameBytes s t ∧
    let new := fun (w : Nat) (old : BitVec w) => (old &&& ~~~(a.setWidth w)) ||| b.setWidth w
    (n = 0x002 → t.myCtx.res = (s.myCtx.res && !a.getLsbD 4)) ∧ (n = 0x003 → t.me.flags = new 5 s.me.flags) ∧
    (n = 0x004 → t.me.round = if 5 ≤ (new 3 s.me.round).toNat then s.me.round else new 3 s.me.round) ∧
    (n = 0x013 → t.myCtx.rowoff = new 8 s.myCtx.rowoff) ∧
    (n = 0x041 → ∀ i < 35, t.myCtx.touched.getLsbD i = (s.myCtx.touched.getLsbD i || b.getLsbD i)) ∧
    (n = 0x050 → t.myCtx.sstep = ((s.myCtx.sstep && !a.getLsbD 0) || b.getLsbD 0)) ∧
    (n = 0x051 → t.myCtx.retrylim = if new 3 s.myCtx.retrylim = 0#3 then s.myCtx.retrylim else new 3 s.myCtx.retrylim) ∧
    (∀ j < 8, n = 0x070 + j → t.myCtx.args.get 0#64 j = new 64 (s.myCtx.args.get 0#64 j))) ∧
  (∀ (s : State) (hi : Bool) (a b : Word) (bits : BitVec 35) (win : BitVec 2) (mode : Bool),
    let k := s.me
    let x := s.myCtx
    let st := s.myStack
    (∃ t, exec .mshapeTakeEffect s = .next t ∧ SameBytes s t ∧ (∀ n, t.me.h.get 0#128 n = s.rh n) ∧
      ∀ p, p ∈ t.me.pendH ↔ p ∈ k.pendH ∧ s.cur.seq < p.2.2) ∧
    (∃ t, exec (.randkeyWrite hi a b) s = .next t ∧ SameBytes s t ∧ t.me.randFill = 0 ∧ t.me.randPos = k.randPos ∧
      ∀ i < 64, t.me.randKey.getLsbD (if hi then 64 + i else i) =
          ((k.randKey.getLsbD (if hi then 64 + i else i) && !a.getLsbD i) || b.getLsbD i) ∧
        t.me.randKey.getLsbD (if hi then i else 64 + i) = k.randKey.getLsbD (if hi then i else 64 + i)) ∧
    (∃ t, exec (.randposWrite a b) s = .next t ∧ SameBytes s t ∧ t.me.randFill = 0 ∧ t.me.randKey = k.randKey ∧
      t.me.randPos = (k.randPos &&& ~~~a) ||| b) ∧
    (∃ t, exec .randomQueueRefill s = .next t ∧ SameBytes s t ∧ t.me = { k with randFill := max k.randFill (min 32 (k.randFill + 1)) }) ∧
    (∃ t, exec (.touchedClear bits) s = .next t ∧ SameData s t ∧ ∀ i < 35,
      t.myCtx.touched.getLsbD i = (x.touched.getLsbD i && !(bits.getLsbD i && x.unacked.all fun u => u.slice != i)) ∧
      (bits.getLsbD i = true → (∃ u ∈ x.unacked, u.slice = i) → (∀ u ∈ x.unacked, u.slice = i → u.id < s.arg) →
        (i, (x.unacked.filter fun u => u.slice == i).map Unacked.id) ∈ t.myCtx.clears)) ∧
    (∃ t, exec .touchedBitClear s = .next t ∧ SameData s t ∧ ((s.arg, []) ∈ x.clears → (s.arg, []) ∉ t.myCtx.clears ∧
      ∀ i < 35, t.myCtx.touched.getLsbD i = (x.touched.getLsbD i && i != s.arg))) ∧
    (win ≠ 3#2 → ∃ t n, exec (.amodeWrite win) s = .next t ∧ SameData s t ∧ (t.stackAt st).win = win ∧
      (t.stackAt st).force = (s.stackAt st).force ∧ n < 64 ∧ (s.frame0 s.cur.ctx s.cur.col + (n : Nat)) % 64 = 0 ∧
      ∃ e ∈ t.agenda, e.clk = .part (s.partOf s.cur.ctx) ∧ e.due = s.partClk (s.partOf s.cur.ctx) + n ∧ e.arg = st ∧
        e.act = .amodeWindowChange) ∧
    (∃ t, exec (.amodeWrite 3#2) s = .next t ∧ t = { s with ports_ := t.ports_ }) ∧
    (∃ t, exec .amodeWindowChange s = .next t ∧ SameData s t ∧ (t.stackAt s.arg).force = (s.stackAt s.arg).win ∧
      (t.stackAt s.arg).win = (s.stackAt s.arg).win) ∧
    (∃ t, exec (.cmodeWrite mode) s = .next t ∧ SameData s t ∧
      ∀ r, t.cmode.get false r = if r = rowNo s.cur.ctx then mode else s.cmode.get false r)) ∧
  (∀ (s : State) (sc i : Nat) (done : List (Nat × Nat)), s.myCtx.wait = .fence sc i done →
    s.arg % 8 = 7 ∨ fenceDone s s.cur (s.arg % 8) (s.arg / 8) = true →
    ∃ t, exec .fenceRelease s = .next t ∧ SameData s t ∧
      ((∀ w ∈ s.waiting, ¬ (w.cur.ctx = s.cur.ctx ∧ w.cur.col = s.cur.col)) → t.agenda = s.agenda) ∧
      (done.length < 15 → t.myCtx.wait = .fence sc i (done ++ [(s.cur.col, s.clk - 2 * s.cur.col)])) ∧
      (15 ≤ done.length → t.myCtx.wait = .none ∧
        ∀ d ∈ done ++ [(s.cur.col, s.clk - 2 * s.cur.col)], d.2 + 33 ≤ t.myCtx.due)) ∧
  (∀ s : State, s.arg % 8 ≠ 7 → fenceDone s s.cur (s.arg % 8) (s.arg / 8) = false →
    ∃ t, exec .fenceRelease s = .next t ∧ SameData s t ∧ ∃ e ∈ t.agenda, e.due = s.clk + 1 ∧ e.cur = s.cur ∧ e.arg = s.arg ∧
      e.act = .fenceRelease)

/-! ### Exchanges under way (R90, R93 to R101, R354, R362, R366, R367) -/

/-- With memory in canonical form and no uncorrectable codeword or metadata in the way, a beat of an exchange between scratchpads swaps 64
bytes and nothing else; four cross a cycle; the last of a block
trades the version words and steps the tags, the last of all completes the exchange a cycle later; a beat of XROT moves one stack on; a
pair of an XCHT lands transformed; completion clears locks, bindings and the engine; one that waited starts when nothing blocks it. A row
that a RECV expects enters its result, one that none expects and a missing row 0 are unmatched receives (R87, R90, R93, R94, R97, R100,
R101, R354, R366, R367). A crossing of an untimed context whose bank is not to be had waits a cycle, and what its exchange has still to do
with it (R18, R104, R105). Rows 1 to 15 that do not come leave their rows unwritten and trap nothing (log 47), and an unmatched receive
stands at the bundle the receiving core executed last (log 48): the model's readings. -/
def Obligations.ExchangesMoveTheirBlocks : Prop :=
  (∀ s : State,
    let k := s.myPeel s.arg
    let p := s.peel k
    let i := p.ptr
    let aA := sideAddr p.a (i / 64) + 64 * (i % 64)
    let aB := sideAddr p.b (i / 64) + 64 * (i % 64)
    p.state ≠ 1 →
    (Memory.wf s.mem = true → p.kind = 1 → p.pair = [] → s.badRows aA 64 = [] → s.badRows aB 64 = [] → (aA + 64 ≤ aB ∨ aB + 64 ≤ aA) →
      (s.timed = true ∨ i % 4 ≠ 0 ∨ crossWait s k (pairBanks p (i / 64)) = 0) → (∀ q ∈ beatMetas p i, s.metaBad q = false) →
      ∃ t, exec .exchangeBeatCrossing s = .next t ∧ t.cores = s.cores ∧ (t.peel k).ptr = i + 1 ∧
        (∀ j < 64, t.byte (aA + j) = s.byte (aB + j) ∧ t.byte (aB + j) = s.byte (aA + j)) ∧
        (∀ x, (x < aA ∨ aA + 64 ≤ x) → (x < aB ∨ aB + 64 ≤ x) → t.byte x = s.byte x) ∧
        (i % 64 = 63 → p.a.isS = true → p.b.isS = true → p.a.place (i / 64) ≠ p.b.place (i / 64) →
          ∀ q r, (q, r) ∈ [(p.a.place (i / 64), p.b.place (i / 64)), (p.b.place (i / 64), p.a.place (i / 64))] →
            (t.slot q).version = (s.slot r).version ∧ (t.slot q).tag = (s.slot q).tag + 1#8) ∧
        ∃ e ∈ t.agenda, e.cur = s.cur ∧ e.arg = s.arg ∧
          (i + 1 = 64 * p.n → e.due = s.clk + 1 ∧ e.act = .exchangeComplete) ∧
          (i + 1 ≠ 64 * p.n → e.due = s.clk + (if i % 4 = 3 then 1 else 0) ∧ e.act = .exchangeBeatCrossing)) ∧
    (p.kind = 1 → p.pair = [] → s.timed = false → i % 4 = 0 → 0 < crossWait s k (pairBanks p (i / 64)) →
      ∃ t, exec .exchangeBeatCrossing s = .next t ∧ SameData s t ∧ (t.peel k).ptr = i ∧ (t.peel k).late = p.late + 1 ∧
        (∃ e ∈ t.agenda, e.cur = s.cur ∧ e.arg = s.arg ∧ e.due = s.clk + 1 ∧ e.act = .exchangeBeatCrossing) ∧
        ∀ e ∈ s.agenda, e.act = .exchangeComplete → 2 * coreKey e.cur.ctx e.cur.col + e.arg = k → { e with due := e.due + 1 } ∈ t.agenda) ∧
    (∀ st b, Memory.wf s.mem = true → p.kind = 4 → p.pair = [] → p.a = .s st b → s.timed = true →
      let at_ := fun (c : Nat) => 4096 * (6144 * (st / 16 * 16 + c) + b) + 64 * i
      (∀ c < 16, s.badRows (at_ c) 64 = []) → (∀ q ∈ beatMetas p i, s.metaBad q = false) → ∃ t, exec .exchangeBeatCrossing s = .next t ∧ t.cores = s.cores ∧
        (∀ c < 16, ∀ j < 64, t.byte (at_ ((c + 1) % 16) + j) = s.byte (at_ c + j)) ∧
        ∀ x, (∀ c < 16, x < at_ c ∨ at_ c + 64 ≤ x) → t.byte x = s.byte x) ∧
    (p.kind = 3 → (s.timed = true ∨ crossWait s k (pairBanks p (i / 64)) = 0) →
      let dA := sideAddr p.a (i / 64)
      let dB := sideAddr p.b (i / 64)
      (dA + 4096 ≤ dB ∨ dB + 4096 ≤ dA) →
      let read := fun (f : Nat × BitVec 512 × BitVec 512 → BitVec 512) =>
        (p.pair.take 64).foldr (fun b acc => (f b).toNat + 2 ^ 512 * acc) 0
      ∃ t, exec .xchtPairLanding s = .next t ∧ t.cores = s.cores ∧ (t.peel k).ptr = 64 * (i / 64 + 1) ∧
        t.load dA 4096 = xform p.micro 0 (read fun b => b.2.2) % 2 ^ 32768 ∧
        t.load dB 4096 = xform p.micro 1 (read fun b => b.2.1) % 2 ^ 32768 ∧
        ∀ x, (x < dA ∨ dA + 4096 ≤ x) → (x < dB ∨ dB + 4096 ≤ x) → t.byte x = s.byte x)) ∧
  (∀ s : State, let k := s.myPeel s.arg
    ∃ t, exec .exchangeComplete s = .next t ∧ SameData s t ∧ t.peel k = Peel.init ∧
      (∀ q ∈ xchSlots (s.peel k), (t.slot q).lock = false) ∧ ∀ ch ∈ peelChans (s.peel k), k ∉ (t.chan ch).binds) ∧
  (∀ (s : State) (w : Waiting) (p : Peel) (k : Nat), s.waiting.find? (fun w => w.id == s.arg) = some w → w.what = .exchange p k →
    (s.xchBlocked k p = true → exec .exchangeDeferredStart s = .next s) ∧
    (s.xchBlocked k p = false → ∃ t, exec .exchangeDeferredStart s = .next t ∧ SameData s t ∧ (t.peel k).kind = p.kind ∧
      (t.peel k).start = s.clk ∧ (t.peel k).base = s.clk + 6 + pathOf p.a p.b ∧ (∀ q ∈ xchSlots p, (t.slot q).lock = true) ∧
      ∀ v ∈ t.waiting, v.id ≠ s.arg)) ∧
  (∀ (s : State) (ctx col hop die n : Nat) (row : Row),
    let u := { s with cur := { s.cur with ctx := ctx, col := col, slot := .nowhere, bundle := s.lastBundleOf ctx col } }
    let meets := s.ports_.contains (8 * coreNo ctx col + 6) = true ∨ arrivals u ≠ []
    (∀ e, ¬ meets → expects u hop die n = some e → ∃ t, exec (.recvRowArrival ctx col hop die n row) s = .next t ∧ SameData s t ∧
      e ∉ t.agenda ∧ ∀ d ∈ s.agenda, ∀ f r m x, d.act = .resultLanding f → f.id = e.arg / 512 → f.id ≠ 0 → f.writes = [.v r m x] →
        d.ord ≠ e.ord → { d with act := .resultLanding { f with writes :=
          [.v r (m ||| (BitVec.allOnes 2048).setWidth 32768 <<< (2048 * n)) (x ||| row.setWidth 32768 <<< (2048 * n))] } } ∈ t.agenda) ∧
    (¬ meets → expects u hop die n = none →
      exec (.recvRowArrival ctx col hop die n row) s = .next (u.takeDeferred u.cur .nowhere 3 7)) ∧
    (meets → exec (.recvRowArrival ctx col hop die n row) s =
      .next ((((hop, die, n) :: arrivals u).filterMap fun a => (expects u a.1 a.2.1 a.2.2).map fun e => e.arg / 512).foldl abandonRecv
        (u.takeDeferred u.cur .nowhere 3 7)))) ∧
  (∀ s : State, (s.arg % 16 ≠ 0 → exec .recvRowMissing s = .next s) ∧
    (s.arg % 16 = 0 → ∃ t, exec .recvRowMissing s = .next t ∧ SameData s t ∧
      (∀ e ∈ t.agenda, ∀ f, e.act = .resultLanding f → f.id = s.arg / 512 → f.id = 0) ∧
      (s.probe = true → s.myCtx.frz = none → ∃ g, t.found = s.found ++ [g] ∧ g.cause = 3 ∧ g.sub = 7 ∧ g.cur = s.cur)))

/-! ### Events of channels (R95, R99, R105, R107, R119 to R123, R128 to R132, R150, R371, R409) -/

/-- A DRD beat is staged, and its arrival in real time only logs what it corrected; an XCHC compares versions with its fourth; a DWR beat
crosses unless its exchange was abandoned; a write status acknowledges its write; debts rise to 4, then a Q owner's is paid by a guard
sequence and a P owner's next bundle traps; a sequence that ends lets held commands go; a refresh window pays one window and writes
corrected codewords back; a failed burst is logged, held for and replayed; one failing lane with a free spare is swapped, anything else
loses the burst, whose crossings are taken back; a repair record holds two swaps; a scrub of an owned channel runs in holds of at most 512
cycles, one every 65,536 (R35, R75, R95, R99, R105, R107, R119 to R123, R129 to R132, R150). How held commands keep their spacing (log 52),
a burst that is lost after its beats have crossed (log 99), what a lane test finds (log 53) and a record of more than two swaps (log 83) are
the model's. -/
def Obligations.ChannelEventsTakeEffect : Prop :=
  (∀ (s : State) (ch k burst q : Nat),
    let p := s.peel k
    let at_ := burstAt p ch burst
    let side := if at_.1 then p.a else p.b
    let i := 64 * at_.2.1 + 4 * at_.2.2 + q
    let from_ := sideAddr side at_.2.1 + 256 * at_.2.2 + 64 * q
    (p.kind = 0 ∨ p.state = 1 → exec (.drdBeatArrival ch k burst q) s = .next s) ∧
    (p.kind ≠ 0 → p.state ≠ 1 → s.arg = 1 → ∃ t, exec (.drdBeatArrival ch k burst q) s = .next t ∧ SameData s t ∧
      t.peels = s.peels ∧ (s.badRows from_ 64 = [] → t = s)) ∧
    (p.kind ≠ 0 → p.state ≠ 1 → s.arg ≠ 1 → s.badRows from_ 64 = [] → ∃ t, exec (.drdBeatArrival ch k burst q) s = .next t ∧ SameData s t ∧
      (i, BitVec.ofNat 512 (s.load from_ 64)) ∈ (if at_.1 then (t.peel k).stA else (t.peel k).stB) ∧
      (p.kind = 2 → i = 3 → (t.peel k).state = (if verOf s side 0 = p.expect then 2 else 3) ∧
        ((s.ctx p.cur.ctx).frz = none → ∃ e ∈ t.agenda, e.cur = p.cur ∧ e.due = s.rowClk (rowOf p.cur.ctx) + 1 ∧
          e.act = .resultLanding { id := p7Id k, port := p.cur.slot.port, writes := [.p 7 (verOf s side 0 == p.expect)], flags := 0#5,
                                   delay := 1, reply := false, fifo := false }))) ∧
    let aA := sideAddr p.a at_.2.1 + 64 * (i % 64)
    let aB := sideAddr p.b at_.2.1 + 64 * (i % 64)
    (p.kind ≠ 0 → (p.state = 1 ∨ p.state = 3) → ∃ t, exec (.dwrBeatDelivery ch k burst q) s = .next t ∧ SameData s t) ∧
    (p.kind ≠ 0 → p.state ≠ 1 → p.state ≠ 3 → (p.chA = none ∨ p.chB = none) → (s.timed = true ∨ crossWait s k (pairBanks p at_.2.1) = 0) →
      (∀ q ∈ beatMetas p i, s.metaBad q = false) →
      i / 64 = at_.2.1 → s.badRows aA 64 = [] → s.badRows aB 64 = [] → (aA + 64 ≤ aB ∨ aB + 64 ≤ aA) →
      ∃ t, exec (.dwrBeatDelivery ch k burst q) s = .next t ∧ t.cores = s.cores ∧
        t.load aA 64 = stagedAt p.stB i (s.load aB 64) % 2 ^ 512 ∧ t.load aB 64 = stagedAt p.stA i (s.load aA 64) % 2 ^ 512 ∧
        ∀ x, (x < aA ∨ aA + 64 ≤ x) → (x < aB ∨ aB + 64 ≤ x) → t.byte x = s.byte x)) ∧
  (∀ s : State,
    let x := s.chan s.arg
    let w := s.chan (s.arg % 512)
    ((∀ r ∈ w.replays, r.sent.write = false) → ∃ t, exec .dwrWriteStatus s = .next t ∧ SameData s t ∧
      t.myCtx.unacked = s.myCtx.unacked.filter fun u => u.id != s.arg / 512) ∧
    ((∃ r ∈ w.replays, r.sent.write = true) → ∃ t, exec .dwrWriteStatus s = .next t ∧ SameData s t ∧
      ∃ e ∈ t.agenda, e.due = s.clk + 1 ∧ e.arg = s.arg ∧ e.act = .dwrWriteStatus) ∧
    (s.arg < 512 → ∃ t, exec .programRefreshDebtWrap s = .next t ∧ SameData s t ∧
      (x.progDebt < 4 → t = s.modChan s.arg fun x => { x with progDebt := x.progDebt + 1 }) ∧
      (¬ x.progDebt < 4 → ∀ c, x.owner = some c → (t.chan s.arg).progDebt = x.progDebt ∧ (t.chan s.arg).overdue = true ∧
        (isQ c = true → ∃ e ∈ t.agenda, e.clk = .chip ∧ e.due = s.now ∧ e.arg = 512 + s.arg ∧ e.act = .programRefreshDebtWrap))) ∧
    (512 ≤ s.arg → w.overdue = true → w.guard = none → ∃ t, exec .programRefreshDebtWrap s = .next t ∧ SameData s t ∧
      (t.chan (s.arg % 512)).overdue = false ∧ ∃ g, (t.chan (s.arg % 512)).guard = some g ∧ g.rows = w.rows.rows ∧ g.pays = 1) ∧
    (512 ≤ s.arg → w.overdue = false ∨ w.guard.isSome = true → exec .programRefreshDebtWrap s = .next s) ∧
    (∃ t, exec .holdRefreshDebtWrap s = .next t ∧ SameData s t ∧
      (x.holdDebt < 4 → t = s.modChan s.arg fun x => { x with holdDebt := x.holdDebt + 1 }) ∧
      (4 ≤ x.holdDebt → x.guard = none → (t.chan s.arg).guard.isSome = true) ∧
      (4 ≤ x.holdDebt → ∀ g, x.guard = some g → ∃ e ∈ t.agenda, e.clk = .chip ∧ e.due = s.now + max 1 (g.doneAt - s.now) ∧
        e.arg = s.arg ∧ e.act = .holdRefreshDebtWrap)) ∧
    (∀ g, x.guard = some g → g.doneAt ≤ s.now → let again := (x.overdue && g.pays != 2) && x.owner.any isQ
      ∃ t, exec .guardSequenceComplete s = .next t ∧ SameData s t ∧
      (again = true → (t.chan s.arg).overdue = false ∧ ∃ n, (t.chan s.arg).guard = some n ∧ n.pays = 1) ∧
      (again = false → (t.chan s.arg).guard = none ∧ (heldCmds s s.arg = [] → t.agenda = s.agenda) ∧
        ∀ h ∈ heldCmds s s.arg, ∃ e ∈ t.agenda, e.cur = h.1.cur ∧ e.arg = s.arg ∧ e.act = .guardSequenceComplete)) ∧
    ((s.reloading = false ∨ 256 ≤ s.arg) → ∃ t, exec .unownedChannelRefresh s = .next t ∧ SameData s t ∧ t.agenda = s.agenda ∧
      ∃ c ∈ (t.chan s.arg).cmds, c.1 = 5 ∧ c.2.2.1 = s.now) ∧
    (s.reloading = true → s.arg < 256 → exec .unownedChannelRefresh s = .next s) ∧
    (∃ t, exec .bankRefreshWindow s = .next t ∧ SameData s t ∧ let k := s.stackAt (s.arg / 16)
      let u := t.stackAt (s.arg / 16)
      u.owed.get 0 (s.arg % 16) = k.owed.get 0 (s.arg % 16) - 1 ∧ (∀ y, y ∈ u.fixes ↔ y ∈ k.fixes ∧ fixBank y ≠ s.arg) ∧
      ∀ y ∈ k.fixes, fixBank y = s.arg → (∀ r ∈ t.bad.rows, r.1 = y → 2 ≤ badCount r.2) ∧
        ∀ r ∈ t.badMeta.rows, 2 ^ 40 + r.1 = y → 2 ≤ badCount r.2) ∧
    (x.replays = [] → ∃ t, exec .burstReplay s = .next t ∧ t = s) ∧
    (∀ r l, x.replays = r :: l →
      edgeFrom s s.arg (realReady (timOf s.arg) x.cmds (if r.sent.write then 2 else 1) r.sent.bank s.now) ≤ s.now →
      ∃ t, exec .burstReplay s = .next t ∧ SameData s t ∧ ∃ e ∈ t.agenda, e.clk = .chip ∧
        e.due = s.now + (if r.sent.write then (timOf s.arg).status else (timOf s.arg).rl + (timOf s.arg).bt) ∧
        e.act = .holdRunEnd (chanPart s s.arg) (.replay s.arg)) ∧
    (s.arg < 256 → ∃ t, exec .repairRecordCommit s = .next t ∧ SameData s t ∧ t.mailbox = 0 ∧
      (t.chan s.arg).fuses = (x.fuses ++ x.swaps).take 2 ∧ (t.chan s.arg).swaps = []) ∧
    (256 ≤ s.arg → exec .repairRecordCommit s = .next { s with mailbox := 1 }) ∧
    (w.owner = none → ∃ t, exec .regionScrubRun s = .next t ∧ SameData s t ∧ ∃ e ∈ t.agenda, e.clk = .chip ∧
      e.due = s.now + s.arg / 512 ∧ e.act = .scrubComplete (.channel (s.arg % 512))) ∧
    (∀ c, w.owner = some c → let p := s.partOf c
      (∀ l, w.lastScrub = some l → s.dom p < l + 65536 → ∃ t, exec .regionScrubRun s = .next t ∧ SameData s t ∧
        ∃ e ∈ t.agenda, e.clk = .part p ∧ (e.due : Int) = s.partClk p + (l + 65536 - s.dom p) ∧ e.act = .regionScrubRun) ∧
      ((∀ l, w.lastScrub = some l → l + 65536 ≤ s.dom p) → ∃ t, exec .regionScrubRun s = .next t ∧ SameData s t ∧
        (t.chan (s.arg % 512)).lastScrub = some (s.dom p) ∧
        (.regionScrub (s.arg % 512) ∈ (t.part p).causes ∨ .regionScrub (s.arg % 512) ∈ (t.part p).fresh) ∧
        ∃ e ∈ t.agenda, e.due = s.now + min (s.arg / 512) 512 ∧ e.act = .holdRunEnd p (.regionScrub (s.arg % 512))))) ∧
  (∀ (s : State) (ch burst lane : Nat) (write : Bool) (c : Nat) (y : Sent),
    let x := s.chan ch
    s.arg ≠ 1 → x.replays.find? (fun r => r.sent.burst == burst && r.sent.write == write) = none → x.owner = some c →
    (x.sent.reverse.find? fun y => y.burst == burst && y.write == write) = some y →
    ∃ t r, exec (.burstCheckFailure ch burst lane write) s = .next t ∧ SameData s t ∧ (t.chan ch).replays = x.replays ++ [r] ∧
      r.sent = y ∧ r.lane = lane ∧ r.count = 1 ∧ r.lim = (s.ctx c).retrylim.toNat ∧
      (.replay ch ∈ (t.part (s.partOf c)).causes ∨ .replay ch ∈ (t.part (s.partOf c)).fresh) ∧
      (∃ n e, t.busLog = Log.add s.busLog 1024 n e) ∧
      (x.replays = [] → ∃ e ∈ t.agenda, e.clk = .chip ∧ s.now < e.due ∧ e.arg = ch ∧ e.act = .burstReplay)) ∧
  (∀ (s : State) (ch : Nat) (lanes : List Nat) (r : Replay) (rest : List Replay), (s.chan ch).replays = r :: rest →
    let soft := (s.chan ch).soft
    (∀ l, lanes = [l] → ¬(soft.getLsbD 7 = true ∧ soft.getLsbD 15 = true) → ∃ t, exec (.laneTestComplete ch lanes) s = .next t ∧
      SameData s t ∧ (t.chan ch).replays = { r with further := true } :: rest ∧ (t.chan ch).swaps = (s.chan ch).swaps ++ [BitVec.ofNat 7 l] ∧
      (t.chan ch).soft = soft ||| (0x80#16 ||| BitVec.ofNat 16 (l % 128)) <<< (if soft.getLsbD 7 = true then 8 else 0) ∧
      ∃ e ∈ t.agenda, e.due = s.now ∧ e.arg = ch ∧
          e.act = .burstReplay) ∧
    (lanes.length ≠ 1 ∨ soft.getLsbD 7 = true ∧ soft.getLsbD 15 = true → ∃ t, exec (.laneTestComplete ch lanes) s = .next t ∧
      t.cores = s.cores ∧ ((∀ c, ∀ x ∈ (s.chan c).sent, x.moved = []) → SameBytes s t) ∧ (t.chan ch).replays = rest ∧
      ((s.peel r.sent.peel).kind ≠ 0 → (s.peel r.sent.peel).cur = r.sent.xch → (t.peel r.sent.peel).state = 1) ∧
      (rest = [] → ∃ e ∈ t.agenda, e.clk = .chip ∧ e.due = s.now ∧ e.arg = 1 ∧ e.act = .holdRunEnd (chanPart s ch) (.replay ch)) ∧
      (rest ≠ [] → ∃ e ∈ t.agenda, e.clk = .chip ∧ s.now < e.due ∧ e.arg = ch ∧ e.act = .burstReplay) ∧
      ∃ e ∈ t.agenda, e.clk = .part (chanPart s ch) ∧ e.due = s.partClk (chanPart s ch) + 1 ∧ e.cur = r.sent.cur ∧ e.arg = 1 ∧
        e.act = .burstCheckFailure ch r.sent.burst r.lane r.sent.write)) ∧
  (∀ (s : State) (i a b : Nat), Memory.wf s.mem = true → (a + 64 ≤ b ∨ b + 64 ≤ a) →
    (∀ j < 64, (uncross s i a b).byte (a + j) = s.byte (b + j) ∧ (uncross s i a b).byte (b + j) = s.byte (a + j)) ∧
    ∀ x, (x < a ∨ a + 64 ≤ x) → (x < b ∨ b + 64 ≤ x) → (uncross s i a b).byte x = s.byte x)

/-! ### Events of global access (R75, R96, R109, R149, R158, R166, R167, R220, R225, R359, R379 to R383, R428, R437) -/

/-- Replies and acknowledgements come beat by beat; the last one frees its entry, a load's with its result 2 cycles on, or for a step-timed
load in the step after its issue; a refusal keeps the entry as failed and is a deferred trap; a G-op, a release or a walk that waited goes
on when it may; a remote access performs beat by beat in a service window and each beat is answered; merges are admitted once; an
acknowledged flit leaves its buffer, one that is not is replayed up to 16 times, then the port fails; a link comes up, and takes keys (R75,
R96, R109, R149, R158, R159, R166, R167, R181, R220, R225, R379, R380, R383, R428, R437). A refusal under an outstanding scrub (log 100) or
for want of a secure port (log 121), a new entry of the merge table (log 101), a window in which the frame clock stands (log 117), when a
remote write counts to DIGEST at its issuer (log 42), the cut of a payload into flits (log 18) and keys at once without a live partition
(log 8) are the model's. -/
def Obligations.GlobalEventsTakeEffect : Prop :=
  (∀ (s : State) (c col i data : Nat) (dig : Word) (k : NackKind),
    let key := 64 * coreKey c col + i
    let g := s.gent key
    let counted := fun (t : State) => (t.job (s.ctx c).job).digest = (s.job (s.ctx c).job).digest + dig
    let last := g.done + 1 = g.beats
    let all := g.data + data * 2 ^ (512 * g.done)
    let value : RegWrite := if g.vec then .v g.dest (BitVec.allOnes 32768) (BitVec.ofNat 32768 all) else .s g.dest (BitVec.ofNat 64 all)
    let p := s.partOf c
    g.state = 1#2 → g.kind ≠ 4#8 → g.cur.ctx = c → (s.ctx c).frz = none →
    (g.beats ≤ g.done + 1 → ∃ t, exec (.remoteAcknowledge c col ⟨i, dig⟩) s = .next t ∧ SameData s t ∧ t.gent key = GEnt.init ∧ counted t ∧
      (t.ctx c).unacked = (s.ctx c).unacked.filter fun u => u.id != g.wr) ∧
    (g.done + 1 < g.beats → ∃ t, exec (.remoteAcknowledge c col ⟨i, dig⟩) s = .next t ∧ SameData s t ∧ counted t ∧
      t.gent key = { g with done := g.done + 1 }) ∧
    (last → ∃ t, exec (.gOpReply c col ⟨i, dig⟩ data) s = .next t ∧ SameData s t ∧ t.gent key = GEnt.init ∧ counted t ∧
      ∃ e ∈ t.agenda, e.cur = g.cur ∧
        e.due = s.rowClk (rowOf c) + (if g.stepped then (stepAfter (s.dom p) (s.stepDom p) g.issue + (if g.vec then 48 else 32 : Nat)).toNat else 2) ∧
        e.act = .resultLanding { id := if g.acq then g.wr else 0, port := g.cur.slot.port, writes := [value], flags := 0#5,
                                 delay := if g.stepped then 0 else 1, reply := !g.stepped, fifo := false }) ∧
    (¬ last → ∃ t, exec (.gOpReply c col ⟨i, dig⟩ data) s = .next t ∧ SameData s t ∧ counted t ∧
      t.gent key = { g with done := g.done + 1, data := all }) ∧
    (s.arg ≠ 1 → ∃ t, exec (.remoteNack c col i k) s = .next t ∧ SameBytes s t ∧ t.gent key = { g with state := 3#2 } ∧
      (s.probe = true → ∃ f, t.found = s.found ++ [f] ∧ f.cur = g.cur ∧ f.cls = 1 ∧
        f.cause = match k with | .remote => 8 | .world => 6 | .data => 7))) ∧
  (∀ (s : State) (w : Waiting), s.waiting.find? (fun w => w.id == s.arg) = some w →
    let s1 := { s with waiting := s.waiting.filter fun w => w.id != s.arg }
    let later := fun (i : Instr) => ∃ t, exec i s = .next t ∧ SameData s t ∧ t.waiting = s.waiting ∧
      ∃ e ∈ t.agenda, e.due = s.clk + 1 ∧ e.cur = s.cur ∧ e.arg = s.arg ∧ e.act = i
    let issues := fun (i : Instr) (m ph : Nat) => ∃ t, exec i s = .next t ∧ SameBytes s t ∧ (∀ u ∈ t.waiting, u.id ≠ s.arg) ∧
      ∃ e, s.gFree s.cur.ctx s.cur.col = some e ∧ (t.gent (gKey s.cur.ctx s.cur.col e)).state = 1#2 ∧
        (t.gent (gKey s.cur.ctx s.cur.col e)).gaddr = BitVec.ofNat 64 (m * 2 ^ 48 + ph)
    (∀ i v q m ph tags, w.what = .gop i v m ph tags → gReqOf i v = some q →
      (gBlocked s q ⟨2, m, ph⟩ = true → exec .gOpDeferredIssue s = .next s) ∧
      (gBlocked s q ⟨2, m, ph⟩ = false → s.linkTrap s.myCtx.world m = none → issues .gOpDeferredIssue m ph) ∧
      (∀ e, gBlocked s q ⟨2, m, ph⟩ = false → s.linkTrap s.myCtx.world m = some e → exec .gOpDeferredIssue s = .next (s.takeTrap e))) ∧
    (∀ i v, w.what = .walk i v → let stuck := fun va => s.xlate va false false = .walk ∧ s.walkHeld s.cur.ctx va = true
      ((∃ va ∈ s.walkVas true i v, stuck va) → later .translationWalkComplete) ∧
      ((∀ va ∈ s.walkVas true i v, ¬ stuck va) → ∃ t, exec .translationWalkComplete s = .next t ∧ SameBytes s t)) ∧
    (∀ a ws, w.what = .release a ws →
      (relReady s1 w.cur ws = true → ∃ t, exec .releasePerform s = .next t ∧ SameData s t ∧ t.waiting = s.waiting ∧
        ∃ e ∈ t.agenda, e.due = s.clk ∧ e.cur = s.cur ∧ e.act = .deferredAccessPerform a) ∧
      (relReady s1 w.cur ws = false → later .releasePerform)) ∧
    (∀ i v q m ph tags ws, w.what = .grel i v m ph tags ws → gReqOf i v = some q →
      (relReady s1 w.cur ws = false ∨ gBlocked s1 q ⟨2, m, ph⟩ = true → later .releasePerform) ∧
      (relReady s1 w.cur ws = true → gBlocked s1 q ⟨2, m, ph⟩ = false → s.linkTrap s.myCtx.world m = none →
        issues .releasePerform m ph) ∧
      (∀ e, relReady s1 w.cur ws = true → gBlocked s1 q ⟨2, m, ph⟩ = false → s.linkTrap s.myCtx.world m = some e →
        exec .releasePerform s = .next (s.takeTrap e)))) ∧
  (∀ (s : State) (r : Remote) (a : Nat), windowSlot s r = .ok a → Memory.wf s.mem = true →
    let bank := bankOfSlot (slotOf a)
    let starts := match r.op with | .exchange .. => r.beat == 0 | _ => false
    let s1 := { s with svc := bank :: s.svc }
    (∀ x, r.step = some x → ∃ t, exec (.remoteAccessPerform r) s = .next t ∧ SameData s t ∧
      (t.part x.1).arrivals = (s.part x.1).arrivals ++ [r]) ∧
    (r.step = none → (remoteBusy s r a = true ∨ servedFirst s bank = true ∨ serves s bank starts = false) →
      ∃ t, exec (.remoteAccessPerform r) s = .next t ∧ SameData s t ∧ ∃ e ∈ t.agenda, e.clk = .chip ∧ e.due = s.now + 1 ∧
        e.act = .remoteAccessPerform r) ∧
    (r.step = none → remoteBusy s r a = false → servedFirst s bank = false → serves s bank starts = true →
      (beatBad s1 r a = true → exec (.remoteAccessPerform r) s = .next (refuseRemote (beatNote s1 r a) r .data)) ∧
      (beatBad s1 r a = false →
        let at_ := a + 64 * r.beat
        let tag := (s.slot (slotOf a)).tag
        let ver := (s.slot (slotOf a)).version
        -- the beat's answer goes out, and the next beat follows in the next cycle
        let next := fun (u : State) => if r.beat + 1 < remoteBeats r.op then
          u.repost .chip 1 s.arg (.remoteAccessPerform { r with beat := r.beat + 1 }) else u
        let sent := fun (t : State) (x : Payload) => ∃ u, t = next (answer u r x)
        let run := fun (post : State → Prop) => ∃ t, exec (.remoteAccessPerform r) s = .next t ∧ t.cores = s.cores ∧ post t
        let only := fun (t : State) (lo n : Nat) => ∀ y, (y < lo ∨ lo + n ≤ y) → t.byte y = s.byte y
        (∀ n, r.op = .read n → run fun t => SameBytes s t ∧ sent t (.reply r.srcEntry (s.load at_ (min 64 (n - 64 * r.beat))) 0#64)) ∧
        (∀ n x, r.op = .write n x → 64 * r.beat < n → let l := min 64 (n - 64 * r.beat)
          run fun t => only t at_ l ∧ t.load at_ l = x / 2 ^ (512 * r.beat) % 2 ^ (8 * l) ∧
            sent t (.ack r.srcEntry (digestOf s.module s.mem t.mem (at_ / 64) ((at_ + l - 1) / 64 - at_ / 64 + 1)))) ∧
        (∀ op w y cmp, r.op = .amo op w y cmp → let z := if w then 8 else 4
          run fun t => only t a z ∧ (∃ d g, sent t (.reply r.srcEntry d g) ∧ d % 2 ^ (8 * z) = s.load a z) ∧
            t.load a z = ((amoResult op (8 * z) (s.load a z) (y.toNat % 2 ^ (8 * z)) (cmp.toNat % 2 ^ (8 * z))).getD (s.load a z)) % 2 ^ (8 * z)) ∧
        (∀ d v, r.op = .exchange d v → run fun t => only t at_ 64 ∧ t.load at_ 64 = d.toNat / 2 ^ (512 * r.beat) % 2 ^ 512 ∧
          (r.beat ≠ 63 → (t.slot (slotOf a)).version = ver ∧ (t.slot (slotOf a)).tag = tag ∧
            ∃ g, sent t (.reply r.srcEntry (s.load at_ 64) g)) ∧
          (r.beat = 63 → (t.slot (slotOf a)).version = v ∧ (t.slot (slotOf a)).tag = tag + 1#8 ∧
            ∃ g, sent t (.reply r.srcEntry (s.load at_ 64 + ver.toNat * 2 ^ 512) g))) ∧
        (∀ m l o p sp sq, r.op = .merge m l o p sp sq → run fun t => only t a 264 ∧ (r.beat ≠ 7 → SameBytes s t) ∧
          (r.beat = 7 → let x := (mergeS (s.load (a + 256) 4) (s.load (a + 260) 4) ((List.range 64).map fun i => s.load (a + 4 * i) 4)
              m.toNat l.toNat ((List.range 64).map fun i => (o.extractLsb' (32 * i) 32).toNat)).1
            t.load (a + 256) 4 = x.1 % 2 ^ 32 ∧ t.load (a + 260) 4 = x.2.1 % 2 ^ 32 ∧
            (∀ i < 64, t.load (a + 4 * i) 4 = x.2.2.getD i 0 % 2 ^ 32) ∧ ∃ g, sent t (.ack r.srcEntry g)))))) ∧
  (∀ (s : State) (r : Remote) (k : NackKind), windowSlot s r = .error k →
    exec (.remoteAccessPerform r) s = .next (refuseRemote s r k) ∧ SameData s (refuseRemote s r k)) ∧
  (∀ (s : State) (r : Remote) (m l : BitVec 32) (o : Row) (p sp sq : Nat), r.op = .merge m l o p sp sq → (∃ a, windowSlot s r = .ok a) →
    ∃ t, exec (.mergeContributionArrival r) s = .next t ∧ SameData s t ∧ match admitMerge (s.dedup.get [] p) s.now r.srcModule sp sq with
      | .nack => t.dedup = s.dedup ∧ t.ports = s.ports ∧ ∃ n e, t.linkLog = Log.add s.linkLog 1024 n e
      | .drop => t.dedup = s.dedup ∧ ∃ u, t = answer u r (.ack r.srcEntry 0#64)
      | .merge d => t.dedup.get [] p = d ∧ ∃ e ∈ t.agenda, e.due = s.now ∧ e.act = .remoteAccessPerform r) ∧
  (∀ (l : List Dedup) (now src sp sq : Nat) (d : List Dedup), admitMerge l now src sp sq = .merge d →
    admitMerge d now src sp sq = .drop) ∧
  (∀ (s : State) (n sq : Nat), ∃ t, exec (.flitAcknowledge n sq) s = .next t ∧ SameData s t ∧
    let kept := (s.port n).buf.filter fun f => f.seq != sq
    ((s.port n).held = [] → (t.port n).buf = kept) ∧
    (∀ x l, (s.port n).held = x :: l → kept.length < 512 → ∃ f ∈ (t.port n).buf, f.seq = (s.port n).nextSeq ∧ f.load = x.1)) ∧
  (∀ s : State, 2 ^ 60 ≤ s.arg → ∃ t n e, exec .flitReplay s = .next t ∧ SameData s t ∧ t.ports = s.ports ∧
    t.linkLog = Log.add s.linkLog 1024 n e) ∧
  (∀ (s : State) (f : Flit), s.arg < 2 ^ 60 → (s.port (s.arg % 32)).buf.find? (fun f => f.seq == s.arg / 32) = some f →
    ∃ t, exec .flitReplay s = .next t ∧ SameData s t ∧
      (16 ≤ f.replays → (t.port (s.arg % 32)).failed = true ∧ (t.port (s.arg % 32)).up = false ∧ (t.port (s.arg % 32)).buf = [] ∧
        ∀ x ∈ (s.port (s.arg % 32)).buf, ∀ r, x.load = .request r → ∃ e ∈ t.agenda, e.due = s.now ∧
          e.act = .remoteNack (r.srcEntry / 64 / 16) (r.srcEntry / 64 % 16) (r.srcEntry % 64) .remote) ∧
      (f.replays < 16 → (∃ e ∈ t.agenda, e.due = s.now + 2048 ∧ e.arg = s.arg ∧ e.act = .flitReplay) ∧
        ∃ g ∈ (t.port (s.arg % 32)).buf, g.seq = f.seq ∧ g.replays = f.replays + 1)) ∧
  (∀ (s : State) (n peer : Nat) (secret : BitVec 256) (out : Bool), let key := linkKey n out secret
    (n < 18 → peer ≠ s.module.toNat → s.bootFail = none → ∃ t, exec (.linkUp n peer) s = .next t ∧ SameData s t ∧ t.mailbox = 0 ∧
      (t.port n).up = true ∧ (t.port n).failed = false ∧ (t.port n).peer = peer) ∧
    (18 ≤ n ∨ peer = s.module.toNat → exec (.linkUp n peer) s = .next { s with mailbox := 1 }) ∧
    ((s.port n).up = true → ∃ t, exec (.linkKeyAgreement n out secret) s = .next t ∧ SameData s t ∧ t.secBox = 0 ∧
      ((∃ r ∈ s.parts.rows, r.2.live = true) → (if out then (t.port n).nextOut else (t.port n).nextIn) = some key ∧
        (t.port n).out = (s.port n).out ∧ (t.port n).inn = (s.port n).inn) ∧
      ((∀ r ∈ s.parts.rows, r.2.live = false) → (if out then (t.port n).out else (t.port n).inn) = some key)) ∧
    ((s.port n).up = false → exec (.linkKeyAgreement n out secret) s = .next { s with secBox := 1 }))

/-! ### Launch queues, the dispatcher and jobs (R27 to R33, R48, R65, R134 to R139, R186, R396, R423, R428, R440) -/

/-- A record that reaches a queue is stored as queued or rejected or is refused, and its sender learns which; queue maps and management
registers change as written; the dispatcher takes the candidate of the highest effective priority, places it when nothing it names is
held, and at level 7 decides stops 16 cycles on; a placement gives contexts their reset values and the record's; a job starts in all its
rows; a job that ends frees its contexts and channels, which wait for their scrub (R27 to R33, R48, R60, R65, R135 to R139, R423, R440).
That a record of the host waits while its slab map lies in a channel that is owned is the model's choice (log 50), and so is it that a
function of the wrong world, or under a scrub, does not reach a queue (log 114). -/
def Obligations.DispatchEventsTakeEffect : Prop :=
  (∀ (s : State) (n : Nat) (r : BitVec 2048),
    let q := s.queue n
    let code := enqueueCode s n r
    code = (if q.en = false then 0x101 else if 32 ≤ q.ents.length then 0x100 else if rejected s q r = true then 4 else 0) ∧
    let stores := fun (t : State) => SameData s t ∧
      (code < 0x100 → ∃ e, (t.queue n).ents = q.ents ++ [e] ∧ e.status = BitVec.ofNat 8 code ∧ e.job = 0 ∧
        e.record.setWidth 8 = e.status ∧ ∀ i, 8 ≤ i → e.record.getLsbD i = r.getLsbD i) ∧
      (0x100 ≤ code → t.queues = s.queues)
    let reaches := fun (v : Nat) => v < 256 ∧ (s.qmap.get 0#64 v).getLsbD n = true ∧ HwBlock.vf v ∉ s.refused ∧
      (q.secure = true → s.worldOf (.vf v) = true)
    (mapWaits s n r = false → ∃ t, exec (.launchRecordWrite .pf n r) s = .next t ∧ stores t ∧ t.mailbox = code) ∧
    (∀ v, mapWaits s n r = false → reaches v →
      ∃ t, exec (.launchRecordWrite (.vf v) n r) s = .next t ∧ stores t ∧ t.mailbox = code) ∧
    (∀ v, ¬ reaches v → exec (.launchRecordWrite (.vf v) n r) s = .next { s with mailbox := 0x101 }) ∧
    (mapWaits s n r = true → ∀ who, who = .pf ∨ (∃ v, who = .vf v ∧ reaches v) → ∃ t, exec (.launchRecordWrite who n r) s = .next t ∧
      SameData s t ∧ t.queues = s.queues ∧ ∃ e ∈ t.agenda, e.clk = .chip ∧ e.due = s.now + 1 ∧ e.act = .launchRecordWrite who n r) ∧
    (∀ c id d, ∃ t, exec (.launchRecordWrite (.core c id d) n r) s = .next t ∧ stores t ∧ ∀ e ∈ s.agenda, ∀ f,
      e.act = .resultLanding f → f.id = id → { e with act := .resultLanding { f with writes := [.s d (BitVec.ofNat 64 code)] } } ∈ t.agenda)) ∧
  (∀ (s : State) (v q : Nat) (x : Word),
    let old := s.qmap.get 0#64 v
    ((256 ≤ v ∨ ∃ i < 64, (old.getLsbD i ≠ x.getLsbD i ∧ (s.queue i).ents ≠ []) ∨
        (x.getLsbD i = true ∧ (s.queue i).secure = true ∧ s.worldOf (.vf v) = false)) →
      exec (.qmapWrite v x) s = .next { s with mailbox := 1 }) ∧
    (v < 256 → (∀ i < 64, (old.getLsbD i = x.getLsbD i ∨ (s.queue i).ents = []) ∧
        (x.getLsbD i = true → (s.queue i).secure = true → s.worldOf (.vf v) = true)) → ∃ t, exec (.qmapWrite v x) s = .next t ∧
      SameData s t ∧ t.mailbox = 0 ∧ ∀ w, t.qmap.get 0#64 w = if w = v then x else s.qmap.get 0#64 w) ∧
    (∃ t, exec (.registerWrite .powerLimit x) s = .next t ∧ SameData s t ∧
      t.powerLimit.toNat = max 500 (min 3000 (x.toNat % 2 ^ 13))) ∧
    (∃ t, exec (.registerWrite .moduleNumber x) s = .next t ∧ SameData s t ∧ t.module.toNat = x.toNat % 2 ^ 14) ∧
    (x.getLsbD 15 = true → ∃ t, exec (.registerWrite (.queueCtl q) x) s = .next t ∧ SameData s t ∧ (t.queue q).en = true ∧
      (t.queue q).priv = x.getLsbD 16 ∧ (t.queue q).ents = (s.queue q).ents ∧
      ((s.queue q).ents ≠ [] → (t.queue q).part = (s.queue q).part ∧ (t.queue q).secure = (s.queue q).secure) ∧
      ((s.queue q).ents = [] → (t.queue q).part.toNat = x.toNat / 2 ^ 18 % 64 ∧ (t.queue q).secure = x.getLsbD 17))) ∧
  (∀ s : State,
    let q := s.queue s.arg
    let r := (s.job s.arg).record
    (∃ t, exec .queueDisable s = .next t ∧ SameData s t ∧ (t.queue s.arg).en = false ∧
      (t.queue s.arg).ents = q.ents.filter fun e => !(e.status == 0#8 || e.status == 4#8)) ∧
    (∀ x, choose s = some x → ∃ c ∈ candidates s, x.queue = c.1 ∧ x.job = c.2.1.job ∧ ∀ d ∈ candidates s,
      effective s (recPrio d.2.1.record) d.2.2 ≤ effective s (recPrio c.2.1.record) c.2.2) ∧
    (choose s = none ↔ candidates s = []) ∧
    (∃ t, exec .dispatchDecision s = .next t ∧ SameData s t ∧ (s.placed = true → t.placed = true ∧ t.selected = s.selected) ∧
      (s.placed = false → s.selected = none → t.selected = choose s) ∧
      (s.placed = false → ∀ x e, (select s).selected = some x → selEntry s x = some e →
        (placeable s e = true → t.placed = true ∧
          ∃ d ∈ t.agenda, d.clk = .chip ∧ s.now + max 1 (handoverTime e.record) ≤ d.due ∧ d.arg = x.queue ∧ d.act = .placement) ∧
        (placeable s e = false → effective s (recPrio e.record) x.since = 7 → ∀ j ∈ blockers s e.record,
          recPrio (s.job j).record < 7 → (s.job j).state = .running → (t.job j).stop = true ∧
            ((s.job j).stop = false → ∃ d ∈ t.agenda, d.due = s.now + 16 ∧ d.arg = j ∧ d.act = .preemptionStop)))) ∧
    (∃ t, exec .effectivePriorityRise s = .next t ∧ t = { s with selected := t.selected } ∧
      (s.placed = false → s.selected = none → t.selected = choose s)) ∧
    (∀ e, headEntry q.ents = some e → (e.status = 4#8 → ∃ t, exec .rejectedRecordLeaves s = .next t ∧ SameData s t ∧
        (t.queue s.arg).ents = q.ents.erase e) ∧
      (e.status ≠ 4#8 → exec .rejectedRecordLeaves s = .next s)) ∧
    ((s.job s.arg).state = .waiting → ∃ t, exec .jobStart s = .next t ∧ SameData s t ∧ (t.job s.arg).state = .running ∧
      ∀ c ∈ s.ctxsOf s.arg, (s.ctx c).frz = none →
        (t.ctx c).due = s.rowClk (rowOf c) + (s.ctx c).rowoff.toNat ∧ (t.ctx c).dueDelayed = false) ∧
    ((s.job s.arg).state ≠ .waiting → exec .jobStart s = .next s) ∧
    (r = 0#2048 → exec .jobEnd s = .next s) ∧
    (r ≠ 0#2048 → (s.job s.arg).state ≠ .preempted → ∃ t, exec .jobEnd s = .next t ∧ SameData s t ∧
        (∀ c ∈ recCtxs r, (t.ctx c).job = 0 ∧ .context c ∈ t.refused) ∧
        (∀ ch ∈ recChans r, (t.chan ch).owner = none ∧ .channel ch ∈ t.refused) ∧
        (t.scrubWait = [] → ∀ e ∈ (t.queue (s.job s.arg).queue).ents, e.job ≠ s.arg))) ∧
  (∀ (s : State) (x : Selected) (e : QEntry), s.selected = some x → selEntry s x = some e →
    let q := s.queue x.queue
    let j := s.nextJob.toNat
    let r := (e.record &&& ~~~(255#2048)) ||| 1#2048
    (placeable s e = false → exec .placement s = .next { s with placed := false }) ∧
    (placeable s e = true → recordReadable s e.record = false ∨ qOccupied s e.record = true → ∃ t, exec .placement s = .next t ∧
      SameData s t ∧ t.placed = s.placed ∧
      ∃ d ∈ t.agenda, d.due = s.now + 1 ∧ d.act = .placement) ∧
    (placeable s e = true → recordReadable s e.record = true → qOccupied s e.record = false → e.job = 0 → ∃ t,
      exec .placement s = .next t ∧ t.selected = none ∧ t.placed = false ∧ (t.job j).record = r ∧ (t.job j).state = .waiting ∧ (t.job j).part = q.part.toNat ∧
      t.nextJob = nextJobNumber s.nextJob ∧ (∃ d ∈ t.agenda, d.clk = .part q.part.toNat ∧ d.arg = j ∧ d.act = .jobStart) ∧
      (∀ c ∈ recCtxs r, let y := t.ctx c
        y.job = j ∧ y.priv = q.priv ∧ y.world = recWorld r ∧ y.timed = !(isQ c) ∧ y.prio = BitVec.ofNat 3 (recPrio r) ∧
        y.pc = imageAt s r (0x40 + 4 * rowBit c) 4 ∧ y.rowoff = BitVec.ofNat 8 (imageAt s r (0x20 + rowBit c) 1) ∧
        (∀ n < 8, y.args.get 0#64 n = recArg r n) ∧ ∀ col < 16, t.core c col = CoreCtx.init) ∧
      ∀ k < (recChans r).length, (t.chan ((recChans r).getD k 0)).owner = some ((recCtxs r).getD (k % (recCtxs r).length) 0)))

/-! ### Stops, saves and restarts (R31, R43, R124, R231, R234, R235, R240, R241, R244, R245) -/

/-- A stop freezes a running job and its save begins; a save that completes leaves the job frozen, or out of its rows where it was to be
pre-empted; the host continues a saved, trapped job, which restarts at least 4,096 domain cycles on at its freeze cycle modulo 65,536 with
everything due after the freeze as far off as it was, or ends it; a context that a gate holds stays frozen with it (R246); the host writes
and reads bytes of saved areas, secure firmware alone those of a secure job, and the registers follow at the restart; a step and 2^24 cycles
without an issue trap (R31, R43, R66, R124, R231, R235, R240, R241, R244 to R246, R420). The lower bound of a save (log 6), what a restart
takes from the save area (log 15), who may rewrite it (log 16), F of a step, the watchdog and a stop (log 70) and contexts that a gate holds
(log 69) are the model's. -/
def Obligations.StopEventsTakeEffect : Prop :=
  (∀ s : State,
    let j := s.arg
    let b := s.job j
    let c := s.arg - 2 ^ 40
    let x := s.ctx c
    let y := s.ctx s.arg
    (j < 2 ^ 40 → s.probe = false → b.state = .running → ∃ t, exec .preemptionStop s = .next t ∧ t.cores = s.cores ∧
      ((∀ c ∈ s.ctxsOf j, (s.ctx c).frz = none) → SameBytes s t) ∧
      (t.job j).state = .saving ∧ (∀ c ∈ s.ctxsOf j, (t.ctx c).frz.isSome = true) ∧
      (stepAtF s (liveCtxs s j) = none → dogAtF s (liveCtxs s j) = none → ∀ c l, s.ctxsOf j = c :: l →
        (t.ctx c).trapinfo = trapInfo (s.ctx c).pc .nowhere (dieOf c) 0 0 11 ∧
        ∀ d ∈ s.ctxsOf j, ∃ z, (t.ctx d).frz = some z ∧ z.state.getLsbD 1 = true ∧
          (d ≠ c → z.state.getLsbD 4 = true ∧ (t.ctx d).trapinfo = (s.ctx d).trapinfo)) ∧
      ∃ e ∈ t.agenda, e.clk = .chip ∧ e.due ≤ s.now + 5999 ∧ e.arg = j ∧ e.act = .preemptSaveComplete) ∧
    (let n := s.arg % 2 ^ 42
     let late := 1300 ≤ s.arg / 2 ^ 42
     let again := fun (t : State) => ∃ e ∈ t.agenda, e.due = s.now + 1 ∧ e.arg = s.arg + 2 ^ 42 ∧ e.act = .preemptSaveComplete
     n < 2 ^ 40 →
      (launchBusy s n = true → ¬late → ∃ t, exec .preemptSaveComplete s = .next t ∧ SameData s t ∧ again t) ∧
      (launchBusy s n = false ∨ late →
        ((s.job n).stop = false → ∃ t, exec .preemptSaveComplete s = .next t ∧ t.cores = s.cores ∧ (t.job n).state = .frozen ∧
          ∀ c ∈ s.ctxsOf n, ∀ z, (t.ctx c).frz = some z → z.saved = true) ∧
        ((s.job n).stop = true → dramBusy s n = true → ¬late → ∃ t, exec .preemptSaveComplete s = .next t ∧ t.cores = s.cores ∧ again t) ∧
        ((s.job n).stop = true → dramBusy s n = false ∨ late → ∃ t, exec .preemptSaveComplete s = .next t ∧ t.cores = s.cores ∧
          (t.job n).state = .preempted ∧ ∀ c ∈ s.ctxsOf n, (t.ctx c).job = 0))) ∧
    ((b.state ≠ .frozen ∨ b.trapped = false ∨ eventWaits s j = true ∨ ∃ c ∈ s.ctxsOf j, edited s c = true) →
      exec .hostContinue s = .next { s with mailbox := 1 }) ∧
    (b.state = .frozen → b.trapped = true → eventWaits s j = false → (∀ c ∈ s.ctxsOf j, edited s c = false) →
      ∃ t, exec .hostContinue s = .next t ∧ t.cores = s.cores ∧ ((∀ c ∈ s.ctxsOf j, heldByGate s c = false) → SameBytes s t) ∧
        t.mailbox = 0 ∧ (t.job j).trapped = false ∧
        (∀ c ∈ s.ctxsOf j, heldByGate s c = true → ∀ f, (s.ctx c).frz = some f → ∃ g, (t.ctx c).frz = some g ∧ g.state.getLsbD 2 = true) ∧
        ∀ c ∈ s.ctxsOf j, ∀ f, (s.ctx c).frz = some f → f.state.getLsbD 2 = false → heldByGate s c = false →
          ∃ e ∈ t.agenda, ∃ n : Nat, e.clk = .part b.part ∧ e.due = s.partClk b.part + n ∧ e.arg = 2 ^ 40 + c ∧ e.act = .jobRestart ∧
            4096 ≤ n ∧ n < 69632 ∧ (s.dom b.part + n - f.f) % 65536 = 0) ∧
    ((b.state = .frozen ∨ b.state = .preempted) → b.trapped = true → ∃ t, exec .hostEnd s = .next t ∧ SameData s t ∧ t.mailbox = 0 ∧
      (b.state = .frozen → ∀ c ∈ recCtxs b.record, (t.ctx c).job = 0)) ∧
    (b.trapped = false ∨ (b.state ≠ .frozen ∧ b.state ≠ .preempted) → exec .hostEnd s = .next { s with mailbox := 1 }) ∧
    (∀ f, x.job ≠ 0 → x.frz = some f → ∃ t, exec .jobRestart s = .next t ∧ SameBytes s t ∧ (t.ctx c).frz = none ∧
        (∀ col < 16, t.core c col = if slabDiffers s c col f 0 4096 || slabDiffers s c col f 8192 (26 * 4096) then
            reloadCore s (saveBase s c col) (s.core c col)
          else s.core c col) ∧
        (∀ d ≠ c, ∀ col < 16, t.core d col = s.core d col) ∧
        (t.ctx c).res = true ∧
        (slabDiffers s c 0 f (50 * 4096) (51 * 4096) = false → (t.ctx c).pc = x.pc ∧ (t.ctx c).trapinfo = x.trapinfo ∧
          (t.ctx c).due = s.rowClk (rowOf c) + f.nextOff) ∧
        (slabDiffers s c 0 f (50 * 4096) (51 * 4096) = true → let r := saveBase s c 0 + 50 * 4096
          (t.ctx c).pc = s.load r 8 ∧ (t.ctx c).due = s.rowClk (rowOf c) + max 1 (s.load (r + 8) 8)) ∧
        ∀ i ∈ f.items, (∀ m, i.2.act ≠ .matrixResultLanding m) → { i.2 with due := s.clkNow i.2.clk + i.1 } ∈ t.agenda) ∧
    (x.frz = none → exec .jobRestart s = .next s) ∧
    (s.probe = false → s.myCtx.job ≠ 0 → s.myCtx.frz = none → ∃ t, exec .singleStepTrap s = .next t ∧ SameData s t ∧
      (t.ctx s.cur.ctx).trapinfo = trapInfo s.cur.bundle .nowhere (dieOf s.cur.ctx) s.cur.col 0 12 ∧
      ∀ c ∈ s.ctxsOf s.myCtx.job, (t.ctx c).frz.isSome = true) ∧
    (s.dom (s.partOf s.arg) - y.lastIssue ≠ 16777217 → exec .watchdog s = .next s) ∧
    (s.dom (s.partOf s.arg) - y.lastIssue = 16777217 → s.probe = false → y.job ≠ 0 → y.frz = none → ∃ t, exec .watchdog s = .next t ∧
        SameData s t ∧ (t.ctx s.arg).trapinfo = trapInfo y.pc .nowhere (dieOf s.arg) 0 0 15 ∧
        ∀ c ∈ s.ctxsOf y.job, (t.ctx c).frz.isSome = true)) ∧
  (∀ (s : State) (secure : Bool) (c col n : Nat) (x : Word) (fd : SaveField), c < 64 → col < 16 →
    let ok := fun (j : Nat) => savedOwner s c = some j ∧ (recWorld (s.job j).record = true → secure = true) ∧ (s.job j).trapped = true
    (n < 32 → ∀ j, ok j →
      let a := spadAddr (stackOf c col) (262144 * (recSave (s.job j).record + dieOf c)) + 8 * n
      (∃ t, exec (.hostSaveAreaWrite c col ⟨secure, false, .s n x⟩) s = .next t ∧ (if secure then t.secBox else t.mailbox) = 0 ∧
        t.cores = s.cores ∧ t.load a 8 = x.toNat ∧ ∀ b, b < a ∨ a + 8 ≤ b → t.byte b = s.byte b) ∧
      ∃ t, exec (.hostSaveAreaWrite c col ⟨secure, true, .s n x⟩) s = .next t ∧ (if secure then t.secBox else t.mailbox) = 0 ∧
        SameData s t ∧ t.readBack.get none 69 = some (s.load a 8)) ∧
    (fieldOut fd = true ∨ (∀ j, ¬ok j) →
      exec (.hostSaveAreaWrite c col ⟨secure, false, fd⟩) s = .next (if secure then { s with secBox := 1 } else { s with mailbox := 1 })))

/-! ### Power gates (R78, R234, R246, R413, R420, R446) -/

/-- The gates of a stack, the whole one and that of its crown core: a request starts gating, a withdrawn one ungating, unless a
transition runs; resident contexts are stopped 16 cycles on, and each transition ends 8,192 cycles on; a gate that has closed without a
request opens again, one that has opened under a request closes again; a context that it held begins its restart once it is saved, its
event has entered, no other gate holds it and its job has not trapped (R78, R141, R240, R246, R413, R446). That one of a trapped job waits
for the host with its job is the model's reading (log 69). -/
def Obligations.GateEventsTakeEffect : Prop :=
  ∀ (s : State) (whole : Bool),
    let pick := fun (a b : Instr) => if whole then a else b
    let st := s.arg
    let g := gateOf s st whole
    let resident := (gateCtxs st whole).any fun c => (s.ctx c).job != 0
    let starts := fun (t : State) => (gateOf t st whole).gating = true ∧ ∃ e ∈ t.agenda, e.clk = .chip ∧
      if resident then e.due = s.now + 16 ∧ e.arg = (if whole then 2 ^ 41 else 2 ^ 40) + st ∧ e.act = .preemptionStop
      else e.due = s.now + 8192 ∧ e.arg = st ∧ e.act = pick .stackGateComplete .crownGateComplete
    let opens := fun (t : State) => (gateOf t st whole).ungating = true ∧ ∃ e ∈ t.agenda, e.clk = .chip ∧ e.due = s.now + 8192 ∧
      e.arg = st ∧ e.act = pick .stackUngateComplete .crownUngateComplete
    (∃ t, exec (pick .pgateSreqSet .pgateCreqSet) s = .next t ∧ SameData s t ∧ (gateOf t st whole).req = true ∧
      (g.req = false → g.gated = false → g.gating = false → g.ungating = false → starts t) ∧
      (g.req = true ∨ g.gated = true ∨ g.gating = true ∨ g.ungating = true → t.agenda = s.agenda)) ∧
    (∃ t, exec (pick .pgateSreqClear .pgateCreqClear) s = .next t ∧ SameData s t ∧ (gateOf t st whole).req = false ∧
      (g.req = true → g.gated = true → g.ungating = false → opens t) ∧
      (g.req = false ∨ g.gated = false ∨ g.ungating = true → t.agenda = s.agenda)) ∧
    (∃ t, exec (pick .stackGateComplete .crownGateComplete) s = .next t ∧ SameData s t ∧ (gateOf t st whole).gated = true ∧
      (gateOf t st whole).gating = false ∧ (g.req = true → t.agenda = s.agenda) ∧ (g.req = false → opens t)) ∧
    (let u := modGate s st whole fun g => { g with gated := false, ungating := false }
      let goes := fun (c : Nat) (f : Frz) => (s.ctx c).frz = some f ∧ f.state.getLsbD 2 = true ∧ f.restart = none ∧ f.saved = true ∧
        heldByGate u c = false ∧ eventWaits s (s.ctx c).job = false ∧ ((s.job (s.ctx c).job).state = .running ∨
          (s.job (s.ctx c).job).state = .waiting ∨ ((s.job (s.ctx c).job).state = .frozen ∧ (s.job (s.ctx c).job).trapped = false))
      st < 2 ^ 40 → ∃ t, exec (pick .stackUngateComplete .crownUngateComplete) s = .next t ∧ t.cores = s.cores ∧
      (g.req = true ∨ (∀ c ∈ gateCtxs st whole, (s.ctx c).frz = none ∨ ∃ f, goes c f) → SameBytes s t) ∧
      (gateOf t st whole).gated = false ∧ (gateOf t st whole).ungating = false ∧ (g.req = true → starts t) ∧
      (g.req = false → ∀ c ∈ gateCtxs st whole, ∀ f, goes c f → let p := s.partOf c
        ∃ e ∈ t.agenda, ∃ n : Nat, e.clk = .part p ∧ e.due = s.partClk p + n ∧ e.arg = 2 ^ 40 + c ∧ e.act = .jobRestart ∧
          4096 ≤ n ∧ n < 69632 ∧ (s.dom p + n - f.f) % 65536 = 0)) ∧
    (∀ n < 256, s.probe = false → s.arg = (if whole then 2 ^ 41 else 2 ^ 40) + n → stepAtF s (gateCtxs n whole) = none →
      dogAtF s (gateCtxs n whole) = none → ∃ t, exec .preemptionStop s = .next t ∧ t.cores = s.cores ∧
        ((∀ c ∈ gateCtxs n whole, (s.ctx c).frz = none) → SameBytes s t) ∧ ∀ c ∈ gateCtxs n whole, (s.ctx c).job ≠ 0 → (s.ctx c).frz = none →
        ∃ z, (t.ctx c).frz = some z ∧ z.state = if pastPending (s.ctx c) then 12#5 else 4#5)

/-! ### Management (R40, R41, R108, R110, R140, R141, R150, R159, R165, R171, R424, R428 to R438) -/

/-- System software's commands. A block that a job holds is neither scrubbed nor moved to a world; a scrub leaves zeros with the slot's
world bit and, in a context, the registers of reset; an invalidation waits for its holders and 64 cycles more, but not for one that freezes,
which is revoked; the tick period is kept within 2^8 to 2^16 and changes at a multiple of 65,536 cycles while no job is held; the host reads
and writes far memory in channels without an owner, and reads the queue maps in its register window, whose other bytes are open (log 113); a
window map entry changes only for slabs no running job uses; the event queue drops what the host consumed and takes waiting events while
fewer than 4,096 are held; measurement, version and attestation follow R430 to R435 (the window of a fuse write, the signature and the
ciphertext are open, log 8 and log 9). The answers 0 and 1 (log 84), what the root ports refuse (log 107), the world of a far block (log
33), the scrub time of small blocks (log 19) and an attestation for an unknown job (log 76) are the model's as well. -/
def Obligations.ManagementEventsTakeEffect : Prop :=
  (∀ (s : State) (b : HwBlock) (w : Bool),
    (s.held b = true ∨ blockIs b = false → exec (.scrubRequestEnqueue b) s = .next { s with mailbox := 1 } ∧
      exec (.worldMapWrite b w) s = .next { s with secBox := 1 }) ∧
    (s.held b = false → blockIs b = true → ∀ i ∈ [Instr.scrubRequestEnqueue b, .worldMapWrite b w], ∃ t, exec i s = .next t ∧
      SameData s t ∧ b ∈ t.refused ∧ (∃ r ∈ t.scrubs ++ t.scrubWait, r.blk = b) ∧ (i = .scrubRequestEnqueue b → t.mailbox = 0) ∧
      (i = .worldMapWrite b w → t.secBox = 0 ∧ t.worldOf b = w))) ∧
  (∀ (s : State) (st n c : Nat),
    let lo := spadAddr st (262144 * n)
    (∃ t, exec (.scrubComplete (.slab st n)) s = .next t ∧ t.cores = s.cores ∧ (∀ a, lo ≤ a → a < lo + 262144 → t.byte a = 0#8) ∧
      (∀ a, a < lo ∨ lo + 262144 ≤ a → t.byte a = s.byte a) ∧
      ∀ i < 64, t.slot (6144 * st + 64 * n + i) = { SlotMeta.init with world := s.worldOf (.slab st n) }) ∧
    (∃ t, exec (.scrubComplete (.context c)) s = .next t ∧ SameBytes s t ∧ ∀ col < 16, t.core c col = CoreCtx.init) ∧
    (∃ t, exec (.scrubComplete (.channel n)) s = .next t ∧ t.cores = s.cores ∧ ∀ a, t.byte a =
      if ∃ r ∈ s.extOf (.channel n) true, tBase + 4096 * r.1 ≤ a ∧ a < tBase + 4096 * r.2.1 then 0#8 else s.byte a) ∧
    ((∀ r ∈ s.scrubs, r.blk = .slab st n → r.started = true) → (∀ r ∈ s.scrubWait, r.blk ≠ .slab st n) →
      ∃ t, exec (.scrubComplete (.slab st n)) s = .next t ∧ .slab st n ∉ t.refused)) ∧
  (∀ (s : State) (j n : Nat),
    let saved := fun (k : Nat) => (s.job k).state = .preempted ∨ ∃ c ∈ s.ctxsOf k, (s.ctx c).frz.isSome = true
    let begins := fun (i : Instr) (k : Nat) (t : State) => exec i s = .next t ∧ (¬saved k → SameData s t) ∧ t.mailbox = 0 ∧
      ∃ v, t.invals = s.invals ++ [v] ∧ (∀ c ∈ v.holders, (s.ctx c.ctx).frz = none) ∧
        ∃ e ∈ t.agenda, e.cur = Cursor.none ∧ e.due = s.now + 1 ∧ e.arg = v.id ∧ e.act = .invalidationComplete
    (s.arg ≠ 1 → ∃ t, begins (.invalidateRangeEntry j n) j t ∧
      (n < 16 → ∃ e ∈ t.agenda, s.now < e.due ∧ e.arg = 1 ∧ e.act = .invalidateRangeEntry j n)) ∧
    (let r := recRt (s.job j).record
     s.arg = 1 → ∃ t, exec (.invalidateRangeEntry j n) s = .next t ∧ SameData s t ∧
      ((s.chan (256 + r / 2 ^ 36)).owner.isSome = true → t.ranges = s.ranges ∧
        ∃ e ∈ t.agenda, e.due = s.now + 1 ∧ e.arg = 1 ∧ e.act = .invalidateRangeEntry j n) ∧
      ((s.chan (256 + r / 2 ^ 36)).owner = none → ∀ row l, s.ranges.get none row = some (j, l) →
        t.ranges.get none row = some (j, l.set n (s.rangeEnt r n)))) ∧
    (∃ t, begins (.invalidatePage j n) j t ∧ ∀ row, ∀ p ∈ t.pages.get [] row, p.job = j → n * 2 ^ 18 / 2 ^ p.size ≠ p.page) ∧
    (∃ t, begins .invalidateJob s.arg t ∧ ∀ row, ∀ p ∈ t.pages.get [] row, p.job ≠ s.arg) ∧
    (s.cur = Cursor.none → s.arg < 2 ^ 40 → ∀ v, s.invals.find? (fun i => i.id == s.arg) = some v →
      ((∀ c ∈ v.holders, stillHolds s c = true → (s.ctx c.ctx).frz = none) →
        ∃ t, exec .invalidationComplete s = .next t ∧ SameData s t ∧ ∃ e ∈ t.agenda, e.act = .invalidationComplete ∧
          ((∃ c ∈ v.holders, stillHolds s c = true) → e.due = s.now + 1 ∧ e.arg = s.arg) ∧
          ((∀ c ∈ v.holders, stillHolds s c = false) → e.due = s.now + 64 ∧ e.arg = 2 ^ 40 + s.arg)) ∧
      ∃ t, exec .invalidationComplete s = .next t ∧ ∀ w ∈ s.waiting, w.cur ∈ v.holders → waitTags w ≠ [] →
        (s.ctx w.cur.ctx).frz.isSome = true → w ∉ t.waiting ∧ ∃ f, (t.ctx w.cur.ctx).frz = some f ∧
          ∃ e, (1, e) ∈ f.items ∧ e.cur = w.cur ∧ e.act = .invalidationComplete) ∧
    (s.cur = Cursor.none → 2 ^ 40 ≤ s.arg → exec .invalidationComplete s =
      .next { s with invals := s.invals.filter fun i => i.id != s.arg - 2 ^ 40 }) ∧
    (s.cur ≠ Cursor.none → exec .invalidationComplete s = .next (s.takeDeferred s.cur s.cur.slot 5 0))) ∧
  (∀ (s : State) (x : Word) (lg : Nat) (ps : List (Nat × List Nat × Int)),
    let known := ∀ p ∈ ps, ∀ m ∈ p.2.1, m < 2 ^ 14
    (anyJob s = true → exec (.tickRegisterWrite x) s = .next { s with mailbox := 1 }) ∧
    (anyResident s = true → exec (.domainAlignment x lg ps) s = .next { s with mailbox := 1 }) ∧
    (anyJob s = false → ∃ t, exec (.tickRegisterWrite x) s = .next t ∧ SameData s t ∧ t.mailbox = 0 ∧ t.tickNow = s.tickNow ∧
      t.tickLog2 = max 8 (min 16 (x.toNat % 32)) ∧ t.tickBusy = true ∧ ∃ e ∈ t.agenda, e.clk = .chip ∧
        (s.cycle.toNat + (e.due - s.now)) % 65536 = 0 ∧ s.now < e.due ∧ e.due ≤ s.now + 65536 ∧ e.act = .tickPeriodChange) ∧
    exec .tickPeriodChange s = .next { s with tickNow := s.tickLog2, tickBusy := false } ∧
    (anyResident s = false → lg = s.tickNow → known → ∃ t, exec (.domainAlignment x lg ps) s = .next t ∧ SameData s t ∧ t.mailbox = 0 ∧
      t.cycle = x ∧ ∀ p, ps = [p] → (t.part p.1).members = p.2.1 ∧ (t.part p.1).origin = p.2.2) ∧
    (lg ≠ s.tickNow ∨ ¬known → exec (.domainAlignment x lg ps) s = .next { s with mailbox := 1 })) ∧
  (∀ (s : State) (who : HostUnit) (a n val : Nat) (wr : Bool) (rq : RootReq),
    let out := match who with
      | .hart h => 64 ≤ h
      | .rootPort r => 4 ≤ r ∨ s.bootFail.isSome = true ∨ .root r ∈ s.refused ∨ 2 ^ 41 < a + n ∨
          rq ∉ [RootReq.dma true, .dma false] ∨ (s.worldOf (.root r) = true ∧ rq ≠ .dma true)
    (out → exec (.hostFarMemoryAccess ⟨who, wr, rq⟩ a n val) s = .next { s with mailbox := 1 }) ∧
    (¬out →
      (2 ^ 41 < a + n → ¬(windowBase ≤ a ∧ a + n ≤ windowBase + 257 * 4096) →
        exec (.hostFarMemoryAccess ⟨who, wr, rq⟩ a n val) s = .fault .noAddress) ∧
      (∀ v < 256, a = windowBase + 4096 * (v + 1) → n = 8 → exec (.hostFarMemoryAccess ⟨who, true, rq⟩ a n val) s = .next s ∧
        ∃ t, exec (.hostFarMemoryAccess ⟨who, false, rq⟩ a n val) s = .next t ∧ SameData s t ∧
          t.readBack.get none (hostKey who) = some (s.qmap.get 0#64 v).toNat) ∧
      (a + n ≤ 2 ^ 41 → (∃ b ∈ farBlocks a n, (s.chan (256 + b / 16777216)).owner.isSome = true) →
        ∃ t, exec (.hostFarMemoryAccess ⟨who, wr, rq⟩ a n val) s = .next t ∧ SameData s t ∧ ∃ e ∈ t.agenda, e.due = s.now + 1 ∧
          e.act = .hostFarMemoryAccess ⟨who, wr, rq⟩ a n val) ∧
      (a + n ≤ 2 ^ 41 → (∀ b ∈ farBlocks a n, (s.chan (256 + b / 16777216)).owner = none ∧ farSecure s b = false) →
        (∃ t, exec (.hostFarMemoryAccess ⟨who, true, rq⟩ a n val) s = .next t ∧ t.cores = s.cores ∧
          (n ≠ 0 → t.load (fBase + a) n = val % 2 ^ (8 * n)) ∧ ∀ y, y < fBase + a ∨ fBase + a + n ≤ y → t.byte y = s.byte y) ∧
        ∃ t, exec (.hostFarMemoryAccess ⟨who, false, rq⟩ a n val) s = .next t ∧ SameData s t ∧
          t.readBack.get none (hostKey who) = some (s.load (fBase + a) n)))) ∧
  (∀ (s : State) (w n : Nat) (e : Option (Nat × Nat × Bool)) (v : Word) (img : List (BitVec 8)) (vf : Option Nat) (job : Nat)
      (a : BitVec 512) (kem : Option (List (BitVec 8))),
    let used := fun (x : Option (Nat × Nat × Bool)) => match x with
      | some (st, slab, _) => slabUsed s st slab
      | none => false
    let fits := match e with
      | some (st, slab, _) => decide (st < 256) && decide (slab < 96)
      | none => true
    ((w < 4096 ∧ fits = true ∧ used e = false ∧ used (s.winMap.get none w) = false) → ∃ t, exec (.domainWindowMapWrite w e) s = .next t ∧
      SameData s t ∧ t.mailbox = 0 ∧ ∀ k, t.winMap.get none k = if k = w then e else s.winMap.get none k) ∧
    (¬(w < 4096 ∧ fits = true ∧ used e = false ∧ used (s.winMap.get none w) = false) →
      exec (.domainWindowMapWrite w e) s = .next { s with mailbox := 1 }) ∧
    exec .hostEventHeadAdvance s = .next { s with events := s.events.drop s.arg } ∧
    (∃ t, exec .waitingEventEntry s = .next t ∧ SameData s t ∧ (s.events.length ≤ 4096 → t.events.length ≤ 4096) ∧
      (∀ x ∈ s.events, x ∈ t.events) ∧
      (s.dropped ≠ 0 → s.events.length < 4096 →
        mkEvent 7 0 0 0 0 0#64 0#31 s.cycle 0#64 (BitVec.ofNat 64 s.dropped) 0#64 0#64 ∈ t.events) ∧
      ∀ k x l, s.waitEv = (k, x) :: l →
        (s.evBlocked k x = false → s.events.length < 4095 → x ∈ t.events) ∧ (s.evBlocked k x = true → t.waitEv = s.waitEv)) ∧
    (v ∈ s.accepted → s.svn ≤ v → ∃ t, exec (.svnCommit v) s = .next t ∧ t = { s with svn := v, mailbox := 0 }) ∧
    (v ∉ s.accepted ∨ v < s.svn → exec (.svnCommit v) s = .next { s with mailbox := 1 }) ∧
    (5 ≤ n → n ≤ 7 → ∃ t, exec (.mrExtend n img) s = .next t ∧ SameData s t ∧ t.mailbox = 0 ∧
      ∀ k, t.mrs.get 0#512 k = if k = n then extendMr (s.mrs.get 0#512 n) img else s.mrs.get 0#512 k) ∧
    (n < 5 ∨ 7 < n → exec (.mrExtend n img) s = .next { s with mailbox := 1 }) ∧
    let known := ∀ v, vf = some v → v < 256 ∧ HwBlock.vf v ∉ s.refused
    (known → (job = 0 ∨ ((s.job job).record ≠ 0#2048 ∧ (s.job job).state ≠ .ending)) →
      ∃ t x, exec (.attestationRequest vf job a kem) s = .next t ∧
      SameData s t ∧ t.mailbox = 0 ∧ t.report = some x ∧ x.toNat % 2 ^ 32 = 1 ∧ x.toNat / 2 ^ 128 % 2 ^ 512 = a.toNat) ∧
    (¬ known ∨ (job ≠ 0 ∧ ((s.job job).record = 0#2048 ∨ (s.job job).state = .ending)) →
      exec (.attestationRequest vf job a kem) s = .next { s with mailbox := 1 }))

/-! ### Clocks and resets (R25, R34 to R36, R40 to R42, R81, R110, R132, R171 to R174, R225, R392, R427, R430, R439 to R441) -/

/-- A tick counts and lets REALIGN and WAITK go, a row context then goes on, timed if P; a step boundary without other modules or too many
transfers goes straight on, else it holds, sends what its step-timed exchanges move, performs its transfers in the last 1,792 cycles of the
hold, a beat in each bank and cycle, and ends no earlier than 2,048 cycles on; a step's start counts; a boundary held too long and one limit
exceeded for 1 ms stop the jobs of the partition; a hold ends with its cause; a reading at its limit and power above the cap hold their
partitions; cold reset zeroes every memory, warm reset and a trip keep DRAM and wait for the repair registers (R25, R35, R36, R40 to R42,
R81, R110, R132, R171 to R173, R392, R427, R439 to R441). The fixed delay of a boundary and a partition of one module (log 71), members and
origin (log 72), the numbers of the sensors (log 73), the free cycles of a thermal hold (log 17), a locked slot at a boundary (log 103), the
ports that a timeout logs (log 112) and what a trip keeps (log 74) are the model's. -/
def Obligations.ClockEventsTakeEffect : Prop :=
  (∀ s : State,
    let p := s.arg
    let x := s.part p
    let running := fun (c : Nat) => c ∈ runningIn s p
    -- its wait is not ended already, and it did not restart in this very cycle
    let fresh := fun (c : Nat) => s.releaseAt c = none ∧ (s.ctx c).since ≤ s.rowClk (rowOf c)
    (∃ t, exec .globalTick s = .next t ∧ SameData s t ∧ (t.part p).tick = (if 0 < s.dom p then x.tick + 1#64 else x.tick) ∧
      (∀ c, running c → fresh c → ∀ off, ((s.ctx c).wait = .realign off ∨
          ∃ k, (s.ctx c).wait = .waitTick k off ∧ k ≤ (if 0 < s.dom p then x.tick + 1#64 else x.tick)) →
        ∃ e ∈ t.agenda, e.clk = .row (rowOf c) ∧ e.due = s.rowClk (rowOf c) + off ∧ e.arg = c ∧ e.act = .realignRelease) ∧
      ∀ e ∈ t.agenda, e ∈ s.agenda ∨ (e.act = .realignRelease ∧ running e.arg ∧ fresh e.arg)) ∧
    (let w := (s.ctx s.arg).wait
     let waits := ∃ off k, w = .realign off ∨ w = .waitTick k off ∨ w = .waitStep k off
     ∃ t, exec .realignRelease s = .next t ∧ SameData s t ∧ t.agenda = s.agenda ∧
      (waits → (t.ctx s.arg).wait = .none ∧ (t.ctx s.arg).timed = !(isQ s.arg) ∧ (t.ctx s.arg).due = s.rowClk (rowOf s.arg)) ∧
      (¬ waits → ∀ c, t.ctx c = s.ctx c)) ∧
    (p < 64 → x.members = [] → excess s p = 0 → exec .domainStepBoundary s =
      .next (s.after (.part p) 1 Cursor.none (p + 128) .domainStepStart)) ∧
    (p < 64 → x.members ≠ [] ∨ excess s p ≠ 0 → ∃ t, exec .domainStepBoundary s = .next t ∧ SameData s t ∧
      (t.part p).boundary = some s.now ∧ (.boundary ∈ (t.part p).causes ∨ .boundary ∈ (t.part p).fresh) ∧
      (t.part p).ready = s.now + (if x.members = [] then 0 else 2048) ∧
      (∃ e ∈ t.agenda, e.due = s.now + 1 ∧ e.arg = p + 64 ∧ e.act = .domainStepBoundary) ∧
      (∃ e ∈ t.agenda, e.due = s.now + 4194305 ∧ e.arg = p + 64 * s.now ∧ e.act = .boundaryHoldTimeout) ∧
      (x.members = [] → ∃ e ∈ t.agenda, e.due = s.now + 1 ∧ e.arg = p + 64 ∧ e.act = .domainStepStart)) ∧
    (64 ≤ p → p < 128 → ∃ t, exec .domainStepBoundary s = .next t ∧ SameData s t ∧ ∀ r ∈ steppedOf s (p - 64), ∃ e ∈ t.agenda,
      e.clk = .chip ∧ e.due = s.now ∧ e.cur = r.2.cur ∧ e.arg = 128 + r.1 ∧ e.act = .domainStepBoundary) ∧
    (128 ≤ p → let k := (s.gent (p - 128)).dest
      (s.sideBad (localSide (s.peel k)) (s.peel k).n = true → exec .domainStepBoundary s = .next (s.failRemote k (s.peel k))) ∧
      (s.sideBad (localSide (s.peel k)) (s.peel k).n = false → ∃ t, exec .domainStepBoundary s = .next t ∧ SameData s t ∧
        t.peels = s.peels)) ∧
    (let q := s.arg % 64
     let y := s.part q
     let held := y.boundary.isSome = true ∧ (.boundary ∈ y.causes ∨ .boundary ∈ y.fresh)
     (s.arg < 128 → ¬held → exec .domainStepStart s = .next s) ∧
     (s.arg < 64 → held → ∃ t, exec .domainStepStart s = .next t ∧ SameData s t ∧ (t.part q).ready = max y.ready (s.now + 2047) ∧
       ∃ e ∈ t.agenda, e.clk = .chip ∧ e.due = s.now ∧ e.arg = q + 64 ∧ e.act = .domainStepStart) ∧
     (64 ≤ s.arg → s.arg < 128 → held → y.members ≠ [] →
       let u := if y.ready ≤ s.now + 1791 then boundaryCycle s q else s
       let waits := s.now < y.ready ∨ (u.part q).arrivals ≠ [] ∨ guardIn u q = true
       ∃ t, exec .domainStepStart s = .next t ∧ t.cores = s.cores ∧ SameBytes u t ∧
         (waits → t.parts = u.parts ∧ ∃ e ∈ t.agenda, e.clk = .chip ∧ e.due = s.now + 1 ∧ e.arg = s.arg ∧ e.act = .domainStepStart) ∧
         (¬ waits → (t.part q).arrivals = [] ∧ .boundary ∉ (t.part q).causes ∧ .boundary ∉ (t.part q).fresh ∧
           ∃ e ∈ t.agenda, e.clk = .part q ∧ e.due = s.partClk q + 1 ∧ e.arg = q + 128 ∧ e.act = .domainStepStart)) ∧
     (64 ≤ s.arg → s.arg < 128 → held → y.members = [] →
       (s.now < y.ready + excess s q ∨ guardIn s q = true → ∃ t, exec .domainStepStart s = .next t ∧ SameData s t ∧ t.parts = s.parts ∧
         ∃ e ∈ t.agenda, e.clk = .chip ∧ e.due = s.now + 1 ∧ e.arg = s.arg ∧ e.act = .domainStepStart) ∧
       (y.ready + excess s q ≤ s.now → guardIn s q = false → ∃ t, exec .domainStepStart s = .next t ∧ t.cores = s.cores ∧
         (t.part q).arrivals = [] ∧ .boundary ∉ (t.part q).causes ∧ .boundary ∉ (t.part q).fresh ∧
         ∃ e ∈ t.agenda, e.clk = .part q ∧ e.due = s.partClk q + 1 ∧ e.arg = q + 128 ∧ e.act = .domainStepStart)) ∧
     (128 ≤ s.arg →
       (s.stepDom q % 65536 ≠ 0 ∨ s.stepDom q ≤ 0 ∨ y.live = false → exec .domainStepStart s = .next s) ∧
       (s.stepDom q % 65536 = 0 → 0 < s.stepDom q → y.live = true → ∃ t, exec .domainStepStart s = .next t ∧ t.cores = s.cores ∧
         (y.boundary.isSome = true → SameBytes s t) ∧ (t.part q).step = y.step + 1#64 ∧ (t.part q).boundary = none ∧
         ∀ c ∈ runningIn s q, fresh c → ∀ k off, (s.ctx c).wait = .waitStep k off → k ≤ y.step + 1#64 →
           ∃ e ∈ t.agenda, e.clk = .row (rowOf c) ∧ e.due = s.rowClk (rowOf c) + off ∧ e.arg = c ∧ e.act = .realignRelease))) ∧
    (let stops := fun (t : State) (q : Nat) => ∀ r ∈ s.jobs.rows, r.2 = s.job r.1 → r.2.part = q → r.2.state = .running → r.2.stop = false →
        (t.job r.1).stop = true ∧ ∃ e ∈ t.agenda, e.due = s.now + 16 ∧ e.arg = r.1 ∧ e.act = .preemptionStop
     ((s.part (s.arg % 64)).boundary = some (s.arg / 64) → ∃ t, exec .boundaryHoldTimeout s = .next t ∧ SameData s t ∧ stops t (s.arg % 64)) ∧
     ((s.part (s.arg % 64)).boundary ≠ some (s.arg / 64) → exec .boundaryHoldTimeout s = .next s) ∧
     ((∃ l ∈ x.limits, l.2 + 3600000 ≤ s.now) → ∃ t, exec .thermalAlarm s = .next t ∧ SameData s t ∧ stops t p ∧ (t.part p).limits = []) ∧
     ((∀ l ∈ x.limits, s.now < l.2 + 3600000) → ∃ t, exec .thermalAlarm s = .next t ∧ SameData s t ∧ t.jobs = s.jobs ∧
       t.parts = s.parts ∧ (x.limits ≠ [] → ∃ e ∈ t.agenda, e.arg = p ∧ e.act = .thermalAlarm))) ∧
    (∀ c, guardIn s p = true → ∃ t, exec (.holdRunEnd p c) s = .next t ∧ SameData s t ∧ ∃ e ∈ t.agenda, e.due = s.now + 1 ∧
      e.act = .holdRunEnd p c) ∧
    (∀ c, guardIn s p = false → (∀ ch, c ≠ .replay ch) → ∃ t, exec (.holdRunEnd p c) s = .next t ∧ SameData s t ∧
      c ∉ (t.part p).causes ∧ c ∉ (t.part p).fresh) ∧
    (∃ t, exec .sensorSample s = .next t ∧ SameData s t ∧ (∀ n < 95, ∀ lim, sensorLimit n = some lim → lim ≤ Config.reading n s.now →
      ∀ q ∈ holdersFor s n, .thermal n ∈ (t.part q).causes ∨ .thermal n ∈ (t.part q).fresh)) ∧
    (∃ t, exec .powerEstimate s = .next t ∧ SameData s t ∧ (s.powerLimit.toNat < Config.power s.now → ∀ q ∈ liveParts s,
      Config.largestShare q s.now = true → .power ∈ (t.part q).causes ∨ .power ∈ (t.part q).fresh))) ∧
  (∀ (s : State) (q a : Nat) (r : Remote) (rest : List Remote),
    (s.part q).olds = [] → boundaryOrder (s.part q).arrivals = r :: rest → windowSlot s r = .ok a → remoteBusy s r a = false →
    beatBad s r a = false → (∀ d v, r.op ≠ .exchange d v) →
    (∀ x ∈ rest, x.secure = false ∧ arrivalBank s x = some (bankOfSlot (slotOf a))) → let t := boundaryCycle s q
    SameBytes (remotePerform s r a) t ∧
      (t.part q).arrivals = (if r.beat + 1 < remoteBeats r.op then [{ r with beat := r.beat + 1 }] else []) ++ rest) ∧
  (∀ s : State,
    let clean := fun (t : State) => (∀ c, (t.ctx c).job = 0) ∧ (∀ c col, t.core c col = CoreCtx.init) ∧ t.jobs.rows = [] ∧ t.svn = s.svn ∧
      ∀ n, (t.chan n).fuses = (s.chan n).fuses ∧ (t.chan n).owner = none
    let keepsDram := fun (t : State) => (∀ a, tBase ≤ a → t.byte a = s.byte a) ∧ (∀ a < tBase, t.byte a = 0#8) ∧ t.lines = s.lines ∧
      t.lineWorld = s.lineWorld ∧ t.now = s.now ∧ t.reloading = true
    (∃ t, exec .coldReset s = .next t ∧ clean t ∧ (∀ a, t.byte a = 0#8) ∧ t.now = 0 ∧ t.cycle = 0#64 ∧
      t.reloading = true ∧ t.queues.rows = [] ∧ t.events = []) ∧
    (s.arg ≠ 1 → ∃ t, exec .warmReset s = .next t ∧ clean t ∧ keepsDram t ∧ t.cycle = s.cycle ∧
      (∀ p, (t.part p).holds = (s.part p).holds) ∧ t.perf = s.perf ∧ t.queues.rows = [] ∧ t.events = []) ∧
    (s.arg = 1 → ∃ t, exec .warmReset s = .next t ∧ SameData s t ∧ t.reloading = false ∧
      ∀ n < 256, (t.chan n).soft = softOf (s.chan n).fuses) ∧
    (∃ t, exec .moduleTrip s = .next t ∧ clean t ∧ keepsDram t ∧ t.cycle = 0#64 ∧ t.qmap = s.qmap ∧
      ∀ q, (t.queue q).ents = (s.queue q).ents.filter fun e => e.status == 0#8 || e.status == 4#8))
end

