-- ==== Sys2Proof/Laws/Decode.lean ====
section
/-! SUPPORT. The fields of an instruction word: each reads back from the word that it was packed into. -/

namespace Sys2Proof

theorem word_field (h : Hd) (m : BitVec 6) (b : BitVec 21) (s n : Nat) (hs : s + n ≤ 21) :
    (word h m b).extractLsb' s n = b.extractLsb' s n := by
  ext i hi
  simp [word, bit, BitVec.getElem_extractLsb']
  grind

theorem word_bit (h : Hd) (m : BitVec 6) (b : BitVec 21) (i : Nat) (hi : i < 21) : (word h m b).getLsbD i = b.getLsbD i := by
  simp [word, bit]
  grind

theorem majOf_word (h : Hd) (m : BitVec 6) (b : BitVec 21) : majOf (word h m b) = m.toNat := by
  unfold majOf
  congr 1
  ext i hi
  simp [word, bit, BitVec.getElem_extractLsb']
  grind

theorem hdOf_word (h : Hd) (m : BitVec 6) (b : BitVec 21) : hdOf (word h m b) = h := by
  have e : (word h m b).extractLsb' 21 3 = h.p := by
    ext i hi
    simp [word, bit, BitVec.getElem_extractLsb']
    grind
  cases h
  simp only [hdOf, Hd.mk.injEq]
  refine ⟨?_, ?_, e⟩
  · unfold word bit
    rw [BitVec.getLsbD_append]
    simp
  · unfold word bit
    rw [BitVec.getLsbD_append, if_pos (by decide), BitVec.getLsbD_append, if_pos (by decide), BitVec.getLsbD_append]
    simp

theorem field_low {a b : Nat} (x : BitVec a) (y : BitVec b) (s n : Nat) (h : s + n ≤ b) :
    (x ++ y).extractLsb' s n = y.extractLsb' s n := by
  ext i hi
  simp [BitVec.getLsbD_append, BitVec.getElem_extractLsb']
  grind

theorem field_high {a b : Nat} (x : BitVec a) (y : BitVec b) (s n : Nat) (h : b ≤ s) :
    (x ++ y).extractLsb' s n = x.extractLsb' (s - b) n := by
  ext i hi
  simp [BitVec.getLsbD_append, BitVec.getElem_extractLsb']
  grind

theorem field_whole {a : Nat} (x : BitVec a) : x.extractLsb' 0 a = x := by
  ext i hi
  simp

theorem bit_low {a b : Nat} (x : BitVec a) (y : BitVec b) (s : Nat) (h : s < b) : (x ++ y).getLsbD s = y.getLsbD s := by
  simp [BitVec.getLsbD_append, h]

theorem bit_high {a b : Nat} (x : BitVec a) (y : BitVec b) (s : Nat) (h : b ≤ s) : (x ++ y).getLsbD s = x.getLsbD (s - b) := by
  simp [BitVec.getLsbD_append]
  omega

theorem bit_zero (b : Bool) : (bit b).getLsbD 0 = b := by simp [bit]

end Sys2Proof
end

