-- ==== Sys2Proof/Laws/Memory.lean ====
section
/-! SUPPORT. The laws of flat memory: a read after a write gives the written byte, a write leaves every other byte alone,
and every memory operation keeps the canonical form. -/

namespace Sys2Proof.Machine

open Sys2Proof

theorem memWfFrom_mono {b c : Nat} (h : b ≤ c) {l : List Host.Cell} (w : memWfFrom c l = true) : memWfFrom b l = true := by
  cases l with
  | nil => rfl
  | cons p r =>
    simp only [memWfFrom, Bool.and_eq_true, decide_eq_true_eq] at w ⊢
    exact ⟨⟨Nat.le_trans h w.1.1, w.1.2⟩, w.2⟩

theorem memByte_lt {b a : Nat} (h : a < b) {l : List Host.Cell} (w : memWfFrom b l = true) : memByte l a = 0#8 := by
  cases l with
  | nil => rfl
  | cons p r =>
    simp only [memWfFrom, Bool.and_eq_true, decide_eq_true_eq] at w
    have : a < p.1 := Nat.lt_of_lt_of_le h w.1.1
    simp [memByte, this, Nat.ne_of_lt this]

theorem memBelow_append_wf {b c : Nat} {m l : List Host.Cell} (hb : b ≤ c) (wm : memWfFrom b m = true)
    (wl : memWfFrom c l = true) : memWfFrom b (memBelow m c ++ l) = true := by
  induction m generalizing b with
  | nil => exact memWfFrom_mono hb wl
  | cons p r ih =>
    simp only [memWfFrom, Bool.and_eq_true, decide_eq_true_eq] at wm
    unfold memBelow
    split
    · rename_i hk
      simp only [List.cons_append, memWfFrom, Bool.and_eq_true, decide_eq_true_eq]
      exact ⟨wm.1, ih hk wm.2⟩
    · exact memWfFrom_mono hb wl

theorem memFrom_wf {b c : Nat} {m : List Host.Cell} (wm : memWfFrom b m = true) : memWfFrom c (memFrom m c) = true := by
  induction m generalizing b with
  | nil => rfl
  | cons p r ih =>
    simp only [memWfFrom, Bool.and_eq_true, decide_eq_true_eq] at wm
    unfold memFrom
    split
    · exact ih wm.2
    · simp only [memWfFrom, Bool.and_eq_true, decide_eq_true_eq]
      exact ⟨⟨by omega, wm.1.2⟩, wm.2⟩

theorem cellsOf_append_wf {n a x : Nat} {l : List Host.Cell} (wl : memWfFrom (a + n) l = true) :
    memWfFrom a (cellsOf n a x ++ l) = true := by
  induction n generalizing a x with
  | zero => simpa [cellsOf] using wl
  | succ n ih =>
    have w := ih (a := a + 1) (x := x / 256) (by rwa [Nat.add_right_comm, Nat.add_assoc])
    unfold cellsOf
    simp only
    split
    · exact memWfFrom_mono (Nat.le_succ a) w
    · rename_i hx
      simp only [List.cons_append, memWfFrom, Bool.and_eq_true, decide_eq_true_eq]
      refine ⟨⟨Nat.le_refl a, fun h => hx ?_⟩, w⟩
      have := congrArg BitVec.toNat h
      simpa using this

theorem memByte_below {b c a : Nat} {m l : List Host.Cell} (wm : memWfFrom b m = true) (wl : memWfFrom c l = true) :
    memByte (memBelow m c ++ l) a = if a < c then memByte m a else memByte l a := by
  induction m generalizing b with
  | nil =>
    simp only [memBelow, List.nil_append]
    split
    · rename_i h; simp [memByte_lt h wl, memByte]
    · rfl
  | cons p r ih =>
    obtain ⟨k, v⟩ := p
    simp only [memWfFrom, Bool.and_eq_true, decide_eq_true_eq] at wm
    unfold memBelow
    split
    · rename_i hk
      simp only [List.cons_append, memByte]
      by_cases h1 : a = k
      · simp [h1, hk]
      · by_cases h2 : a < k
        · simp [h1, h2, Nat.lt_trans h2 hk]
        · simp only [h1, h2, if_false]
          exact ih wm.2
    · rename_i hk
      simp only [List.nil_append]
      split
      · rename_i h
        have hak : a < k := Nat.lt_of_lt_of_le h (Nat.le_of_not_lt hk)
        simp [memByte_lt h wl, memByte, hak, Nat.ne_of_lt hak]
      · rfl

theorem memByte_from {b c a : Nat} {m : List Host.Cell} (wm : memWfFrom b m = true) :
    memByte (memFrom m c) a = if a < c then 0#8 else memByte m a := by
  induction m generalizing b with
  | nil => simp [memFrom, memByte]
  | cons p r ih =>
    obtain ⟨k, v⟩ := p
    have w0 := wm
    simp only [memWfFrom, Bool.and_eq_true, decide_eq_true_eq] at wm
    unfold memFrom
    split
    · rename_i hk
      rw [ih wm.2]
      split
      · rfl
      · rename_i h
        simp only [memByte]
        have h1 : a ≠ k := by omega
        have h2 : ¬ a < k := by omega
        simp [h1, h2]
    · rename_i hk
      split
      · rename_i h
        have : a < k := by omega
        simp [memByte, this, Nat.ne_of_lt this]
      · rfl

theorem memByte_cells {n b x a : Nat} {l : List Host.Cell} (wl : memWfFrom (b + n) l = true) :
    memByte (cellsOf n b x ++ l) a =
      if a < b then 0#8 else if a < b + n then BitVec.ofNat 8 (x / 256 ^ (a - b)) else memByte l a := by
  induction n generalizing b x with
  | zero =>
    simp only [cellsOf, List.nil_append, Nat.add_zero]
    split
    · rename_i h; exact memByte_lt (by omega) wl
    · rfl
  | succ n ih =>
    have wl' : memWfFrom (b + 1 + n) l = true := by rwa [Nat.add_right_comm, Nat.add_assoc]
    have e := ih (b := b + 1) (x := x / 256) wl'
    have key : ∀ a, b < a → (x / 256) / 256 ^ (a - (b + 1)) = x / 256 ^ (a - b) := by
      intro a h
      rw [Nat.div_div_eq_div_mul, ← Nat.pow_succ']
      congr 2
      omega
    unfold cellsOf
    simp only
    split
    · rename_i hx
      rw [e]
      rcases Nat.lt_trichotomy a b with h | h | h
      · simp [h, Nat.lt_succ_of_lt h]
      · subst h
        have : BitVec.ofNat 8 x = 0#8 := by
          apply BitVec.eq_of_toNat_eq; simpa using hx
        simp [this]
      · have h1 : ¬ a < b + 1 := by omega
        have h2 : ¬ a < b := by omega
        have h3 : (a < b + 1 + n) = (a < b + (n + 1)) := by rw [Nat.add_right_comm, Nat.add_assoc]
        simp only [h1, h2, if_false, key a h, h3]
    · simp only [List.cons_append, memByte]
      rcases Nat.lt_trichotomy a b with h | h | h
      · simp [h, Nat.ne_of_lt h]
      · subst h; simp
      · have h0 : a ≠ b := by omega
        have h2 : ¬ a < b := by omega
        have h1 : ¬ a < b + 1 := by omega
        have h3 : (a < b + 1 + n) = (a < b + (n + 1)) := by rw [Nat.add_right_comm, Nat.add_assoc]
        simp only [h0, h2, if_false, e, h1, key a h, h3]

/-- A read after a write: the written byte inside the range, the old byte outside. -/
theorem memByte_memWrite {m : List Host.Cell} (w : Memory.wf m = true) (b n x a : Nat) :
    memByte (memWrite m b n x) a =
      if b ≤ a ∧ a < b + n then BitVec.ofNat 8 (x / 256 ^ (a - b)) else memByte m a := by
  unfold memWrite
  have wf := memFrom_wf (c := b + n) w
  rw [List.append_assoc, memByte_below w (cellsOf_append_wf wf), memByte_cells wf, memByte_from w]
  by_cases h1 : a < b
  · simp [h1, Nat.not_le_of_lt h1]
  · by_cases h2 : a < b + n
    · simp [h1, h2, Nat.le_of_not_lt h1]
    · simp [h1, h2]

theorem memWrite_wf {m : List Host.Cell} (w : Memory.wf m = true) (b n x : Nat) : Memory.wf (memWrite m b n x) = true := by
  unfold memWrite Memory.wf
  rw [List.append_assoc]
  exact memBelow_append_wf (Nat.zero_le b) w (cellsOf_append_wf (memFrom_wf w))

theorem memClear_wf {m : List Host.Cell} (w : Memory.wf m = true) (a b : Nat) : Memory.wf (memClear m a b) = true := by
  unfold memClear Memory.wf
  exact memBelow_append_wf (Nat.zero_le a) w (memWfFrom_mono (Nat.le_max_left a b) (memFrom_wf w))

/-- Clearing a range. -/
theorem memByte_memClear {m : List Host.Cell} (w : Memory.wf m = true) (b c a : Nat) :
    memByte (memClear m b c) a = if b ≤ a ∧ a < c then 0#8 else memByte m a := by
  unfold memClear
  have wf := memFrom_wf (c := Nat.max b c) w
  rw [memByte_below w (memWfFrom_mono (Nat.le_max_left b c) wf), memByte_from w]
  have hm : Nat.max b c = max b c := rfl
  by_cases h1 : a < b
  · simp [h1, Nat.not_le_of_lt h1]
  · by_cases h2 : a < c
    · have : a < Nat.max b c := by rw [hm]; omega
      simp [h1, h2, this, Nat.le_of_not_lt h1]
    · have : ¬ a < Nat.max b c := by rw [hm]; omega
      simp [h1, h2, this]

theorem reset_memory_wf : Memory.wf State.reset.mem = true := rfl

theorem memBelow_byte {b c a : Nat} {m : List Host.Cell} (wm : memWfFrom b m = true) :
    memByte (memBelow m c) a = if a < c then memByte m a else 0#8 := by
  have := memByte_below (a := a) wm (l := []) (c := c) rfl
  simpa [memByte] using this

theorem memBelow_wf {b c : Nat} {m : List Host.Cell} (wm : memWfFrom b m = true) : memWfFrom b (memBelow m c) = true := by
  induction m generalizing b with
  | nil => rfl
  | cons p r ih =>
    obtain ⟨k, v⟩ := p
    simp only [memWfFrom, Bool.and_eq_true, decide_eq_true_eq] at wm
    unfold memBelow
    split
    · simp only [memWfFrom, Bool.and_eq_true, decide_eq_true_eq]
      exact ⟨wm.1, ih wm.2⟩
    · rfl

theorem memBelow_keys {c : Nat} {m : List Host.Cell} : ∀ p ∈ memBelow m c, p.1 < c := by
  induction m with
  | nil => simp [memBelow]
  | cons q r ih =>
    obtain ⟨k, v⟩ := q
    unfold memBelow
    split
    · rename_i hk
      intro p hp
      rcases List.mem_cons.1 hp with rfl | hp
      · exact hk
      · exact ih p hp
    · simp

theorem cellsVal_eq {a b n : Nat} {l : List Host.Cell} (w : memWfFrom b l = true) (hab : a ≤ b)
    (hk : ∀ p ∈ l, p.1 < a + n) :
    cellsVal a l = ∑ i ∈ Finset.range n, (memByte l (a + i)).toNat * 2 ^ (8 * i) := by
  induction l generalizing b with
  | nil => simp [cellsVal, memByte]
  | cons q r ih =>
    obtain ⟨k, v⟩ := q
    simp only [memWfFrom, Bool.and_eq_true, decide_eq_true_eq] at w
    have hkn : k < a + n := hk (k, v) (by simp)
    have hak : a ≤ k := Nat.le_trans hab w.1.1
    rw [cellsVal, ih w.2 (Nat.le_succ_of_le hak) fun p hp => hk p (List.mem_cons_of_mem _ hp)]
    have e : ∀ i, (memByte ((k, v) :: r) (a + i)).toNat * 2 ^ (8 * i) =
        (if i = k - a then v.toNat * 2 ^ (8 * (k - a)) else 0) + (memByte r (a + i)).toNat * 2 ^ (8 * i) := by
      intro i
      by_cases h : a + i = k
      · have hi : i = k - a := by omega
        have z : memByte r (a + i) = 0#8 := memByte_lt (by omega) w.2
        rw [z]
        have hs : a + (k - a) = k := by omega
        simp [memByte, hi, hs]
      · have hi : i ≠ k - a := by omega
        simp only [memByte, h, hi, if_false, Nat.zero_add]
        split
        · rename_i hlt
          rw [memByte_lt (Nat.lt_succ_of_lt hlt) w.2]
        · rfl
    simp only [e, Finset.sum_add_distrib]
    congr 1
    rw [Finset.sum_ite_eq']
    simp [show k - a < n by omega]

/-- A range reads as the little-endian sum of its bytes (R7). -/
theorem memRead_eq {m : List Host.Cell} (w : Memory.wf m = true) (a n : Nat) :
    memRead m a n = ∑ i ∈ Finset.range n, (memByte m (a + i)).toNat * 2 ^ (8 * i) := by
  have wf : memWfFrom a (memFrom m a) = true := memFrom_wf w
  unfold memRead
  rw [cellsVal_eq (memBelow_wf wf) (Nat.le_refl a) memBelow_keys]
  refine Finset.sum_congr rfl fun i hi => ?_
  rw [memBelow_byte wf, memByte_from w]
  simp [Finset.mem_range.1 hi]

/-- A canonical list keeps its form in a store of the state. -/
theorem State.store_wf {s : State} (w : Memory.wf s.mem = true) (a n x : Nat) : Memory.wf (s.store a n x).mem = true :=
  memWrite_wf w a n x

theorem State.store_byte {s : State} (w : Memory.wf s.mem = true) (a n x b : Nat) :
    (s.store a n x).byte b = if a ≤ b ∧ b < a + n then BitVec.ofNat 8 (x / 256 ^ (b - a)) else s.byte b :=
  memByte_memWrite w a n x b

end Sys2Proof.Machine
end

