-- ==== Sys2Proof/Laws/PerInstr.lean ====
section
/-! SUPPORT. One lemma per constructor: exactly the words of a bundle have an encoding (R260). -/

namespace Sys2Proof.Laws.HasWord

open Sys2Proof Sys2Proof.Machine

/-- An instruction has a word exactly where a bundle can hold it. -/
def Statement (i : Instr) : Prop := (encode i).isSome = (wordInfo 0 i).isSome

theorem add (h : Hd) (d a b : BitVec 5) (w : Bool) : Statement (.add h d a b w) := rfl
theorem sub (h : Hd) (d a b : BitVec 5) (w : Bool) : Statement (.sub h d a b w) := rfl
theorem mul (h : Hd) (d a b : BitVec 5) (w : Bool) : Statement (.mul h d a b w) := rfl
theorem mulh (h : Hd) (d a b : BitVec 5) (w : Bool) : Statement (.mulh h d a b w) := rfl
theorem div (h : Hd) (d a b : BitVec 5) (w : Bool) : Statement (.div h d a b w) := rfl
theorem divu (h : Hd) (d a b : BitVec 5) (w : Bool) : Statement (.divu h d a b w) := rfl
theorem rem (h : Hd) (d a b : BitVec 5) (w : Bool) : Statement (.rem h d a b w) := rfl
theorem remu (h : Hd) (d a b : BitVec 5) (w : Bool) : Statement (.remu h d a b w) := rfl
theorem and (h : Hd) (d a b : BitVec 5) (w : Bool) : Statement (.and h d a b w) := rfl
theorem or (h : Hd) (d a b : BitVec 5) (w : Bool) : Statement (.or h d a b w) := rfl
theorem xor (h : Hd) (d a b : BitVec 5) (w : Bool) : Statement (.xor h d a b w) := rfl
theorem shl (h : Hd) (d a b : BitVec 5) (w : Bool) : Statement (.shl h d a b w) := rfl
theorem shr (h : Hd) (d a b : BitVec 5) (w : Bool) : Statement (.shr h d a b w) := rfl
theorem sar (h : Hd) (d a b : BitVec 5) (w : Bool) : Statement (.sar h d a b w) := rfl
theorem min (h : Hd) (d a b : BitVec 5) (w : Bool) : Statement (.min h d a b w) := rfl
theorem max (h : Hd) (d a b : BitVec 5) (w : Bool) : Statement (.max h d a b w) := rfl
theorem clz (h : Hd) (d a : BitVec 5) (w : Bool) : Statement (.clz h d a w) := rfl
theorem popc (h : Hd) (d a : BitVec 5) (w : Bool) : Statement (.popc h d a w) := rfl
theorem addi (h : Hd) (d a : BitVec 5) (i : BitVec 8) : Statement (.addi h d a i) := rfl
theorem muli (h : Hd) (d a : BitVec 5) (i : BitVec 8) : Statement (.muli h d a i) := rfl
theorem andi (h : Hd) (d a : BitVec 5) (i : BitVec 8) : Statement (.andi h d a i) := rfl
theorem ori (h : Hd) (d a : BitVec 5) (i : BitVec 8) : Statement (.ori h d a i) := rfl
theorem xori (h : Hd) (d a : BitVec 5) (i : BitVec 8) : Statement (.xori h d a i) := rfl
theorem shli (h : Hd) (d a : BitVec 5) (i : BitVec 6) : Statement (.shli h d a i) := rfl
theorem shri (h : Hd) (d a : BitVec 5) (i : BitVec 6) : Statement (.shri h d a i) := rfl
theorem sari (h : Hd) (d a : BitVec 5) (i : BitVec 6) : Statement (.sari h d a i) := rfl
theorem li (h : Hd) (d : BitVec 5) (i : BitVec 16) : Statement (.li h d i) := rfl
theorem lis (h : Hd) (d : BitVec 5) (i : BitVec 16) : Statement (.lis h d i) := rfl
theorem fadd (h : Hd) (d a b : BitVec 5) (w : Bool) : Statement (.fadd h d a b w) := rfl
theorem fsub (h : Hd) (d a b : BitVec 5) (w : Bool) : Statement (.fsub h d a b w) := rfl
theorem fmul (h : Hd) (d a b : BitVec 5) (w : Bool) : Statement (.fmul h d a b w) := rfl
theorem fma (h : Hd) (d a b : BitVec 5) (w : Bool) : Statement (.fma h d a b w) := rfl
theorem fdiv (h : Hd) (d a b : BitVec 5) (w : Bool) : Statement (.fdiv h d a b w) := rfl
theorem fsqrt (h : Hd) (d a : BitVec 5) (w : Bool) : Statement (.fsqrt h d a w) := rfl
theorem fmin (h : Hd) (d a b : BitVec 5) (w : Bool) : Statement (.fmin h d a b w) := rfl
theorem fmax (h : Hd) (d a b : BitVec 5) (w : Bool) : Statement (.fmax h d a b w) := rfl
theorem fcvtif (h : Hd) (d a b : BitVec 5) (w : Bool) : Statement (.fcvtif h d a b w) := rfl
theorem fcvtfi (h : Hd) (d a b : BitVec 5) (w : Bool) : Statement (.fcvtfi h d a b w) := rfl
theorem fcvtw (h : Hd) (d a : BitVec 5) (w : Bool) : Statement (.fcvtw h d a w) := rfl
theorem fclass (h : Hd) (d a : BitVec 5) (w : Bool) : Statement (.fclass h d a w) := rfl
theorem ld (h : Hd) (d a : BitVec 5) (i : BitVec 8) : Statement (.ld h d a i) := rfl
theorem lw (h : Hd) (d a : BitVec 5) (i : BitVec 8) : Statement (.lw h d a i) := rfl
theorem lwu (h : Hd) (d a : BitVec 5) (i : BitVec 8) : Statement (.lwu h d a i) := rfl
theorem st (h : Hd) (d a : BitVec 5) (i : BitVec 8) : Statement (.st h d a i) := rfl
theorem sw (h : Hd) (d a : BitVec 5) (i : BitVec 8) : Statement (.sw h d a i) := rfl
theorem amoadd (h : Hd) (o : BitVec 2) (d a b : BitVec 5) (w : Bool) : Statement (.amoadd h o d a b w) := rfl
theorem amoand (h : Hd) (o : BitVec 2) (d a b : BitVec 5) (w : Bool) : Statement (.amoand h o d a b w) := rfl
theorem amoor (h : Hd) (o : BitVec 2) (d a b : BitVec 5) (w : Bool) : Statement (.amoor h o d a b w) := rfl
theorem amoxor (h : Hd) (o : BitVec 2) (d a b : BitVec 5) (w : Bool) : Statement (.amoxor h o d a b w) := rfl
theorem amomin (h : Hd) (o : BitVec 2) (d a b : BitVec 5) (w : Bool) : Statement (.amomin h o d a b w) := rfl
theorem amomax (h : Hd) (o : BitVec 2) (d a b : BitVec 5) (w : Bool) : Statement (.amomax h o d a b w) := rfl
theorem amoswap (h : Hd) (o : BitVec 2) (d a b : BitVec 5) (w : Bool) : Statement (.amoswap h o d a b w) := rfl
theorem amocas (h : Hd) (o : BitVec 2) (d a b : BitVec 5) (w : Bool) : Statement (.amocas h o d a b w) := rfl
theorem j (h : Hd) (i : BitVec 13) : Statement (.j h i) := rfl
theorem jz (h : Hd) (a : BitVec 5) (i : BitVec 13) : Statement (.jz h a i) := rfl
theorem jnz (h : Hd) (a : BitVec 5) (i : BitVec 13) : Statement (.jnz h a i) := rfl
theorem jp (h : Hd) (a : BitVec 5) (i : BitVec 13) : Statement (.jp h a i) := rfl
theorem jany (s : Bool) (a : BitVec 5) (i : BitVec 13) : Statement (.jany s a i) := rfl
theorem jall (s : Bool) (a : BitVec 5) (i : BitVec 13) : Statement (.jall s a i) := rfl
theorem call (h : Hd) (a : BitVec 5) (i : BitVec 13) : Statement (.call h a i) := rfl
theorem ret (h : Hd) (a : BitVec 5) : Statement (.ret h a) := rfl
theorem loop (h : Hd) (a : BitVec 5) (i : BitVec 8) : Statement (.loop h a i) := rfl
theorem loopi (h : Hd) (d a : BitVec 5) (i : BitVec 8) : Statement (.loopi h d a i) := rfl
theorem lbrk (h : Hd) : Statement (.lbrk h) := rfl
theorem peq (h : Hd) (d a b : BitVec 5) (w : Bool) : Statement (.peq h d a b w) := rfl
theorem pne (h : Hd) (d a b : BitVec 5) (w : Bool) : Statement (.pne h d a b w) := rfl
theorem plt (h : Hd) (d a b : BitVec 5) (w : Bool) : Statement (.plt h d a b w) := rfl
theorem ple (h : Hd) (d a b : BitVec 5) (w : Bool) : Statement (.ple h d a b w) := rfl
theorem pltu (h : Hd) (d a b : BitVec 5) (w : Bool) : Statement (.pltu h d a b w) := rfl
theorem pfeq (h : Hd) (d a b : BitVec 5) (w : Bool) : Statement (.pfeq h d a b w) := rfl
theorem pflt (h : Hd) (d a b : BitVec 5) (w : Bool) : Statement (.pflt h d a b w) := rfl
theorem pand (h : Hd) (d a b : BitVec 5) : Statement (.pand h d a b) := rfl
theorem por (h : Hd) (d a b : BitVec 5) : Statement (.por h d a b) := rfl
theorem pnot (h : Hd) (d a : BitVec 5) : Statement (.pnot h d a) := rfl
theorem vadd (h : Hd) (d a b : BitVec 4) (t k : BitVec 2) : Statement (.vadd h d a b t k) := rfl
theorem vsub (h : Hd) (d a b : BitVec 4) (t k : BitVec 2) : Statement (.vsub h d a b t k) := rfl
theorem vmul (h : Hd) (d a b : BitVec 4) (t k : BitVec 2) : Statement (.vmul h d a b t k) := rfl
theorem vmin (h : Hd) (d a b : BitVec 4) (t k : BitVec 2) : Statement (.vmin h d a b t k) := rfl
theorem vmax (h : Hd) (d a b : BitVec 4) (t k : BitVec 2) : Statement (.vmax h d a b t k) := rfl
theorem vand (h : Hd) (d a b : BitVec 4) (t k : BitVec 2) : Statement (.vand h d a b t k) := rfl
theorem vor (h : Hd) (d a b : BitVec 4) (t k : BitVec 2) : Statement (.vor h d a b t k) := rfl
theorem vxor (h : Hd) (d a b : BitVec 4) (t k : BitVec 2) : Statement (.vxor h d a b t k) := rfl
theorem vshl (h : Hd) (d a b : BitVec 4) (t k : BitVec 2) : Statement (.vshl h d a b t k) := rfl
theorem vshr (h : Hd) (d a b : BitVec 4) (t k : BitVec 2) : Statement (.vshr h d a b t k) := rfl
theorem vsar (h : Hd) (d a b : BitVec 4) (t k : BitVec 2) : Statement (.vsar h d a b t k) := rfl
theorem vceq (h : Hd) (d a b : BitVec 4) (t k : BitVec 2) : Statement (.vceq h d a b t k) := rfl
theorem vclt (h : Hd) (d a b : BitVec 4) (t k : BitVec 2) : Statement (.vclt h d a b t k) := rfl
theorem vsel (h : Hd) (d a b : BitVec 4) (t k : BitVec 2) : Statement (.vsel h d a b t k) := rfl
theorem vfadd (h : Hd) (d a b : BitVec 4) (t k : BitVec 2) : Statement (.vfadd h d a b t k) := rfl
theorem vfsub (h : Hd) (d a b : BitVec 4) (t k : BitVec 2) : Statement (.vfsub h d a b t k) := rfl
theorem vfmul (h : Hd) (d a b : BitVec 4) (t k : BitVec 2) : Statement (.vfmul h d a b t k) := rfl
theorem vfma (h : Hd) (d a b : BitVec 4) (t k : BitVec 2) : Statement (.vfma h d a b t k) := rfl
theorem vfmin (h : Hd) (d a b : BitVec 4) (t k : BitVec 2) : Statement (.vfmin h d a b t k) := rfl
theorem vfmax (h : Hd) (d a b : BitVec 4) (t k : BitVec 2) : Statement (.vfmax h d a b t k) := rfl
theorem vfdiv (h : Hd) (d a b : BitVec 4) (t k : BitVec 2) : Statement (.vfdiv h d a b t k) := rfl
theorem vfsqrt (h : Hd) (d a : BitVec 4) (t k : BitVec 2) : Statement (.vfsqrt h d a t k) := rfl
theorem vfrsq (h : Hd) (d a : BitVec 4) (t k : BitVec 2) : Statement (.vfrsq h d a t k) := rfl
theorem vfexp2 (h : Hd) (d a : BitVec 4) (t k : BitVec 2) : Statement (.vfexp2 h d a t k) := rfl
theorem vflog2 (h : Hd) (d a : BitVec 4) (t k : BitVec 2) : Statement (.vflog2 h d a t k) := rfl
theorem vfceq (h : Hd) (d a b : BitVec 4) (t k : BitVec 2) : Statement (.vfceq h d a b t k) := rfl
theorem vfclt (h : Hd) (d a b : BitVec 4) (t k : BitVec 2) : Statement (.vfclt h d a b t k) := rfl
theorem vfcle (h : Hd) (d a b : BitVec 4) (t k : BitVec 2) : Statement (.vfcle h d a b t k) := rfl
theorem vcvt (h : Hd) (d a b : BitVec 4) (t k : BitVec 2) : Statement (.vcvt h d a b t k) := rfl
theorem vcvti (h : Hd) (d a b : BitVec 4) (t k : BitVec 2) : Statement (.vcvti h d a b t k) := rfl
theorem vcvtf (h : Hd) (d a b : BitVec 4) (t k : BitVec 2) : Statement (.vcvtf h d a b t k) := rfl
theorem vqmx (h : Hd) (d a b : BitVec 4) (t k : BitVec 2) : Statement (.vqmx h d a b t k) := rfl
theorem vdqmx (h : Hd) (d a b : BitVec 4) (t k : BitVec 2) : Statement (.vdqmx h d a b t k) := rfl
theorem vrotr (h : Hd) (d a b : BitVec 4) (t k : BitVec 2) : Statement (.vrotr h d a b t k) := rfl
theorem vbcr (h : Hd) (d a b : BitVec 4) (t k : BitVec 2) : Statement (.vbcr h d a b t k) := rfl
theorem vsumr (h : Hd) (d a : BitVec 4) (b : Bool) (t k : BitVec 2) : Statement (.vsumr h d a b t k) := rfl
theorem vmaxr (h : Hd) (d a : BitVec 4) (b : Bool) (t k : BitVec 2) : Statement (.vmaxr h d a b t k) := rfl
theorem vscanr (h : Hd) (d a : BitVec 4) (b : Bool) (t k : BitVec 2) : Statement (.vscanr h d a b t k) := rfl
theorem vlrecr (h : Hd) (d a b : BitVec 4) (t k : BitVec 2) : Statement (.vlrecr h d a b t k) := rfl
theorem vrotc (h : Hd) (d a b : BitVec 4) (t k : BitVec 2) : Statement (.vrotc h d a b t k) := rfl
theorem vbcc (h : Hd) (d a b : BitVec 4) (t k : BitVec 2) : Statement (.vbcc h d a b t k) := rfl
theorem vsumc (h : Hd) (d a : BitVec 4) (b : Bool) (t k : BitVec 2) : Statement (.vsumc h d a b t k) := rfl
theorem vmaxc (h : Hd) (d a : BitVec 4) (b : Bool) (t k : BitVec 2) : Statement (.vmaxc h d a b t k) := rfl
theorem vscanc (h : Hd) (d a : BitVec 4) (b : Bool) (t k : BitVec 2) : Statement (.vscanc h d a b t k) := rfl
theorem vtrn (h : Hd) (d a : BitVec 4) (t k : BitVec 2) : Statement (.vtrn h d a t k) := rfl
theorem vmerge3 (h : Hd) (d a b : BitVec 4) : Statement (.vmerge3 h d a b) := rfl
theorem vtmask (h : Hd) (d a b : BitVec 4) (k : BitVec 2) : Statement (.vtmask h d a b k) := rfl
theorem vsmx (h : Hd) (d a b : BitVec 4) : Statement (.vsmx h d a b) := rfl
theorem vld (h : Hd) (v : BitVec 4) (a : BitVec 5) (i : BitVec 4) (k : BitVec 2) : Statement (.vld h v a i k) := rfl
theorem vst (h : Hd) (v : BitVec 4) (a : BitVec 5) (i : BitVec 4) (k : BitVec 2) : Statement (.vst h v a i k) := rfl
theorem vldt (h : Hd) (v : BitVec 4) (a : BitVec 5) (i : BitVec 4) (k : BitVec 2) : Statement (.vldt h v a i k) := rfl
theorem vlds (h : Hd) (v : BitVec 4) (a : BitVec 5) (i : BitVec 3) (k : BitVec 2) : Statement (.vlds h v a i k) := rfl
theorem vsts (h : Hd) (v : BitVec 4) (a : BitVec 5) (i : BitVec 3) (k : BitVec 2) : Statement (.vsts h v a i k) := rfl
theorem vgath (h : Hd) (v : BitVec 4) (a : BitVec 5) (i : BitVec 4) (k : BitVec 2) : Statement (.vgath h v a i k) := rfl
theorem vscat (h : Hd) (v : BitVec 4) (a : BitVec 5) (i : BitVec 4) (k : BitVec 2) : Statement (.vscat h v a i k) := rfl
theorem vscatc (h : Hd) (v : BitVec 4) (a : BitVec 5) (i : BitVec 4) (k : BitVec 2) : Statement (.vscatc h v a i k) := rfl
theorem vscadd (h : Hd) (v : BitVec 4) (a : BitVec 5) (i : BitVec 4) (k : BitVec 2) : Statement (.vscadd h v a i k) := rfl
theorem visect (h : Hd) (d a b : BitVec 4) : Statement (.visect h d a b) := rfl
theorem vcomp (h : Hd) (d a : BitVec 4) (t k : BitVec 2) : Statement (.vcomp h d a t k) := rfl
theorem vexpd (h : Hd) (d a : BitVec 4) (t k : BitVec 2) : Statement (.vexpd h d a t k) := rfl
theorem vconf (h : Hd) (d a : BitVec 4) (t k : BitVec 2) : Statement (.vconf h d a t k) := rfl
theorem vsegs (h : Hd) (d a b : BitVec 4) (t k : BitVec 2) : Statement (.vsegs h d a b t k) := rfl
theorem vmov (h : Hd) (d a : BitVec 4) (t k : BitVec 2) : Statement (.vmov h d a t k) := rfl
theorem vmovx (h : Hd) (d a b : BitVec 4) (t k : BitVec 2) : Statement (.vmovx h d a b t k) := rfl
theorem vsplat (h : Hd) (d : BitVec 4) (i : BitVec 8) (t k : BitVec 2) : Statement (.vsplat h d i t k) := rfl
theorem vins (h : Hd) (d a b : BitVec 4) (k : BitVec 2) : Statement (.vins h d a b k) := rfl
theorem vext (h : Hd) (d a b : BitVec 4) (k : BitVec 2) : Statement (.vext h d a b k) := rfl
theorem vrand (h : Hd) (d : BitVec 4) (k : BitVec 2) : Statement (.vrand h d k) := rfl
theorem kand (h : Hd) (d a b : BitVec 3) : Statement (.kand h d a b) := rfl
theorem kor (h : Hd) (d a b : BitVec 3) : Statement (.kor h d a b) := rfl
theorem kxor (h : Hd) (d a b : BitVec 3) : Statement (.kxor h d a b) := rfl
theorem knot (h : Hd) (d a : BitVec 3) : Statement (.knot h d a) := rfl
theorem kpop (h : Hd) (d a : BitVec 3) : Statement (.kpop h d a) := rfl
theorem kfirst (h : Hd) (d a : BitVec 3) : Statement (.kfirst h d a) := rfl
theorem kset (h : Hd) (d : BitVec 3) (e : BitVec 5) : Statement (.kset h d e) := rfl
theorem mma (h : Hd) (z : BitVec 2) (a b f : BitVec 5) : Statement (.mma h z a b f) := rfl
theorem mmaz (h : Hd) (z : BitVec 2) (a b f : BitVec 5) : Statement (.mmaz h z a b f) := rfl
theorem mmat (h : Hd) (z : BitVec 2) (a b f : BitVec 5) : Statement (.mmat h z a b f) := rfl
theorem mwin (h : Hd) (z : BitVec 2) (a b f : BitVec 5) : Statement (.mwin h z a b f) := rfl
theorem mmax (h : Hd) (z : BitVec 2) (a b f : BitVec 5) : Statement (.mmax h z a b f) := rfl
theorem mcsr (h : Hd) (z : BitVec 2) (a b f : BitVec 5) : Statement (.mcsr h z a b f) := rfl
theorem mbsr (h : Hd) (z : BitVec 2) (a b f : BitVec 5) : Statement (.mbsr h z a b f) := rfl
theorem m24 (h : Hd) (z : BitVec 2) (a b f : BitVec 5) : Statement (.m24 h z a b f) := rfl
theorem zrd (h : Hd) (z : BitVec 2) (b : BitVec 4) (f : BitVec 5) : Statement (.zrd h z b f) := rfl
theorem zwr (h : Hd) (z : BitVec 2) (b : BitVec 4) (f : BitVec 5) : Statement (.zwr h z b f) := rfl
theorem zclr (h : Hd) (z : BitVec 2) : Statement (.zclr h z) := rfl
theorem esld (h : Hd) (z : BitVec 2) (a f : BitVec 5) : Statement (.esld h z a f) := rfl
theorem amode (h : Hd) (f : BitVec 5) : Statement (.amode h f) := rfl
theorem mshape (h : Hd) (a b f : BitVec 5) : Statement (.mshape h a b f) := rfl
theorem xch (h : Hd) (x y : BitVec 5) (c : BitVec 6) : Statement (.xch h x y c) := rfl
theorem xchc (h : Hd) (x y v : BitVec 5) : Statement (.xchc h x y v) := rfl
theorem xcht (h : Hd) (x y : BitVec 5) (c : BitVec 6) : Statement (.xcht h x y c) := rfl
theorem xrot (h : Hd) (x : BitVec 5) : Statement (.xrot h x) := rfl
theorem xver (h : Hd) (x y : BitVec 5) : Statement (.xver h x y) := rfl
theorem xverRead (h : Hd) (x y : BitVec 5) : Statement (.xverRead h x y) := rfl
theorem send (h : Hd) (x c : BitVec 5) : Statement (.send h x c) := rfl
theorem recv (h : Hd) (x : BitVec 4) (c : BitVec 5) : Statement (.recv h x c) := rfl
theorem vfpush (h : Hd) (x c : BitVec 4) : Statement (.vfpush h x c) := rfl
theorem vfpop (h : Hd) (x c : BitVec 4) : Statement (.vfpop h x c) := rfl
theorem vffree (h : Hd) (x : BitVec 5) : Statement (.vffree h x) := rfl
theorem dact (h : Hd) (c : BitVec 5) (i : BitVec 8) : Statement (.dact h c i) := rfl
theorem drd (h : Hd) (c : BitVec 5) : Statement (.drd h c) := rfl
theorem dwr (h : Hd) (c : BitVec 5) : Statement (.dwr h c) := rfl
theorem dpre (h : Hd) (c : BitVec 5) (i : BitVec 4) : Statement (.dpre h c i) := rfl
theorem dprea (h : Hd) (c : BitVec 5) : Statement (.dprea h c) := rfl
theorem dref (h : Hd) (c : BitVec 5) : Statement (.dref h c) := rfl
theorem ssbind (h : Hd) (x y : BitVec 5) (c : BitVec 4) : Statement (.ssbind h x y c) := rfl
theorem ssadv (h : Hd) (y c : BitVec 5) : Statement (.ssadv h y c) := rfl
theorem ssroll (h : Hd) (y : BitVec 5) (c : BitVec 4) : Statement (.ssroll h y c) := rfl
theorem ssfork (h : Hd) (x y : BitVec 5) (c : BitVec 4) : Statement (.ssfork h x y c) := rfl
theorem ssdrop (h : Hd) (c : BitVec 4) : Statement (.ssdrop h c) := rfl
theorem ssfind (h : Hd) (x y : BitVec 5) (c : BitVec 6) : Statement (.ssfind h x y c) := rfl
theorem gld (h : Hd) (x y : BitVec 5) (c : BitVec 2) : Statement (.gld h x y c) := rfl
theorem gst (h : Hd) (x y : BitVec 5) (c : BitVec 2) : Statement (.gst h x y c) := rfl
theorem gacq (h : Hd) (x y : BitVec 5) : Statement (.gacq h x y) := rfl
theorem grel (h : Hd) (x y : BitVec 5) : Statement (.grel h x y) := rfl
theorem gamo (h : Hd) (x y : BitVec 5) (c : BitVec 6) : Statement (.gamo h x y c) := rfl
theorem gmrg (h : Hd) (x : BitVec 3) (y : BitVec 5) (c : BitVec 4) : Statement (.gmrg h x y c) := rfl
theorem agset (h : Hd) (x y : BitVec 5) (c : BitVec 2) : Statement (.agset h x y c) := rfl
theorem agen (h : Hd) (x y : BitVec 5) (c : BitVec 2) : Statement (.agen h x y c) := rfl
theorem syscall (h : Hd) (i : BitVec 11) : Statement (.syscall h i) := rfl
theorem trapi (h : Hd) (i : BitVec 11) : Statement (.trapi h i) := rfl
theorem fence (h : Hd) (b : BitVec 5) : Statement (.fence h b) := rfl
theorem realign (h : Hd) : Statement (.realign h) := rfl
theorem waitk (h : Hd) (a b : BitVec 5) : Statement (.waitk h a b) := rfl
theorem halt (h : Hd) : Statement (.halt h) := rfl
theorem getc (h : Hd) (d : BitVec 5) (i : BitVec 11) : Statement (.getc h d i) := rfl
theorem setc (h : Hd) (d : BitVec 5) (i : BitVec 11) : Statement (.setc h d i) := rfl
theorem setb (h : Hd) (d : BitVec 5) (i : BitVec 11) : Statement (.setb h d i) := rfl
theorem clrb (h : Hd) (d : BitVec 5) (i : BitVec 11) : Statement (.clrb h d i) := rfl
theorem launch (h : Hd) (d a b : BitVec 5) : Statement (.launch h d a b) := rfl
theorem yield (h : Hd) (i : BitVec 11) : Statement (.yield h i) := rfl
theorem hdr (s : Bool) (d : BitVec 10) : Statement (.hdr s d) := rfl
theorem launchRecordWrite (who : Requester) (queue : Nat) (rec : BitVec 2048) : Statement (.launchRecordWrite who queue rec) := rfl
theorem qmapWrite (vf : Nat) (x : Word) : Statement (.qmapWrite vf x) := rfl
theorem registerWrite (r : MgmtReg) (x : Word) : Statement (.registerWrite r x) := rfl
theorem scrubRequestEnqueue (b : HwBlock) : Statement (.scrubRequestEnqueue b) := rfl
theorem scrubComplete (b : HwBlock) : Statement (.scrubComplete b) := rfl
theorem invalidateRangeEntry (job entry : Nat) : Statement (.invalidateRangeEntry job entry) := rfl
theorem invalidatePage (job page : Nat) : Statement (.invalidatePage job page) := rfl
theorem worldMapWrite (b : HwBlock) (w : Bool) : Statement (.worldMapWrite b w) := rfl
theorem tickRegisterWrite (x : Word) : Statement (.tickRegisterWrite x) := rfl
theorem svnCommit (v : Word) : Statement (.svnCommit v) := rfl
theorem mrExtend (n : Nat) (image : List (BitVec 8)) : Statement (.mrExtend n image) := rfl
theorem attestationRequest (vf : Option Nat) (job : Nat) (nonce : BitVec 512) (kem : Option (List (BitVec 8))) :
    Statement (.attestationRequest vf job nonce kem) := rfl
theorem linkUp (port peer : Nat) : Statement (.linkUp port peer) := rfl
theorem domainAlignment (cycle : Word) (log2 : Nat) (parts : List (Nat × List Nat × Int)) : Statement (.domainAlignment cycle log2 parts) := rfl
theorem linkKeyAgreement (port : Nat) (out : Bool) (secret : BitVec 256) : Statement (.linkKeyAgreement port out secret) := rfl
theorem holdRunEnd (part : Nat) (c : HoldCause) : Statement (.holdRunEnd part c) := rfl
theorem remoteAccessPerform (r : Remote) : Statement (.remoteAccessPerform r) := rfl
theorem resultLanding (f : Flight) : Statement (.resultLanding f) := rfl
theorem matrixResultLanding (m : MatCmd) : Statement (.matrixResultLanding m) := rfl
theorem deferredAccessPerform (a : Access) : Statement (.deferredAccessPerform a) := rfl
theorem drdBeatArrival (ch peel burst q : Nat) : Statement (.drdBeatArrival ch peel burst q) := rfl
theorem dwrBeatDelivery (ch peel burst q : Nat) : Statement (.dwrBeatDelivery ch peel burst q) := rfl
theorem burstCheckFailure (ch burst lane : Nat) (write : Bool) : Statement (.burstCheckFailure ch burst lane write) := rfl
theorem laneTestComplete (ch : Nat) (lanes : List Nat) : Statement (.laneTestComplete ch lanes) := rfl
theorem gOpReply (ctx col : Nat) (entry : EntryAnswer) (data : Nat) : Statement (.gOpReply ctx col entry data) := rfl
theorem remoteAcknowledge (ctx col : Nat) (entry : EntryAnswer) : Statement (.remoteAcknowledge ctx col entry) := rfl
theorem remoteNack (ctx col entry : Nat) (k : NackKind) : Statement (.remoteNack ctx col entry k) := rfl
theorem flitAcknowledge (port seq : Nat) : Statement (.flitAcknowledge port seq) := rfl
theorem mergeContributionArrival (r : Remote) : Statement (.mergeContributionArrival r) := rfl
theorem recvRowArrival (ctx col hop die t : Nat) (row : Row) : Statement (.recvRowArrival ctx col hop die t row) := rfl
theorem randkeyWrite (hi : Bool) (clear set : Word) : Statement (.randkeyWrite hi clear set) := rfl
theorem randposWrite (clear set : Word) : Statement (.randposWrite clear set) := rfl
theorem touchedClear (bits : BitVec 35) : Statement (.touchedClear bits) := rfl
theorem amodeWrite (win : BitVec 2) : Statement (.amodeWrite win) := rfl
theorem cmodeWrite (mode : Bool) : Statement (.cmodeWrite mode) := rfl
theorem hostFarMemoryAccess (write : HostAccess) (addr len val : Nat) : Statement (.hostFarMemoryAccess write addr len val) := rfl
theorem domainWindowMapWrite (w : Nat) (entry : Option (Nat × Nat × Bool)) : Statement (.domainWindowMapWrite w entry) := rfl
theorem hostSaveAreaWrite (ctx col : Nat) (f : SaveEdit) : Statement (.hostSaveAreaWrite ctx col f) := rfl
theorem queueDisable : Statement .queueDisable := rfl
theorem dispatchDecision : Statement .dispatchDecision := rfl
theorem effectivePriorityRise : Statement .effectivePriorityRise := rfl
theorem placement : Statement .placement := rfl
theorem rejectedRecordLeaves : Statement .rejectedRecordLeaves := rfl
theorem jobStart : Statement .jobStart := rfl
theorem jobEnd : Statement .jobEnd := rfl
theorem preemptionStop : Statement .preemptionStop := rfl
theorem preemptSaveComplete : Statement .preemptSaveComplete := rfl
theorem hostContinue : Statement .hostContinue := rfl
theorem hostEnd : Statement .hostEnd := rfl
theorem jobRestart : Statement .jobRestart := rfl
theorem hostEventHeadAdvance : Statement .hostEventHeadAdvance := rfl
theorem waitingEventEntry : Statement .waitingEventEntry := rfl
theorem invalidateJob : Statement .invalidateJob := rfl
theorem invalidationComplete : Statement .invalidationComplete := rfl
theorem tickPeriodChange : Statement .tickPeriodChange := rfl
theorem coldReset : Statement .coldReset := rfl
theorem warmReset : Statement .warmReset := rfl
theorem sensorSample : Statement .sensorSample := rfl
theorem powerEstimate : Statement .powerEstimate := rfl
theorem thermalAlarm : Statement .thermalAlarm := rfl
theorem moduleTrip : Statement .moduleTrip := rfl
theorem globalTick : Statement .globalTick := rfl
theorem realignRelease : Statement .realignRelease := rfl
theorem domainStepBoundary : Statement .domainStepBoundary := rfl
theorem domainStepStart : Statement .domainStepStart := rfl
theorem boundaryHoldTimeout : Statement .boundaryHoldTimeout := rfl
theorem watchdog : Statement .watchdog := rfl
theorem programRefreshDebtWrap : Statement .programRefreshDebtWrap := rfl
theorem holdRefreshDebtWrap : Statement .holdRefreshDebtWrap := rfl
theorem guardSequenceComplete : Statement .guardSequenceComplete := rfl
theorem unownedChannelRefresh : Statement .unownedChannelRefresh := rfl
theorem bankRefreshWindow : Statement .bankRefreshWindow := rfl
theorem randomQueueRefill : Statement .randomQueueRefill := rfl
theorem exchangeBeatCrossing : Statement .exchangeBeatCrossing := rfl
theorem xchtPairLanding : Statement .xchtPairLanding := rfl
theorem exchangeComplete : Statement .exchangeComplete := rfl
theorem exchangeDeferredStart : Statement .exchangeDeferredStart := rfl
theorem dwrWriteStatus : Statement .dwrWriteStatus := rfl
theorem burstReplay : Statement .burstReplay := rfl
theorem translationWalkComplete : Statement .translationWalkComplete := rfl
theorem gOpDeferredIssue : Statement .gOpDeferredIssue := rfl
theorem releasePerform : Statement .releasePerform := rfl
theorem flitReplay : Statement .flitReplay := rfl
theorem recvRowMissing : Statement .recvRowMissing := rfl
theorem rowVoteResult : Statement .rowVoteResult := rfl
theorem fenceRelease : Statement .fenceRelease := rfl
theorem loopEnd : Statement .loopEnd := rfl
theorem mshapeTakeEffect : Statement .mshapeTakeEffect := rfl
theorem singleStepTrap : Statement .singleStepTrap := rfl
theorem touchedBitClear : Statement .touchedBitClear := rfl
theorem amodeWindowChange : Statement .amodeWindowChange := rfl
theorem pgateCreqSet : Statement .pgateCreqSet := rfl
theorem pgateCreqClear : Statement .pgateCreqClear := rfl
theorem pgateSreqSet : Statement .pgateSreqSet := rfl
theorem pgateSreqClear : Statement .pgateSreqClear := rfl
theorem crownGateComplete : Statement .crownGateComplete := rfl
theorem crownUngateComplete : Statement .crownUngateComplete := rfl
theorem stackGateComplete : Statement .stackGateComplete := rfl
theorem stackUngateComplete : Statement .stackUngateComplete := rfl
theorem repairRecordCommit : Statement .repairRecordCommit := rfl
theorem regionScrubRun : Statement .regionScrubRun := rfl

end Sys2Proof.Laws.HasWord
end

