-- ==== Sys2Proof/Laws/Table.lean ====
section
/-! SUPPORT. The laws of sparse tables: a read after a write of the same key gives the value, a write leaves every other
key alone, and writes keep the canonical form. -/

namespace Sys2Proof

variable {β : Type} (d : β)

theorem rowsGet_filter_ne (l : List (Nat × β)) (n m : Nat) :
    rowsGet d (l.filter fun p => p.1 != n) m = if m = n then d else rowsGet d l m := by
  induction l with
  | nil => simp [rowsGet]
  | cons p r ih =>
    obtain ⟨k, v⟩ := p
    by_cases hk : k = n <;> by_cases hm : m = n <;> by_cases hmk : m = k <;> simp_all [rowsGet]

theorem rowsGet_insert (l : List (Nat × β)) (n m : Nat) (x : β) :
    rowsGet d (rowsInsert l n x) m = if m = n then x else rowsGet d l m := by
  induction l with
  | nil => simp [rowsGet, rowsInsert]
  | cons p r ih =>
    obtain ⟨k, v⟩ := p
    unfold rowsInsert
    split
    · by_cases hm : m = n <;> simp_all [rowsGet]
    · split
      · by_cases hm : m = n <;> simp_all [rowsGet]
      · by_cases hm : m = n <;> by_cases hmk : m = k <;> simp_all [rowsGet]

/-- What a table reads after one of its keys is written. -/
theorem Tbl.get_put [DecidableEq β] (t : Tbl β) (n m : Nat) (x : β) :
    (t.put d n x).get d m = if m = n then x else t.get d m := by
  unfold Tbl.put Tbl.get rowsPut
  split
  · rename_i h
    rw [rowsGet_filter_ne, h]
  · exact rowsGet_insert d t.rows n m x

@[simp] theorem Tbl.get_put_same [DecidableEq β] (t : Tbl β) (n : Nat) (x : β) : (t.put d n x).get d n = x := by
  simp [Tbl.get_put]

theorem Tbl.get_put_other [DecidableEq β] (t : Tbl β) {n m : Nat} (h : m ≠ n) (x : β) :
    (t.put d n x).get d m = t.get d m := by
  simp [Tbl.get_put, h]

@[simp] theorem Tbl.get_empty (n : Nat) : (Tbl.empty : Tbl β).get d n = d := rfl

/-- The canonical form of a list of rows, as an order and a condition on every row. -/
theorem rowsWf_iff [DecidableEq β] (l : List (Nat × β)) :
    rowsWf d l = true ↔ (∀ p ∈ l, p.2 ≠ d) ∧ l.Pairwise fun a b => a.1 < b.1 := by
  induction l with
  | nil => simp [rowsWf]
  | cons p r ih =>
    obtain ⟨k, v⟩ := p
    cases r with
    | nil => simp [rowsWf]
    | cons q r =>
      obtain ⟨k', v'⟩ := q
      simp only [rowsWf, Bool.and_eq_true, decide_eq_true_eq, ih, List.pairwise_cons, List.mem_cons]
      constructor
      · rintro ⟨⟨hv, hk⟩, hm, hp⟩
        refine ⟨?_, ?_, hp⟩
        · rintro p (rfl | rfl | hp')
          · exact hv
          · exact hm _ (Or.inl rfl)
          · exact hm _ (Or.inr hp')
        · rintro p (rfl | hp')
          · exact hk
          · exact Nat.lt_trans hk (hp.1 p hp')
      · rintro ⟨hm, hlt, hp⟩
        exact ⟨⟨hm _ (Or.inl rfl), hlt _ (Or.inl rfl)⟩, fun p h => hm p (Or.inr h), hp⟩

theorem rowsInsert_mem {l : List (Nat × β)} {n : Nat} {x : β} {p : Nat × β} (h : p ∈ rowsInsert l n x) :
    p = (n, x) ∨ p ∈ l := by
  induction l with
  | nil => simpa [rowsInsert] using h
  | cons q r ih =>
    obtain ⟨k, v⟩ := q
    unfold rowsInsert at h
    split at h
    · simp only [List.mem_cons] at h ⊢; tauto
    · split at h
      · simp only [List.mem_cons] at h ⊢; tauto
      · simp only [List.mem_cons] at h ⊢
        rcases h with h | h
        · tauto
        · rcases ih h with h | h <;> tauto

theorem rowsInsert_pairwise {l : List (Nat × β)} (n : Nat) (x : β) (h : l.Pairwise fun a b => a.1 < b.1) :
    (rowsInsert l n x).Pairwise fun a b => a.1 < b.1 := by
  induction l with
  | nil => simp [rowsInsert]
  | cons q r ih =>
    obtain ⟨k, v⟩ := q
    rw [List.pairwise_cons] at h
    unfold rowsInsert
    split
    · rename_i hk
      subst hk
      exact List.pairwise_cons.2 ⟨h.1, h.2⟩
    · split
      · rename_i hk
        refine List.pairwise_cons.2 ⟨?_, List.pairwise_cons.2 h⟩
        intro p hp
        rcases List.mem_cons.1 hp with rfl | hp
        · exact hk
        · exact Nat.lt_trans hk (h.1 p hp)
      · rename_i h1 h2
        refine List.pairwise_cons.2 ⟨?_, ih h.2⟩
        intro p hp
        rcases rowsInsert_mem hp with rfl | hp
        · exact Nat.lt_of_le_of_ne (Nat.le_of_not_lt h2) (Ne.symm h1)
        · exact h.1 p hp

/-- A write keeps the canonical form. -/
theorem Tbl.wf_put [DecidableEq β] {t : Tbl β} (h : t.wf d = true) (n : Nat) (x : β) : (t.put d n x).wf d = true := by
  unfold Tbl.wf Tbl.put rowsPut at *
  rw [rowsWf_iff] at h ⊢
  split
  · exact ⟨fun p hp => h.1 p (List.mem_filter.1 hp).1, h.2.filter _⟩
  · rename_i hx
    refine ⟨fun p hp => ?_, rowsInsert_pairwise n x h.2⟩
    rcases rowsInsert_mem hp with rfl | hp
    · exact hx
    · exact h.1 p hp

end Sys2Proof
end

