-- ==== Sys2Proof/Laws/State.lean ====
section
/-! SUPPORT. What each update of the state leaves and what it sets: one lemma per field and per accessor of every update, so
that no proof unfolds a record. -/

namespace Sys2Proof.Machine.State

open Sys2Proof

section
variable (s : State) (c c2 n n2 m m2 a a2 : Nat) (x : Ctx) (y : CoreCtx) (v : Perf) (g : Ctx → Ctx) (gk : CoreCtx → CoreCtx)
  (gs : Stack → Stack) (gp : Part → Part) (gj : Job → Job) (gc : Chan → Chan) (ge : Peel → Peel) (gq : LQueue → LQueue)
  (gl : Port → Port) (gg : GEnt → GEnt) (gm : SlotMeta → SlotMeta) (v32 : BitVec 32) (b : Bool) (gr : Ring → Ring) (k : Clk) (u : Cursor)
  (i : Instr) (ws : List RegWrite) (fl : BitVec 5) (o : AccessOp) (gf : Sched → Flight → Sched) (gx : Sched → MatCmd → Sched)

@[simp] theorem setCtx_now : (s.setCtx c x).now = s.now := rfl
@[simp] theorem setCtx_cycleBase : (s.setCtx c x).cycleBase = s.cycleBase := rfl
@[simp] theorem setCtx_agenda : (s.setCtx c x).agenda = s.agenda := rfl
@[simp] theorem setCtx_cur : (s.setCtx c x).cur = s.cur := rfl
@[simp] theorem setCtx_arg : (s.setCtx c x).arg = s.arg := rfl
@[simp] theorem setCtx_ord : (s.setCtx c x).ord = s.ord := rfl
@[simp] theorem setCtx_checked : (s.setCtx c x).checked = s.checked := rfl
@[simp] theorem setCtx_probe : (s.setCtx c x).probe = s.probe := rfl
@[simp] theorem setCtx_found : (s.setCtx c x).found = s.found := rfl
@[simp] theorem setCtx_nextId : (s.setCtx c x).nextId = s.nextId := rfl
@[simp] theorem setCtx_mark : (s.setCtx c x).mark = s.mark := rfl
@[simp] theorem setCtx_banks : (s.setCtx c x).banks = s.banks := rfl
@[simp] theorem setCtx_exBanks : (s.setCtx c x).exBanks = s.exBanks := rfl
@[simp] theorem setCtx_svc : (s.setCtx c x).svc = s.svc := rfl
@[simp] theorem setCtx_ports_ : (s.setCtx c x).ports_ = s.ports_ := rfl
@[simp] theorem setCtx_free : (s.setCtx c x).free = s.free := rfl
@[simp] theorem setCtx_cores : (s.setCtx c x).cores = s.cores := rfl
@[simp] theorem setCtx_rowLag : (s.setCtx c x).rowLag = s.rowLag := rfl
@[simp] theorem setCtx_frames : (s.setCtx c x).frames = s.frames := rfl
@[simp] theorem setCtx_cmode : (s.setCtx c x).cmode = s.cmode := rfl
@[simp] theorem setCtx_stack : (s.setCtx c x).stack = s.stack := rfl
@[simp] theorem setCtx_mem : (s.setCtx c x).mem = s.mem := rfl
@[simp] theorem setCtx_slots : (s.setCtx c x).slots = s.slots := rfl
@[simp] theorem setCtx_lines : (s.setCtx c x).lines = s.lines := rfl
@[simp] theorem setCtx_lineWorld : (s.setCtx c x).lineWorld = s.lineWorld := rfl
@[simp] theorem setCtx_bad : (s.setCtx c x).bad = s.bad := rfl
@[simp] theorem setCtx_badMeta : (s.setCtx c x).badMeta = s.badMeta := rfl
@[simp] theorem setCtx_peels : (s.setCtx c x).peels = s.peels := rfl
@[simp] theorem setCtx_gtab : (s.setCtx c x).gtab = s.gtab := rfl
@[simp] theorem setCtx_chans : (s.setCtx c x).chans = s.chans := rfl
@[simp] theorem setCtx_parts : (s.setCtx c x).parts = s.parts := rfl
@[simp] theorem setCtx_queues : (s.setCtx c x).queues = s.queues := rfl
@[simp] theorem setCtx_selected : (s.setCtx c x).selected = s.selected := rfl
@[simp] theorem setCtx_placed : (s.setCtx c x).placed = s.placed := rfl
@[simp] theorem setCtx_rr : (s.setCtx c x).rr = s.rr := rfl
@[simp] theorem setCtx_jobs : (s.setCtx c x).jobs = s.jobs := rfl
@[simp] theorem setCtx_nextJob : (s.setCtx c x).nextJob = s.nextJob := rfl
@[simp] theorem setCtx_jobOrder : (s.setCtx c x).jobOrder = s.jobOrder := rfl
@[simp] theorem setCtx_events : (s.setCtx c x).events = s.events := rfl
@[simp] theorem setCtx_waitEv : (s.setCtx c x).waitEv = s.waitEv := rfl
@[simp] theorem setCtx_lateEv : (s.setCtx c x).lateEv = s.lateEv := rfl
@[simp] theorem setCtx_logKeys : (s.setCtx c x).logKeys = s.logKeys := rfl
@[simp] theorem setCtx_dropped : (s.setCtx c x).dropped = s.dropped := rfl
@[simp] theorem setCtx_scrubs : (s.setCtx c x).scrubs = s.scrubs := rfl
@[simp] theorem setCtx_scrubWait : (s.setCtx c x).scrubWait = s.scrubWait := rfl
@[simp] theorem setCtx_refused : (s.setCtx c x).refused = s.refused := rfl
@[simp] theorem setCtx_ranges : (s.setCtx c x).ranges = s.ranges := rfl
@[simp] theorem setCtx_pages : (s.setCtx c x).pages = s.pages := rfl
@[simp] theorem setCtx_invals : (s.setCtx c x).invals = s.invals := rfl
@[simp] theorem setCtx_waiting : (s.setCtx c x).waiting = s.waiting := rfl
@[simp] theorem setCtx_world : (s.setCtx c x).world = s.world := rfl
@[simp] theorem setCtx_dedup : (s.setCtx c x).dedup = s.dedup := rfl
@[simp] theorem setCtx_ports : (s.setCtx c x).ports = s.ports := rfl
@[simp] theorem setCtx_arrayLog : (s.setCtx c x).arrayLog = s.arrayLog := rfl
@[simp] theorem setCtx_busLog : (s.setCtx c x).busLog = s.busLog := rfl
@[simp] theorem setCtx_spadLog : (s.setCtx c x).spadLog = s.spadLog := rfl
@[simp] theorem setCtx_linkLog : (s.setCtx c x).linkLog = s.linkLog := rfl
@[simp] theorem setCtx_secLog : (s.setCtx c x).secLog = s.secLog := rfl
@[simp] theorem setCtx_perf : (s.setCtx c x).perf = s.perf := rfl
@[simp] theorem setCtx_tickLog2 : (s.setCtx c x).tickLog2 = s.tickLog2 := rfl
@[simp] theorem setCtx_tickNow : (s.setCtx c x).tickNow = s.tickNow := rfl
@[simp] theorem setCtx_tickBusy : (s.setCtx c x).tickBusy = s.tickBusy := rfl
@[simp] theorem setCtx_powerLimit : (s.setCtx c x).powerLimit = s.powerLimit := rfl
@[simp] theorem setCtx_qmap : (s.setCtx c x).qmap = s.qmap := rfl
@[simp] theorem setCtx_module : (s.setCtx c x).module = s.module := rfl
@[simp] theorem setCtx_winMap : (s.setCtx c x).winMap = s.winMap := rfl
@[simp] theorem setCtx_mrs : (s.setCtx c x).mrs = s.mrs := rfl
@[simp] theorem setCtx_svn : (s.setCtx c x).svn = s.svn := rfl
@[simp] theorem setCtx_accepted : (s.setCtx c x).accepted = s.accepted := rfl
@[simp] theorem setCtx_bootA : (s.setCtx c x).bootA = s.bootA := rfl
@[simp] theorem setCtx_bootB : (s.setCtx c x).bootB = s.bootB := rfl
@[simp] theorem setCtx_reloading : (s.setCtx c x).reloading = s.reloading := rfl
@[simp] theorem setCtx_bootFail : (s.setCtx c x).bootFail = s.bootFail := rfl
@[simp] theorem setCtx_identity : (s.setCtx c x).identity = s.identity := rfl
@[simp] theorem setCtx_report : (s.setCtx c x).report = s.report := rfl
@[simp] theorem setCtx_readBack : (s.setCtx c x).readBack = s.readBack := rfl
@[simp] theorem setCtx_mailbox : (s.setCtx c x).mailbox = s.mailbox := rfl
@[simp] theorem setCtx_secBox : (s.setCtx c x).secBox = s.secBox := rfl
@[simp] theorem setCtx_fromQueue : (s.setCtx c x).fromQueue = s.fromQueue := rfl
@[simp] theorem setCtx_identityPub : (s.setCtx c x).identityPub = s.identityPub := rfl
@[simp] theorem setCtx_identityCert : (s.setCtx c x).identityCert = s.identityCert := rfl
@[simp] theorem setCtx_flowLow : (s.setCtx c x).flowLow = s.flowLow := rfl
@[simp] theorem setCtx_core : (s.setCtx c x).core c2 n2 = s.core c2 n2 := rfl
@[simp] theorem setCtx_stackAt : (s.setCtx c x).stackAt n2 = s.stackAt n2 := rfl
@[simp] theorem setCtx_part : (s.setCtx c x).part n2 = s.part n2 := rfl
@[simp] theorem setCtx_job : (s.setCtx c x).job n2 = s.job n2 := rfl
@[simp] theorem setCtx_chan : (s.setCtx c x).chan n2 = s.chan n2 := rfl
@[simp] theorem setCtx_peel : (s.setCtx c x).peel n2 = s.peel n2 := rfl
@[simp] theorem setCtx_queue : (s.setCtx c x).queue n2 = s.queue n2 := rfl
@[simp] theorem setCtx_port : (s.setCtx c x).port n2 = s.port n2 := rfl
@[simp] theorem setCtx_gent : (s.setCtx c x).gent n2 = s.gent n2 := rfl
@[simp] theorem setCtx_slot : (s.setCtx c x).slot n2 = s.slot n2 := rfl
@[simp] theorem setCtx_line : (s.setCtx c x).line n2 = s.line n2 := rfl
@[simp] theorem setCtx_ring : (s.setCtx c x).ring m2 n2 = s.ring m2 n2 := rfl
@[simp] theorem setCtx_perfAt : (s.setCtx c x).perfAt n2 = s.perfAt n2 := rfl
@[simp] theorem setCtx_byte : (s.setCtx c x).byte a2 = s.byte a2 := rfl
@[simp] theorem setCtx_load : (s.setCtx c x).load a2 n2 = s.load a2 n2 := rfl
@[simp] theorem setCtx_me : (s.setCtx c x).me = s.me := rfl
@[simp] theorem setCtx_clk : (s.setCtx c x).clk = s.clk := rfl

@[simp] theorem modCtx_now : (s.modCtx c g).now = s.now := rfl
@[simp] theorem modCtx_cycleBase : (s.modCtx c g).cycleBase = s.cycleBase := rfl
@[simp] theorem modCtx_agenda : (s.modCtx c g).agenda = s.agenda := rfl
@[simp] theorem modCtx_cur : (s.modCtx c g).cur = s.cur := rfl
@[simp] theorem modCtx_arg : (s.modCtx c g).arg = s.arg := rfl
@[simp] theorem modCtx_ord : (s.modCtx c g).ord = s.ord := rfl
@[simp] theorem modCtx_checked : (s.modCtx c g).checked = s.checked := rfl
@[simp] theorem modCtx_probe : (s.modCtx c g).probe = s.probe := rfl
@[simp] theorem modCtx_found : (s.modCtx c g).found = s.found := rfl
@[simp] theorem modCtx_nextId : (s.modCtx c g).nextId = s.nextId := rfl
@[simp] theorem modCtx_mark : (s.modCtx c g).mark = s.mark := rfl
@[simp] theorem modCtx_banks : (s.modCtx c g).banks = s.banks := rfl
@[simp] theorem modCtx_exBanks : (s.modCtx c g).exBanks = s.exBanks := rfl
@[simp] theorem modCtx_svc : (s.modCtx c g).svc = s.svc := rfl
@[simp] theorem modCtx_ports_ : (s.modCtx c g).ports_ = s.ports_ := rfl
@[simp] theorem modCtx_free : (s.modCtx c g).free = s.free := rfl
@[simp] theorem modCtx_cores : (s.modCtx c g).cores = s.cores := rfl
@[simp] theorem modCtx_rowLag : (s.modCtx c g).rowLag = s.rowLag := rfl
@[simp] theorem modCtx_frames : (s.modCtx c g).frames = s.frames := rfl
@[simp] theorem modCtx_cmode : (s.modCtx c g).cmode = s.cmode := rfl
@[simp] theorem modCtx_stack : (s.modCtx c g).stack = s.stack := rfl
@[simp] theorem modCtx_mem : (s.modCtx c g).mem = s.mem := rfl
@[simp] theorem modCtx_slots : (s.modCtx c g).slots = s.slots := rfl
@[simp] theorem modCtx_lines : (s.modCtx c g).lines = s.lines := rfl
@[simp] theorem modCtx_lineWorld : (s.modCtx c g).lineWorld = s.lineWorld := rfl
@[simp] theorem modCtx_bad : (s.modCtx c g).bad = s.bad := rfl
@[simp] theorem modCtx_badMeta : (s.modCtx c g).badMeta = s.badMeta := rfl
@[simp] theorem modCtx_peels : (s.modCtx c g).peels = s.peels := rfl
@[simp] theorem modCtx_gtab : (s.modCtx c g).gtab = s.gtab := rfl
@[simp] theorem modCtx_chans : (s.modCtx c g).chans = s.chans := rfl
@[simp] theorem modCtx_parts : (s.modCtx c g).parts = s.parts := rfl
@[simp] theorem modCtx_queues : (s.modCtx c g).queues = s.queues := rfl
@[simp] theorem modCtx_selected : (s.modCtx c g).selected = s.selected := rfl
@[simp] theorem modCtx_placed : (s.modCtx c g).placed = s.placed := rfl
@[simp] theorem modCtx_rr : (s.modCtx c g).rr = s.rr := rfl
@[simp] theorem modCtx_jobs : (s.modCtx c g).jobs = s.jobs := rfl
@[simp] theorem modCtx_nextJob : (s.modCtx c g).nextJob = s.nextJob := rfl
@[simp] theorem modCtx_jobOrder : (s.modCtx c g).jobOrder = s.jobOrder := rfl
@[simp] theorem modCtx_events : (s.modCtx c g).events = s.events := rfl
@[simp] theorem modCtx_waitEv : (s.modCtx c g).waitEv = s.waitEv := rfl
@[simp] theorem modCtx_lateEv : (s.modCtx c g).lateEv = s.lateEv := rfl
@[simp] theorem modCtx_logKeys : (s.modCtx c g).logKeys = s.logKeys := rfl
@[simp] theorem modCtx_dropped : (s.modCtx c g).dropped = s.dropped := rfl
@[simp] theorem modCtx_scrubs : (s.modCtx c g).scrubs = s.scrubs := rfl
@[simp] theorem modCtx_scrubWait : (s.modCtx c g).scrubWait = s.scrubWait := rfl
@[simp] theorem modCtx_refused : (s.modCtx c g).refused = s.refused := rfl
@[simp] theorem modCtx_ranges : (s.modCtx c g).ranges = s.ranges := rfl
@[simp] theorem modCtx_pages : (s.modCtx c g).pages = s.pages := rfl
@[simp] theorem modCtx_invals : (s.modCtx c g).invals = s.invals := rfl
@[simp] theorem modCtx_waiting : (s.modCtx c g).waiting = s.waiting := rfl
@[simp] theorem modCtx_world : (s.modCtx c g).world = s.world := rfl
@[simp] theorem modCtx_dedup : (s.modCtx c g).dedup = s.dedup := rfl
@[simp] theorem modCtx_ports : (s.modCtx c g).ports = s.ports := rfl
@[simp] theorem modCtx_arrayLog : (s.modCtx c g).arrayLog = s.arrayLog := rfl
@[simp] theorem modCtx_busLog : (s.modCtx c g).busLog = s.busLog := rfl
@[simp] theorem modCtx_spadLog : (s.modCtx c g).spadLog = s.spadLog := rfl
@[simp] theorem modCtx_linkLog : (s.modCtx c g).linkLog = s.linkLog := rfl
@[simp] theorem modCtx_secLog : (s.modCtx c g).secLog = s.secLog := rfl
@[simp] theorem modCtx_perf : (s.modCtx c g).perf = s.perf := rfl
@[simp] theorem modCtx_tickLog2 : (s.modCtx c g).tickLog2 = s.tickLog2 := rfl
@[simp] theorem modCtx_tickNow : (s.modCtx c g).tickNow = s.tickNow := rfl
@[simp] theorem modCtx_tickBusy : (s.modCtx c g).tickBusy = s.tickBusy := rfl
@[simp] theorem modCtx_powerLimit : (s.modCtx c g).powerLimit = s.powerLimit := rfl
@[simp] theorem modCtx_qmap : (s.modCtx c g).qmap = s.qmap := rfl
@[simp] theorem modCtx_module : (s.modCtx c g).module = s.module := rfl
@[simp] theorem modCtx_winMap : (s.modCtx c g).winMap = s.winMap := rfl
@[simp] theorem modCtx_mrs : (s.modCtx c g).mrs = s.mrs := rfl
@[simp] theorem modCtx_svn : (s.modCtx c g).svn = s.svn := rfl
@[simp] theorem modCtx_accepted : (s.modCtx c g).accepted = s.accepted := rfl
@[simp] theorem modCtx_bootA : (s.modCtx c g).bootA = s.bootA := rfl
@[simp] theorem modCtx_bootB : (s.modCtx c g).bootB = s.bootB := rfl
@[simp] theorem modCtx_reloading : (s.modCtx c g).reloading = s.reloading := rfl
@[simp] theorem modCtx_bootFail : (s.modCtx c g).bootFail = s.bootFail := rfl
@[simp] theorem modCtx_identity : (s.modCtx c g).identity = s.identity := rfl
@[simp] theorem modCtx_report : (s.modCtx c g).report = s.report := rfl
@[simp] theorem modCtx_readBack : (s.modCtx c g).readBack = s.readBack := rfl
@[simp] theorem modCtx_mailbox : (s.modCtx c g).mailbox = s.mailbox := rfl
@[simp] theorem modCtx_secBox : (s.modCtx c g).secBox = s.secBox := rfl
@[simp] theorem modCtx_fromQueue : (s.modCtx c g).fromQueue = s.fromQueue := rfl
@[simp] theorem modCtx_identityPub : (s.modCtx c g).identityPub = s.identityPub := rfl
@[simp] theorem modCtx_identityCert : (s.modCtx c g).identityCert = s.identityCert := rfl
@[simp] theorem modCtx_flowLow : (s.modCtx c g).flowLow = s.flowLow := rfl
@[simp] theorem modCtx_core : (s.modCtx c g).core c2 n2 = s.core c2 n2 := rfl
@[simp] theorem modCtx_stackAt : (s.modCtx c g).stackAt n2 = s.stackAt n2 := rfl
@[simp] theorem modCtx_part : (s.modCtx c g).part n2 = s.part n2 := rfl
@[simp] theorem modCtx_job : (s.modCtx c g).job n2 = s.job n2 := rfl
@[simp] theorem modCtx_chan : (s.modCtx c g).chan n2 = s.chan n2 := rfl
@[simp] theorem modCtx_peel : (s.modCtx c g).peel n2 = s.peel n2 := rfl
@[simp] theorem modCtx_queue : (s.modCtx c g).queue n2 = s.queue n2 := rfl
@[simp] theorem modCtx_port : (s.modCtx c g).port n2 = s.port n2 := rfl
@[simp] theorem modCtx_gent : (s.modCtx c g).gent n2 = s.gent n2 := rfl
@[simp] theorem modCtx_slot : (s.modCtx c g).slot n2 = s.slot n2 := rfl
@[simp] theorem modCtx_line : (s.modCtx c g).line n2 = s.line n2 := rfl
@[simp] theorem modCtx_ring : (s.modCtx c g).ring m2 n2 = s.ring m2 n2 := rfl
@[simp] theorem modCtx_perfAt : (s.modCtx c g).perfAt n2 = s.perfAt n2 := rfl
@[simp] theorem modCtx_byte : (s.modCtx c g).byte a2 = s.byte a2 := rfl
@[simp] theorem modCtx_load : (s.modCtx c g).load a2 n2 = s.load a2 n2 := rfl
@[simp] theorem modCtx_me : (s.modCtx c g).me = s.me := rfl
@[simp] theorem modCtx_clk : (s.modCtx c g).clk = s.clk := rfl

@[simp] theorem setCore_now : (s.setCore c n y).now = s.now := rfl
@[simp] theorem setCore_cycleBase : (s.setCore c n y).cycleBase = s.cycleBase := rfl
@[simp] theorem setCore_agenda : (s.setCore c n y).agenda = s.agenda := rfl
@[simp] theorem setCore_cur : (s.setCore c n y).cur = s.cur := rfl
@[simp] theorem setCore_arg : (s.setCore c n y).arg = s.arg := rfl
@[simp] theorem setCore_ord : (s.setCore c n y).ord = s.ord := rfl
@[simp] theorem setCore_checked : (s.setCore c n y).checked = s.checked := rfl
@[simp] theorem setCore_probe : (s.setCore c n y).probe = s.probe := rfl
@[simp] theorem setCore_found : (s.setCore c n y).found = s.found := rfl
@[simp] theorem setCore_nextId : (s.setCore c n y).nextId = s.nextId := rfl
@[simp] theorem setCore_mark : (s.setCore c n y).mark = s.mark := rfl
@[simp] theorem setCore_banks : (s.setCore c n y).banks = s.banks := rfl
@[simp] theorem setCore_exBanks : (s.setCore c n y).exBanks = s.exBanks := rfl
@[simp] theorem setCore_svc : (s.setCore c n y).svc = s.svc := rfl
@[simp] theorem setCore_ports_ : (s.setCore c n y).ports_ = s.ports_ := rfl
@[simp] theorem setCore_free : (s.setCore c n y).free = s.free := rfl
@[simp] theorem setCore_ctxs : (s.setCore c n y).ctxs = s.ctxs := rfl
@[simp] theorem setCore_rowLag : (s.setCore c n y).rowLag = s.rowLag := rfl
@[simp] theorem setCore_frames : (s.setCore c n y).frames = s.frames := rfl
@[simp] theorem setCore_cmode : (s.setCore c n y).cmode = s.cmode := rfl
@[simp] theorem setCore_stack : (s.setCore c n y).stack = s.stack := rfl
@[simp] theorem setCore_mem : (s.setCore c n y).mem = s.mem := rfl
@[simp] theorem setCore_slots : (s.setCore c n y).slots = s.slots := rfl
@[simp] theorem setCore_lines : (s.setCore c n y).lines = s.lines := rfl
@[simp] theorem setCore_lineWorld : (s.setCore c n y).lineWorld = s.lineWorld := rfl
@[simp] theorem setCore_bad : (s.setCore c n y).bad = s.bad := rfl
@[simp] theorem setCore_badMeta : (s.setCore c n y).badMeta = s.badMeta := rfl
@[simp] theorem setCore_peels : (s.setCore c n y).peels = s.peels := rfl
@[simp] theorem setCore_gtab : (s.setCore c n y).gtab = s.gtab := rfl
@[simp] theorem setCore_chans : (s.setCore c n y).chans = s.chans := rfl
@[simp] theorem setCore_parts : (s.setCore c n y).parts = s.parts := rfl
@[simp] theorem setCore_queues : (s.setCore c n y).queues = s.queues := rfl
@[simp] theorem setCore_selected : (s.setCore c n y).selected = s.selected := rfl
@[simp] theorem setCore_placed : (s.setCore c n y).placed = s.placed := rfl
@[simp] theorem setCore_rr : (s.setCore c n y).rr = s.rr := rfl
@[simp] theorem setCore_jobs : (s.setCore c n y).jobs = s.jobs := rfl
@[simp] theorem setCore_nextJob : (s.setCore c n y).nextJob = s.nextJob := rfl
@[simp] theorem setCore_jobOrder : (s.setCore c n y).jobOrder = s.jobOrder := rfl
@[simp] theorem setCore_events : (s.setCore c n y).events = s.events := rfl
@[simp] theorem setCore_waitEv : (s.setCore c n y).waitEv = s.waitEv := rfl
@[simp] theorem setCore_lateEv : (s.setCore c n y).lateEv = s.lateEv := rfl
@[simp] theorem setCore_logKeys : (s.setCore c n y).logKeys = s.logKeys := rfl
@[simp] theorem setCore_dropped : (s.setCore c n y).dropped = s.dropped := rfl
@[simp] theorem setCore_scrubs : (s.setCore c n y).scrubs = s.scrubs := rfl
@[simp] theorem setCore_scrubWait : (s.setCore c n y).scrubWait = s.scrubWait := rfl
@[simp] theorem setCore_refused : (s.setCore c n y).refused = s.refused := rfl
@[simp] theorem setCore_ranges : (s.setCore c n y).ranges = s.ranges := rfl
@[simp] theorem setCore_pages : (s.setCore c n y).pages = s.pages := rfl
@[simp] theorem setCore_invals : (s.setCore c n y).invals = s.invals := rfl
@[simp] theorem setCore_waiting : (s.setCore c n y).waiting = s.waiting := rfl
@[simp] theorem setCore_world : (s.setCore c n y).world = s.world := rfl
@[simp] theorem setCore_dedup : (s.setCore c n y).dedup = s.dedup := rfl
@[simp] theorem setCore_ports : (s.setCore c n y).ports = s.ports := rfl
@[simp] theorem setCore_arrayLog : (s.setCore c n y).arrayLog = s.arrayLog := rfl
@[simp] theorem setCore_busLog : (s.setCore c n y).busLog = s.busLog := rfl
@[simp] theorem setCore_spadLog : (s.setCore c n y).spadLog = s.spadLog := rfl
@[simp] theorem setCore_linkLog : (s.setCore c n y).linkLog = s.linkLog := rfl
@[simp] theorem setCore_secLog : (s.setCore c n y).secLog = s.secLog := rfl
@[simp] theorem setCore_perf : (s.setCore c n y).perf = s.perf := rfl
@[simp] theorem setCore_tickLog2 : (s.setCore c n y).tickLog2 = s.tickLog2 := rfl
@[simp] theorem setCore_tickNow : (s.setCore c n y).tickNow = s.tickNow := rfl
@[simp] theorem setCore_tickBusy : (s.setCore c n y).tickBusy = s.tickBusy := rfl
@[simp] theorem setCore_powerLimit : (s.setCore c n y).powerLimit = s.powerLimit := rfl
@[simp] theorem setCore_qmap : (s.setCore c n y).qmap = s.qmap := rfl
@[simp] theorem setCore_module : (s.setCore c n y).module = s.module := rfl
@[simp] theorem setCore_winMap : (s.setCore c n y).winMap = s.winMap := rfl
@[simp] theorem setCore_mrs : (s.setCore c n y).mrs = s.mrs := rfl
@[simp] theorem setCore_svn : (s.setCore c n y).svn = s.svn := rfl
@[simp] theorem setCore_accepted : (s.setCore c n y).accepted = s.accepted := rfl
@[simp] theorem setCore_bootA : (s.setCore c n y).bootA = s.bootA := rfl
@[simp] theorem setCore_bootB : (s.setCore c n y).bootB = s.bootB := rfl
@[simp] theorem setCore_reloading : (s.setCore c n y).reloading = s.reloading := rfl
@[simp] theorem setCore_bootFail : (s.setCore c n y).bootFail = s.bootFail := rfl
@[simp] theorem setCore_identity : (s.setCore c n y).identity = s.identity := rfl
@[simp] theorem setCore_report : (s.setCore c n y).report = s.report := rfl
@[simp] theorem setCore_readBack : (s.setCore c n y).readBack = s.readBack := rfl
@[simp] theorem setCore_mailbox : (s.setCore c n y).mailbox = s.mailbox := rfl
@[simp] theorem setCore_secBox : (s.setCore c n y).secBox = s.secBox := rfl
@[simp] theorem setCore_fromQueue : (s.setCore c n y).fromQueue = s.fromQueue := rfl
@[simp] theorem setCore_identityPub : (s.setCore c n y).identityPub = s.identityPub := rfl
@[simp] theorem setCore_identityCert : (s.setCore c n y).identityCert = s.identityCert := rfl
@[simp] theorem setCore_flowLow : (s.setCore c n y).flowLow = s.flowLow := rfl
@[simp] theorem setCore_ctx : (s.setCore c n y).ctx c2 = s.ctx c2 := rfl
@[simp] theorem setCore_stackAt : (s.setCore c n y).stackAt n2 = s.stackAt n2 := rfl
@[simp] theorem setCore_part : (s.setCore c n y).part n2 = s.part n2 := rfl
@[simp] theorem setCore_job : (s.setCore c n y).job n2 = s.job n2 := rfl
@[simp] theorem setCore_chan : (s.setCore c n y).chan n2 = s.chan n2 := rfl
@[simp] theorem setCore_peel : (s.setCore c n y).peel n2 = s.peel n2 := rfl
@[simp] theorem setCore_queue : (s.setCore c n y).queue n2 = s.queue n2 := rfl
@[simp] theorem setCore_port : (s.setCore c n y).port n2 = s.port n2 := rfl
@[simp] theorem setCore_gent : (s.setCore c n y).gent n2 = s.gent n2 := rfl
@[simp] theorem setCore_slot : (s.setCore c n y).slot n2 = s.slot n2 := rfl
@[simp] theorem setCore_line : (s.setCore c n y).line n2 = s.line n2 := rfl
@[simp] theorem setCore_ring : (s.setCore c n y).ring m2 n2 = s.ring m2 n2 := rfl
@[simp] theorem setCore_perfAt : (s.setCore c n y).perfAt n2 = s.perfAt n2 := rfl
@[simp] theorem setCore_byte : (s.setCore c n y).byte a2 = s.byte a2 := rfl
@[simp] theorem setCore_load : (s.setCore c n y).load a2 n2 = s.load a2 n2 := rfl
@[simp] theorem setCore_myCtx : (s.setCore c n y).myCtx = s.myCtx := rfl
@[simp] theorem setCore_clk : (s.setCore c n y).clk = s.clk := rfl

@[simp] theorem modCore_now : (s.modCore c n gk).now = s.now := rfl
@[simp] theorem modCore_cycleBase : (s.modCore c n gk).cycleBase = s.cycleBase := rfl
@[simp] theorem modCore_agenda : (s.modCore c n gk).agenda = s.agenda := rfl
@[simp] theorem modCore_cur : (s.modCore c n gk).cur = s.cur := rfl
@[simp] theorem modCore_arg : (s.modCore c n gk).arg = s.arg := rfl
@[simp] theorem modCore_ord : (s.modCore c n gk).ord = s.ord := rfl
@[simp] theorem modCore_checked : (s.modCore c n gk).checked = s.checked := rfl
@[simp] theorem modCore_probe : (s.modCore c n gk).probe = s.probe := rfl
@[simp] theorem modCore_found : (s.modCore c n gk).found = s.found := rfl
@[simp] theorem modCore_nextId : (s.modCore c n gk).nextId = s.nextId := rfl
@[simp] theorem modCore_mark : (s.modCore c n gk).mark = s.mark := rfl
@[simp] theorem modCore_banks : (s.modCore c n gk).banks = s.banks := rfl
@[simp] theorem modCore_exBanks : (s.modCore c n gk).exBanks = s.exBanks := rfl
@[simp] theorem modCore_svc : (s.modCore c n gk).svc = s.svc := rfl
@[simp] theorem modCore_ports_ : (s.modCore c n gk).ports_ = s.ports_ := rfl
@[simp] theorem modCore_free : (s.modCore c n gk).free = s.free := rfl
@[simp] theorem modCore_ctxs : (s.modCore c n gk).ctxs = s.ctxs := rfl
@[simp] theorem modCore_rowLag : (s.modCore c n gk).rowLag = s.rowLag := rfl
@[simp] theorem modCore_frames : (s.modCore c n gk).frames = s.frames := rfl
@[simp] theorem modCore_cmode : (s.modCore c n gk).cmode = s.cmode := rfl
@[simp] theorem modCore_stack : (s.modCore c n gk).stack = s.stack := rfl
@[simp] theorem modCore_mem : (s.modCore c n gk).mem = s.mem := rfl
@[simp] theorem modCore_slots : (s.modCore c n gk).slots = s.slots := rfl
@[simp] theorem modCore_lines : (s.modCore c n gk).lines = s.lines := rfl
@[simp] theorem modCore_lineWorld : (s.modCore c n gk).lineWorld = s.lineWorld := rfl
@[simp] theorem modCore_bad : (s.modCore c n gk).bad = s.bad := rfl
@[simp] theorem modCore_badMeta : (s.modCore c n gk).badMeta = s.badMeta := rfl
@[simp] theorem modCore_peels : (s.modCore c n gk).peels = s.peels := rfl
@[simp] theorem modCore_gtab : (s.modCore c n gk).gtab = s.gtab := rfl
@[simp] theorem modCore_chans : (s.modCore c n gk).chans = s.chans := rfl
@[simp] theorem modCore_parts : (s.modCore c n gk).parts = s.parts := rfl
@[simp] theorem modCore_queues : (s.modCore c n gk).queues = s.queues := rfl
@[simp] theorem modCore_selected : (s.modCore c n gk).selected = s.selected := rfl
@[simp] theorem modCore_placed : (s.modCore c n gk).placed = s.placed := rfl
@[simp] theorem modCore_rr : (s.modCore c n gk).rr = s.rr := rfl
@[simp] theorem modCore_jobs : (s.modCore c n gk).jobs = s.jobs := rfl
@[simp] theorem modCore_nextJob : (s.modCore c n gk).nextJob = s.nextJob := rfl
@[simp] theorem modCore_jobOrder : (s.modCore c n gk).jobOrder = s.jobOrder := rfl
@[simp] theorem modCore_events : (s.modCore c n gk).events = s.events := rfl
@[simp] theorem modCore_waitEv : (s.modCore c n gk).waitEv = s.waitEv := rfl
@[simp] theorem modCore_lateEv : (s.modCore c n gk).lateEv = s.lateEv := rfl
@[simp] theorem modCore_logKeys : (s.modCore c n gk).logKeys = s.logKeys := rfl
@[simp] theorem modCore_dropped : (s.modCore c n gk).dropped = s.dropped := rfl
@[simp] theorem modCore_scrubs : (s.modCore c n gk).scrubs = s.scrubs := rfl
@[simp] theorem modCore_scrubWait : (s.modCore c n gk).scrubWait = s.scrubWait := rfl
@[simp] theorem modCore_refused : (s.modCore c n gk).refused = s.refused := rfl
@[simp] theorem modCore_ranges : (s.modCore c n gk).ranges = s.ranges := rfl
@[simp] theorem modCore_pages : (s.modCore c n gk).pages = s.pages := rfl
@[simp] theorem modCore_invals : (s.modCore c n gk).invals = s.invals := rfl
@[simp] theorem modCore_waiting : (s.modCore c n gk).waiting = s.waiting := rfl
@[simp] theorem modCore_world : (s.modCore c n gk).world = s.world := rfl
@[simp] theorem modCore_dedup : (s.modCore c n gk).dedup = s.dedup := rfl
@[simp] theorem modCore_ports : (s.modCore c n gk).ports = s.ports := rfl
@[simp] theorem modCore_arrayLog : (s.modCore c n gk).arrayLog = s.arrayLog := rfl
@[simp] theorem modCore_busLog : (s.modCore c n gk).busLog = s.busLog := rfl
@[simp] theorem modCore_spadLog : (s.modCore c n gk).spadLog = s.spadLog := rfl
@[simp] theorem modCore_linkLog : (s.modCore c n gk).linkLog = s.linkLog := rfl
@[simp] theorem modCore_secLog : (s.modCore c n gk).secLog = s.secLog := rfl
@[simp] theorem modCore_perf : (s.modCore c n gk).perf = s.perf := rfl
@[simp] theorem modCore_tickLog2 : (s.modCore c n gk).tickLog2 = s.tickLog2 := rfl
@[simp] theorem modCore_tickNow : (s.modCore c n gk).tickNow = s.tickNow := rfl
@[simp] theorem modCore_tickBusy : (s.modCore c n gk).tickBusy = s.tickBusy := rfl
@[simp] theorem modCore_powerLimit : (s.modCore c n gk).powerLimit = s.powerLimit := rfl
@[simp] theorem modCore_qmap : (s.modCore c n gk).qmap = s.qmap := rfl
@[simp] theorem modCore_module : (s.modCore c n gk).module = s.module := rfl
@[simp] theorem modCore_winMap : (s.modCore c n gk).winMap = s.winMap := rfl
@[simp] theorem modCore_mrs : (s.modCore c n gk).mrs = s.mrs := rfl
@[simp] theorem modCore_svn : (s.modCore c n gk).svn = s.svn := rfl
@[simp] theorem modCore_accepted : (s.modCore c n gk).accepted = s.accepted := rfl
@[simp] theorem modCore_bootA : (s.modCore c n gk).bootA = s.bootA := rfl
@[simp] theorem modCore_bootB : (s.modCore c n gk).bootB = s.bootB := rfl
@[simp] theorem modCore_reloading : (s.modCore c n gk).reloading = s.reloading := rfl
@[simp] theorem modCore_bootFail : (s.modCore c n gk).bootFail = s.bootFail := rfl
@[simp] theorem modCore_identity : (s.modCore c n gk).identity = s.identity := rfl
@[simp] theorem modCore_report : (s.modCore c n gk).report = s.report := rfl
@[simp] theorem modCore_readBack : (s.modCore c n gk).readBack = s.readBack := rfl
@[simp] theorem modCore_mailbox : (s.modCore c n gk).mailbox = s.mailbox := rfl
@[simp] theorem modCore_secBox : (s.modCore c n gk).secBox = s.secBox := rfl
@[simp] theorem modCore_fromQueue : (s.modCore c n gk).fromQueue = s.fromQueue := rfl
@[simp] theorem modCore_identityPub : (s.modCore c n gk).identityPub = s.identityPub := rfl
@[simp] theorem modCore_identityCert : (s.modCore c n gk).identityCert = s.identityCert := rfl
@[simp] theorem modCore_flowLow : (s.modCore c n gk).flowLow = s.flowLow := rfl
@[simp] theorem modCore_ctx : (s.modCore c n gk).ctx c2 = s.ctx c2 := rfl
@[simp] theorem modCore_stackAt : (s.modCore c n gk).stackAt n2 = s.stackAt n2 := rfl
@[simp] theorem modCore_part : (s.modCore c n gk).part n2 = s.part n2 := rfl
@[simp] theorem modCore_job : (s.modCore c n gk).job n2 = s.job n2 := rfl
@[simp] theorem modCore_chan : (s.modCore c n gk).chan n2 = s.chan n2 := rfl
@[simp] theorem modCore_peel : (s.modCore c n gk).peel n2 = s.peel n2 := rfl
@[simp] theorem modCore_queue : (s.modCore c n gk).queue n2 = s.queue n2 := rfl
@[simp] theorem modCore_port : (s.modCore c n gk).port n2 = s.port n2 := rfl
@[simp] theorem modCore_gent : (s.modCore c n gk).gent n2 = s.gent n2 := rfl
@[simp] theorem modCore_slot : (s.modCore c n gk).slot n2 = s.slot n2 := rfl
@[simp] theorem modCore_line : (s.modCore c n gk).line n2 = s.line n2 := rfl
@[simp] theorem modCore_ring : (s.modCore c n gk).ring m2 n2 = s.ring m2 n2 := rfl
@[simp] theorem modCore_perfAt : (s.modCore c n gk).perfAt n2 = s.perfAt n2 := rfl
@[simp] theorem modCore_byte : (s.modCore c n gk).byte a2 = s.byte a2 := rfl
@[simp] theorem modCore_load : (s.modCore c n gk).load a2 n2 = s.load a2 n2 := rfl
@[simp] theorem modCore_myCtx : (s.modCore c n gk).myCtx = s.myCtx := rfl
@[simp] theorem modCore_clk : (s.modCore c n gk).clk = s.clk := rfl

@[simp] theorem modStack_now : (s.modStack n gs).now = s.now := rfl
@[simp] theorem modStack_cycleBase : (s.modStack n gs).cycleBase = s.cycleBase := rfl
@[simp] theorem modStack_agenda : (s.modStack n gs).agenda = s.agenda := rfl
@[simp] theorem modStack_cur : (s.modStack n gs).cur = s.cur := rfl
@[simp] theorem modStack_arg : (s.modStack n gs).arg = s.arg := rfl
@[simp] theorem modStack_ord : (s.modStack n gs).ord = s.ord := rfl
@[simp] theorem modStack_checked : (s.modStack n gs).checked = s.checked := rfl
@[simp] theorem modStack_probe : (s.modStack n gs).probe = s.probe := rfl
@[simp] theorem modStack_found : (s.modStack n gs).found = s.found := rfl
@[simp] theorem modStack_nextId : (s.modStack n gs).nextId = s.nextId := rfl
@[simp] theorem modStack_mark : (s.modStack n gs).mark = s.mark := rfl
@[simp] theorem modStack_banks : (s.modStack n gs).banks = s.banks := rfl
@[simp] theorem modStack_exBanks : (s.modStack n gs).exBanks = s.exBanks := rfl
@[simp] theorem modStack_svc : (s.modStack n gs).svc = s.svc := rfl
@[simp] theorem modStack_ports_ : (s.modStack n gs).ports_ = s.ports_ := rfl
@[simp] theorem modStack_free : (s.modStack n gs).free = s.free := rfl
@[simp] theorem modStack_ctxs : (s.modStack n gs).ctxs = s.ctxs := rfl
@[simp] theorem modStack_cores : (s.modStack n gs).cores = s.cores := rfl
@[simp] theorem modStack_rowLag : (s.modStack n gs).rowLag = s.rowLag := rfl
@[simp] theorem modStack_frames : (s.modStack n gs).frames = s.frames := rfl
@[simp] theorem modStack_cmode : (s.modStack n gs).cmode = s.cmode := rfl
@[simp] theorem modStack_mem : (s.modStack n gs).mem = s.mem := rfl
@[simp] theorem modStack_slots : (s.modStack n gs).slots = s.slots := rfl
@[simp] theorem modStack_lines : (s.modStack n gs).lines = s.lines := rfl
@[simp] theorem modStack_lineWorld : (s.modStack n gs).lineWorld = s.lineWorld := rfl
@[simp] theorem modStack_bad : (s.modStack n gs).bad = s.bad := rfl
@[simp] theorem modStack_badMeta : (s.modStack n gs).badMeta = s.badMeta := rfl
@[simp] theorem modStack_peels : (s.modStack n gs).peels = s.peels := rfl
@[simp] theorem modStack_gtab : (s.modStack n gs).gtab = s.gtab := rfl
@[simp] theorem modStack_chans : (s.modStack n gs).chans = s.chans := rfl
@[simp] theorem modStack_parts : (s.modStack n gs).parts = s.parts := rfl
@[simp] theorem modStack_queues : (s.modStack n gs).queues = s.queues := rfl
@[simp] theorem modStack_selected : (s.modStack n gs).selected = s.selected := rfl
@[simp] theorem modStack_placed : (s.modStack n gs).placed = s.placed := rfl
@[simp] theorem modStack_rr : (s.modStack n gs).rr = s.rr := rfl
@[simp] theorem modStack_jobs : (s.modStack n gs).jobs = s.jobs := rfl
@[simp] theorem modStack_nextJob : (s.modStack n gs).nextJob = s.nextJob := rfl
@[simp] theorem modStack_jobOrder : (s.modStack n gs).jobOrder = s.jobOrder := rfl
@[simp] theorem modStack_events : (s.modStack n gs).events = s.events := rfl
@[simp] theorem modStack_waitEv : (s.modStack n gs).waitEv = s.waitEv := rfl
@[simp] theorem modStack_lateEv : (s.modStack n gs).lateEv = s.lateEv := rfl
@[simp] theorem modStack_logKeys : (s.modStack n gs).logKeys = s.logKeys := rfl
@[simp] theorem modStack_dropped : (s.modStack n gs).dropped = s.dropped := rfl
@[simp] theorem modStack_scrubs : (s.modStack n gs).scrubs = s.scrubs := rfl
@[simp] theorem modStack_scrubWait : (s.modStack n gs).scrubWait = s.scrubWait := rfl
@[simp] theorem modStack_refused : (s.modStack n gs).refused = s.refused := rfl
@[simp] theorem modStack_ranges : (s.modStack n gs).ranges = s.ranges := rfl
@[simp] theorem modStack_pages : (s.modStack n gs).pages = s.pages := rfl
@[simp] theorem modStack_invals : (s.modStack n gs).invals = s.invals := rfl
@[simp] theorem modStack_waiting : (s.modStack n gs).waiting = s.waiting := rfl
@[simp] theorem modStack_world : (s.modStack n gs).world = s.world := rfl
@[simp] theorem modStack_dedup : (s.modStack n gs).dedup = s.dedup := rfl
@[simp] theorem modStack_ports : (s.modStack n gs).ports = s.ports := rfl
@[simp] theorem modStack_arrayLog : (s.modStack n gs).arrayLog = s.arrayLog := rfl
@[simp] theorem modStack_busLog : (s.modStack n gs).busLog = s.busLog := rfl
@[simp] theorem modStack_spadLog : (s.modStack n gs).spadLog = s.spadLog := rfl
@[simp] theorem modStack_linkLog : (s.modStack n gs).linkLog = s.linkLog := rfl
@[simp] theorem modStack_secLog : (s.modStack n gs).secLog = s.secLog := rfl
@[simp] theorem modStack_perf : (s.modStack n gs).perf = s.perf := rfl
@[simp] theorem modStack_tickLog2 : (s.modStack n gs).tickLog2 = s.tickLog2 := rfl
@[simp] theorem modStack_tickNow : (s.modStack n gs).tickNow = s.tickNow := rfl
@[simp] theorem modStack_tickBusy : (s.modStack n gs).tickBusy = s.tickBusy := rfl
@[simp] theorem modStack_powerLimit : (s.modStack n gs).powerLimit = s.powerLimit := rfl
@[simp] theorem modStack_qmap : (s.modStack n gs).qmap = s.qmap := rfl
@[simp] theorem modStack_module : (s.modStack n gs).module = s.module := rfl
@[simp] theorem modStack_winMap : (s.modStack n gs).winMap = s.winMap := rfl
@[simp] theorem modStack_mrs : (s.modStack n gs).mrs = s.mrs := rfl
@[simp] theorem modStack_svn : (s.modStack n gs).svn = s.svn := rfl
@[simp] theorem modStack_accepted : (s.modStack n gs).accepted = s.accepted := rfl
@[simp] theorem modStack_bootA : (s.modStack n gs).bootA = s.bootA := rfl
@[simp] theorem modStack_bootB : (s.modStack n gs).bootB = s.bootB := rfl
@[simp] theorem modStack_reloading : (s.modStack n gs).reloading = s.reloading := rfl
@[simp] theorem modStack_bootFail : (s.modStack n gs).bootFail = s.bootFail := rfl
@[simp] theorem modStack_identity : (s.modStack n gs).identity = s.identity := rfl
@[simp] theorem modStack_report : (s.modStack n gs).report = s.report := rfl
@[simp] theorem modStack_readBack : (s.modStack n gs).readBack = s.readBack := rfl
@[simp] theorem modStack_mailbox : (s.modStack n gs).mailbox = s.mailbox := rfl
@[simp] theorem modStack_secBox : (s.modStack n gs).secBox = s.secBox := rfl
@[simp] theorem modStack_fromQueue : (s.modStack n gs).fromQueue = s.fromQueue := rfl
@[simp] theorem modStack_identityPub : (s.modStack n gs).identityPub = s.identityPub := rfl
@[simp] theorem modStack_identityCert : (s.modStack n gs).identityCert = s.identityCert := rfl
@[simp] theorem modStack_flowLow : (s.modStack n gs).flowLow = s.flowLow := rfl
@[simp] theorem modStack_ctx : (s.modStack n gs).ctx c2 = s.ctx c2 := rfl
@[simp] theorem modStack_core : (s.modStack n gs).core c2 n2 = s.core c2 n2 := rfl
@[simp] theorem modStack_part : (s.modStack n gs).part n2 = s.part n2 := rfl
@[simp] theorem modStack_job : (s.modStack n gs).job n2 = s.job n2 := rfl
@[simp] theorem modStack_chan : (s.modStack n gs).chan n2 = s.chan n2 := rfl
@[simp] theorem modStack_peel : (s.modStack n gs).peel n2 = s.peel n2 := rfl
@[simp] theorem modStack_queue : (s.modStack n gs).queue n2 = s.queue n2 := rfl
@[simp] theorem modStack_port : (s.modStack n gs).port n2 = s.port n2 := rfl
@[simp] theorem modStack_gent : (s.modStack n gs).gent n2 = s.gent n2 := rfl
@[simp] theorem modStack_slot : (s.modStack n gs).slot n2 = s.slot n2 := rfl
@[simp] theorem modStack_line : (s.modStack n gs).line n2 = s.line n2 := rfl
@[simp] theorem modStack_perfAt : (s.modStack n gs).perfAt n2 = s.perfAt n2 := rfl
@[simp] theorem modStack_byte : (s.modStack n gs).byte a2 = s.byte a2 := rfl
@[simp] theorem modStack_load : (s.modStack n gs).load a2 n2 = s.load a2 n2 := rfl
@[simp] theorem modStack_me : (s.modStack n gs).me = s.me := rfl
@[simp] theorem modStack_myCtx : (s.modStack n gs).myCtx = s.myCtx := rfl
@[simp] theorem modStack_clk : (s.modStack n gs).clk = s.clk := rfl

@[simp] theorem modPart_now : (s.modPart n gp).now = s.now := rfl
@[simp] theorem modPart_cycleBase : (s.modPart n gp).cycleBase = s.cycleBase := rfl
@[simp] theorem modPart_agenda : (s.modPart n gp).agenda = s.agenda := rfl
@[simp] theorem modPart_cur : (s.modPart n gp).cur = s.cur := rfl
@[simp] theorem modPart_arg : (s.modPart n gp).arg = s.arg := rfl
@[simp] theorem modPart_ord : (s.modPart n gp).ord = s.ord := rfl
@[simp] theorem modPart_checked : (s.modPart n gp).checked = s.checked := rfl
@[simp] theorem modPart_probe : (s.modPart n gp).probe = s.probe := rfl
@[simp] theorem modPart_found : (s.modPart n gp).found = s.found := rfl
@[simp] theorem modPart_nextId : (s.modPart n gp).nextId = s.nextId := rfl
@[simp] theorem modPart_mark : (s.modPart n gp).mark = s.mark := rfl
@[simp] theorem modPart_banks : (s.modPart n gp).banks = s.banks := rfl
@[simp] theorem modPart_exBanks : (s.modPart n gp).exBanks = s.exBanks := rfl
@[simp] theorem modPart_svc : (s.modPart n gp).svc = s.svc := rfl
@[simp] theorem modPart_ports_ : (s.modPart n gp).ports_ = s.ports_ := rfl
@[simp] theorem modPart_free : (s.modPart n gp).free = s.free := rfl
@[simp] theorem modPart_ctxs : (s.modPart n gp).ctxs = s.ctxs := rfl
@[simp] theorem modPart_cores : (s.modPart n gp).cores = s.cores := rfl
@[simp] theorem modPart_rowLag : (s.modPart n gp).rowLag = s.rowLag := rfl
@[simp] theorem modPart_frames : (s.modPart n gp).frames = s.frames := rfl
@[simp] theorem modPart_cmode : (s.modPart n gp).cmode = s.cmode := rfl
@[simp] theorem modPart_stack : (s.modPart n gp).stack = s.stack := rfl
@[simp] theorem modPart_mem : (s.modPart n gp).mem = s.mem := rfl
@[simp] theorem modPart_slots : (s.modPart n gp).slots = s.slots := rfl
@[simp] theorem modPart_lines : (s.modPart n gp).lines = s.lines := rfl
@[simp] theorem modPart_lineWorld : (s.modPart n gp).lineWorld = s.lineWorld := rfl
@[simp] theorem modPart_bad : (s.modPart n gp).bad = s.bad := rfl
@[simp] theorem modPart_badMeta : (s.modPart n gp).badMeta = s.badMeta := rfl
@[simp] theorem modPart_peels : (s.modPart n gp).peels = s.peels := rfl
@[simp] theorem modPart_gtab : (s.modPart n gp).gtab = s.gtab := rfl
@[simp] theorem modPart_chans : (s.modPart n gp).chans = s.chans := rfl
@[simp] theorem modPart_queues : (s.modPart n gp).queues = s.queues := rfl
@[simp] theorem modPart_selected : (s.modPart n gp).selected = s.selected := rfl
@[simp] theorem modPart_placed : (s.modPart n gp).placed = s.placed := rfl
@[simp] theorem modPart_rr : (s.modPart n gp).rr = s.rr := rfl
@[simp] theorem modPart_jobs : (s.modPart n gp).jobs = s.jobs := rfl
@[simp] theorem modPart_nextJob : (s.modPart n gp).nextJob = s.nextJob := rfl
@[simp] theorem modPart_jobOrder : (s.modPart n gp).jobOrder = s.jobOrder := rfl
@[simp] theorem modPart_events : (s.modPart n gp).events = s.events := rfl
@[simp] theorem modPart_waitEv : (s.modPart n gp).waitEv = s.waitEv := rfl
@[simp] theorem modPart_lateEv : (s.modPart n gp).lateEv = s.lateEv := rfl
@[simp] theorem modPart_logKeys : (s.modPart n gp).logKeys = s.logKeys := rfl
@[simp] theorem modPart_dropped : (s.modPart n gp).dropped = s.dropped := rfl
@[simp] theorem modPart_scrubs : (s.modPart n gp).scrubs = s.scrubs := rfl
@[simp] theorem modPart_scrubWait : (s.modPart n gp).scrubWait = s.scrubWait := rfl
@[simp] theorem modPart_refused : (s.modPart n gp).refused = s.refused := rfl
@[simp] theorem modPart_ranges : (s.modPart n gp).ranges = s.ranges := rfl
@[simp] theorem modPart_pages : (s.modPart n gp).pages = s.pages := rfl
@[simp] theorem modPart_invals : (s.modPart n gp).invals = s.invals := rfl
@[simp] theorem modPart_waiting : (s.modPart n gp).waiting = s.waiting := rfl
@[simp] theorem modPart_world : (s.modPart n gp).world = s.world := rfl
@[simp] theorem modPart_dedup : (s.modPart n gp).dedup = s.dedup := rfl
@[simp] theorem modPart_ports : (s.modPart n gp).ports = s.ports := rfl
@[simp] theorem modPart_arrayLog : (s.modPart n gp).arrayLog = s.arrayLog := rfl
@[simp] theorem modPart_busLog : (s.modPart n gp).busLog = s.busLog := rfl
@[simp] theorem modPart_spadLog : (s.modPart n gp).spadLog = s.spadLog := rfl
@[simp] theorem modPart_linkLog : (s.modPart n gp).linkLog = s.linkLog := rfl
@[simp] theorem modPart_secLog : (s.modPart n gp).secLog = s.secLog := rfl
@[simp] theorem modPart_perf : (s.modPart n gp).perf = s.perf := rfl
@[simp] theorem modPart_tickLog2 : (s.modPart n gp).tickLog2 = s.tickLog2 := rfl
@[simp] theorem modPart_tickNow : (s.modPart n gp).tickNow = s.tickNow := rfl
@[simp] theorem modPart_tickBusy : (s.modPart n gp).tickBusy = s.tickBusy := rfl
@[simp] theorem modPart_powerLimit : (s.modPart n gp).powerLimit = s.powerLimit := rfl
@[simp] theorem modPart_qmap : (s.modPart n gp).qmap = s.qmap := rfl
@[simp] theorem modPart_module : (s.modPart n gp).module = s.module := rfl
@[simp] theorem modPart_winMap : (s.modPart n gp).winMap = s.winMap := rfl
@[simp] theorem modPart_mrs : (s.modPart n gp).mrs = s.mrs := rfl
@[simp] theorem modPart_svn : (s.modPart n gp).svn = s.svn := rfl
@[simp] theorem modPart_accepted : (s.modPart n gp).accepted = s.accepted := rfl
@[simp] theorem modPart_bootA : (s.modPart n gp).bootA = s.bootA := rfl
@[simp] theorem modPart_bootB : (s.modPart n gp).bootB = s.bootB := rfl
@[simp] theorem modPart_reloading : (s.modPart n gp).reloading = s.reloading := rfl
@[simp] theorem modPart_bootFail : (s.modPart n gp).bootFail = s.bootFail := rfl
@[simp] theorem modPart_identity : (s.modPart n gp).identity = s.identity := rfl
@[simp] theorem modPart_report : (s.modPart n gp).report = s.report := rfl
@[simp] theorem modPart_readBack : (s.modPart n gp).readBack = s.readBack := rfl
@[simp] theorem modPart_mailbox : (s.modPart n gp).mailbox = s.mailbox := rfl
@[simp] theorem modPart_secBox : (s.modPart n gp).secBox = s.secBox := rfl
@[simp] theorem modPart_fromQueue : (s.modPart n gp).fromQueue = s.fromQueue := rfl
@[simp] theorem modPart_identityPub : (s.modPart n gp).identityPub = s.identityPub := rfl
@[simp] theorem modPart_identityCert : (s.modPart n gp).identityCert = s.identityCert := rfl
@[simp] theorem modPart_flowLow : (s.modPart n gp).flowLow = s.flowLow := rfl
@[simp] theorem modPart_ctx : (s.modPart n gp).ctx c2 = s.ctx c2 := rfl
@[simp] theorem modPart_core : (s.modPart n gp).core c2 n2 = s.core c2 n2 := rfl
@[simp] theorem modPart_stackAt : (s.modPart n gp).stackAt n2 = s.stackAt n2 := rfl
@[simp] theorem modPart_job : (s.modPart n gp).job n2 = s.job n2 := rfl
@[simp] theorem modPart_chan : (s.modPart n gp).chan n2 = s.chan n2 := rfl
@[simp] theorem modPart_peel : (s.modPart n gp).peel n2 = s.peel n2 := rfl
@[simp] theorem modPart_queue : (s.modPart n gp).queue n2 = s.queue n2 := rfl
@[simp] theorem modPart_port : (s.modPart n gp).port n2 = s.port n2 := rfl
@[simp] theorem modPart_gent : (s.modPart n gp).gent n2 = s.gent n2 := rfl
@[simp] theorem modPart_slot : (s.modPart n gp).slot n2 = s.slot n2 := rfl
@[simp] theorem modPart_line : (s.modPart n gp).line n2 = s.line n2 := rfl
@[simp] theorem modPart_ring : (s.modPart n gp).ring m2 n2 = s.ring m2 n2 := rfl
@[simp] theorem modPart_perfAt : (s.modPart n gp).perfAt n2 = s.perfAt n2 := rfl
@[simp] theorem modPart_byte : (s.modPart n gp).byte a2 = s.byte a2 := rfl
@[simp] theorem modPart_load : (s.modPart n gp).load a2 n2 = s.load a2 n2 := rfl
@[simp] theorem modPart_me : (s.modPart n gp).me = s.me := rfl
@[simp] theorem modPart_myCtx : (s.modPart n gp).myCtx = s.myCtx := rfl
@[simp] theorem modPart_clk : (s.modPart n gp).clk = s.clk := rfl

@[simp] theorem modJob_now : (s.modJob n gj).now = s.now := rfl
@[simp] theorem modJob_cycleBase : (s.modJob n gj).cycleBase = s.cycleBase := rfl
@[simp] theorem modJob_agenda : (s.modJob n gj).agenda = s.agenda := rfl
@[simp] theorem modJob_cur : (s.modJob n gj).cur = s.cur := rfl
@[simp] theorem modJob_arg : (s.modJob n gj).arg = s.arg := rfl
@[simp] theorem modJob_ord : (s.modJob n gj).ord = s.ord := rfl
@[simp] theorem modJob_checked : (s.modJob n gj).checked = s.checked := rfl
@[simp] theorem modJob_probe : (s.modJob n gj).probe = s.probe := rfl
@[simp] theorem modJob_found : (s.modJob n gj).found = s.found := rfl
@[simp] theorem modJob_nextId : (s.modJob n gj).nextId = s.nextId := rfl
@[simp] theorem modJob_mark : (s.modJob n gj).mark = s.mark := rfl
@[simp] theorem modJob_banks : (s.modJob n gj).banks = s.banks := rfl
@[simp] theorem modJob_exBanks : (s.modJob n gj).exBanks = s.exBanks := rfl
@[simp] theorem modJob_svc : (s.modJob n gj).svc = s.svc := rfl
@[simp] theorem modJob_ports_ : (s.modJob n gj).ports_ = s.ports_ := rfl
@[simp] theorem modJob_free : (s.modJob n gj).free = s.free := rfl
@[simp] theorem modJob_ctxs : (s.modJob n gj).ctxs = s.ctxs := rfl
@[simp] theorem modJob_cores : (s.modJob n gj).cores = s.cores := rfl
@[simp] theorem modJob_rowLag : (s.modJob n gj).rowLag = s.rowLag := rfl
@[simp] theorem modJob_frames : (s.modJob n gj).frames = s.frames := rfl
@[simp] theorem modJob_cmode : (s.modJob n gj).cmode = s.cmode := rfl
@[simp] theorem modJob_stack : (s.modJob n gj).stack = s.stack := rfl
@[simp] theorem modJob_mem : (s.modJob n gj).mem = s.mem := rfl
@[simp] theorem modJob_slots : (s.modJob n gj).slots = s.slots := rfl
@[simp] theorem modJob_lines : (s.modJob n gj).lines = s.lines := rfl
@[simp] theorem modJob_lineWorld : (s.modJob n gj).lineWorld = s.lineWorld := rfl
@[simp] theorem modJob_bad : (s.modJob n gj).bad = s.bad := rfl
@[simp] theorem modJob_badMeta : (s.modJob n gj).badMeta = s.badMeta := rfl
@[simp] theorem modJob_peels : (s.modJob n gj).peels = s.peels := rfl
@[simp] theorem modJob_gtab : (s.modJob n gj).gtab = s.gtab := rfl
@[simp] theorem modJob_chans : (s.modJob n gj).chans = s.chans := rfl
@[simp] theorem modJob_parts : (s.modJob n gj).parts = s.parts := rfl
@[simp] theorem modJob_queues : (s.modJob n gj).queues = s.queues := rfl
@[simp] theorem modJob_selected : (s.modJob n gj).selected = s.selected := rfl
@[simp] theorem modJob_placed : (s.modJob n gj).placed = s.placed := rfl
@[simp] theorem modJob_rr : (s.modJob n gj).rr = s.rr := rfl
@[simp] theorem modJob_nextJob : (s.modJob n gj).nextJob = s.nextJob := rfl
@[simp] theorem modJob_jobOrder : (s.modJob n gj).jobOrder = s.jobOrder := rfl
@[simp] theorem modJob_events : (s.modJob n gj).events = s.events := rfl
@[simp] theorem modJob_waitEv : (s.modJob n gj).waitEv = s.waitEv := rfl
@[simp] theorem modJob_lateEv : (s.modJob n gj).lateEv = s.lateEv := rfl
@[simp] theorem modJob_logKeys : (s.modJob n gj).logKeys = s.logKeys := rfl
@[simp] theorem modJob_dropped : (s.modJob n gj).dropped = s.dropped := rfl
@[simp] theorem modJob_scrubs : (s.modJob n gj).scrubs = s.scrubs := rfl
@[simp] theorem modJob_scrubWait : (s.modJob n gj).scrubWait = s.scrubWait := rfl
@[simp] theorem modJob_refused : (s.modJob n gj).refused = s.refused := rfl
@[simp] theorem modJob_ranges : (s.modJob n gj).ranges = s.ranges := rfl
@[simp] theorem modJob_pages : (s.modJob n gj).pages = s.pages := rfl
@[simp] theorem modJob_invals : (s.modJob n gj).invals = s.invals := rfl
@[simp] theorem modJob_waiting : (s.modJob n gj).waiting = s.waiting := rfl
@[simp] theorem modJob_world : (s.modJob n gj).world = s.world := rfl
@[simp] theorem modJob_dedup : (s.modJob n gj).dedup = s.dedup := rfl
@[simp] theorem modJob_ports : (s.modJob n gj).ports = s.ports := rfl
@[simp] theorem modJob_arrayLog : (s.modJob n gj).arrayLog = s.arrayLog := rfl
@[simp] theorem modJob_busLog : (s.modJob n gj).busLog = s.busLog := rfl
@[simp] theorem modJob_spadLog : (s.modJob n gj).spadLog = s.spadLog := rfl
@[simp] theorem modJob_linkLog : (s.modJob n gj).linkLog = s.linkLog := rfl
@[simp] theorem modJob_secLog : (s.modJob n gj).secLog = s.secLog := rfl
@[simp] theorem modJob_perf : (s.modJob n gj).perf = s.perf := rfl
@[simp] theorem modJob_tickLog2 : (s.modJob n gj).tickLog2 = s.tickLog2 := rfl
@[simp] theorem modJob_tickNow : (s.modJob n gj).tickNow = s.tickNow := rfl
@[simp] theorem modJob_tickBusy : (s.modJob n gj).tickBusy = s.tickBusy := rfl
@[simp] theorem modJob_powerLimit : (s.modJob n gj).powerLimit = s.powerLimit := rfl
@[simp] theorem modJob_qmap : (s.modJob n gj).qmap = s.qmap := rfl
@[simp] theorem modJob_module : (s.modJob n gj).module = s.module := rfl
@[simp] theorem modJob_winMap : (s.modJob n gj).winMap = s.winMap := rfl
@[simp] theorem modJob_mrs : (s.modJob n gj).mrs = s.mrs := rfl
@[simp] theorem modJob_svn : (s.modJob n gj).svn = s.svn := rfl
@[simp] theorem modJob_accepted : (s.modJob n gj).accepted = s.accepted := rfl
@[simp] theorem modJob_bootA : (s.modJob n gj).bootA = s.bootA := rfl
@[simp] theorem modJob_bootB : (s.modJob n gj).bootB = s.bootB := rfl
@[simp] theorem modJob_reloading : (s.modJob n gj).reloading = s.reloading := rfl
@[simp] theorem modJob_bootFail : (s.modJob n gj).bootFail = s.bootFail := rfl
@[simp] theorem modJob_identity : (s.modJob n gj).identity = s.identity := rfl
@[simp] theorem modJob_report : (s.modJob n gj).report = s.report := rfl
@[simp] theorem modJob_readBack : (s.modJob n gj).readBack = s.readBack := rfl
@[simp] theorem modJob_mailbox : (s.modJob n gj).mailbox = s.mailbox := rfl
@[simp] theorem modJob_secBox : (s.modJob n gj).secBox = s.secBox := rfl
@[simp] theorem modJob_fromQueue : (s.modJob n gj).fromQueue = s.fromQueue := rfl
@[simp] theorem modJob_identityPub : (s.modJob n gj).identityPub = s.identityPub := rfl
@[simp] theorem modJob_identityCert : (s.modJob n gj).identityCert = s.identityCert := rfl
@[simp] theorem modJob_flowLow : (s.modJob n gj).flowLow = s.flowLow := rfl
@[simp] theorem modJob_ctx : (s.modJob n gj).ctx c2 = s.ctx c2 := rfl
@[simp] theorem modJob_core : (s.modJob n gj).core c2 n2 = s.core c2 n2 := rfl
@[simp] theorem modJob_stackAt : (s.modJob n gj).stackAt n2 = s.stackAt n2 := rfl
@[simp] theorem modJob_part : (s.modJob n gj).part n2 = s.part n2 := rfl
@[simp] theorem modJob_chan : (s.modJob n gj).chan n2 = s.chan n2 := rfl
@[simp] theorem modJob_peel : (s.modJob n gj).peel n2 = s.peel n2 := rfl
@[simp] theorem modJob_queue : (s.modJob n gj).queue n2 = s.queue n2 := rfl
@[simp] theorem modJob_port : (s.modJob n gj).port n2 = s.port n2 := rfl
@[simp] theorem modJob_gent : (s.modJob n gj).gent n2 = s.gent n2 := rfl
@[simp] theorem modJob_slot : (s.modJob n gj).slot n2 = s.slot n2 := rfl
@[simp] theorem modJob_line : (s.modJob n gj).line n2 = s.line n2 := rfl
@[simp] theorem modJob_ring : (s.modJob n gj).ring m2 n2 = s.ring m2 n2 := rfl
@[simp] theorem modJob_perfAt : (s.modJob n gj).perfAt n2 = s.perfAt n2 := rfl
@[simp] theorem modJob_byte : (s.modJob n gj).byte a2 = s.byte a2 := rfl
@[simp] theorem modJob_load : (s.modJob n gj).load a2 n2 = s.load a2 n2 := rfl
@[simp] theorem modJob_me : (s.modJob n gj).me = s.me := rfl
@[simp] theorem modJob_myCtx : (s.modJob n gj).myCtx = s.myCtx := rfl
@[simp] theorem modJob_clk : (s.modJob n gj).clk = s.clk := rfl

@[simp] theorem modChan_now : (s.modChan n gc).now = s.now := rfl
@[simp] theorem modChan_cycleBase : (s.modChan n gc).cycleBase = s.cycleBase := rfl
@[simp] theorem modChan_agenda : (s.modChan n gc).agenda = s.agenda := rfl
@[simp] theorem modChan_cur : (s.modChan n gc).cur = s.cur := rfl
@[simp] theorem modChan_arg : (s.modChan n gc).arg = s.arg := rfl
@[simp] theorem modChan_ord : (s.modChan n gc).ord = s.ord := rfl
@[simp] theorem modChan_checked : (s.modChan n gc).checked = s.checked := rfl
@[simp] theorem modChan_probe : (s.modChan n gc).probe = s.probe := rfl
@[simp] theorem modChan_found : (s.modChan n gc).found = s.found := rfl
@[simp] theorem modChan_nextId : (s.modChan n gc).nextId = s.nextId := rfl
@[simp] theorem modChan_mark : (s.modChan n gc).mark = s.mark := rfl
@[simp] theorem modChan_banks : (s.modChan n gc).banks = s.banks := rfl
@[simp] theorem modChan_exBanks : (s.modChan n gc).exBanks = s.exBanks := rfl
@[simp] theorem modChan_svc : (s.modChan n gc).svc = s.svc := rfl
@[simp] theorem modChan_ports_ : (s.modChan n gc).ports_ = s.ports_ := rfl
@[simp] theorem modChan_free : (s.modChan n gc).free = s.free := rfl
@[simp] theorem modChan_ctxs : (s.modChan n gc).ctxs = s.ctxs := rfl
@[simp] theorem modChan_cores : (s.modChan n gc).cores = s.cores := rfl
@[simp] theorem modChan_rowLag : (s.modChan n gc).rowLag = s.rowLag := rfl
@[simp] theorem modChan_frames : (s.modChan n gc).frames = s.frames := rfl
@[simp] theorem modChan_cmode : (s.modChan n gc).cmode = s.cmode := rfl
@[simp] theorem modChan_stack : (s.modChan n gc).stack = s.stack := rfl
@[simp] theorem modChan_mem : (s.modChan n gc).mem = s.mem := rfl
@[simp] theorem modChan_slots : (s.modChan n gc).slots = s.slots := rfl
@[simp] theorem modChan_lines : (s.modChan n gc).lines = s.lines := rfl
@[simp] theorem modChan_lineWorld : (s.modChan n gc).lineWorld = s.lineWorld := rfl
@[simp] theorem modChan_bad : (s.modChan n gc).bad = s.bad := rfl
@[simp] theorem modChan_badMeta : (s.modChan n gc).badMeta = s.badMeta := rfl
@[simp] theorem modChan_peels : (s.modChan n gc).peels = s.peels := rfl
@[simp] theorem modChan_gtab : (s.modChan n gc).gtab = s.gtab := rfl
@[simp] theorem modChan_parts : (s.modChan n gc).parts = s.parts := rfl
@[simp] theorem modChan_queues : (s.modChan n gc).queues = s.queues := rfl
@[simp] theorem modChan_selected : (s.modChan n gc).selected = s.selected := rfl
@[simp] theorem modChan_placed : (s.modChan n gc).placed = s.placed := rfl
@[simp] theorem modChan_rr : (s.modChan n gc).rr = s.rr := rfl
@[simp] theorem modChan_jobs : (s.modChan n gc).jobs = s.jobs := rfl
@[simp] theorem modChan_nextJob : (s.modChan n gc).nextJob = s.nextJob := rfl
@[simp] theorem modChan_jobOrder : (s.modChan n gc).jobOrder = s.jobOrder := rfl
@[simp] theorem modChan_events : (s.modChan n gc).events = s.events := rfl
@[simp] theorem modChan_waitEv : (s.modChan n gc).waitEv = s.waitEv := rfl
@[simp] theorem modChan_lateEv : (s.modChan n gc).lateEv = s.lateEv := rfl
@[simp] theorem modChan_logKeys : (s.modChan n gc).logKeys = s.logKeys := rfl
@[simp] theorem modChan_dropped : (s.modChan n gc).dropped = s.dropped := rfl
@[simp] theorem modChan_scrubs : (s.modChan n gc).scrubs = s.scrubs := rfl
@[simp] theorem modChan_scrubWait : (s.modChan n gc).scrubWait = s.scrubWait := rfl
@[simp] theorem modChan_refused : (s.modChan n gc).refused = s.refused := rfl
@[simp] theorem modChan_ranges : (s.modChan n gc).ranges = s.ranges := rfl
@[simp] theorem modChan_pages : (s.modChan n gc).pages = s.pages := rfl
@[simp] theorem modChan_invals : (s.modChan n gc).invals = s.invals := rfl
@[simp] theorem modChan_waiting : (s.modChan n gc).waiting = s.waiting := rfl
@[simp] theorem modChan_world : (s.modChan n gc).world = s.world := rfl
@[simp] theorem modChan_dedup : (s.modChan n gc).dedup = s.dedup := rfl
@[simp] theorem modChan_ports : (s.modChan n gc).ports = s.ports := rfl
@[simp] theorem modChan_arrayLog : (s.modChan n gc).arrayLog = s.arrayLog := rfl
@[simp] theorem modChan_busLog : (s.modChan n gc).busLog = s.busLog := rfl
@[simp] theorem modChan_spadLog : (s.modChan n gc).spadLog = s.spadLog := rfl
@[simp] theorem modChan_linkLog : (s.modChan n gc).linkLog = s.linkLog := rfl
@[simp] theorem modChan_secLog : (s.modChan n gc).secLog = s.secLog := rfl
@[simp] theorem modChan_perf : (s.modChan n gc).perf = s.perf := rfl
@[simp] theorem modChan_tickLog2 : (s.modChan n gc).tickLog2 = s.tickLog2 := rfl
@[simp] theorem modChan_tickNow : (s.modChan n gc).tickNow = s.tickNow := rfl
@[simp] theorem modChan_tickBusy : (s.modChan n gc).tickBusy = s.tickBusy := rfl
@[simp] theorem modChan_powerLimit : (s.modChan n gc).powerLimit = s.powerLimit := rfl
@[simp] theorem modChan_qmap : (s.modChan n gc).qmap = s.qmap := rfl
@[simp] theorem modChan_module : (s.modChan n gc).module = s.module := rfl
@[simp] theorem modChan_winMap : (s.modChan n gc).winMap = s.winMap := rfl
@[simp] theorem modChan_mrs : (s.modChan n gc).mrs = s.mrs := rfl
@[simp] theorem modChan_svn : (s.modChan n gc).svn = s.svn := rfl
@[simp] theorem modChan_accepted : (s.modChan n gc).accepted = s.accepted := rfl
@[simp] theorem modChan_bootA : (s.modChan n gc).bootA = s.bootA := rfl
@[simp] theorem modChan_bootB : (s.modChan n gc).bootB = s.bootB := rfl
@[simp] theorem modChan_reloading : (s.modChan n gc).reloading = s.reloading := rfl
@[simp] theorem modChan_bootFail : (s.modChan n gc).bootFail = s.bootFail := rfl
@[simp] theorem modChan_identity : (s.modChan n gc).identity = s.identity := rfl
@[simp] theorem modChan_report : (s.modChan n gc).report = s.report := rfl
@[simp] theorem modChan_readBack : (s.modChan n gc).readBack = s.readBack := rfl
@[simp] theorem modChan_mailbox : (s.modChan n gc).mailbox = s.mailbox := rfl
@[simp] theorem modChan_secBox : (s.modChan n gc).secBox = s.secBox := rfl
@[simp] theorem modChan_fromQueue : (s.modChan n gc).fromQueue = s.fromQueue := rfl
@[simp] theorem modChan_identityPub : (s.modChan n gc).identityPub = s.identityPub := rfl
@[simp] theorem modChan_identityCert : (s.modChan n gc).identityCert = s.identityCert := rfl
@[simp] theorem modChan_flowLow : (s.modChan n gc).flowLow = s.flowLow := rfl
@[simp] theorem modChan_ctx : (s.modChan n gc).ctx c2 = s.ctx c2 := rfl
@[simp] theorem modChan_core : (s.modChan n gc).core c2 n2 = s.core c2 n2 := rfl
@[simp] theorem modChan_stackAt : (s.modChan n gc).stackAt n2 = s.stackAt n2 := rfl
@[simp] theorem modChan_part : (s.modChan n gc).part n2 = s.part n2 := rfl
@[simp] theorem modChan_job : (s.modChan n gc).job n2 = s.job n2 := rfl
@[simp] theorem modChan_peel : (s.modChan n gc).peel n2 = s.peel n2 := rfl
@[simp] theorem modChan_queue : (s.modChan n gc).queue n2 = s.queue n2 := rfl
@[simp] theorem modChan_port : (s.modChan n gc).port n2 = s.port n2 := rfl
@[simp] theorem modChan_gent : (s.modChan n gc).gent n2 = s.gent n2 := rfl
@[simp] theorem modChan_slot : (s.modChan n gc).slot n2 = s.slot n2 := rfl
@[simp] theorem modChan_line : (s.modChan n gc).line n2 = s.line n2 := rfl
@[simp] theorem modChan_ring : (s.modChan n gc).ring m2 n2 = s.ring m2 n2 := rfl
@[simp] theorem modChan_perfAt : (s.modChan n gc).perfAt n2 = s.perfAt n2 := rfl
@[simp] theorem modChan_byte : (s.modChan n gc).byte a2 = s.byte a2 := rfl
@[simp] theorem modChan_load : (s.modChan n gc).load a2 n2 = s.load a2 n2 := rfl
@[simp] theorem modChan_me : (s.modChan n gc).me = s.me := rfl
@[simp] theorem modChan_myCtx : (s.modChan n gc).myCtx = s.myCtx := rfl
@[simp] theorem modChan_clk : (s.modChan n gc).clk = s.clk := rfl

@[simp] theorem modPeel_now : (s.modPeel n ge).now = s.now := rfl
@[simp] theorem modPeel_cycleBase : (s.modPeel n ge).cycleBase = s.cycleBase := rfl
@[simp] theorem modPeel_agenda : (s.modPeel n ge).agenda = s.agenda := rfl
@[simp] theorem modPeel_cur : (s.modPeel n ge).cur = s.cur := rfl
@[simp] theorem modPeel_arg : (s.modPeel n ge).arg = s.arg := rfl
@[simp] theorem modPeel_ord : (s.modPeel n ge).ord = s.ord := rfl
@[simp] theorem modPeel_checked : (s.modPeel n ge).checked = s.checked := rfl
@[simp] theorem modPeel_probe : (s.modPeel n ge).probe = s.probe := rfl
@[simp] theorem modPeel_found : (s.modPeel n ge).found = s.found := rfl
@[simp] theorem modPeel_nextId : (s.modPeel n ge).nextId = s.nextId := rfl
@[simp] theorem modPeel_mark : (s.modPeel n ge).mark = s.mark := rfl
@[simp] theorem modPeel_banks : (s.modPeel n ge).banks = s.banks := rfl
@[simp] theorem modPeel_exBanks : (s.modPeel n ge).exBanks = s.exBanks := rfl
@[simp] theorem modPeel_svc : (s.modPeel n ge).svc = s.svc := rfl
@[simp] theorem modPeel_ports_ : (s.modPeel n ge).ports_ = s.ports_ := rfl
@[simp] theorem modPeel_free : (s.modPeel n ge).free = s.free := rfl
@[simp] theorem modPeel_ctxs : (s.modPeel n ge).ctxs = s.ctxs := rfl
@[simp] theorem modPeel_cores : (s.modPeel n ge).cores = s.cores := rfl
@[simp] theorem modPeel_rowLag : (s.modPeel n ge).rowLag = s.rowLag := rfl
@[simp] theorem modPeel_frames : (s.modPeel n ge).frames = s.frames := rfl
@[simp] theorem modPeel_cmode : (s.modPeel n ge).cmode = s.cmode := rfl
@[simp] theorem modPeel_stack : (s.modPeel n ge).stack = s.stack := rfl
@[simp] theorem modPeel_mem : (s.modPeel n ge).mem = s.mem := rfl
@[simp] theorem modPeel_slots : (s.modPeel n ge).slots = s.slots := rfl
@[simp] theorem modPeel_lines : (s.modPeel n ge).lines = s.lines := rfl
@[simp] theorem modPeel_lineWorld : (s.modPeel n ge).lineWorld = s.lineWorld := rfl
@[simp] theorem modPeel_bad : (s.modPeel n ge).bad = s.bad := rfl
@[simp] theorem modPeel_badMeta : (s.modPeel n ge).badMeta = s.badMeta := rfl
@[simp] theorem modPeel_gtab : (s.modPeel n ge).gtab = s.gtab := rfl
@[simp] theorem modPeel_chans : (s.modPeel n ge).chans = s.chans := rfl
@[simp] theorem modPeel_parts : (s.modPeel n ge).parts = s.parts := rfl
@[simp] theorem modPeel_queues : (s.modPeel n ge).queues = s.queues := rfl
@[simp] theorem modPeel_selected : (s.modPeel n ge).selected = s.selected := rfl
@[simp] theorem modPeel_placed : (s.modPeel n ge).placed = s.placed := rfl
@[simp] theorem modPeel_rr : (s.modPeel n ge).rr = s.rr := rfl
@[simp] theorem modPeel_jobs : (s.modPeel n ge).jobs = s.jobs := rfl
@[simp] theorem modPeel_nextJob : (s.modPeel n ge).nextJob = s.nextJob := rfl
@[simp] theorem modPeel_jobOrder : (s.modPeel n ge).jobOrder = s.jobOrder := rfl
@[simp] theorem modPeel_events : (s.modPeel n ge).events = s.events := rfl
@[simp] theorem modPeel_waitEv : (s.modPeel n ge).waitEv = s.waitEv := rfl
@[simp] theorem modPeel_lateEv : (s.modPeel n ge).lateEv = s.lateEv := rfl
@[simp] theorem modPeel_logKeys : (s.modPeel n ge).logKeys = s.logKeys := rfl
@[simp] theorem modPeel_dropped : (s.modPeel n ge).dropped = s.dropped := rfl
@[simp] theorem modPeel_scrubs : (s.modPeel n ge).scrubs = s.scrubs := rfl
@[simp] theorem modPeel_scrubWait : (s.modPeel n ge).scrubWait = s.scrubWait := rfl
@[simp] theorem modPeel_refused : (s.modPeel n ge).refused = s.refused := rfl
@[simp] theorem modPeel_ranges : (s.modPeel n ge).ranges = s.ranges := rfl
@[simp] theorem modPeel_pages : (s.modPeel n ge).pages = s.pages := rfl
@[simp] theorem modPeel_invals : (s.modPeel n ge).invals = s.invals := rfl
@[simp] theorem modPeel_waiting : (s.modPeel n ge).waiting = s.waiting := rfl
@[simp] theorem modPeel_world : (s.modPeel n ge).world = s.world := rfl
@[simp] theorem modPeel_dedup : (s.modPeel n ge).dedup = s.dedup := rfl
@[simp] theorem modPeel_ports : (s.modPeel n ge).ports = s.ports := rfl
@[simp] theorem modPeel_arrayLog : (s.modPeel n ge).arrayLog = s.arrayLog := rfl
@[simp] theorem modPeel_busLog : (s.modPeel n ge).busLog = s.busLog := rfl
@[simp] theorem modPeel_spadLog : (s.modPeel n ge).spadLog = s.spadLog := rfl
@[simp] theorem modPeel_linkLog : (s.modPeel n ge).linkLog = s.linkLog := rfl
@[simp] theorem modPeel_secLog : (s.modPeel n ge).secLog = s.secLog := rfl
@[simp] theorem modPeel_perf : (s.modPeel n ge).perf = s.perf := rfl
@[simp] theorem modPeel_tickLog2 : (s.modPeel n ge).tickLog2 = s.tickLog2 := rfl
@[simp] theorem modPeel_tickNow : (s.modPeel n ge).tickNow = s.tickNow := rfl
@[simp] theorem modPeel_tickBusy : (s.modPeel n ge).tickBusy = s.tickBusy := rfl
@[simp] theorem modPeel_powerLimit : (s.modPeel n ge).powerLimit = s.powerLimit := rfl
@[simp] theorem modPeel_qmap : (s.modPeel n ge).qmap = s.qmap := rfl
@[simp] theorem modPeel_module : (s.modPeel n ge).module = s.module := rfl
@[simp] theorem modPeel_winMap : (s.modPeel n ge).winMap = s.winMap := rfl
@[simp] theorem modPeel_mrs : (s.modPeel n ge).mrs = s.mrs := rfl
@[simp] theorem modPeel_svn : (s.modPeel n ge).svn = s.svn := rfl
@[simp] theorem modPeel_accepted : (s.modPeel n ge).accepted = s.accepted := rfl
@[simp] theorem modPeel_bootA : (s.modPeel n ge).bootA = s.bootA := rfl
@[simp] theorem modPeel_bootB : (s.modPeel n ge).bootB = s.bootB := rfl
@[simp] theorem modPeel_reloading : (s.modPeel n ge).reloading = s.reloading := rfl
@[simp] theorem modPeel_bootFail : (s.modPeel n ge).bootFail = s.bootFail := rfl
@[simp] theorem modPeel_identity : (s.modPeel n ge).identity = s.identity := rfl
@[simp] theorem modPeel_report : (s.modPeel n ge).report = s.report := rfl
@[simp] theorem modPeel_readBack : (s.modPeel n ge).readBack = s.readBack := rfl
@[simp] theorem modPeel_mailbox : (s.modPeel n ge).mailbox = s.mailbox := rfl
@[simp] theorem modPeel_secBox : (s.modPeel n ge).secBox = s.secBox := rfl
@[simp] theorem modPeel_fromQueue : (s.modPeel n ge).fromQueue = s.fromQueue := rfl
@[simp] theorem modPeel_identityPub : (s.modPeel n ge).identityPub = s.identityPub := rfl
@[simp] theorem modPeel_identityCert : (s.modPeel n ge).identityCert = s.identityCert := rfl
@[simp] theorem modPeel_flowLow : (s.modPeel n ge).flowLow = s.flowLow := rfl
@[simp] theorem modPeel_ctx : (s.modPeel n ge).ctx c2 = s.ctx c2 := rfl
@[simp] theorem modPeel_core : (s.modPeel n ge).core c2 n2 = s.core c2 n2 := rfl
@[simp] theorem modPeel_stackAt : (s.modPeel n ge).stackAt n2 = s.stackAt n2 := rfl
@[simp] theorem modPeel_part : (s.modPeel n ge).part n2 = s.part n2 := rfl
@[simp] theorem modPeel_job : (s.modPeel n ge).job n2 = s.job n2 := rfl
@[simp] theorem modPeel_chan : (s.modPeel n ge).chan n2 = s.chan n2 := rfl
@[simp] theorem modPeel_queue : (s.modPeel n ge).queue n2 = s.queue n2 := rfl
@[simp] theorem modPeel_port : (s.modPeel n ge).port n2 = s.port n2 := rfl
@[simp] theorem modPeel_gent : (s.modPeel n ge).gent n2 = s.gent n2 := rfl
@[simp] theorem modPeel_slot : (s.modPeel n ge).slot n2 = s.slot n2 := rfl
@[simp] theorem modPeel_line : (s.modPeel n ge).line n2 = s.line n2 := rfl
@[simp] theorem modPeel_ring : (s.modPeel n ge).ring m2 n2 = s.ring m2 n2 := rfl
@[simp] theorem modPeel_perfAt : (s.modPeel n ge).perfAt n2 = s.perfAt n2 := rfl
@[simp] theorem modPeel_byte : (s.modPeel n ge).byte a2 = s.byte a2 := rfl
@[simp] theorem modPeel_load : (s.modPeel n ge).load a2 n2 = s.load a2 n2 := rfl
@[simp] theorem modPeel_me : (s.modPeel n ge).me = s.me := rfl
@[simp] theorem modPeel_myCtx : (s.modPeel n ge).myCtx = s.myCtx := rfl
@[simp] theorem modPeel_clk : (s.modPeel n ge).clk = s.clk := rfl

@[simp] theorem modQueue_now : (s.modQueue n gq).now = s.now := rfl
@[simp] theorem modQueue_cycleBase : (s.modQueue n gq).cycleBase = s.cycleBase := rfl
@[simp] theorem modQueue_agenda : (s.modQueue n gq).agenda = s.agenda := rfl
@[simp] theorem modQueue_cur : (s.modQueue n gq).cur = s.cur := rfl
@[simp] theorem modQueue_arg : (s.modQueue n gq).arg = s.arg := rfl
@[simp] theorem modQueue_ord : (s.modQueue n gq).ord = s.ord := rfl
@[simp] theorem modQueue_checked : (s.modQueue n gq).checked = s.checked := rfl
@[simp] theorem modQueue_probe : (s.modQueue n gq).probe = s.probe := rfl
@[simp] theorem modQueue_found : (s.modQueue n gq).found = s.found := rfl
@[simp] theorem modQueue_nextId : (s.modQueue n gq).nextId = s.nextId := rfl
@[simp] theorem modQueue_mark : (s.modQueue n gq).mark = s.mark := rfl
@[simp] theorem modQueue_banks : (s.modQueue n gq).banks = s.banks := rfl
@[simp] theorem modQueue_exBanks : (s.modQueue n gq).exBanks = s.exBanks := rfl
@[simp] theorem modQueue_svc : (s.modQueue n gq).svc = s.svc := rfl
@[simp] theorem modQueue_ports_ : (s.modQueue n gq).ports_ = s.ports_ := rfl
@[simp] theorem modQueue_free : (s.modQueue n gq).free = s.free := rfl
@[simp] theorem modQueue_ctxs : (s.modQueue n gq).ctxs = s.ctxs := rfl
@[simp] theorem modQueue_cores : (s.modQueue n gq).cores = s.cores := rfl
@[simp] theorem modQueue_rowLag : (s.modQueue n gq).rowLag = s.rowLag := rfl
@[simp] theorem modQueue_frames : (s.modQueue n gq).frames = s.frames := rfl
@[simp] theorem modQueue_cmode : (s.modQueue n gq).cmode = s.cmode := rfl
@[simp] theorem modQueue_stack : (s.modQueue n gq).stack = s.stack := rfl
@[simp] theorem modQueue_mem : (s.modQueue n gq).mem = s.mem := rfl
@[simp] theorem modQueue_slots : (s.modQueue n gq).slots = s.slots := rfl
@[simp] theorem modQueue_lines : (s.modQueue n gq).lines = s.lines := rfl
@[simp] theorem modQueue_lineWorld : (s.modQueue n gq).lineWorld = s.lineWorld := rfl
@[simp] theorem modQueue_bad : (s.modQueue n gq).bad = s.bad := rfl
@[simp] theorem modQueue_badMeta : (s.modQueue n gq).badMeta = s.badMeta := rfl
@[simp] theorem modQueue_peels : (s.modQueue n gq).peels = s.peels := rfl
@[simp] theorem modQueue_gtab : (s.modQueue n gq).gtab = s.gtab := rfl
@[simp] theorem modQueue_chans : (s.modQueue n gq).chans = s.chans := rfl
@[simp] theorem modQueue_parts : (s.modQueue n gq).parts = s.parts := rfl
@[simp] theorem modQueue_selected : (s.modQueue n gq).selected = s.selected := rfl
@[simp] theorem modQueue_placed : (s.modQueue n gq).placed = s.placed := rfl
@[simp] theorem modQueue_rr : (s.modQueue n gq).rr = s.rr := rfl
@[simp] theorem modQueue_jobs : (s.modQueue n gq).jobs = s.jobs := rfl
@[simp] theorem modQueue_nextJob : (s.modQueue n gq).nextJob = s.nextJob := rfl
@[simp] theorem modQueue_jobOrder : (s.modQueue n gq).jobOrder = s.jobOrder := rfl
@[simp] theorem modQueue_events : (s.modQueue n gq).events = s.events := rfl
@[simp] theorem modQueue_waitEv : (s.modQueue n gq).waitEv = s.waitEv := rfl
@[simp] theorem modQueue_lateEv : (s.modQueue n gq).lateEv = s.lateEv := rfl
@[simp] theorem modQueue_logKeys : (s.modQueue n gq).logKeys = s.logKeys := rfl
@[simp] theorem modQueue_dropped : (s.modQueue n gq).dropped = s.dropped := rfl
@[simp] theorem modQueue_scrubs : (s.modQueue n gq).scrubs = s.scrubs := rfl
@[simp] theorem modQueue_scrubWait : (s.modQueue n gq).scrubWait = s.scrubWait := rfl
@[simp] theorem modQueue_refused : (s.modQueue n gq).refused = s.refused := rfl
@[simp] theorem modQueue_ranges : (s.modQueue n gq).ranges = s.ranges := rfl
@[simp] theorem modQueue_pages : (s.modQueue n gq).pages = s.pages := rfl
@[simp] theorem modQueue_invals : (s.modQueue n gq).invals = s.invals := rfl
@[simp] theorem modQueue_waiting : (s.modQueue n gq).waiting = s.waiting := rfl
@[simp] theorem modQueue_world : (s.modQueue n gq).world = s.world := rfl
@[simp] theorem modQueue_dedup : (s.modQueue n gq).dedup = s.dedup := rfl
@[simp] theorem modQueue_ports : (s.modQueue n gq).ports = s.ports := rfl
@[simp] theorem modQueue_arrayLog : (s.modQueue n gq).arrayLog = s.arrayLog := rfl
@[simp] theorem modQueue_busLog : (s.modQueue n gq).busLog = s.busLog := rfl
@[simp] theorem modQueue_spadLog : (s.modQueue n gq).spadLog = s.spadLog := rfl
@[simp] theorem modQueue_linkLog : (s.modQueue n gq).linkLog = s.linkLog := rfl
@[simp] theorem modQueue_secLog : (s.modQueue n gq).secLog = s.secLog := rfl
@[simp] theorem modQueue_perf : (s.modQueue n gq).perf = s.perf := rfl
@[simp] theorem modQueue_tickLog2 : (s.modQueue n gq).tickLog2 = s.tickLog2 := rfl
@[simp] theorem modQueue_tickNow : (s.modQueue n gq).tickNow = s.tickNow := rfl
@[simp] theorem modQueue_tickBusy : (s.modQueue n gq).tickBusy = s.tickBusy := rfl
@[simp] theorem modQueue_powerLimit : (s.modQueue n gq).powerLimit = s.powerLimit := rfl
@[simp] theorem modQueue_qmap : (s.modQueue n gq).qmap = s.qmap := rfl
@[simp] theorem modQueue_module : (s.modQueue n gq).module = s.module := rfl
@[simp] theorem modQueue_winMap : (s.modQueue n gq).winMap = s.winMap := rfl
@[simp] theorem modQueue_mrs : (s.modQueue n gq).mrs = s.mrs := rfl
@[simp] theorem modQueue_svn : (s.modQueue n gq).svn = s.svn := rfl
@[simp] theorem modQueue_accepted : (s.modQueue n gq).accepted = s.accepted := rfl
@[simp] theorem modQueue_bootA : (s.modQueue n gq).bootA = s.bootA := rfl
@[simp] theorem modQueue_bootB : (s.modQueue n gq).bootB = s.bootB := rfl
@[simp] theorem modQueue_reloading : (s.modQueue n gq).reloading = s.reloading := rfl
@[simp] theorem modQueue_bootFail : (s.modQueue n gq).bootFail = s.bootFail := rfl
@[simp] theorem modQueue_identity : (s.modQueue n gq).identity = s.identity := rfl
@[simp] theorem modQueue_report : (s.modQueue n gq).report = s.report := rfl
@[simp] theorem modQueue_readBack : (s.modQueue n gq).readBack = s.readBack := rfl
@[simp] theorem modQueue_mailbox : (s.modQueue n gq).mailbox = s.mailbox := rfl
@[simp] theorem modQueue_secBox : (s.modQueue n gq).secBox = s.secBox := rfl
@[simp] theorem modQueue_fromQueue : (s.modQueue n gq).fromQueue = s.fromQueue := rfl
@[simp] theorem modQueue_identityPub : (s.modQueue n gq).identityPub = s.identityPub := rfl
@[simp] theorem modQueue_identityCert : (s.modQueue n gq).identityCert = s.identityCert := rfl
@[simp] theorem modQueue_flowLow : (s.modQueue n gq).flowLow = s.flowLow := rfl
@[simp] theorem modQueue_ctx : (s.modQueue n gq).ctx c2 = s.ctx c2 := rfl
@[simp] theorem modQueue_core : (s.modQueue n gq).core c2 n2 = s.core c2 n2 := rfl
@[simp] theorem modQueue_stackAt : (s.modQueue n gq).stackAt n2 = s.stackAt n2 := rfl
@[simp] theorem modQueue_part : (s.modQueue n gq).part n2 = s.part n2 := rfl
@[simp] theorem modQueue_job : (s.modQueue n gq).job n2 = s.job n2 := rfl
@[simp] theorem modQueue_chan : (s.modQueue n gq).chan n2 = s.chan n2 := rfl
@[simp] theorem modQueue_peel : (s.modQueue n gq).peel n2 = s.peel n2 := rfl
@[simp] theorem modQueue_port : (s.modQueue n gq).port n2 = s.port n2 := rfl
@[simp] theorem modQueue_gent : (s.modQueue n gq).gent n2 = s.gent n2 := rfl
@[simp] theorem modQueue_slot : (s.modQueue n gq).slot n2 = s.slot n2 := rfl
@[simp] theorem modQueue_line : (s.modQueue n gq).line n2 = s.line n2 := rfl
@[simp] theorem modQueue_ring : (s.modQueue n gq).ring m2 n2 = s.ring m2 n2 := rfl
@[simp] theorem modQueue_perfAt : (s.modQueue n gq).perfAt n2 = s.perfAt n2 := rfl
@[simp] theorem modQueue_byte : (s.modQueue n gq).byte a2 = s.byte a2 := rfl
@[simp] theorem modQueue_load : (s.modQueue n gq).load a2 n2 = s.load a2 n2 := rfl
@[simp] theorem modQueue_me : (s.modQueue n gq).me = s.me := rfl
@[simp] theorem modQueue_myCtx : (s.modQueue n gq).myCtx = s.myCtx := rfl
@[simp] theorem modQueue_clk : (s.modQueue n gq).clk = s.clk := rfl

@[simp] theorem modPort_now : (s.modPort n gl).now = s.now := rfl
@[simp] theorem modPort_cycleBase : (s.modPort n gl).cycleBase = s.cycleBase := rfl
@[simp] theorem modPort_agenda : (s.modPort n gl).agenda = s.agenda := rfl
@[simp] theorem modPort_cur : (s.modPort n gl).cur = s.cur := rfl
@[simp] theorem modPort_arg : (s.modPort n gl).arg = s.arg := rfl
@[simp] theorem modPort_ord : (s.modPort n gl).ord = s.ord := rfl
@[simp] theorem modPort_checked : (s.modPort n gl).checked = s.checked := rfl
@[simp] theorem modPort_probe : (s.modPort n gl).probe = s.probe := rfl
@[simp] theorem modPort_found : (s.modPort n gl).found = s.found := rfl
@[simp] theorem modPort_nextId : (s.modPort n gl).nextId = s.nextId := rfl
@[simp] theorem modPort_mark : (s.modPort n gl).mark = s.mark := rfl
@[simp] theorem modPort_banks : (s.modPort n gl).banks = s.banks := rfl
@[simp] theorem modPort_exBanks : (s.modPort n gl).exBanks = s.exBanks := rfl
@[simp] theorem modPort_svc : (s.modPort n gl).svc = s.svc := rfl
@[simp] theorem modPort_ports_ : (s.modPort n gl).ports_ = s.ports_ := rfl
@[simp] theorem modPort_free : (s.modPort n gl).free = s.free := rfl
@[simp] theorem modPort_ctxs : (s.modPort n gl).ctxs = s.ctxs := rfl
@[simp] theorem modPort_cores : (s.modPort n gl).cores = s.cores := rfl
@[simp] theorem modPort_rowLag : (s.modPort n gl).rowLag = s.rowLag := rfl
@[simp] theorem modPort_frames : (s.modPort n gl).frames = s.frames := rfl
@[simp] theorem modPort_cmode : (s.modPort n gl).cmode = s.cmode := rfl
@[simp] theorem modPort_stack : (s.modPort n gl).stack = s.stack := rfl
@[simp] theorem modPort_mem : (s.modPort n gl).mem = s.mem := rfl
@[simp] theorem modPort_slots : (s.modPort n gl).slots = s.slots := rfl
@[simp] theorem modPort_lines : (s.modPort n gl).lines = s.lines := rfl
@[simp] theorem modPort_lineWorld : (s.modPort n gl).lineWorld = s.lineWorld := rfl
@[simp] theorem modPort_bad : (s.modPort n gl).bad = s.bad := rfl
@[simp] theorem modPort_badMeta : (s.modPort n gl).badMeta = s.badMeta := rfl
@[simp] theorem modPort_peels : (s.modPort n gl).peels = s.peels := rfl
@[simp] theorem modPort_gtab : (s.modPort n gl).gtab = s.gtab := rfl
@[simp] theorem modPort_chans : (s.modPort n gl).chans = s.chans := rfl
@[simp] theorem modPort_parts : (s.modPort n gl).parts = s.parts := rfl
@[simp] theorem modPort_queues : (s.modPort n gl).queues = s.queues := rfl
@[simp] theorem modPort_selected : (s.modPort n gl).selected = s.selected := rfl
@[simp] theorem modPort_placed : (s.modPort n gl).placed = s.placed := rfl
@[simp] theorem modPort_rr : (s.modPort n gl).rr = s.rr := rfl
@[simp] theorem modPort_jobs : (s.modPort n gl).jobs = s.jobs := rfl
@[simp] theorem modPort_nextJob : (s.modPort n gl).nextJob = s.nextJob := rfl
@[simp] theorem modPort_jobOrder : (s.modPort n gl).jobOrder = s.jobOrder := rfl
@[simp] theorem modPort_events : (s.modPort n gl).events = s.events := rfl
@[simp] theorem modPort_waitEv : (s.modPort n gl).waitEv = s.waitEv := rfl
@[simp] theorem modPort_lateEv : (s.modPort n gl).lateEv = s.lateEv := rfl
@[simp] theorem modPort_logKeys : (s.modPort n gl).logKeys = s.logKeys := rfl
@[simp] theorem modPort_dropped : (s.modPort n gl).dropped = s.dropped := rfl
@[simp] theorem modPort_scrubs : (s.modPort n gl).scrubs = s.scrubs := rfl
@[simp] theorem modPort_scrubWait : (s.modPort n gl).scrubWait = s.scrubWait := rfl
@[simp] theorem modPort_refused : (s.modPort n gl).refused = s.refused := rfl
@[simp] theorem modPort_ranges : (s.modPort n gl).ranges = s.ranges := rfl
@[simp] theorem modPort_pages : (s.modPort n gl).pages = s.pages := rfl
@[simp] theorem modPort_invals : (s.modPort n gl).invals = s.invals := rfl
@[simp] theorem modPort_waiting : (s.modPort n gl).waiting = s.waiting := rfl
@[simp] theorem modPort_world : (s.modPort n gl).world = s.world := rfl
@[simp] theorem modPort_dedup : (s.modPort n gl).dedup = s.dedup := rfl
@[simp] theorem modPort_arrayLog : (s.modPort n gl).arrayLog = s.arrayLog := rfl
@[simp] theorem modPort_busLog : (s.modPort n gl).busLog = s.busLog := rfl
@[simp] theorem modPort_spadLog : (s.modPort n gl).spadLog = s.spadLog := rfl
@[simp] theorem modPort_linkLog : (s.modPort n gl).linkLog = s.linkLog := rfl
@[simp] theorem modPort_secLog : (s.modPort n gl).secLog = s.secLog := rfl
@[simp] theorem modPort_perf : (s.modPort n gl).perf = s.perf := rfl
@[simp] theorem modPort_tickLog2 : (s.modPort n gl).tickLog2 = s.tickLog2 := rfl
@[simp] theorem modPort_tickNow : (s.modPort n gl).tickNow = s.tickNow := rfl
@[simp] theorem modPort_tickBusy : (s.modPort n gl).tickBusy = s.tickBusy := rfl
@[simp] theorem modPort_powerLimit : (s.modPort n gl).powerLimit = s.powerLimit := rfl
@[simp] theorem modPort_qmap : (s.modPort n gl).qmap = s.qmap := rfl
@[simp] theorem modPort_module : (s.modPort n gl).module = s.module := rfl
@[simp] theorem modPort_winMap : (s.modPort n gl).winMap = s.winMap := rfl
@[simp] theorem modPort_mrs : (s.modPort n gl).mrs = s.mrs := rfl
@[simp] theorem modPort_svn : (s.modPort n gl).svn = s.svn := rfl
@[simp] theorem modPort_accepted : (s.modPort n gl).accepted = s.accepted := rfl
@[simp] theorem modPort_bootA : (s.modPort n gl).bootA = s.bootA := rfl
@[simp] theorem modPort_bootB : (s.modPort n gl).bootB = s.bootB := rfl
@[simp] theorem modPort_reloading : (s.modPort n gl).reloading = s.reloading := rfl
@[simp] theorem modPort_bootFail : (s.modPort n gl).bootFail = s.bootFail := rfl
@[simp] theorem modPort_identity : (s.modPort n gl).identity = s.identity := rfl
@[simp] theorem modPort_report : (s.modPort n gl).report = s.report := rfl
@[simp] theorem modPort_readBack : (s.modPort n gl).readBack = s.readBack := rfl
@[simp] theorem modPort_mailbox : (s.modPort n gl).mailbox = s.mailbox := rfl
@[simp] theorem modPort_secBox : (s.modPort n gl).secBox = s.secBox := rfl
@[simp] theorem modPort_fromQueue : (s.modPort n gl).fromQueue = s.fromQueue := rfl
@[simp] theorem modPort_identityPub : (s.modPort n gl).identityPub = s.identityPub := rfl
@[simp] theorem modPort_identityCert : (s.modPort n gl).identityCert = s.identityCert := rfl
@[simp] theorem modPort_flowLow : (s.modPort n gl).flowLow = s.flowLow := rfl
@[simp] theorem modPort_ctx : (s.modPort n gl).ctx c2 = s.ctx c2 := rfl
@[simp] theorem modPort_core : (s.modPort n gl).core c2 n2 = s.core c2 n2 := rfl
@[simp] theorem modPort_stackAt : (s.modPort n gl).stackAt n2 = s.stackAt n2 := rfl
@[simp] theorem modPort_part : (s.modPort n gl).part n2 = s.part n2 := rfl
@[simp] theorem modPort_job : (s.modPort n gl).job n2 = s.job n2 := rfl
@[simp] theorem modPort_chan : (s.modPort n gl).chan n2 = s.chan n2 := rfl
@[simp] theorem modPort_peel : (s.modPort n gl).peel n2 = s.peel n2 := rfl
@[simp] theorem modPort_queue : (s.modPort n gl).queue n2 = s.queue n2 := rfl
@[simp] theorem modPort_gent : (s.modPort n gl).gent n2 = s.gent n2 := rfl
@[simp] theorem modPort_slot : (s.modPort n gl).slot n2 = s.slot n2 := rfl
@[simp] theorem modPort_line : (s.modPort n gl).line n2 = s.line n2 := rfl
@[simp] theorem modPort_ring : (s.modPort n gl).ring m2 n2 = s.ring m2 n2 := rfl
@[simp] theorem modPort_perfAt : (s.modPort n gl).perfAt n2 = s.perfAt n2 := rfl
@[simp] theorem modPort_byte : (s.modPort n gl).byte a2 = s.byte a2 := rfl
@[simp] theorem modPort_load : (s.modPort n gl).load a2 n2 = s.load a2 n2 := rfl
@[simp] theorem modPort_me : (s.modPort n gl).me = s.me := rfl
@[simp] theorem modPort_myCtx : (s.modPort n gl).myCtx = s.myCtx := rfl
@[simp] theorem modPort_clk : (s.modPort n gl).clk = s.clk := rfl

@[simp] theorem modGent_now : (s.modGent n gg).now = s.now := rfl
@[simp] theorem modGent_cycleBase : (s.modGent n gg).cycleBase = s.cycleBase := rfl
@[simp] theorem modGent_agenda : (s.modGent n gg).agenda = s.agenda := rfl
@[simp] theorem modGent_cur : (s.modGent n gg).cur = s.cur := rfl
@[simp] theorem modGent_arg : (s.modGent n gg).arg = s.arg := rfl
@[simp] theorem modGent_ord : (s.modGent n gg).ord = s.ord := rfl
@[simp] theorem modGent_checked : (s.modGent n gg).checked = s.checked := rfl
@[simp] theorem modGent_probe : (s.modGent n gg).probe = s.probe := rfl
@[simp] theorem modGent_found : (s.modGent n gg).found = s.found := rfl
@[simp] theorem modGent_nextId : (s.modGent n gg).nextId = s.nextId := rfl
@[simp] theorem modGent_mark : (s.modGent n gg).mark = s.mark := rfl
@[simp] theorem modGent_banks : (s.modGent n gg).banks = s.banks := rfl
@[simp] theorem modGent_exBanks : (s.modGent n gg).exBanks = s.exBanks := rfl
@[simp] theorem modGent_svc : (s.modGent n gg).svc = s.svc := rfl
@[simp] theorem modGent_ports_ : (s.modGent n gg).ports_ = s.ports_ := rfl
@[simp] theorem modGent_free : (s.modGent n gg).free = s.free := rfl
@[simp] theorem modGent_ctxs : (s.modGent n gg).ctxs = s.ctxs := rfl
@[simp] theorem modGent_cores : (s.modGent n gg).cores = s.cores := rfl
@[simp] theorem modGent_rowLag : (s.modGent n gg).rowLag = s.rowLag := rfl
@[simp] theorem modGent_frames : (s.modGent n gg).frames = s.frames := rfl
@[simp] theorem modGent_cmode : (s.modGent n gg).cmode = s.cmode := rfl
@[simp] theorem modGent_stack : (s.modGent n gg).stack = s.stack := rfl
@[simp] theorem modGent_mem : (s.modGent n gg).mem = s.mem := rfl
@[simp] theorem modGent_slots : (s.modGent n gg).slots = s.slots := rfl
@[simp] theorem modGent_lines : (s.modGent n gg).lines = s.lines := rfl
@[simp] theorem modGent_lineWorld : (s.modGent n gg).lineWorld = s.lineWorld := rfl
@[simp] theorem modGent_bad : (s.modGent n gg).bad = s.bad := rfl
@[simp] theorem modGent_badMeta : (s.modGent n gg).badMeta = s.badMeta := rfl
@[simp] theorem modGent_peels : (s.modGent n gg).peels = s.peels := rfl
@[simp] theorem modGent_chans : (s.modGent n gg).chans = s.chans := rfl
@[simp] theorem modGent_parts : (s.modGent n gg).parts = s.parts := rfl
@[simp] theorem modGent_queues : (s.modGent n gg).queues = s.queues := rfl
@[simp] theorem modGent_selected : (s.modGent n gg).selected = s.selected := rfl
@[simp] theorem modGent_placed : (s.modGent n gg).placed = s.placed := rfl
@[simp] theorem modGent_rr : (s.modGent n gg).rr = s.rr := rfl
@[simp] theorem modGent_jobs : (s.modGent n gg).jobs = s.jobs := rfl
@[simp] theorem modGent_nextJob : (s.modGent n gg).nextJob = s.nextJob := rfl
@[simp] theorem modGent_jobOrder : (s.modGent n gg).jobOrder = s.jobOrder := rfl
@[simp] theorem modGent_events : (s.modGent n gg).events = s.events := rfl
@[simp] theorem modGent_waitEv : (s.modGent n gg).waitEv = s.waitEv := rfl
@[simp] theorem modGent_lateEv : (s.modGent n gg).lateEv = s.lateEv := rfl
@[simp] theorem modGent_logKeys : (s.modGent n gg).logKeys = s.logKeys := rfl
@[simp] theorem modGent_dropped : (s.modGent n gg).dropped = s.dropped := rfl
@[simp] theorem modGent_scrubs : (s.modGent n gg).scrubs = s.scrubs := rfl
@[simp] theorem modGent_scrubWait : (s.modGent n gg).scrubWait = s.scrubWait := rfl
@[simp] theorem modGent_refused : (s.modGent n gg).refused = s.refused := rfl
@[simp] theorem modGent_ranges : (s.modGent n gg).ranges = s.ranges := rfl
@[simp] theorem modGent_pages : (s.modGent n gg).pages = s.pages := rfl
@[simp] theorem modGent_invals : (s.modGent n gg).invals = s.invals := rfl
@[simp] theorem modGent_waiting : (s.modGent n gg).waiting = s.waiting := rfl
@[simp] theorem modGent_world : (s.modGent n gg).world = s.world := rfl
@[simp] theorem modGent_dedup : (s.modGent n gg).dedup = s.dedup := rfl
@[simp] theorem modGent_ports : (s.modGent n gg).ports = s.ports := rfl
@[simp] theorem modGent_arrayLog : (s.modGent n gg).arrayLog = s.arrayLog := rfl
@[simp] theorem modGent_busLog : (s.modGent n gg).busLog = s.busLog := rfl
@[simp] theorem modGent_spadLog : (s.modGent n gg).spadLog = s.spadLog := rfl
@[simp] theorem modGent_linkLog : (s.modGent n gg).linkLog = s.linkLog := rfl
@[simp] theorem modGent_secLog : (s.modGent n gg).secLog = s.secLog := rfl
@[simp] theorem modGent_perf : (s.modGent n gg).perf = s.perf := rfl
@[simp] theorem modGent_tickLog2 : (s.modGent n gg).tickLog2 = s.tickLog2 := rfl
@[simp] theorem modGent_tickNow : (s.modGent n gg).tickNow = s.tickNow := rfl
@[simp] theorem modGent_tickBusy : (s.modGent n gg).tickBusy = s.tickBusy := rfl
@[simp] theorem modGent_powerLimit : (s.modGent n gg).powerLimit = s.powerLimit := rfl
@[simp] theorem modGent_qmap : (s.modGent n gg).qmap = s.qmap := rfl
@[simp] theorem modGent_module : (s.modGent n gg).module = s.module := rfl
@[simp] theorem modGent_winMap : (s.modGent n gg).winMap = s.winMap := rfl
@[simp] theorem modGent_mrs : (s.modGent n gg).mrs = s.mrs := rfl
@[simp] theorem modGent_svn : (s.modGent n gg).svn = s.svn := rfl
@[simp] theorem modGent_accepted : (s.modGent n gg).accepted = s.accepted := rfl
@[simp] theorem modGent_bootA : (s.modGent n gg).bootA = s.bootA := rfl
@[simp] theorem modGent_bootB : (s.modGent n gg).bootB = s.bootB := rfl
@[simp] theorem modGent_reloading : (s.modGent n gg).reloading = s.reloading := rfl
@[simp] theorem modGent_bootFail : (s.modGent n gg).bootFail = s.bootFail := rfl
@[simp] theorem modGent_identity : (s.modGent n gg).identity = s.identity := rfl
@[simp] theorem modGent_report : (s.modGent n gg).report = s.report := rfl
@[simp] theorem modGent_readBack : (s.modGent n gg).readBack = s.readBack := rfl
@[simp] theorem modGent_mailbox : (s.modGent n gg).mailbox = s.mailbox := rfl
@[simp] theorem modGent_secBox : (s.modGent n gg).secBox = s.secBox := rfl
@[simp] theorem modGent_fromQueue : (s.modGent n gg).fromQueue = s.fromQueue := rfl
@[simp] theorem modGent_identityPub : (s.modGent n gg).identityPub = s.identityPub := rfl
@[simp] theorem modGent_identityCert : (s.modGent n gg).identityCert = s.identityCert := rfl
@[simp] theorem modGent_flowLow : (s.modGent n gg).flowLow = s.flowLow := rfl
@[simp] theorem modGent_ctx : (s.modGent n gg).ctx c2 = s.ctx c2 := rfl
@[simp] theorem modGent_core : (s.modGent n gg).core c2 n2 = s.core c2 n2 := rfl
@[simp] theorem modGent_stackAt : (s.modGent n gg).stackAt n2 = s.stackAt n2 := rfl
@[simp] theorem modGent_part : (s.modGent n gg).part n2 = s.part n2 := rfl
@[simp] theorem modGent_job : (s.modGent n gg).job n2 = s.job n2 := rfl
@[simp] theorem modGent_chan : (s.modGent n gg).chan n2 = s.chan n2 := rfl
@[simp] theorem modGent_peel : (s.modGent n gg).peel n2 = s.peel n2 := rfl
@[simp] theorem modGent_queue : (s.modGent n gg).queue n2 = s.queue n2 := rfl
@[simp] theorem modGent_port : (s.modGent n gg).port n2 = s.port n2 := rfl
@[simp] theorem modGent_slot : (s.modGent n gg).slot n2 = s.slot n2 := rfl
@[simp] theorem modGent_line : (s.modGent n gg).line n2 = s.line n2 := rfl
@[simp] theorem modGent_ring : (s.modGent n gg).ring m2 n2 = s.ring m2 n2 := rfl
@[simp] theorem modGent_perfAt : (s.modGent n gg).perfAt n2 = s.perfAt n2 := rfl
@[simp] theorem modGent_byte : (s.modGent n gg).byte a2 = s.byte a2 := rfl
@[simp] theorem modGent_load : (s.modGent n gg).load a2 n2 = s.load a2 n2 := rfl
@[simp] theorem modGent_me : (s.modGent n gg).me = s.me := rfl
@[simp] theorem modGent_myCtx : (s.modGent n gg).myCtx = s.myCtx := rfl
@[simp] theorem modGent_clk : (s.modGent n gg).clk = s.clk := rfl

@[simp] theorem modSlot_now : (s.modSlot n gm).now = s.now := rfl
@[simp] theorem modSlot_cycleBase : (s.modSlot n gm).cycleBase = s.cycleBase := rfl
@[simp] theorem modSlot_agenda : (s.modSlot n gm).agenda = s.agenda := rfl
@[simp] theorem modSlot_cur : (s.modSlot n gm).cur = s.cur := rfl
@[simp] theorem modSlot_arg : (s.modSlot n gm).arg = s.arg := rfl
@[simp] theorem modSlot_ord : (s.modSlot n gm).ord = s.ord := rfl
@[simp] theorem modSlot_checked : (s.modSlot n gm).checked = s.checked := rfl
@[simp] theorem modSlot_probe : (s.modSlot n gm).probe = s.probe := rfl
@[simp] theorem modSlot_found : (s.modSlot n gm).found = s.found := rfl
@[simp] theorem modSlot_nextId : (s.modSlot n gm).nextId = s.nextId := rfl
@[simp] theorem modSlot_mark : (s.modSlot n gm).mark = s.mark := rfl
@[simp] theorem modSlot_banks : (s.modSlot n gm).banks = s.banks := rfl
@[simp] theorem modSlot_exBanks : (s.modSlot n gm).exBanks = s.exBanks := rfl
@[simp] theorem modSlot_svc : (s.modSlot n gm).svc = s.svc := rfl
@[simp] theorem modSlot_ports_ : (s.modSlot n gm).ports_ = s.ports_ := rfl
@[simp] theorem modSlot_free : (s.modSlot n gm).free = s.free := rfl
@[simp] theorem modSlot_ctxs : (s.modSlot n gm).ctxs = s.ctxs := rfl
@[simp] theorem modSlot_cores : (s.modSlot n gm).cores = s.cores := rfl
@[simp] theorem modSlot_rowLag : (s.modSlot n gm).rowLag = s.rowLag := rfl
@[simp] theorem modSlot_frames : (s.modSlot n gm).frames = s.frames := rfl
@[simp] theorem modSlot_cmode : (s.modSlot n gm).cmode = s.cmode := rfl
@[simp] theorem modSlot_stack : (s.modSlot n gm).stack = s.stack := rfl
@[simp] theorem modSlot_mem : (s.modSlot n gm).mem = s.mem := rfl
@[simp] theorem modSlot_lines : (s.modSlot n gm).lines = s.lines := rfl
@[simp] theorem modSlot_lineWorld : (s.modSlot n gm).lineWorld = s.lineWorld := rfl
@[simp] theorem modSlot_bad : (s.modSlot n gm).bad = s.bad := rfl
@[simp] theorem modSlot_badMeta : (s.modSlot n gm).badMeta = s.badMeta := rfl
@[simp] theorem modSlot_peels : (s.modSlot n gm).peels = s.peels := rfl
@[simp] theorem modSlot_gtab : (s.modSlot n gm).gtab = s.gtab := rfl
@[simp] theorem modSlot_chans : (s.modSlot n gm).chans = s.chans := rfl
@[simp] theorem modSlot_parts : (s.modSlot n gm).parts = s.parts := rfl
@[simp] theorem modSlot_queues : (s.modSlot n gm).queues = s.queues := rfl
@[simp] theorem modSlot_selected : (s.modSlot n gm).selected = s.selected := rfl
@[simp] theorem modSlot_placed : (s.modSlot n gm).placed = s.placed := rfl
@[simp] theorem modSlot_rr : (s.modSlot n gm).rr = s.rr := rfl
@[simp] theorem modSlot_jobs : (s.modSlot n gm).jobs = s.jobs := rfl
@[simp] theorem modSlot_nextJob : (s.modSlot n gm).nextJob = s.nextJob := rfl
@[simp] theorem modSlot_jobOrder : (s.modSlot n gm).jobOrder = s.jobOrder := rfl
@[simp] theorem modSlot_events : (s.modSlot n gm).events = s.events := rfl
@[simp] theorem modSlot_waitEv : (s.modSlot n gm).waitEv = s.waitEv := rfl
@[simp] theorem modSlot_lateEv : (s.modSlot n gm).lateEv = s.lateEv := rfl
@[simp] theorem modSlot_logKeys : (s.modSlot n gm).logKeys = s.logKeys := rfl
@[simp] theorem modSlot_dropped : (s.modSlot n gm).dropped = s.dropped := rfl
@[simp] theorem modSlot_scrubs : (s.modSlot n gm).scrubs = s.scrubs := rfl
@[simp] theorem modSlot_scrubWait : (s.modSlot n gm).scrubWait = s.scrubWait := rfl
@[simp] theorem modSlot_refused : (s.modSlot n gm).refused = s.refused := rfl
@[simp] theorem modSlot_ranges : (s.modSlot n gm).ranges = s.ranges := rfl
@[simp] theorem modSlot_pages : (s.modSlot n gm).pages = s.pages := rfl
@[simp] theorem modSlot_invals : (s.modSlot n gm).invals = s.invals := rfl
@[simp] theorem modSlot_waiting : (s.modSlot n gm).waiting = s.waiting := rfl
@[simp] theorem modSlot_world : (s.modSlot n gm).world = s.world := rfl
@[simp] theorem modSlot_dedup : (s.modSlot n gm).dedup = s.dedup := rfl
@[simp] theorem modSlot_ports : (s.modSlot n gm).ports = s.ports := rfl
@[simp] theorem modSlot_arrayLog : (s.modSlot n gm).arrayLog = s.arrayLog := rfl
@[simp] theorem modSlot_busLog : (s.modSlot n gm).busLog = s.busLog := rfl
@[simp] theorem modSlot_spadLog : (s.modSlot n gm).spadLog = s.spadLog := rfl
@[simp] theorem modSlot_linkLog : (s.modSlot n gm).linkLog = s.linkLog := rfl
@[simp] theorem modSlot_secLog : (s.modSlot n gm).secLog = s.secLog := rfl
@[simp] theorem modSlot_perf : (s.modSlot n gm).perf = s.perf := rfl
@[simp] theorem modSlot_tickLog2 : (s.modSlot n gm).tickLog2 = s.tickLog2 := rfl
@[simp] theorem modSlot_tickNow : (s.modSlot n gm).tickNow = s.tickNow := rfl
@[simp] theorem modSlot_tickBusy : (s.modSlot n gm).tickBusy = s.tickBusy := rfl
@[simp] theorem modSlot_powerLimit : (s.modSlot n gm).powerLimit = s.powerLimit := rfl
@[simp] theorem modSlot_qmap : (s.modSlot n gm).qmap = s.qmap := rfl
@[simp] theorem modSlot_module : (s.modSlot n gm).module = s.module := rfl
@[simp] theorem modSlot_winMap : (s.modSlot n gm).winMap = s.winMap := rfl
@[simp] theorem modSlot_mrs : (s.modSlot n gm).mrs = s.mrs := rfl
@[simp] theorem modSlot_svn : (s.modSlot n gm).svn = s.svn := rfl
@[simp] theorem modSlot_accepted : (s.modSlot n gm).accepted = s.accepted := rfl
@[simp] theorem modSlot_bootA : (s.modSlot n gm).bootA = s.bootA := rfl
@[simp] theorem modSlot_bootB : (s.modSlot n gm).bootB = s.bootB := rfl
@[simp] theorem modSlot_reloading : (s.modSlot n gm).reloading = s.reloading := rfl
@[simp] theorem modSlot_bootFail : (s.modSlot n gm).bootFail = s.bootFail := rfl
@[simp] theorem modSlot_identity : (s.modSlot n gm).identity = s.identity := rfl
@[simp] theorem modSlot_report : (s.modSlot n gm).report = s.report := rfl
@[simp] theorem modSlot_readBack : (s.modSlot n gm).readBack = s.readBack := rfl
@[simp] theorem modSlot_mailbox : (s.modSlot n gm).mailbox = s.mailbox := rfl
@[simp] theorem modSlot_secBox : (s.modSlot n gm).secBox = s.secBox := rfl
@[simp] theorem modSlot_fromQueue : (s.modSlot n gm).fromQueue = s.fromQueue := rfl
@[simp] theorem modSlot_identityPub : (s.modSlot n gm).identityPub = s.identityPub := rfl
@[simp] theorem modSlot_identityCert : (s.modSlot n gm).identityCert = s.identityCert := rfl
@[simp] theorem modSlot_flowLow : (s.modSlot n gm).flowLow = s.flowLow := rfl
@[simp] theorem modSlot_ctx : (s.modSlot n gm).ctx c2 = s.ctx c2 := rfl
@[simp] theorem modSlot_core : (s.modSlot n gm).core c2 n2 = s.core c2 n2 := rfl
@[simp] theorem modSlot_stackAt : (s.modSlot n gm).stackAt n2 = s.stackAt n2 := rfl
@[simp] theorem modSlot_part : (s.modSlot n gm).part n2 = s.part n2 := rfl
@[simp] theorem modSlot_job : (s.modSlot n gm).job n2 = s.job n2 := rfl
@[simp] theorem modSlot_chan : (s.modSlot n gm).chan n2 = s.chan n2 := rfl
@[simp] theorem modSlot_peel : (s.modSlot n gm).peel n2 = s.peel n2 := rfl
@[simp] theorem modSlot_queue : (s.modSlot n gm).queue n2 = s.queue n2 := rfl
@[simp] theorem modSlot_port : (s.modSlot n gm).port n2 = s.port n2 := rfl
@[simp] theorem modSlot_gent : (s.modSlot n gm).gent n2 = s.gent n2 := rfl
@[simp] theorem modSlot_line : (s.modSlot n gm).line n2 = s.line n2 := rfl
@[simp] theorem modSlot_ring : (s.modSlot n gm).ring m2 n2 = s.ring m2 n2 := rfl
@[simp] theorem modSlot_perfAt : (s.modSlot n gm).perfAt n2 = s.perfAt n2 := rfl
@[simp] theorem modSlot_byte : (s.modSlot n gm).byte a2 = s.byte a2 := rfl
@[simp] theorem modSlot_load : (s.modSlot n gm).load a2 n2 = s.load a2 n2 := rfl
@[simp] theorem modSlot_me : (s.modSlot n gm).me = s.me := rfl
@[simp] theorem modSlot_myCtx : (s.modSlot n gm).myCtx = s.myCtx := rfl
@[simp] theorem modSlot_clk : (s.modSlot n gm).clk = s.clk := rfl

@[simp] theorem setLineVer_now : (s.setLineVer n v32).now = s.now := rfl
@[simp] theorem setLineVer_cycleBase : (s.setLineVer n v32).cycleBase = s.cycleBase := rfl
@[simp] theorem setLineVer_agenda : (s.setLineVer n v32).agenda = s.agenda := rfl
@[simp] theorem setLineVer_cur : (s.setLineVer n v32).cur = s.cur := rfl
@[simp] theorem setLineVer_arg : (s.setLineVer n v32).arg = s.arg := rfl
@[simp] theorem setLineVer_ord : (s.setLineVer n v32).ord = s.ord := rfl
@[simp] theorem setLineVer_checked : (s.setLineVer n v32).checked = s.checked := rfl
@[simp] theorem setLineVer_probe : (s.setLineVer n v32).probe = s.probe := rfl
@[simp] theorem setLineVer_found : (s.setLineVer n v32).found = s.found := rfl
@[simp] theorem setLineVer_nextId : (s.setLineVer n v32).nextId = s.nextId := rfl
@[simp] theorem setLineVer_mark : (s.setLineVer n v32).mark = s.mark := rfl
@[simp] theorem setLineVer_banks : (s.setLineVer n v32).banks = s.banks := rfl
@[simp] theorem setLineVer_exBanks : (s.setLineVer n v32).exBanks = s.exBanks := rfl
@[simp] theorem setLineVer_svc : (s.setLineVer n v32).svc = s.svc := rfl
@[simp] theorem setLineVer_ports_ : (s.setLineVer n v32).ports_ = s.ports_ := rfl
@[simp] theorem setLineVer_free : (s.setLineVer n v32).free = s.free := rfl
@[simp] theorem setLineVer_ctxs : (s.setLineVer n v32).ctxs = s.ctxs := rfl
@[simp] theorem setLineVer_cores : (s.setLineVer n v32).cores = s.cores := rfl
@[simp] theorem setLineVer_rowLag : (s.setLineVer n v32).rowLag = s.rowLag := rfl
@[simp] theorem setLineVer_frames : (s.setLineVer n v32).frames = s.frames := rfl
@[simp] theorem setLineVer_cmode : (s.setLineVer n v32).cmode = s.cmode := rfl
@[simp] theorem setLineVer_stack : (s.setLineVer n v32).stack = s.stack := rfl
@[simp] theorem setLineVer_mem : (s.setLineVer n v32).mem = s.mem := rfl
@[simp] theorem setLineVer_slots : (s.setLineVer n v32).slots = s.slots := rfl
@[simp] theorem setLineVer_lineWorld : (s.setLineVer n v32).lineWorld = s.lineWorld := rfl
@[simp] theorem setLineVer_bad : (s.setLineVer n v32).bad = s.bad := rfl
@[simp] theorem setLineVer_badMeta : (s.setLineVer n v32).badMeta = s.badMeta := rfl
@[simp] theorem setLineVer_peels : (s.setLineVer n v32).peels = s.peels := rfl
@[simp] theorem setLineVer_gtab : (s.setLineVer n v32).gtab = s.gtab := rfl
@[simp] theorem setLineVer_chans : (s.setLineVer n v32).chans = s.chans := rfl
@[simp] theorem setLineVer_parts : (s.setLineVer n v32).parts = s.parts := rfl
@[simp] theorem setLineVer_queues : (s.setLineVer n v32).queues = s.queues := rfl
@[simp] theorem setLineVer_selected : (s.setLineVer n v32).selected = s.selected := rfl
@[simp] theorem setLineVer_placed : (s.setLineVer n v32).placed = s.placed := rfl
@[simp] theorem setLineVer_rr : (s.setLineVer n v32).rr = s.rr := rfl
@[simp] theorem setLineVer_jobs : (s.setLineVer n v32).jobs = s.jobs := rfl
@[simp] theorem setLineVer_nextJob : (s.setLineVer n v32).nextJob = s.nextJob := rfl
@[simp] theorem setLineVer_jobOrder : (s.setLineVer n v32).jobOrder = s.jobOrder := rfl
@[simp] theorem setLineVer_events : (s.setLineVer n v32).events = s.events := rfl
@[simp] theorem setLineVer_waitEv : (s.setLineVer n v32).waitEv = s.waitEv := rfl
@[simp] theorem setLineVer_lateEv : (s.setLineVer n v32).lateEv = s.lateEv := rfl
@[simp] theorem setLineVer_logKeys : (s.setLineVer n v32).logKeys = s.logKeys := rfl
@[simp] theorem setLineVer_dropped : (s.setLineVer n v32).dropped = s.dropped := rfl
@[simp] theorem setLineVer_scrubs : (s.setLineVer n v32).scrubs = s.scrubs := rfl
@[simp] theorem setLineVer_scrubWait : (s.setLineVer n v32).scrubWait = s.scrubWait := rfl
@[simp] theorem setLineVer_refused : (s.setLineVer n v32).refused = s.refused := rfl
@[simp] theorem setLineVer_ranges : (s.setLineVer n v32).ranges = s.ranges := rfl
@[simp] theorem setLineVer_pages : (s.setLineVer n v32).pages = s.pages := rfl
@[simp] theorem setLineVer_invals : (s.setLineVer n v32).invals = s.invals := rfl
@[simp] theorem setLineVer_waiting : (s.setLineVer n v32).waiting = s.waiting := rfl
@[simp] theorem setLineVer_world : (s.setLineVer n v32).world = s.world := rfl
@[simp] theorem setLineVer_dedup : (s.setLineVer n v32).dedup = s.dedup := rfl
@[simp] theorem setLineVer_ports : (s.setLineVer n v32).ports = s.ports := rfl
@[simp] theorem setLineVer_arrayLog : (s.setLineVer n v32).arrayLog = s.arrayLog := rfl
@[simp] theorem setLineVer_busLog : (s.setLineVer n v32).busLog = s.busLog := rfl
@[simp] theorem setLineVer_spadLog : (s.setLineVer n v32).spadLog = s.spadLog := rfl
@[simp] theorem setLineVer_linkLog : (s.setLineVer n v32).linkLog = s.linkLog := rfl
@[simp] theorem setLineVer_secLog : (s.setLineVer n v32).secLog = s.secLog := rfl
@[simp] theorem setLineVer_perf : (s.setLineVer n v32).perf = s.perf := rfl
@[simp] theorem setLineVer_tickLog2 : (s.setLineVer n v32).tickLog2 = s.tickLog2 := rfl
@[simp] theorem setLineVer_tickNow : (s.setLineVer n v32).tickNow = s.tickNow := rfl
@[simp] theorem setLineVer_tickBusy : (s.setLineVer n v32).tickBusy = s.tickBusy := rfl
@[simp] theorem setLineVer_powerLimit : (s.setLineVer n v32).powerLimit = s.powerLimit := rfl
@[simp] theorem setLineVer_qmap : (s.setLineVer n v32).qmap = s.qmap := rfl
@[simp] theorem setLineVer_module : (s.setLineVer n v32).module = s.module := rfl
@[simp] theorem setLineVer_winMap : (s.setLineVer n v32).winMap = s.winMap := rfl
@[simp] theorem setLineVer_mrs : (s.setLineVer n v32).mrs = s.mrs := rfl
@[simp] theorem setLineVer_svn : (s.setLineVer n v32).svn = s.svn := rfl
@[simp] theorem setLineVer_accepted : (s.setLineVer n v32).accepted = s.accepted := rfl
@[simp] theorem setLineVer_bootA : (s.setLineVer n v32).bootA = s.bootA := rfl
@[simp] theorem setLineVer_bootB : (s.setLineVer n v32).bootB = s.bootB := rfl
@[simp] theorem setLineVer_reloading : (s.setLineVer n v32).reloading = s.reloading := rfl
@[simp] theorem setLineVer_bootFail : (s.setLineVer n v32).bootFail = s.bootFail := rfl
@[simp] theorem setLineVer_identity : (s.setLineVer n v32).identity = s.identity := rfl
@[simp] theorem setLineVer_report : (s.setLineVer n v32).report = s.report := rfl
@[simp] theorem setLineVer_readBack : (s.setLineVer n v32).readBack = s.readBack := rfl
@[simp] theorem setLineVer_mailbox : (s.setLineVer n v32).mailbox = s.mailbox := rfl
@[simp] theorem setLineVer_secBox : (s.setLineVer n v32).secBox = s.secBox := rfl
@[simp] theorem setLineVer_fromQueue : (s.setLineVer n v32).fromQueue = s.fromQueue := rfl
@[simp] theorem setLineVer_identityPub : (s.setLineVer n v32).identityPub = s.identityPub := rfl
@[simp] theorem setLineVer_identityCert : (s.setLineVer n v32).identityCert = s.identityCert := rfl
@[simp] theorem setLineVer_flowLow : (s.setLineVer n v32).flowLow = s.flowLow := rfl
@[simp] theorem setLineVer_ctx : (s.setLineVer n v32).ctx c2 = s.ctx c2 := rfl
@[simp] theorem setLineVer_core : (s.setLineVer n v32).core c2 n2 = s.core c2 n2 := rfl
@[simp] theorem setLineVer_stackAt : (s.setLineVer n v32).stackAt n2 = s.stackAt n2 := rfl
@[simp] theorem setLineVer_part : (s.setLineVer n v32).part n2 = s.part n2 := rfl
@[simp] theorem setLineVer_job : (s.setLineVer n v32).job n2 = s.job n2 := rfl
@[simp] theorem setLineVer_chan : (s.setLineVer n v32).chan n2 = s.chan n2 := rfl
@[simp] theorem setLineVer_peel : (s.setLineVer n v32).peel n2 = s.peel n2 := rfl
@[simp] theorem setLineVer_queue : (s.setLineVer n v32).queue n2 = s.queue n2 := rfl
@[simp] theorem setLineVer_port : (s.setLineVer n v32).port n2 = s.port n2 := rfl
@[simp] theorem setLineVer_gent : (s.setLineVer n v32).gent n2 = s.gent n2 := rfl
@[simp] theorem setLineVer_slot : (s.setLineVer n v32).slot n2 = s.slot n2 := rfl
@[simp] theorem setLineVer_ring : (s.setLineVer n v32).ring m2 n2 = s.ring m2 n2 := rfl
@[simp] theorem setLineVer_perfAt : (s.setLineVer n v32).perfAt n2 = s.perfAt n2 := rfl
@[simp] theorem setLineVer_byte : (s.setLineVer n v32).byte a2 = s.byte a2 := rfl
@[simp] theorem setLineVer_load : (s.setLineVer n v32).load a2 n2 = s.load a2 n2 := rfl
@[simp] theorem setLineVer_me : (s.setLineVer n v32).me = s.me := rfl
@[simp] theorem setLineVer_myCtx : (s.setLineVer n v32).myCtx = s.myCtx := rfl
@[simp] theorem setLineVer_clk : (s.setLineVer n v32).clk = s.clk := rfl

@[simp] theorem setLineWorld_now : (s.setLineWorld n n2 b).now = s.now := rfl
@[simp] theorem setLineWorld_cycleBase : (s.setLineWorld n n2 b).cycleBase = s.cycleBase := rfl
@[simp] theorem setLineWorld_agenda : (s.setLineWorld n n2 b).agenda = s.agenda := rfl
@[simp] theorem setLineWorld_cur : (s.setLineWorld n n2 b).cur = s.cur := rfl
@[simp] theorem setLineWorld_arg : (s.setLineWorld n n2 b).arg = s.arg := rfl
@[simp] theorem setLineWorld_ord : (s.setLineWorld n n2 b).ord = s.ord := rfl
@[simp] theorem setLineWorld_checked : (s.setLineWorld n n2 b).checked = s.checked := rfl
@[simp] theorem setLineWorld_probe : (s.setLineWorld n n2 b).probe = s.probe := rfl
@[simp] theorem setLineWorld_found : (s.setLineWorld n n2 b).found = s.found := rfl
@[simp] theorem setLineWorld_nextId : (s.setLineWorld n n2 b).nextId = s.nextId := rfl
@[simp] theorem setLineWorld_mark : (s.setLineWorld n n2 b).mark = s.mark := rfl
@[simp] theorem setLineWorld_banks : (s.setLineWorld n n2 b).banks = s.banks := rfl
@[simp] theorem setLineWorld_exBanks : (s.setLineWorld n n2 b).exBanks = s.exBanks := rfl
@[simp] theorem setLineWorld_svc : (s.setLineWorld n n2 b).svc = s.svc := rfl
@[simp] theorem setLineWorld_ports_ : (s.setLineWorld n n2 b).ports_ = s.ports_ := rfl
@[simp] theorem setLineWorld_free : (s.setLineWorld n n2 b).free = s.free := rfl
@[simp] theorem setLineWorld_ctxs : (s.setLineWorld n n2 b).ctxs = s.ctxs := rfl
@[simp] theorem setLineWorld_cores : (s.setLineWorld n n2 b).cores = s.cores := rfl
@[simp] theorem setLineWorld_rowLag : (s.setLineWorld n n2 b).rowLag = s.rowLag := rfl
@[simp] theorem setLineWorld_frames : (s.setLineWorld n n2 b).frames = s.frames := rfl
@[simp] theorem setLineWorld_cmode : (s.setLineWorld n n2 b).cmode = s.cmode := rfl
@[simp] theorem setLineWorld_stack : (s.setLineWorld n n2 b).stack = s.stack := rfl
@[simp] theorem setLineWorld_mem : (s.setLineWorld n n2 b).mem = s.mem := rfl
@[simp] theorem setLineWorld_slots : (s.setLineWorld n n2 b).slots = s.slots := rfl
@[simp] theorem setLineWorld_lines : (s.setLineWorld n n2 b).lines = s.lines := rfl
@[simp] theorem setLineWorld_bad : (s.setLineWorld n n2 b).bad = s.bad := rfl
@[simp] theorem setLineWorld_badMeta : (s.setLineWorld n n2 b).badMeta = s.badMeta := rfl
@[simp] theorem setLineWorld_peels : (s.setLineWorld n n2 b).peels = s.peels := rfl
@[simp] theorem setLineWorld_gtab : (s.setLineWorld n n2 b).gtab = s.gtab := rfl
@[simp] theorem setLineWorld_chans : (s.setLineWorld n n2 b).chans = s.chans := rfl
@[simp] theorem setLineWorld_parts : (s.setLineWorld n n2 b).parts = s.parts := rfl
@[simp] theorem setLineWorld_queues : (s.setLineWorld n n2 b).queues = s.queues := rfl
@[simp] theorem setLineWorld_selected : (s.setLineWorld n n2 b).selected = s.selected := rfl
@[simp] theorem setLineWorld_placed : (s.setLineWorld n n2 b).placed = s.placed := rfl
@[simp] theorem setLineWorld_rr : (s.setLineWorld n n2 b).rr = s.rr := rfl
@[simp] theorem setLineWorld_jobs : (s.setLineWorld n n2 b).jobs = s.jobs := rfl
@[simp] theorem setLineWorld_nextJob : (s.setLineWorld n n2 b).nextJob = s.nextJob := rfl
@[simp] theorem setLineWorld_jobOrder : (s.setLineWorld n n2 b).jobOrder = s.jobOrder := rfl
@[simp] theorem setLineWorld_events : (s.setLineWorld n n2 b).events = s.events := rfl
@[simp] theorem setLineWorld_waitEv : (s.setLineWorld n n2 b).waitEv = s.waitEv := rfl
@[simp] theorem setLineWorld_lateEv : (s.setLineWorld n n2 b).lateEv = s.lateEv := rfl
@[simp] theorem setLineWorld_logKeys : (s.setLineWorld n n2 b).logKeys = s.logKeys := rfl
@[simp] theorem setLineWorld_dropped : (s.setLineWorld n n2 b).dropped = s.dropped := rfl
@[simp] theorem setLineWorld_scrubs : (s.setLineWorld n n2 b).scrubs = s.scrubs := rfl
@[simp] theorem setLineWorld_scrubWait : (s.setLineWorld n n2 b).scrubWait = s.scrubWait := rfl
@[simp] theorem setLineWorld_refused : (s.setLineWorld n n2 b).refused = s.refused := rfl
@[simp] theorem setLineWorld_ranges : (s.setLineWorld n n2 b).ranges = s.ranges := rfl
@[simp] theorem setLineWorld_pages : (s.setLineWorld n n2 b).pages = s.pages := rfl
@[simp] theorem setLineWorld_invals : (s.setLineWorld n n2 b).invals = s.invals := rfl
@[simp] theorem setLineWorld_waiting : (s.setLineWorld n n2 b).waiting = s.waiting := rfl
@[simp] theorem setLineWorld_world : (s.setLineWorld n n2 b).world = s.world := rfl
@[simp] theorem setLineWorld_dedup : (s.setLineWorld n n2 b).dedup = s.dedup := rfl
@[simp] theorem setLineWorld_ports : (s.setLineWorld n n2 b).ports = s.ports := rfl
@[simp] theorem setLineWorld_arrayLog : (s.setLineWorld n n2 b).arrayLog = s.arrayLog := rfl
@[simp] theorem setLineWorld_busLog : (s.setLineWorld n n2 b).busLog = s.busLog := rfl
@[simp] theorem setLineWorld_spadLog : (s.setLineWorld n n2 b).spadLog = s.spadLog := rfl
@[simp] theorem setLineWorld_linkLog : (s.setLineWorld n n2 b).linkLog = s.linkLog := rfl
@[simp] theorem setLineWorld_secLog : (s.setLineWorld n n2 b).secLog = s.secLog := rfl
@[simp] theorem setLineWorld_perf : (s.setLineWorld n n2 b).perf = s.perf := rfl
@[simp] theorem setLineWorld_tickLog2 : (s.setLineWorld n n2 b).tickLog2 = s.tickLog2 := rfl
@[simp] theorem setLineWorld_tickNow : (s.setLineWorld n n2 b).tickNow = s.tickNow := rfl
@[simp] theorem setLineWorld_tickBusy : (s.setLineWorld n n2 b).tickBusy = s.tickBusy := rfl
@[simp] theorem setLineWorld_powerLimit : (s.setLineWorld n n2 b).powerLimit = s.powerLimit := rfl
@[simp] theorem setLineWorld_qmap : (s.setLineWorld n n2 b).qmap = s.qmap := rfl
@[simp] theorem setLineWorld_module : (s.setLineWorld n n2 b).module = s.module := rfl
@[simp] theorem setLineWorld_winMap : (s.setLineWorld n n2 b).winMap = s.winMap := rfl
@[simp] theorem setLineWorld_mrs : (s.setLineWorld n n2 b).mrs = s.mrs := rfl
@[simp] theorem setLineWorld_svn : (s.setLineWorld n n2 b).svn = s.svn := rfl
@[simp] theorem setLineWorld_accepted : (s.setLineWorld n n2 b).accepted = s.accepted := rfl
@[simp] theorem setLineWorld_bootA : (s.setLineWorld n n2 b).bootA = s.bootA := rfl
@[simp] theorem setLineWorld_bootB : (s.setLineWorld n n2 b).bootB = s.bootB := rfl
@[simp] theorem setLineWorld_reloading : (s.setLineWorld n n2 b).reloading = s.reloading := rfl
@[simp] theorem setLineWorld_bootFail : (s.setLineWorld n n2 b).bootFail = s.bootFail := rfl
@[simp] theorem setLineWorld_identity : (s.setLineWorld n n2 b).identity = s.identity := rfl
@[simp] theorem setLineWorld_report : (s.setLineWorld n n2 b).report = s.report := rfl
@[simp] theorem setLineWorld_readBack : (s.setLineWorld n n2 b).readBack = s.readBack := rfl
@[simp] theorem setLineWorld_mailbox : (s.setLineWorld n n2 b).mailbox = s.mailbox := rfl
@[simp] theorem setLineWorld_secBox : (s.setLineWorld n n2 b).secBox = s.secBox := rfl
@[simp] theorem setLineWorld_fromQueue : (s.setLineWorld n n2 b).fromQueue = s.fromQueue := rfl
@[simp] theorem setLineWorld_identityPub : (s.setLineWorld n n2 b).identityPub = s.identityPub := rfl
@[simp] theorem setLineWorld_identityCert : (s.setLineWorld n n2 b).identityCert = s.identityCert := rfl
@[simp] theorem setLineWorld_flowLow : (s.setLineWorld n n2 b).flowLow = s.flowLow := rfl
@[simp] theorem setLineWorld_ctx : (s.setLineWorld n n2 b).ctx c2 = s.ctx c2 := rfl
@[simp] theorem setLineWorld_core : (s.setLineWorld n n2 b).core c2 n2 = s.core c2 n2 := rfl
@[simp] theorem setLineWorld_stackAt : (s.setLineWorld n n2 b).stackAt n2 = s.stackAt n2 := rfl
@[simp] theorem setLineWorld_part : (s.setLineWorld n n2 b).part n2 = s.part n2 := rfl
@[simp] theorem setLineWorld_job : (s.setLineWorld n n2 b).job n2 = s.job n2 := rfl
@[simp] theorem setLineWorld_chan : (s.setLineWorld n n2 b).chan n2 = s.chan n2 := rfl
@[simp] theorem setLineWorld_peel : (s.setLineWorld n n2 b).peel n2 = s.peel n2 := rfl
@[simp] theorem setLineWorld_queue : (s.setLineWorld n n2 b).queue n2 = s.queue n2 := rfl
@[simp] theorem setLineWorld_port : (s.setLineWorld n n2 b).port n2 = s.port n2 := rfl
@[simp] theorem setLineWorld_gent : (s.setLineWorld n n2 b).gent n2 = s.gent n2 := rfl
@[simp] theorem setLineWorld_slot : (s.setLineWorld n n2 b).slot n2 = s.slot n2 := rfl
@[simp] theorem setLineWorld_ring : (s.setLineWorld n n2 b).ring m2 n2 = s.ring m2 n2 := rfl
@[simp] theorem setLineWorld_perfAt : (s.setLineWorld n n2 b).perfAt n2 = s.perfAt n2 := rfl
@[simp] theorem setLineWorld_byte : (s.setLineWorld n n2 b).byte a2 = s.byte a2 := rfl
@[simp] theorem setLineWorld_load : (s.setLineWorld n n2 b).load a2 n2 = s.load a2 n2 := rfl
@[simp] theorem setLineWorld_me : (s.setLineWorld n n2 b).me = s.me := rfl
@[simp] theorem setLineWorld_myCtx : (s.setLineWorld n n2 b).myCtx = s.myCtx := rfl
@[simp] theorem setLineWorld_clk : (s.setLineWorld n n2 b).clk = s.clk := rfl

@[simp] theorem modRing_now : (s.modRing m n gr).now = s.now := rfl
@[simp] theorem modRing_cycleBase : (s.modRing m n gr).cycleBase = s.cycleBase := rfl
@[simp] theorem modRing_agenda : (s.modRing m n gr).agenda = s.agenda := rfl
@[simp] theorem modRing_cur : (s.modRing m n gr).cur = s.cur := rfl
@[simp] theorem modRing_arg : (s.modRing m n gr).arg = s.arg := rfl
@[simp] theorem modRing_ord : (s.modRing m n gr).ord = s.ord := rfl
@[simp] theorem modRing_checked : (s.modRing m n gr).checked = s.checked := rfl
@[simp] theorem modRing_probe : (s.modRing m n gr).probe = s.probe := rfl
@[simp] theorem modRing_found : (s.modRing m n gr).found = s.found := rfl
@[simp] theorem modRing_nextId : (s.modRing m n gr).nextId = s.nextId := rfl
@[simp] theorem modRing_mark : (s.modRing m n gr).mark = s.mark := rfl
@[simp] theorem modRing_banks : (s.modRing m n gr).banks = s.banks := rfl
@[simp] theorem modRing_exBanks : (s.modRing m n gr).exBanks = s.exBanks := rfl
@[simp] theorem modRing_svc : (s.modRing m n gr).svc = s.svc := rfl
@[simp] theorem modRing_ports_ : (s.modRing m n gr).ports_ = s.ports_ := rfl
@[simp] theorem modRing_free : (s.modRing m n gr).free = s.free := rfl
@[simp] theorem modRing_ctxs : (s.modRing m n gr).ctxs = s.ctxs := rfl
@[simp] theorem modRing_cores : (s.modRing m n gr).cores = s.cores := rfl
@[simp] theorem modRing_rowLag : (s.modRing m n gr).rowLag = s.rowLag := rfl
@[simp] theorem modRing_frames : (s.modRing m n gr).frames = s.frames := rfl
@[simp] theorem modRing_cmode : (s.modRing m n gr).cmode = s.cmode := rfl
@[simp] theorem modRing_mem : (s.modRing m n gr).mem = s.mem := rfl
@[simp] theorem modRing_slots : (s.modRing m n gr).slots = s.slots := rfl
@[simp] theorem modRing_lines : (s.modRing m n gr).lines = s.lines := rfl
@[simp] theorem modRing_lineWorld : (s.modRing m n gr).lineWorld = s.lineWorld := rfl
@[simp] theorem modRing_bad : (s.modRing m n gr).bad = s.bad := rfl
@[simp] theorem modRing_badMeta : (s.modRing m n gr).badMeta = s.badMeta := rfl
@[simp] theorem modRing_peels : (s.modRing m n gr).peels = s.peels := rfl
@[simp] theorem modRing_gtab : (s.modRing m n gr).gtab = s.gtab := rfl
@[simp] theorem modRing_chans : (s.modRing m n gr).chans = s.chans := rfl
@[simp] theorem modRing_parts : (s.modRing m n gr).parts = s.parts := rfl
@[simp] theorem modRing_queues : (s.modRing m n gr).queues = s.queues := rfl
@[simp] theorem modRing_selected : (s.modRing m n gr).selected = s.selected := rfl
@[simp] theorem modRing_placed : (s.modRing m n gr).placed = s.placed := rfl
@[simp] theorem modRing_rr : (s.modRing m n gr).rr = s.rr := rfl
@[simp] theorem modRing_jobs : (s.modRing m n gr).jobs = s.jobs := rfl
@[simp] theorem modRing_nextJob : (s.modRing m n gr).nextJob = s.nextJob := rfl
@[simp] theorem modRing_jobOrder : (s.modRing m n gr).jobOrder = s.jobOrder := rfl
@[simp] theorem modRing_events : (s.modRing m n gr).events = s.events := rfl
@[simp] theorem modRing_waitEv : (s.modRing m n gr).waitEv = s.waitEv := rfl
@[simp] theorem modRing_lateEv : (s.modRing m n gr).lateEv = s.lateEv := rfl
@[simp] theorem modRing_logKeys : (s.modRing m n gr).logKeys = s.logKeys := rfl
@[simp] theorem modRing_dropped : (s.modRing m n gr).dropped = s.dropped := rfl
@[simp] theorem modRing_scrubs : (s.modRing m n gr).scrubs = s.scrubs := rfl
@[simp] theorem modRing_scrubWait : (s.modRing m n gr).scrubWait = s.scrubWait := rfl
@[simp] theorem modRing_refused : (s.modRing m n gr).refused = s.refused := rfl
@[simp] theorem modRing_ranges : (s.modRing m n gr).ranges = s.ranges := rfl
@[simp] theorem modRing_pages : (s.modRing m n gr).pages = s.pages := rfl
@[simp] theorem modRing_invals : (s.modRing m n gr).invals = s.invals := rfl
@[simp] theorem modRing_waiting : (s.modRing m n gr).waiting = s.waiting := rfl
@[simp] theorem modRing_world : (s.modRing m n gr).world = s.world := rfl
@[simp] theorem modRing_dedup : (s.modRing m n gr).dedup = s.dedup := rfl
@[simp] theorem modRing_ports : (s.modRing m n gr).ports = s.ports := rfl
@[simp] theorem modRing_arrayLog : (s.modRing m n gr).arrayLog = s.arrayLog := rfl
@[simp] theorem modRing_busLog : (s.modRing m n gr).busLog = s.busLog := rfl
@[simp] theorem modRing_spadLog : (s.modRing m n gr).spadLog = s.spadLog := rfl
@[simp] theorem modRing_linkLog : (s.modRing m n gr).linkLog = s.linkLog := rfl
@[simp] theorem modRing_secLog : (s.modRing m n gr).secLog = s.secLog := rfl
@[simp] theorem modRing_perf : (s.modRing m n gr).perf = s.perf := rfl
@[simp] theorem modRing_tickLog2 : (s.modRing m n gr).tickLog2 = s.tickLog2 := rfl
@[simp] theorem modRing_tickNow : (s.modRing m n gr).tickNow = s.tickNow := rfl
@[simp] theorem modRing_tickBusy : (s.modRing m n gr).tickBusy = s.tickBusy := rfl
@[simp] theorem modRing_powerLimit : (s.modRing m n gr).powerLimit = s.powerLimit := rfl
@[simp] theorem modRing_qmap : (s.modRing m n gr).qmap = s.qmap := rfl
@[simp] theorem modRing_module : (s.modRing m n gr).module = s.module := rfl
@[simp] theorem modRing_winMap : (s.modRing m n gr).winMap = s.winMap := rfl
@[simp] theorem modRing_mrs : (s.modRing m n gr).mrs = s.mrs := rfl
@[simp] theorem modRing_svn : (s.modRing m n gr).svn = s.svn := rfl
@[simp] theorem modRing_accepted : (s.modRing m n gr).accepted = s.accepted := rfl
@[simp] theorem modRing_bootA : (s.modRing m n gr).bootA = s.bootA := rfl
@[simp] theorem modRing_bootB : (s.modRing m n gr).bootB = s.bootB := rfl
@[simp] theorem modRing_reloading : (s.modRing m n gr).reloading = s.reloading := rfl
@[simp] theorem modRing_bootFail : (s.modRing m n gr).bootFail = s.bootFail := rfl
@[simp] theorem modRing_identity : (s.modRing m n gr).identity = s.identity := rfl
@[simp] theorem modRing_report : (s.modRing m n gr).report = s.report := rfl
@[simp] theorem modRing_readBack : (s.modRing m n gr).readBack = s.readBack := rfl
@[simp] theorem modRing_mailbox : (s.modRing m n gr).mailbox = s.mailbox := rfl
@[simp] theorem modRing_secBox : (s.modRing m n gr).secBox = s.secBox := rfl
@[simp] theorem modRing_fromQueue : (s.modRing m n gr).fromQueue = s.fromQueue := rfl
@[simp] theorem modRing_identityPub : (s.modRing m n gr).identityPub = s.identityPub := rfl
@[simp] theorem modRing_identityCert : (s.modRing m n gr).identityCert = s.identityCert := rfl
@[simp] theorem modRing_flowLow : (s.modRing m n gr).flowLow = s.flowLow := rfl
@[simp] theorem modRing_ctx : (s.modRing m n gr).ctx c2 = s.ctx c2 := rfl
@[simp] theorem modRing_core : (s.modRing m n gr).core c2 n2 = s.core c2 n2 := rfl
@[simp] theorem modRing_part : (s.modRing m n gr).part n2 = s.part n2 := rfl
@[simp] theorem modRing_job : (s.modRing m n gr).job n2 = s.job n2 := rfl
@[simp] theorem modRing_chan : (s.modRing m n gr).chan n2 = s.chan n2 := rfl
@[simp] theorem modRing_peel : (s.modRing m n gr).peel n2 = s.peel n2 := rfl
@[simp] theorem modRing_queue : (s.modRing m n gr).queue n2 = s.queue n2 := rfl
@[simp] theorem modRing_port : (s.modRing m n gr).port n2 = s.port n2 := rfl
@[simp] theorem modRing_gent : (s.modRing m n gr).gent n2 = s.gent n2 := rfl
@[simp] theorem modRing_slot : (s.modRing m n gr).slot n2 = s.slot n2 := rfl
@[simp] theorem modRing_line : (s.modRing m n gr).line n2 = s.line n2 := rfl
@[simp] theorem modRing_perfAt : (s.modRing m n gr).perfAt n2 = s.perfAt n2 := rfl
@[simp] theorem modRing_byte : (s.modRing m n gr).byte a2 = s.byte a2 := rfl
@[simp] theorem modRing_load : (s.modRing m n gr).load a2 n2 = s.load a2 n2 := rfl
@[simp] theorem modRing_me : (s.modRing m n gr).me = s.me := rfl
@[simp] theorem modRing_myCtx : (s.modRing m n gr).myCtx = s.myCtx := rfl
@[simp] theorem modRing_clk : (s.modRing m n gr).clk = s.clk := rfl

@[simp] theorem setPerf_now : (s.setPerf n v).now = s.now := rfl
@[simp] theorem setPerf_cycleBase : (s.setPerf n v).cycleBase = s.cycleBase := rfl
@[simp] theorem setPerf_agenda : (s.setPerf n v).agenda = s.agenda := rfl
@[simp] theorem setPerf_cur : (s.setPerf n v).cur = s.cur := rfl
@[simp] theorem setPerf_arg : (s.setPerf n v).arg = s.arg := rfl
@[simp] theorem setPerf_ord : (s.setPerf n v).ord = s.ord := rfl
@[simp] theorem setPerf_checked : (s.setPerf n v).checked = s.checked := rfl
@[simp] theorem setPerf_probe : (s.setPerf n v).probe = s.probe := rfl
@[simp] theorem setPerf_found : (s.setPerf n v).found = s.found := rfl
@[simp] theorem setPerf_nextId : (s.setPerf n v).nextId = s.nextId := rfl
@[simp] theorem setPerf_mark : (s.setPerf n v).mark = s.mark := rfl
@[simp] theorem setPerf_banks : (s.setPerf n v).banks = s.banks := rfl
@[simp] theorem setPerf_exBanks : (s.setPerf n v).exBanks = s.exBanks := rfl
@[simp] theorem setPerf_svc : (s.setPerf n v).svc = s.svc := rfl
@[simp] theorem setPerf_ports_ : (s.setPerf n v).ports_ = s.ports_ := rfl
@[simp] theorem setPerf_free : (s.setPerf n v).free = s.free := rfl
@[simp] theorem setPerf_ctxs : (s.setPerf n v).ctxs = s.ctxs := rfl
@[simp] theorem setPerf_cores : (s.setPerf n v).cores = s.cores := rfl
@[simp] theorem setPerf_rowLag : (s.setPerf n v).rowLag = s.rowLag := rfl
@[simp] theorem setPerf_frames : (s.setPerf n v).frames = s.frames := rfl
@[simp] theorem setPerf_cmode : (s.setPerf n v).cmode = s.cmode := rfl
@[simp] theorem setPerf_stack : (s.setPerf n v).stack = s.stack := rfl
@[simp] theorem setPerf_mem : (s.setPerf n v).mem = s.mem := rfl
@[simp] theorem setPerf_slots : (s.setPerf n v).slots = s.slots := rfl
@[simp] theorem setPerf_lines : (s.setPerf n v).lines = s.lines := rfl
@[simp] theorem setPerf_lineWorld : (s.setPerf n v).lineWorld = s.lineWorld := rfl
@[simp] theorem setPerf_bad : (s.setPerf n v).bad = s.bad := rfl
@[simp] theorem setPerf_badMeta : (s.setPerf n v).badMeta = s.badMeta := rfl
@[simp] theorem setPerf_peels : (s.setPerf n v).peels = s.peels := rfl
@[simp] theorem setPerf_gtab : (s.setPerf n v).gtab = s.gtab := rfl
@[simp] theorem setPerf_chans : (s.setPerf n v).chans = s.chans := rfl
@[simp] theorem setPerf_parts : (s.setPerf n v).parts = s.parts := rfl
@[simp] theorem setPerf_queues : (s.setPerf n v).queues = s.queues := rfl
@[simp] theorem setPerf_selected : (s.setPerf n v).selected = s.selected := rfl
@[simp] theorem setPerf_placed : (s.setPerf n v).placed = s.placed := rfl
@[simp] theorem setPerf_rr : (s.setPerf n v).rr = s.rr := rfl
@[simp] theorem setPerf_jobs : (s.setPerf n v).jobs = s.jobs := rfl
@[simp] theorem setPerf_nextJob : (s.setPerf n v).nextJob = s.nextJob := rfl
@[simp] theorem setPerf_jobOrder : (s.setPerf n v).jobOrder = s.jobOrder := rfl
@[simp] theorem setPerf_events : (s.setPerf n v).events = s.events := rfl
@[simp] theorem setPerf_waitEv : (s.setPerf n v).waitEv = s.waitEv := rfl
@[simp] theorem setPerf_lateEv : (s.setPerf n v).lateEv = s.lateEv := rfl
@[simp] theorem setPerf_logKeys : (s.setPerf n v).logKeys = s.logKeys := rfl
@[simp] theorem setPerf_dropped : (s.setPerf n v).dropped = s.dropped := rfl
@[simp] theorem setPerf_scrubs : (s.setPerf n v).scrubs = s.scrubs := rfl
@[simp] theorem setPerf_scrubWait : (s.setPerf n v).scrubWait = s.scrubWait := rfl
@[simp] theorem setPerf_refused : (s.setPerf n v).refused = s.refused := rfl
@[simp] theorem setPerf_ranges : (s.setPerf n v).ranges = s.ranges := rfl
@[simp] theorem setPerf_pages : (s.setPerf n v).pages = s.pages := rfl
@[simp] theorem setPerf_invals : (s.setPerf n v).invals = s.invals := rfl
@[simp] theorem setPerf_waiting : (s.setPerf n v).waiting = s.waiting := rfl
@[simp] theorem setPerf_world : (s.setPerf n v).world = s.world := rfl
@[simp] theorem setPerf_dedup : (s.setPerf n v).dedup = s.dedup := rfl
@[simp] theorem setPerf_ports : (s.setPerf n v).ports = s.ports := rfl
@[simp] theorem setPerf_arrayLog : (s.setPerf n v).arrayLog = s.arrayLog := rfl
@[simp] theorem setPerf_busLog : (s.setPerf n v).busLog = s.busLog := rfl
@[simp] theorem setPerf_spadLog : (s.setPerf n v).spadLog = s.spadLog := rfl
@[simp] theorem setPerf_linkLog : (s.setPerf n v).linkLog = s.linkLog := rfl
@[simp] theorem setPerf_secLog : (s.setPerf n v).secLog = s.secLog := rfl
@[simp] theorem setPerf_tickLog2 : (s.setPerf n v).tickLog2 = s.tickLog2 := rfl
@[simp] theorem setPerf_tickNow : (s.setPerf n v).tickNow = s.tickNow := rfl
@[simp] theorem setPerf_tickBusy : (s.setPerf n v).tickBusy = s.tickBusy := rfl
@[simp] theorem setPerf_powerLimit : (s.setPerf n v).powerLimit = s.powerLimit := rfl
@[simp] theorem setPerf_qmap : (s.setPerf n v).qmap = s.qmap := rfl
@[simp] theorem setPerf_module : (s.setPerf n v).module = s.module := rfl
@[simp] theorem setPerf_winMap : (s.setPerf n v).winMap = s.winMap := rfl
@[simp] theorem setPerf_mrs : (s.setPerf n v).mrs = s.mrs := rfl
@[simp] theorem setPerf_svn : (s.setPerf n v).svn = s.svn := rfl
@[simp] theorem setPerf_accepted : (s.setPerf n v).accepted = s.accepted := rfl
@[simp] theorem setPerf_bootA : (s.setPerf n v).bootA = s.bootA := rfl
@[simp] theorem setPerf_bootB : (s.setPerf n v).bootB = s.bootB := rfl
@[simp] theorem setPerf_reloading : (s.setPerf n v).reloading = s.reloading := rfl
@[simp] theorem setPerf_bootFail : (s.setPerf n v).bootFail = s.bootFail := rfl
@[simp] theorem setPerf_identity : (s.setPerf n v).identity = s.identity := rfl
@[simp] theorem setPerf_report : (s.setPerf n v).report = s.report := rfl
@[simp] theorem setPerf_readBack : (s.setPerf n v).readBack = s.readBack := rfl
@[simp] theorem setPerf_mailbox : (s.setPerf n v).mailbox = s.mailbox := rfl
@[simp] theorem setPerf_secBox : (s.setPerf n v).secBox = s.secBox := rfl
@[simp] theorem setPerf_fromQueue : (s.setPerf n v).fromQueue = s.fromQueue := rfl
@[simp] theorem setPerf_identityPub : (s.setPerf n v).identityPub = s.identityPub := rfl
@[simp] theorem setPerf_identityCert : (s.setPerf n v).identityCert = s.identityCert := rfl
@[simp] theorem setPerf_flowLow : (s.setPerf n v).flowLow = s.flowLow := rfl
@[simp] theorem setPerf_ctx : (s.setPerf n v).ctx c2 = s.ctx c2 := rfl
@[simp] theorem setPerf_core : (s.setPerf n v).core c2 n2 = s.core c2 n2 := rfl
@[simp] theorem setPerf_stackAt : (s.setPerf n v).stackAt n2 = s.stackAt n2 := rfl
@[simp] theorem setPerf_part : (s.setPerf n v).part n2 = s.part n2 := rfl
@[simp] theorem setPerf_job : (s.setPerf n v).job n2 = s.job n2 := rfl
@[simp] theorem setPerf_chan : (s.setPerf n v).chan n2 = s.chan n2 := rfl
@[simp] theorem setPerf_peel : (s.setPerf n v).peel n2 = s.peel n2 := rfl
@[simp] theorem setPerf_queue : (s.setPerf n v).queue n2 = s.queue n2 := rfl
@[simp] theorem setPerf_port : (s.setPerf n v).port n2 = s.port n2 := rfl
@[simp] theorem setPerf_gent : (s.setPerf n v).gent n2 = s.gent n2 := rfl
@[simp] theorem setPerf_slot : (s.setPerf n v).slot n2 = s.slot n2 := rfl
@[simp] theorem setPerf_line : (s.setPerf n v).line n2 = s.line n2 := rfl
@[simp] theorem setPerf_ring : (s.setPerf n v).ring m2 n2 = s.ring m2 n2 := rfl
@[simp] theorem setPerf_byte : (s.setPerf n v).byte a2 = s.byte a2 := rfl
@[simp] theorem setPerf_load : (s.setPerf n v).load a2 n2 = s.load a2 n2 := rfl
@[simp] theorem setPerf_me : (s.setPerf n v).me = s.me := rfl
@[simp] theorem setPerf_myCtx : (s.setPerf n v).myCtx = s.myCtx := rfl
@[simp] theorem setPerf_clk : (s.setPerf n v).clk = s.clk := rfl

@[simp] theorem after_now : (s.after k n u m i).now = s.now := rfl
@[simp] theorem after_cycleBase : (s.after k n u m i).cycleBase = s.cycleBase := rfl
@[simp] theorem after_cur : (s.after k n u m i).cur = s.cur := rfl
@[simp] theorem after_arg : (s.after k n u m i).arg = s.arg := rfl
@[simp] theorem after_ord : (s.after k n u m i).ord = s.ord := rfl
@[simp] theorem after_checked : (s.after k n u m i).checked = s.checked := rfl
@[simp] theorem after_probe : (s.after k n u m i).probe = s.probe := rfl
@[simp] theorem after_found : (s.after k n u m i).found = s.found := rfl
@[simp] theorem after_mark : (s.after k n u m i).mark = s.mark := rfl
@[simp] theorem after_banks : (s.after k n u m i).banks = s.banks := rfl
@[simp] theorem after_exBanks : (s.after k n u m i).exBanks = s.exBanks := rfl
@[simp] theorem after_svc : (s.after k n u m i).svc = s.svc := rfl
@[simp] theorem after_ports_ : (s.after k n u m i).ports_ = s.ports_ := rfl
@[simp] theorem after_free : (s.after k n u m i).free = s.free := rfl
@[simp] theorem after_ctxs : (s.after k n u m i).ctxs = s.ctxs := rfl
@[simp] theorem after_cores : (s.after k n u m i).cores = s.cores := rfl
@[simp] theorem after_rowLag : (s.after k n u m i).rowLag = s.rowLag := rfl
@[simp] theorem after_frames : (s.after k n u m i).frames = s.frames := rfl
@[simp] theorem after_cmode : (s.after k n u m i).cmode = s.cmode := rfl
@[simp] theorem after_stack : (s.after k n u m i).stack = s.stack := rfl
@[simp] theorem after_mem : (s.after k n u m i).mem = s.mem := rfl
@[simp] theorem after_slots : (s.after k n u m i).slots = s.slots := rfl
@[simp] theorem after_lines : (s.after k n u m i).lines = s.lines := rfl
@[simp] theorem after_lineWorld : (s.after k n u m i).lineWorld = s.lineWorld := rfl
@[simp] theorem after_bad : (s.after k n u m i).bad = s.bad := rfl
@[simp] theorem after_badMeta : (s.after k n u m i).badMeta = s.badMeta := rfl
@[simp] theorem after_peels : (s.after k n u m i).peels = s.peels := rfl
@[simp] theorem after_gtab : (s.after k n u m i).gtab = s.gtab := rfl
@[simp] theorem after_chans : (s.after k n u m i).chans = s.chans := rfl
@[simp] theorem after_parts : (s.after k n u m i).parts = s.parts := rfl
@[simp] theorem after_queues : (s.after k n u m i).queues = s.queues := rfl
@[simp] theorem after_selected : (s.after k n u m i).selected = s.selected := rfl
@[simp] theorem after_placed : (s.after k n u m i).placed = s.placed := rfl
@[simp] theorem after_rr : (s.after k n u m i).rr = s.rr := rfl
@[simp] theorem after_jobs : (s.after k n u m i).jobs = s.jobs := rfl
@[simp] theorem after_nextJob : (s.after k n u m i).nextJob = s.nextJob := rfl
@[simp] theorem after_jobOrder : (s.after k n u m i).jobOrder = s.jobOrder := rfl
@[simp] theorem after_events : (s.after k n u m i).events = s.events := rfl
@[simp] theorem after_waitEv : (s.after k n u m i).waitEv = s.waitEv := rfl
@[simp] theorem after_lateEv : (s.after k n u m i).lateEv = s.lateEv := rfl
@[simp] theorem after_logKeys : (s.after k n u m i).logKeys = s.logKeys := rfl
@[simp] theorem after_dropped : (s.after k n u m i).dropped = s.dropped := rfl
@[simp] theorem after_scrubs : (s.after k n u m i).scrubs = s.scrubs := rfl
@[simp] theorem after_scrubWait : (s.after k n u m i).scrubWait = s.scrubWait := rfl
@[simp] theorem after_refused : (s.after k n u m i).refused = s.refused := rfl
@[simp] theorem after_ranges : (s.after k n u m i).ranges = s.ranges := rfl
@[simp] theorem after_pages : (s.after k n u m i).pages = s.pages := rfl
@[simp] theorem after_invals : (s.after k n u m i).invals = s.invals := rfl
@[simp] theorem after_waiting : (s.after k n u m i).waiting = s.waiting := rfl
@[simp] theorem after_world : (s.after k n u m i).world = s.world := rfl
@[simp] theorem after_dedup : (s.after k n u m i).dedup = s.dedup := rfl
@[simp] theorem after_ports : (s.after k n u m i).ports = s.ports := rfl
@[simp] theorem after_arrayLog : (s.after k n u m i).arrayLog = s.arrayLog := rfl
@[simp] theorem after_busLog : (s.after k n u m i).busLog = s.busLog := rfl
@[simp] theorem after_spadLog : (s.after k n u m i).spadLog = s.spadLog := rfl
@[simp] theorem after_linkLog : (s.after k n u m i).linkLog = s.linkLog := rfl
@[simp] theorem after_secLog : (s.after k n u m i).secLog = s.secLog := rfl
@[simp] theorem after_perf : (s.after k n u m i).perf = s.perf := rfl
@[simp] theorem after_tickLog2 : (s.after k n u m i).tickLog2 = s.tickLog2 := rfl
@[simp] theorem after_tickNow : (s.after k n u m i).tickNow = s.tickNow := rfl
@[simp] theorem after_tickBusy : (s.after k n u m i).tickBusy = s.tickBusy := rfl
@[simp] theorem after_powerLimit : (s.after k n u m i).powerLimit = s.powerLimit := rfl
@[simp] theorem after_qmap : (s.after k n u m i).qmap = s.qmap := rfl
@[simp] theorem after_module : (s.after k n u m i).module = s.module := rfl
@[simp] theorem after_winMap : (s.after k n u m i).winMap = s.winMap := rfl
@[simp] theorem after_mrs : (s.after k n u m i).mrs = s.mrs := rfl
@[simp] theorem after_svn : (s.after k n u m i).svn = s.svn := rfl
@[simp] theorem after_accepted : (s.after k n u m i).accepted = s.accepted := rfl
@[simp] theorem after_bootA : (s.after k n u m i).bootA = s.bootA := rfl
@[simp] theorem after_bootB : (s.after k n u m i).bootB = s.bootB := rfl
@[simp] theorem after_reloading : (s.after k n u m i).reloading = s.reloading := rfl
@[simp] theorem after_bootFail : (s.after k n u m i).bootFail = s.bootFail := rfl
@[simp] theorem after_identity : (s.after k n u m i).identity = s.identity := rfl
@[simp] theorem after_report : (s.after k n u m i).report = s.report := rfl
@[simp] theorem after_readBack : (s.after k n u m i).readBack = s.readBack := rfl
@[simp] theorem after_mailbox : (s.after k n u m i).mailbox = s.mailbox := rfl
@[simp] theorem after_secBox : (s.after k n u m i).secBox = s.secBox := rfl
@[simp] theorem after_fromQueue : (s.after k n u m i).fromQueue = s.fromQueue := rfl
@[simp] theorem after_identityPub : (s.after k n u m i).identityPub = s.identityPub := rfl
@[simp] theorem after_identityCert : (s.after k n u m i).identityCert = s.identityCert := rfl
@[simp] theorem after_flowLow : (s.after k n u m i).flowLow = s.flowLow := rfl
@[simp] theorem after_ctx : (s.after k n u m i).ctx c2 = s.ctx c2 := rfl
@[simp] theorem after_core : (s.after k n u m i).core c2 n2 = s.core c2 n2 := rfl
@[simp] theorem after_stackAt : (s.after k n u m i).stackAt n2 = s.stackAt n2 := rfl
@[simp] theorem after_part : (s.after k n u m i).part n2 = s.part n2 := rfl
@[simp] theorem after_job : (s.after k n u m i).job n2 = s.job n2 := rfl
@[simp] theorem after_chan : (s.after k n u m i).chan n2 = s.chan n2 := rfl
@[simp] theorem after_peel : (s.after k n u m i).peel n2 = s.peel n2 := rfl
@[simp] theorem after_queue : (s.after k n u m i).queue n2 = s.queue n2 := rfl
@[simp] theorem after_port : (s.after k n u m i).port n2 = s.port n2 := rfl
@[simp] theorem after_gent : (s.after k n u m i).gent n2 = s.gent n2 := rfl
@[simp] theorem after_slot : (s.after k n u m i).slot n2 = s.slot n2 := rfl
@[simp] theorem after_line : (s.after k n u m i).line n2 = s.line n2 := rfl
@[simp] theorem after_ring : (s.after k n u m i).ring m2 n2 = s.ring m2 n2 := rfl
@[simp] theorem after_perfAt : (s.after k n u m i).perfAt n2 = s.perfAt n2 := rfl
@[simp] theorem after_byte : (s.after k n u m i).byte a2 = s.byte a2 := rfl
@[simp] theorem after_load : (s.after k n u m i).load a2 n2 = s.load a2 n2 := rfl
@[simp] theorem after_me : (s.after k n u m i).me = s.me := rfl
@[simp] theorem after_myCtx : (s.after k n u m i).myCtx = s.myCtx := rfl
@[simp] theorem after_clk : (s.after k n u m i).clk = s.clk := rfl

@[simp] theorem afterMe_now : (s.afterMe n m i).now = s.now := rfl
@[simp] theorem afterMe_cycleBase : (s.afterMe n m i).cycleBase = s.cycleBase := rfl
@[simp] theorem afterMe_cur : (s.afterMe n m i).cur = s.cur := rfl
@[simp] theorem afterMe_arg : (s.afterMe n m i).arg = s.arg := rfl
@[simp] theorem afterMe_ord : (s.afterMe n m i).ord = s.ord := rfl
@[simp] theorem afterMe_checked : (s.afterMe n m i).checked = s.checked := rfl
@[simp] theorem afterMe_probe : (s.afterMe n m i).probe = s.probe := rfl
@[simp] theorem afterMe_found : (s.afterMe n m i).found = s.found := rfl
@[simp] theorem afterMe_mark : (s.afterMe n m i).mark = s.mark := rfl
@[simp] theorem afterMe_banks : (s.afterMe n m i).banks = s.banks := rfl
@[simp] theorem afterMe_exBanks : (s.afterMe n m i).exBanks = s.exBanks := rfl
@[simp] theorem afterMe_svc : (s.afterMe n m i).svc = s.svc := rfl
@[simp] theorem afterMe_ports_ : (s.afterMe n m i).ports_ = s.ports_ := rfl
@[simp] theorem afterMe_free : (s.afterMe n m i).free = s.free := rfl
@[simp] theorem afterMe_ctxs : (s.afterMe n m i).ctxs = s.ctxs := rfl
@[simp] theorem afterMe_cores : (s.afterMe n m i).cores = s.cores := rfl
@[simp] theorem afterMe_rowLag : (s.afterMe n m i).rowLag = s.rowLag := rfl
@[simp] theorem afterMe_frames : (s.afterMe n m i).frames = s.frames := rfl
@[simp] theorem afterMe_cmode : (s.afterMe n m i).cmode = s.cmode := rfl
@[simp] theorem afterMe_stack : (s.afterMe n m i).stack = s.stack := rfl
@[simp] theorem afterMe_mem : (s.afterMe n m i).mem = s.mem := rfl
@[simp] theorem afterMe_slots : (s.afterMe n m i).slots = s.slots := rfl
@[simp] theorem afterMe_lines : (s.afterMe n m i).lines = s.lines := rfl
@[simp] theorem afterMe_lineWorld : (s.afterMe n m i).lineWorld = s.lineWorld := rfl
@[simp] theorem afterMe_bad : (s.afterMe n m i).bad = s.bad := rfl
@[simp] theorem afterMe_badMeta : (s.afterMe n m i).badMeta = s.badMeta := rfl
@[simp] theorem afterMe_peels : (s.afterMe n m i).peels = s.peels := rfl
@[simp] theorem afterMe_gtab : (s.afterMe n m i).gtab = s.gtab := rfl
@[simp] theorem afterMe_chans : (s.afterMe n m i).chans = s.chans := rfl
@[simp] theorem afterMe_parts : (s.afterMe n m i).parts = s.parts := rfl
@[simp] theorem afterMe_queues : (s.afterMe n m i).queues = s.queues := rfl
@[simp] theorem afterMe_selected : (s.afterMe n m i).selected = s.selected := rfl
@[simp] theorem afterMe_placed : (s.afterMe n m i).placed = s.placed := rfl
@[simp] theorem afterMe_rr : (s.afterMe n m i).rr = s.rr := rfl
@[simp] theorem afterMe_jobs : (s.afterMe n m i).jobs = s.jobs := rfl
@[simp] theorem afterMe_nextJob : (s.afterMe n m i).nextJob = s.nextJob := rfl
@[simp] theorem afterMe_jobOrder : (s.afterMe n m i).jobOrder = s.jobOrder := rfl
@[simp] theorem afterMe_events : (s.afterMe n m i).events = s.events := rfl
@[simp] theorem afterMe_waitEv : (s.afterMe n m i).waitEv = s.waitEv := rfl
@[simp] theorem afterMe_lateEv : (s.afterMe n m i).lateEv = s.lateEv := rfl
@[simp] theorem afterMe_logKeys : (s.afterMe n m i).logKeys = s.logKeys := rfl
@[simp] theorem afterMe_dropped : (s.afterMe n m i).dropped = s.dropped := rfl
@[simp] theorem afterMe_scrubs : (s.afterMe n m i).scrubs = s.scrubs := rfl
@[simp] theorem afterMe_scrubWait : (s.afterMe n m i).scrubWait = s.scrubWait := rfl
@[simp] theorem afterMe_refused : (s.afterMe n m i).refused = s.refused := rfl
@[simp] theorem afterMe_ranges : (s.afterMe n m i).ranges = s.ranges := rfl
@[simp] theorem afterMe_pages : (s.afterMe n m i).pages = s.pages := rfl
@[simp] theorem afterMe_invals : (s.afterMe n m i).invals = s.invals := rfl
@[simp] theorem afterMe_waiting : (s.afterMe n m i).waiting = s.waiting := rfl
@[simp] theorem afterMe_world : (s.afterMe n m i).world = s.world := rfl
@[simp] theorem afterMe_dedup : (s.afterMe n m i).dedup = s.dedup := rfl
@[simp] theorem afterMe_ports : (s.afterMe n m i).ports = s.ports := rfl
@[simp] theorem afterMe_arrayLog : (s.afterMe n m i).arrayLog = s.arrayLog := rfl
@[simp] theorem afterMe_busLog : (s.afterMe n m i).busLog = s.busLog := rfl
@[simp] theorem afterMe_spadLog : (s.afterMe n m i).spadLog = s.spadLog := rfl
@[simp] theorem afterMe_linkLog : (s.afterMe n m i).linkLog = s.linkLog := rfl
@[simp] theorem afterMe_secLog : (s.afterMe n m i).secLog = s.secLog := rfl
@[simp] theorem afterMe_perf : (s.afterMe n m i).perf = s.perf := rfl
@[simp] theorem afterMe_tickLog2 : (s.afterMe n m i).tickLog2 = s.tickLog2 := rfl
@[simp] theorem afterMe_tickNow : (s.afterMe n m i).tickNow = s.tickNow := rfl
@[simp] theorem afterMe_tickBusy : (s.afterMe n m i).tickBusy = s.tickBusy := rfl
@[simp] theorem afterMe_powerLimit : (s.afterMe n m i).powerLimit = s.powerLimit := rfl
@[simp] theorem afterMe_qmap : (s.afterMe n m i).qmap = s.qmap := rfl
@[simp] theorem afterMe_module : (s.afterMe n m i).module = s.module := rfl
@[simp] theorem afterMe_winMap : (s.afterMe n m i).winMap = s.winMap := rfl
@[simp] theorem afterMe_mrs : (s.afterMe n m i).mrs = s.mrs := rfl
@[simp] theorem afterMe_svn : (s.afterMe n m i).svn = s.svn := rfl
@[simp] theorem afterMe_accepted : (s.afterMe n m i).accepted = s.accepted := rfl
@[simp] theorem afterMe_bootA : (s.afterMe n m i).bootA = s.bootA := rfl
@[simp] theorem afterMe_bootB : (s.afterMe n m i).bootB = s.bootB := rfl
@[simp] theorem afterMe_reloading : (s.afterMe n m i).reloading = s.reloading := rfl
@[simp] theorem afterMe_bootFail : (s.afterMe n m i).bootFail = s.bootFail := rfl
@[simp] theorem afterMe_identity : (s.afterMe n m i).identity = s.identity := rfl
@[simp] theorem afterMe_report : (s.afterMe n m i).report = s.report := rfl
@[simp] theorem afterMe_readBack : (s.afterMe n m i).readBack = s.readBack := rfl
@[simp] theorem afterMe_mailbox : (s.afterMe n m i).mailbox = s.mailbox := rfl
@[simp] theorem afterMe_secBox : (s.afterMe n m i).secBox = s.secBox := rfl
@[simp] theorem afterMe_fromQueue : (s.afterMe n m i).fromQueue = s.fromQueue := rfl
@[simp] theorem afterMe_identityPub : (s.afterMe n m i).identityPub = s.identityPub := rfl
@[simp] theorem afterMe_identityCert : (s.afterMe n m i).identityCert = s.identityCert := rfl
@[simp] theorem afterMe_flowLow : (s.afterMe n m i).flowLow = s.flowLow := rfl
@[simp] theorem afterMe_ctx : (s.afterMe n m i).ctx c2 = s.ctx c2 := rfl
@[simp] theorem afterMe_core : (s.afterMe n m i).core c2 n2 = s.core c2 n2 := rfl
@[simp] theorem afterMe_stackAt : (s.afterMe n m i).stackAt n2 = s.stackAt n2 := rfl
@[simp] theorem afterMe_part : (s.afterMe n m i).part n2 = s.part n2 := rfl
@[simp] theorem afterMe_job : (s.afterMe n m i).job n2 = s.job n2 := rfl
@[simp] theorem afterMe_chan : (s.afterMe n m i).chan n2 = s.chan n2 := rfl
@[simp] theorem afterMe_peel : (s.afterMe n m i).peel n2 = s.peel n2 := rfl
@[simp] theorem afterMe_queue : (s.afterMe n m i).queue n2 = s.queue n2 := rfl
@[simp] theorem afterMe_port : (s.afterMe n m i).port n2 = s.port n2 := rfl
@[simp] theorem afterMe_gent : (s.afterMe n m i).gent n2 = s.gent n2 := rfl
@[simp] theorem afterMe_slot : (s.afterMe n m i).slot n2 = s.slot n2 := rfl
@[simp] theorem afterMe_line : (s.afterMe n m i).line n2 = s.line n2 := rfl
@[simp] theorem afterMe_ring : (s.afterMe n m i).ring m2 n2 = s.ring m2 n2 := rfl
@[simp] theorem afterMe_perfAt : (s.afterMe n m i).perfAt n2 = s.perfAt n2 := rfl
@[simp] theorem afterMe_byte : (s.afterMe n m i).byte a2 = s.byte a2 := rfl
@[simp] theorem afterMe_load : (s.afterMe n m i).load a2 n2 = s.load a2 n2 := rfl
@[simp] theorem afterMe_me : (s.afterMe n m i).me = s.me := rfl
@[simp] theorem afterMe_myCtx : (s.afterMe n m i).myCtx = s.myCtx := rfl
@[simp] theorem afterMe_clk : (s.afterMe n m i).clk = s.clk := rfl

@[simp] theorem repost_now : (s.repost k n m i).now = s.now := rfl
@[simp] theorem repost_cycleBase : (s.repost k n m i).cycleBase = s.cycleBase := rfl
@[simp] theorem repost_cur : (s.repost k n m i).cur = s.cur := rfl
@[simp] theorem repost_arg : (s.repost k n m i).arg = s.arg := rfl
@[simp] theorem repost_ord : (s.repost k n m i).ord = s.ord := rfl
@[simp] theorem repost_checked : (s.repost k n m i).checked = s.checked := rfl
@[simp] theorem repost_probe : (s.repost k n m i).probe = s.probe := rfl
@[simp] theorem repost_found : (s.repost k n m i).found = s.found := rfl
@[simp] theorem repost_nextId : (s.repost k n m i).nextId = s.nextId := rfl
@[simp] theorem repost_mark : (s.repost k n m i).mark = s.mark := rfl
@[simp] theorem repost_banks : (s.repost k n m i).banks = s.banks := rfl
@[simp] theorem repost_exBanks : (s.repost k n m i).exBanks = s.exBanks := rfl
@[simp] theorem repost_svc : (s.repost k n m i).svc = s.svc := rfl
@[simp] theorem repost_ports_ : (s.repost k n m i).ports_ = s.ports_ := rfl
@[simp] theorem repost_free : (s.repost k n m i).free = s.free := rfl
@[simp] theorem repost_ctxs : (s.repost k n m i).ctxs = s.ctxs := rfl
@[simp] theorem repost_cores : (s.repost k n m i).cores = s.cores := rfl
@[simp] theorem repost_rowLag : (s.repost k n m i).rowLag = s.rowLag := rfl
@[simp] theorem repost_frames : (s.repost k n m i).frames = s.frames := rfl
@[simp] theorem repost_cmode : (s.repost k n m i).cmode = s.cmode := rfl
@[simp] theorem repost_stack : (s.repost k n m i).stack = s.stack := rfl
@[simp] theorem repost_mem : (s.repost k n m i).mem = s.mem := rfl
@[simp] theorem repost_slots : (s.repost k n m i).slots = s.slots := rfl
@[simp] theorem repost_lines : (s.repost k n m i).lines = s.lines := rfl
@[simp] theorem repost_lineWorld : (s.repost k n m i).lineWorld = s.lineWorld := rfl
@[simp] theorem repost_bad : (s.repost k n m i).bad = s.bad := rfl
@[simp] theorem repost_badMeta : (s.repost k n m i).badMeta = s.badMeta := rfl
@[simp] theorem repost_peels : (s.repost k n m i).peels = s.peels := rfl
@[simp] theorem repost_gtab : (s.repost k n m i).gtab = s.gtab := rfl
@[simp] theorem repost_chans : (s.repost k n m i).chans = s.chans := rfl
@[simp] theorem repost_parts : (s.repost k n m i).parts = s.parts := rfl
@[simp] theorem repost_queues : (s.repost k n m i).queues = s.queues := rfl
@[simp] theorem repost_selected : (s.repost k n m i).selected = s.selected := rfl
@[simp] theorem repost_placed : (s.repost k n m i).placed = s.placed := rfl
@[simp] theorem repost_rr : (s.repost k n m i).rr = s.rr := rfl
@[simp] theorem repost_jobs : (s.repost k n m i).jobs = s.jobs := rfl
@[simp] theorem repost_nextJob : (s.repost k n m i).nextJob = s.nextJob := rfl
@[simp] theorem repost_jobOrder : (s.repost k n m i).jobOrder = s.jobOrder := rfl
@[simp] theorem repost_events : (s.repost k n m i).events = s.events := rfl
@[simp] theorem repost_waitEv : (s.repost k n m i).waitEv = s.waitEv := rfl
@[simp] theorem repost_lateEv : (s.repost k n m i).lateEv = s.lateEv := rfl
@[simp] theorem repost_logKeys : (s.repost k n m i).logKeys = s.logKeys := rfl
@[simp] theorem repost_dropped : (s.repost k n m i).dropped = s.dropped := rfl
@[simp] theorem repost_scrubs : (s.repost k n m i).scrubs = s.scrubs := rfl
@[simp] theorem repost_scrubWait : (s.repost k n m i).scrubWait = s.scrubWait := rfl
@[simp] theorem repost_refused : (s.repost k n m i).refused = s.refused := rfl
@[simp] theorem repost_ranges : (s.repost k n m i).ranges = s.ranges := rfl
@[simp] theorem repost_pages : (s.repost k n m i).pages = s.pages := rfl
@[simp] theorem repost_invals : (s.repost k n m i).invals = s.invals := rfl
@[simp] theorem repost_waiting : (s.repost k n m i).waiting = s.waiting := rfl
@[simp] theorem repost_world : (s.repost k n m i).world = s.world := rfl
@[simp] theorem repost_dedup : (s.repost k n m i).dedup = s.dedup := rfl
@[simp] theorem repost_ports : (s.repost k n m i).ports = s.ports := rfl
@[simp] theorem repost_arrayLog : (s.repost k n m i).arrayLog = s.arrayLog := rfl
@[simp] theorem repost_busLog : (s.repost k n m i).busLog = s.busLog := rfl
@[simp] theorem repost_spadLog : (s.repost k n m i).spadLog = s.spadLog := rfl
@[simp] theorem repost_linkLog : (s.repost k n m i).linkLog = s.linkLog := rfl
@[simp] theorem repost_secLog : (s.repost k n m i).secLog = s.secLog := rfl
@[simp] theorem repost_perf : (s.repost k n m i).perf = s.perf := rfl
@[simp] theorem repost_tickLog2 : (s.repost k n m i).tickLog2 = s.tickLog2 := rfl
@[simp] theorem repost_tickNow : (s.repost k n m i).tickNow = s.tickNow := rfl
@[simp] theorem repost_tickBusy : (s.repost k n m i).tickBusy = s.tickBusy := rfl
@[simp] theorem repost_powerLimit : (s.repost k n m i).powerLimit = s.powerLimit := rfl
@[simp] theorem repost_qmap : (s.repost k n m i).qmap = s.qmap := rfl
@[simp] theorem repost_module : (s.repost k n m i).module = s.module := rfl
@[simp] theorem repost_winMap : (s.repost k n m i).winMap = s.winMap := rfl
@[simp] theorem repost_mrs : (s.repost k n m i).mrs = s.mrs := rfl
@[simp] theorem repost_svn : (s.repost k n m i).svn = s.svn := rfl
@[simp] theorem repost_accepted : (s.repost k n m i).accepted = s.accepted := rfl
@[simp] theorem repost_bootA : (s.repost k n m i).bootA = s.bootA := rfl
@[simp] theorem repost_bootB : (s.repost k n m i).bootB = s.bootB := rfl
@[simp] theorem repost_reloading : (s.repost k n m i).reloading = s.reloading := rfl
@[simp] theorem repost_bootFail : (s.repost k n m i).bootFail = s.bootFail := rfl
@[simp] theorem repost_identity : (s.repost k n m i).identity = s.identity := rfl
@[simp] theorem repost_report : (s.repost k n m i).report = s.report := rfl
@[simp] theorem repost_readBack : (s.repost k n m i).readBack = s.readBack := rfl
@[simp] theorem repost_mailbox : (s.repost k n m i).mailbox = s.mailbox := rfl
@[simp] theorem repost_secBox : (s.repost k n m i).secBox = s.secBox := rfl
@[simp] theorem repost_fromQueue : (s.repost k n m i).fromQueue = s.fromQueue := rfl
@[simp] theorem repost_identityPub : (s.repost k n m i).identityPub = s.identityPub := rfl
@[simp] theorem repost_identityCert : (s.repost k n m i).identityCert = s.identityCert := rfl
@[simp] theorem repost_flowLow : (s.repost k n m i).flowLow = s.flowLow := rfl
@[simp] theorem repost_ctx : (s.repost k n m i).ctx c2 = s.ctx c2 := rfl
@[simp] theorem repost_core : (s.repost k n m i).core c2 n2 = s.core c2 n2 := rfl
@[simp] theorem repost_stackAt : (s.repost k n m i).stackAt n2 = s.stackAt n2 := rfl
@[simp] theorem repost_part : (s.repost k n m i).part n2 = s.part n2 := rfl
@[simp] theorem repost_job : (s.repost k n m i).job n2 = s.job n2 := rfl
@[simp] theorem repost_chan : (s.repost k n m i).chan n2 = s.chan n2 := rfl
@[simp] theorem repost_peel : (s.repost k n m i).peel n2 = s.peel n2 := rfl
@[simp] theorem repost_queue : (s.repost k n m i).queue n2 = s.queue n2 := rfl
@[simp] theorem repost_port : (s.repost k n m i).port n2 = s.port n2 := rfl
@[simp] theorem repost_gent : (s.repost k n m i).gent n2 = s.gent n2 := rfl
@[simp] theorem repost_slot : (s.repost k n m i).slot n2 = s.slot n2 := rfl
@[simp] theorem repost_line : (s.repost k n m i).line n2 = s.line n2 := rfl
@[simp] theorem repost_ring : (s.repost k n m i).ring m2 n2 = s.ring m2 n2 := rfl
@[simp] theorem repost_perfAt : (s.repost k n m i).perfAt n2 = s.perfAt n2 := rfl
@[simp] theorem repost_byte : (s.repost k n m i).byte a2 = s.byte a2 := rfl
@[simp] theorem repost_load : (s.repost k n m i).load a2 n2 = s.load a2 n2 := rfl
@[simp] theorem repost_me : (s.repost k n m i).me = s.me := rfl
@[simp] theorem repost_myCtx : (s.repost k n m i).myCtx = s.myCtx := rfl
@[simp] theorem repost_clk : (s.repost k n m i).clk = s.clk := rfl

@[simp] theorem repostMe_now : (s.repostMe n m i).now = s.now := rfl
@[simp] theorem repostMe_cycleBase : (s.repostMe n m i).cycleBase = s.cycleBase := rfl
@[simp] theorem repostMe_cur : (s.repostMe n m i).cur = s.cur := rfl
@[simp] theorem repostMe_arg : (s.repostMe n m i).arg = s.arg := rfl
@[simp] theorem repostMe_ord : (s.repostMe n m i).ord = s.ord := rfl
@[simp] theorem repostMe_checked : (s.repostMe n m i).checked = s.checked := rfl
@[simp] theorem repostMe_probe : (s.repostMe n m i).probe = s.probe := rfl
@[simp] theorem repostMe_found : (s.repostMe n m i).found = s.found := rfl
@[simp] theorem repostMe_nextId : (s.repostMe n m i).nextId = s.nextId := rfl
@[simp] theorem repostMe_mark : (s.repostMe n m i).mark = s.mark := rfl
@[simp] theorem repostMe_banks : (s.repostMe n m i).banks = s.banks := rfl
@[simp] theorem repostMe_exBanks : (s.repostMe n m i).exBanks = s.exBanks := rfl
@[simp] theorem repostMe_svc : (s.repostMe n m i).svc = s.svc := rfl
@[simp] theorem repostMe_ports_ : (s.repostMe n m i).ports_ = s.ports_ := rfl
@[simp] theorem repostMe_free : (s.repostMe n m i).free = s.free := rfl
@[simp] theorem repostMe_ctxs : (s.repostMe n m i).ctxs = s.ctxs := rfl
@[simp] theorem repostMe_cores : (s.repostMe n m i).cores = s.cores := rfl
@[simp] theorem repostMe_rowLag : (s.repostMe n m i).rowLag = s.rowLag := rfl
@[simp] theorem repostMe_frames : (s.repostMe n m i).frames = s.frames := rfl
@[simp] theorem repostMe_cmode : (s.repostMe n m i).cmode = s.cmode := rfl
@[simp] theorem repostMe_stack : (s.repostMe n m i).stack = s.stack := rfl
@[simp] theorem repostMe_mem : (s.repostMe n m i).mem = s.mem := rfl
@[simp] theorem repostMe_slots : (s.repostMe n m i).slots = s.slots := rfl
@[simp] theorem repostMe_lines : (s.repostMe n m i).lines = s.lines := rfl
@[simp] theorem repostMe_lineWorld : (s.repostMe n m i).lineWorld = s.lineWorld := rfl
@[simp] theorem repostMe_bad : (s.repostMe n m i).bad = s.bad := rfl
@[simp] theorem repostMe_badMeta : (s.repostMe n m i).badMeta = s.badMeta := rfl
@[simp] theorem repostMe_peels : (s.repostMe n m i).peels = s.peels := rfl
@[simp] theorem repostMe_gtab : (s.repostMe n m i).gtab = s.gtab := rfl
@[simp] theorem repostMe_chans : (s.repostMe n m i).chans = s.chans := rfl
@[simp] theorem repostMe_parts : (s.repostMe n m i).parts = s.parts := rfl
@[simp] theorem repostMe_queues : (s.repostMe n m i).queues = s.queues := rfl
@[simp] theorem repostMe_selected : (s.repostMe n m i).selected = s.selected := rfl
@[simp] theorem repostMe_placed : (s.repostMe n m i).placed = s.placed := rfl
@[simp] theorem repostMe_rr : (s.repostMe n m i).rr = s.rr := rfl
@[simp] theorem repostMe_jobs : (s.repostMe n m i).jobs = s.jobs := rfl
@[simp] theorem repostMe_nextJob : (s.repostMe n m i).nextJob = s.nextJob := rfl
@[simp] theorem repostMe_jobOrder : (s.repostMe n m i).jobOrder = s.jobOrder := rfl
@[simp] theorem repostMe_events : (s.repostMe n m i).events = s.events := rfl
@[simp] theorem repostMe_waitEv : (s.repostMe n m i).waitEv = s.waitEv := rfl
@[simp] theorem repostMe_lateEv : (s.repostMe n m i).lateEv = s.lateEv := rfl
@[simp] theorem repostMe_logKeys : (s.repostMe n m i).logKeys = s.logKeys := rfl
@[simp] theorem repostMe_dropped : (s.repostMe n m i).dropped = s.dropped := rfl
@[simp] theorem repostMe_scrubs : (s.repostMe n m i).scrubs = s.scrubs := rfl
@[simp] theorem repostMe_scrubWait : (s.repostMe n m i).scrubWait = s.scrubWait := rfl
@[simp] theorem repostMe_refused : (s.repostMe n m i).refused = s.refused := rfl
@[simp] theorem repostMe_ranges : (s.repostMe n m i).ranges = s.ranges := rfl
@[simp] theorem repostMe_pages : (s.repostMe n m i).pages = s.pages := rfl
@[simp] theorem repostMe_invals : (s.repostMe n m i).invals = s.invals := rfl
@[simp] theorem repostMe_waiting : (s.repostMe n m i).waiting = s.waiting := rfl
@[simp] theorem repostMe_world : (s.repostMe n m i).world = s.world := rfl
@[simp] theorem repostMe_dedup : (s.repostMe n m i).dedup = s.dedup := rfl
@[simp] theorem repostMe_ports : (s.repostMe n m i).ports = s.ports := rfl
@[simp] theorem repostMe_arrayLog : (s.repostMe n m i).arrayLog = s.arrayLog := rfl
@[simp] theorem repostMe_busLog : (s.repostMe n m i).busLog = s.busLog := rfl
@[simp] theorem repostMe_spadLog : (s.repostMe n m i).spadLog = s.spadLog := rfl
@[simp] theorem repostMe_linkLog : (s.repostMe n m i).linkLog = s.linkLog := rfl
@[simp] theorem repostMe_secLog : (s.repostMe n m i).secLog = s.secLog := rfl
@[simp] theorem repostMe_perf : (s.repostMe n m i).perf = s.perf := rfl
@[simp] theorem repostMe_tickLog2 : (s.repostMe n m i).tickLog2 = s.tickLog2 := rfl
@[simp] theorem repostMe_tickNow : (s.repostMe n m i).tickNow = s.tickNow := rfl
@[simp] theorem repostMe_tickBusy : (s.repostMe n m i).tickBusy = s.tickBusy := rfl
@[simp] theorem repostMe_powerLimit : (s.repostMe n m i).powerLimit = s.powerLimit := rfl
@[simp] theorem repostMe_qmap : (s.repostMe n m i).qmap = s.qmap := rfl
@[simp] theorem repostMe_module : (s.repostMe n m i).module = s.module := rfl
@[simp] theorem repostMe_winMap : (s.repostMe n m i).winMap = s.winMap := rfl
@[simp] theorem repostMe_mrs : (s.repostMe n m i).mrs = s.mrs := rfl
@[simp] theorem repostMe_svn : (s.repostMe n m i).svn = s.svn := rfl
@[simp] theorem repostMe_accepted : (s.repostMe n m i).accepted = s.accepted := rfl
@[simp] theorem repostMe_bootA : (s.repostMe n m i).bootA = s.bootA := rfl
@[simp] theorem repostMe_bootB : (s.repostMe n m i).bootB = s.bootB := rfl
@[simp] theorem repostMe_reloading : (s.repostMe n m i).reloading = s.reloading := rfl
@[simp] theorem repostMe_bootFail : (s.repostMe n m i).bootFail = s.bootFail := rfl
@[simp] theorem repostMe_identity : (s.repostMe n m i).identity = s.identity := rfl
@[simp] theorem repostMe_report : (s.repostMe n m i).report = s.report := rfl
@[simp] theorem repostMe_readBack : (s.repostMe n m i).readBack = s.readBack := rfl
@[simp] theorem repostMe_mailbox : (s.repostMe n m i).mailbox = s.mailbox := rfl
@[simp] theorem repostMe_secBox : (s.repostMe n m i).secBox = s.secBox := rfl
@[simp] theorem repostMe_fromQueue : (s.repostMe n m i).fromQueue = s.fromQueue := rfl
@[simp] theorem repostMe_identityPub : (s.repostMe n m i).identityPub = s.identityPub := rfl
@[simp] theorem repostMe_identityCert : (s.repostMe n m i).identityCert = s.identityCert := rfl
@[simp] theorem repostMe_flowLow : (s.repostMe n m i).flowLow = s.flowLow := rfl
@[simp] theorem repostMe_ctx : (s.repostMe n m i).ctx c2 = s.ctx c2 := rfl
@[simp] theorem repostMe_core : (s.repostMe n m i).core c2 n2 = s.core c2 n2 := rfl
@[simp] theorem repostMe_stackAt : (s.repostMe n m i).stackAt n2 = s.stackAt n2 := rfl
@[simp] theorem repostMe_part : (s.repostMe n m i).part n2 = s.part n2 := rfl
@[simp] theorem repostMe_job : (s.repostMe n m i).job n2 = s.job n2 := rfl
@[simp] theorem repostMe_chan : (s.repostMe n m i).chan n2 = s.chan n2 := rfl
@[simp] theorem repostMe_peel : (s.repostMe n m i).peel n2 = s.peel n2 := rfl
@[simp] theorem repostMe_queue : (s.repostMe n m i).queue n2 = s.queue n2 := rfl
@[simp] theorem repostMe_port : (s.repostMe n m i).port n2 = s.port n2 := rfl
@[simp] theorem repostMe_gent : (s.repostMe n m i).gent n2 = s.gent n2 := rfl
@[simp] theorem repostMe_slot : (s.repostMe n m i).slot n2 = s.slot n2 := rfl
@[simp] theorem repostMe_line : (s.repostMe n m i).line n2 = s.line n2 := rfl
@[simp] theorem repostMe_ring : (s.repostMe n m i).ring m2 n2 = s.ring m2 n2 := rfl
@[simp] theorem repostMe_perfAt : (s.repostMe n m i).perfAt n2 = s.perfAt n2 := rfl
@[simp] theorem repostMe_byte : (s.repostMe n m i).byte a2 = s.byte a2 := rfl
@[simp] theorem repostMe_load : (s.repostMe n m i).load a2 n2 = s.load a2 n2 := rfl
@[simp] theorem repostMe_me : (s.repostMe n m i).me = s.me := rfl
@[simp] theorem repostMe_myCtx : (s.repostMe n m i).myCtx = s.myCtx := rfl
@[simp] theorem repostMe_clk : (s.repostMe n m i).clk = s.clk := rfl

@[simp] theorem landId_now : (s.landId m n ws fl).now = s.now := rfl
@[simp] theorem landId_cycleBase : (s.landId m n ws fl).cycleBase = s.cycleBase := rfl
@[simp] theorem landId_cur : (s.landId m n ws fl).cur = s.cur := rfl
@[simp] theorem landId_arg : (s.landId m n ws fl).arg = s.arg := rfl
@[simp] theorem landId_ord : (s.landId m n ws fl).ord = s.ord := rfl
@[simp] theorem landId_checked : (s.landId m n ws fl).checked = s.checked := rfl
@[simp] theorem landId_probe : (s.landId m n ws fl).probe = s.probe := rfl
@[simp] theorem landId_found : (s.landId m n ws fl).found = s.found := rfl
@[simp] theorem landId_mark : (s.landId m n ws fl).mark = s.mark := rfl
@[simp] theorem landId_banks : (s.landId m n ws fl).banks = s.banks := rfl
@[simp] theorem landId_exBanks : (s.landId m n ws fl).exBanks = s.exBanks := rfl
@[simp] theorem landId_svc : (s.landId m n ws fl).svc = s.svc := rfl
@[simp] theorem landId_ports_ : (s.landId m n ws fl).ports_ = s.ports_ := rfl
@[simp] theorem landId_free : (s.landId m n ws fl).free = s.free := rfl
@[simp] theorem landId_ctxs : (s.landId m n ws fl).ctxs = s.ctxs := rfl
@[simp] theorem landId_cores : (s.landId m n ws fl).cores = s.cores := rfl
@[simp] theorem landId_rowLag : (s.landId m n ws fl).rowLag = s.rowLag := rfl
@[simp] theorem landId_frames : (s.landId m n ws fl).frames = s.frames := rfl
@[simp] theorem landId_cmode : (s.landId m n ws fl).cmode = s.cmode := rfl
@[simp] theorem landId_stack : (s.landId m n ws fl).stack = s.stack := rfl
@[simp] theorem landId_mem : (s.landId m n ws fl).mem = s.mem := rfl
@[simp] theorem landId_slots : (s.landId m n ws fl).slots = s.slots := rfl
@[simp] theorem landId_lines : (s.landId m n ws fl).lines = s.lines := rfl
@[simp] theorem landId_lineWorld : (s.landId m n ws fl).lineWorld = s.lineWorld := rfl
@[simp] theorem landId_bad : (s.landId m n ws fl).bad = s.bad := rfl
@[simp] theorem landId_badMeta : (s.landId m n ws fl).badMeta = s.badMeta := rfl
@[simp] theorem landId_peels : (s.landId m n ws fl).peels = s.peels := rfl
@[simp] theorem landId_gtab : (s.landId m n ws fl).gtab = s.gtab := rfl
@[simp] theorem landId_chans : (s.landId m n ws fl).chans = s.chans := rfl
@[simp] theorem landId_parts : (s.landId m n ws fl).parts = s.parts := rfl
@[simp] theorem landId_queues : (s.landId m n ws fl).queues = s.queues := rfl
@[simp] theorem landId_selected : (s.landId m n ws fl).selected = s.selected := rfl
@[simp] theorem landId_placed : (s.landId m n ws fl).placed = s.placed := rfl
@[simp] theorem landId_rr : (s.landId m n ws fl).rr = s.rr := rfl
@[simp] theorem landId_jobs : (s.landId m n ws fl).jobs = s.jobs := rfl
@[simp] theorem landId_nextJob : (s.landId m n ws fl).nextJob = s.nextJob := rfl
@[simp] theorem landId_jobOrder : (s.landId m n ws fl).jobOrder = s.jobOrder := rfl
@[simp] theorem landId_events : (s.landId m n ws fl).events = s.events := rfl
@[simp] theorem landId_waitEv : (s.landId m n ws fl).waitEv = s.waitEv := rfl
@[simp] theorem landId_lateEv : (s.landId m n ws fl).lateEv = s.lateEv := rfl
@[simp] theorem landId_logKeys : (s.landId m n ws fl).logKeys = s.logKeys := rfl
@[simp] theorem landId_dropped : (s.landId m n ws fl).dropped = s.dropped := rfl
@[simp] theorem landId_scrubs : (s.landId m n ws fl).scrubs = s.scrubs := rfl
@[simp] theorem landId_scrubWait : (s.landId m n ws fl).scrubWait = s.scrubWait := rfl
@[simp] theorem landId_refused : (s.landId m n ws fl).refused = s.refused := rfl
@[simp] theorem landId_ranges : (s.landId m n ws fl).ranges = s.ranges := rfl
@[simp] theorem landId_pages : (s.landId m n ws fl).pages = s.pages := rfl
@[simp] theorem landId_invals : (s.landId m n ws fl).invals = s.invals := rfl
@[simp] theorem landId_waiting : (s.landId m n ws fl).waiting = s.waiting := rfl
@[simp] theorem landId_world : (s.landId m n ws fl).world = s.world := rfl
@[simp] theorem landId_dedup : (s.landId m n ws fl).dedup = s.dedup := rfl
@[simp] theorem landId_ports : (s.landId m n ws fl).ports = s.ports := rfl
@[simp] theorem landId_arrayLog : (s.landId m n ws fl).arrayLog = s.arrayLog := rfl
@[simp] theorem landId_busLog : (s.landId m n ws fl).busLog = s.busLog := rfl
@[simp] theorem landId_spadLog : (s.landId m n ws fl).spadLog = s.spadLog := rfl
@[simp] theorem landId_linkLog : (s.landId m n ws fl).linkLog = s.linkLog := rfl
@[simp] theorem landId_secLog : (s.landId m n ws fl).secLog = s.secLog := rfl
@[simp] theorem landId_perf : (s.landId m n ws fl).perf = s.perf := rfl
@[simp] theorem landId_tickLog2 : (s.landId m n ws fl).tickLog2 = s.tickLog2 := rfl
@[simp] theorem landId_tickNow : (s.landId m n ws fl).tickNow = s.tickNow := rfl
@[simp] theorem landId_tickBusy : (s.landId m n ws fl).tickBusy = s.tickBusy := rfl
@[simp] theorem landId_powerLimit : (s.landId m n ws fl).powerLimit = s.powerLimit := rfl
@[simp] theorem landId_qmap : (s.landId m n ws fl).qmap = s.qmap := rfl
@[simp] theorem landId_module : (s.landId m n ws fl).module = s.module := rfl
@[simp] theorem landId_winMap : (s.landId m n ws fl).winMap = s.winMap := rfl
@[simp] theorem landId_mrs : (s.landId m n ws fl).mrs = s.mrs := rfl
@[simp] theorem landId_svn : (s.landId m n ws fl).svn = s.svn := rfl
@[simp] theorem landId_accepted : (s.landId m n ws fl).accepted = s.accepted := rfl
@[simp] theorem landId_bootA : (s.landId m n ws fl).bootA = s.bootA := rfl
@[simp] theorem landId_bootB : (s.landId m n ws fl).bootB = s.bootB := rfl
@[simp] theorem landId_reloading : (s.landId m n ws fl).reloading = s.reloading := rfl
@[simp] theorem landId_bootFail : (s.landId m n ws fl).bootFail = s.bootFail := rfl
@[simp] theorem landId_identity : (s.landId m n ws fl).identity = s.identity := rfl
@[simp] theorem landId_report : (s.landId m n ws fl).report = s.report := rfl
@[simp] theorem landId_readBack : (s.landId m n ws fl).readBack = s.readBack := rfl
@[simp] theorem landId_mailbox : (s.landId m n ws fl).mailbox = s.mailbox := rfl
@[simp] theorem landId_secBox : (s.landId m n ws fl).secBox = s.secBox := rfl
@[simp] theorem landId_fromQueue : (s.landId m n ws fl).fromQueue = s.fromQueue := rfl
@[simp] theorem landId_identityPub : (s.landId m n ws fl).identityPub = s.identityPub := rfl
@[simp] theorem landId_identityCert : (s.landId m n ws fl).identityCert = s.identityCert := rfl
@[simp] theorem landId_flowLow : (s.landId m n ws fl).flowLow = s.flowLow := rfl
@[simp] theorem landId_ctx : (s.landId m n ws fl).ctx c2 = s.ctx c2 := rfl
@[simp] theorem landId_core : (s.landId m n ws fl).core c2 n2 = s.core c2 n2 := rfl
@[simp] theorem landId_stackAt : (s.landId m n ws fl).stackAt n2 = s.stackAt n2 := rfl
@[simp] theorem landId_part : (s.landId m n ws fl).part n2 = s.part n2 := rfl
@[simp] theorem landId_job : (s.landId m n ws fl).job n2 = s.job n2 := rfl
@[simp] theorem landId_chan : (s.landId m n ws fl).chan n2 = s.chan n2 := rfl
@[simp] theorem landId_peel : (s.landId m n ws fl).peel n2 = s.peel n2 := rfl
@[simp] theorem landId_queue : (s.landId m n ws fl).queue n2 = s.queue n2 := rfl
@[simp] theorem landId_port : (s.landId m n ws fl).port n2 = s.port n2 := rfl
@[simp] theorem landId_gent : (s.landId m n ws fl).gent n2 = s.gent n2 := rfl
@[simp] theorem landId_slot : (s.landId m n ws fl).slot n2 = s.slot n2 := rfl
@[simp] theorem landId_line : (s.landId m n ws fl).line n2 = s.line n2 := rfl
@[simp] theorem landId_ring : (s.landId m n ws fl).ring m2 n2 = s.ring m2 n2 := rfl
@[simp] theorem landId_perfAt : (s.landId m n ws fl).perfAt n2 = s.perfAt n2 := rfl
@[simp] theorem landId_byte : (s.landId m n ws fl).byte a2 = s.byte a2 := rfl
@[simp] theorem landId_load : (s.landId m n ws fl).load a2 n2 = s.load a2 n2 := rfl
@[simp] theorem landId_me : (s.landId m n ws fl).me = s.me := rfl
@[simp] theorem landId_myCtx : (s.landId m n ws fl).myCtx = s.myCtx := rfl
@[simp] theorem landId_clk : (s.landId m n ws fl).clk = s.clk := rfl

@[simp] theorem land_now : (s.land n ws fl).now = s.now := rfl
@[simp] theorem land_cycleBase : (s.land n ws fl).cycleBase = s.cycleBase := rfl
@[simp] theorem land_cur : (s.land n ws fl).cur = s.cur := rfl
@[simp] theorem land_arg : (s.land n ws fl).arg = s.arg := rfl
@[simp] theorem land_ord : (s.land n ws fl).ord = s.ord := rfl
@[simp] theorem land_checked : (s.land n ws fl).checked = s.checked := rfl
@[simp] theorem land_probe : (s.land n ws fl).probe = s.probe := rfl
@[simp] theorem land_found : (s.land n ws fl).found = s.found := rfl
@[simp] theorem land_mark : (s.land n ws fl).mark = s.mark := rfl
@[simp] theorem land_banks : (s.land n ws fl).banks = s.banks := rfl
@[simp] theorem land_exBanks : (s.land n ws fl).exBanks = s.exBanks := rfl
@[simp] theorem land_svc : (s.land n ws fl).svc = s.svc := rfl
@[simp] theorem land_ports_ : (s.land n ws fl).ports_ = s.ports_ := rfl
@[simp] theorem land_free : (s.land n ws fl).free = s.free := rfl
@[simp] theorem land_ctxs : (s.land n ws fl).ctxs = s.ctxs := rfl
@[simp] theorem land_cores : (s.land n ws fl).cores = s.cores := rfl
@[simp] theorem land_rowLag : (s.land n ws fl).rowLag = s.rowLag := rfl
@[simp] theorem land_frames : (s.land n ws fl).frames = s.frames := rfl
@[simp] theorem land_cmode : (s.land n ws fl).cmode = s.cmode := rfl
@[simp] theorem land_stack : (s.land n ws fl).stack = s.stack := rfl
@[simp] theorem land_mem : (s.land n ws fl).mem = s.mem := rfl
@[simp] theorem land_slots : (s.land n ws fl).slots = s.slots := rfl
@[simp] theorem land_lines : (s.land n ws fl).lines = s.lines := rfl
@[simp] theorem land_lineWorld : (s.land n ws fl).lineWorld = s.lineWorld := rfl
@[simp] theorem land_bad : (s.land n ws fl).bad = s.bad := rfl
@[simp] theorem land_badMeta : (s.land n ws fl).badMeta = s.badMeta := rfl
@[simp] theorem land_peels : (s.land n ws fl).peels = s.peels := rfl
@[simp] theorem land_gtab : (s.land n ws fl).gtab = s.gtab := rfl
@[simp] theorem land_chans : (s.land n ws fl).chans = s.chans := rfl
@[simp] theorem land_parts : (s.land n ws fl).parts = s.parts := rfl
@[simp] theorem land_queues : (s.land n ws fl).queues = s.queues := rfl
@[simp] theorem land_selected : (s.land n ws fl).selected = s.selected := rfl
@[simp] theorem land_placed : (s.land n ws fl).placed = s.placed := rfl
@[simp] theorem land_rr : (s.land n ws fl).rr = s.rr := rfl
@[simp] theorem land_jobs : (s.land n ws fl).jobs = s.jobs := rfl
@[simp] theorem land_nextJob : (s.land n ws fl).nextJob = s.nextJob := rfl
@[simp] theorem land_jobOrder : (s.land n ws fl).jobOrder = s.jobOrder := rfl
@[simp] theorem land_events : (s.land n ws fl).events = s.events := rfl
@[simp] theorem land_waitEv : (s.land n ws fl).waitEv = s.waitEv := rfl
@[simp] theorem land_lateEv : (s.land n ws fl).lateEv = s.lateEv := rfl
@[simp] theorem land_logKeys : (s.land n ws fl).logKeys = s.logKeys := rfl
@[simp] theorem land_dropped : (s.land n ws fl).dropped = s.dropped := rfl
@[simp] theorem land_scrubs : (s.land n ws fl).scrubs = s.scrubs := rfl
@[simp] theorem land_scrubWait : (s.land n ws fl).scrubWait = s.scrubWait := rfl
@[simp] theorem land_refused : (s.land n ws fl).refused = s.refused := rfl
@[simp] theorem land_ranges : (s.land n ws fl).ranges = s.ranges := rfl
@[simp] theorem land_pages : (s.land n ws fl).pages = s.pages := rfl
@[simp] theorem land_invals : (s.land n ws fl).invals = s.invals := rfl
@[simp] theorem land_waiting : (s.land n ws fl).waiting = s.waiting := rfl
@[simp] theorem land_world : (s.land n ws fl).world = s.world := rfl
@[simp] theorem land_dedup : (s.land n ws fl).dedup = s.dedup := rfl
@[simp] theorem land_ports : (s.land n ws fl).ports = s.ports := rfl
@[simp] theorem land_arrayLog : (s.land n ws fl).arrayLog = s.arrayLog := rfl
@[simp] theorem land_busLog : (s.land n ws fl).busLog = s.busLog := rfl
@[simp] theorem land_spadLog : (s.land n ws fl).spadLog = s.spadLog := rfl
@[simp] theorem land_linkLog : (s.land n ws fl).linkLog = s.linkLog := rfl
@[simp] theorem land_secLog : (s.land n ws fl).secLog = s.secLog := rfl
@[simp] theorem land_perf : (s.land n ws fl).perf = s.perf := rfl
@[simp] theorem land_tickLog2 : (s.land n ws fl).tickLog2 = s.tickLog2 := rfl
@[simp] theorem land_tickNow : (s.land n ws fl).tickNow = s.tickNow := rfl
@[simp] theorem land_tickBusy : (s.land n ws fl).tickBusy = s.tickBusy := rfl
@[simp] theorem land_powerLimit : (s.land n ws fl).powerLimit = s.powerLimit := rfl
@[simp] theorem land_qmap : (s.land n ws fl).qmap = s.qmap := rfl
@[simp] theorem land_module : (s.land n ws fl).module = s.module := rfl
@[simp] theorem land_winMap : (s.land n ws fl).winMap = s.winMap := rfl
@[simp] theorem land_mrs : (s.land n ws fl).mrs = s.mrs := rfl
@[simp] theorem land_svn : (s.land n ws fl).svn = s.svn := rfl
@[simp] theorem land_accepted : (s.land n ws fl).accepted = s.accepted := rfl
@[simp] theorem land_bootA : (s.land n ws fl).bootA = s.bootA := rfl
@[simp] theorem land_bootB : (s.land n ws fl).bootB = s.bootB := rfl
@[simp] theorem land_reloading : (s.land n ws fl).reloading = s.reloading := rfl
@[simp] theorem land_bootFail : (s.land n ws fl).bootFail = s.bootFail := rfl
@[simp] theorem land_identity : (s.land n ws fl).identity = s.identity := rfl
@[simp] theorem land_report : (s.land n ws fl).report = s.report := rfl
@[simp] theorem land_readBack : (s.land n ws fl).readBack = s.readBack := rfl
@[simp] theorem land_mailbox : (s.land n ws fl).mailbox = s.mailbox := rfl
@[simp] theorem land_secBox : (s.land n ws fl).secBox = s.secBox := rfl
@[simp] theorem land_fromQueue : (s.land n ws fl).fromQueue = s.fromQueue := rfl
@[simp] theorem land_identityPub : (s.land n ws fl).identityPub = s.identityPub := rfl
@[simp] theorem land_identityCert : (s.land n ws fl).identityCert = s.identityCert := rfl
@[simp] theorem land_flowLow : (s.land n ws fl).flowLow = s.flowLow := rfl
@[simp] theorem land_ctx : (s.land n ws fl).ctx c2 = s.ctx c2 := rfl
@[simp] theorem land_core : (s.land n ws fl).core c2 n2 = s.core c2 n2 := rfl
@[simp] theorem land_stackAt : (s.land n ws fl).stackAt n2 = s.stackAt n2 := rfl
@[simp] theorem land_part : (s.land n ws fl).part n2 = s.part n2 := rfl
@[simp] theorem land_job : (s.land n ws fl).job n2 = s.job n2 := rfl
@[simp] theorem land_chan : (s.land n ws fl).chan n2 = s.chan n2 := rfl
@[simp] theorem land_peel : (s.land n ws fl).peel n2 = s.peel n2 := rfl
@[simp] theorem land_queue : (s.land n ws fl).queue n2 = s.queue n2 := rfl
@[simp] theorem land_port : (s.land n ws fl).port n2 = s.port n2 := rfl
@[simp] theorem land_gent : (s.land n ws fl).gent n2 = s.gent n2 := rfl
@[simp] theorem land_slot : (s.land n ws fl).slot n2 = s.slot n2 := rfl
@[simp] theorem land_line : (s.land n ws fl).line n2 = s.line n2 := rfl
@[simp] theorem land_ring : (s.land n ws fl).ring m2 n2 = s.ring m2 n2 := rfl
@[simp] theorem land_perfAt : (s.land n ws fl).perfAt n2 = s.perfAt n2 := rfl
@[simp] theorem land_byte : (s.land n ws fl).byte a2 = s.byte a2 := rfl
@[simp] theorem land_load : (s.land n ws fl).load a2 n2 = s.load a2 n2 := rfl
@[simp] theorem land_me : (s.land n ws fl).me = s.me := rfl
@[simp] theorem land_myCtx : (s.land n ws fl).myCtx = s.myCtx := rfl
@[simp] theorem land_clk : (s.land n ws fl).clk = s.clk := rfl

@[simp] theorem access_now : (s.access n m o).now = s.now := rfl
@[simp] theorem access_cycleBase : (s.access n m o).cycleBase = s.cycleBase := rfl
@[simp] theorem access_cur : (s.access n m o).cur = s.cur := rfl
@[simp] theorem access_arg : (s.access n m o).arg = s.arg := rfl
@[simp] theorem access_ord : (s.access n m o).ord = s.ord := rfl
@[simp] theorem access_checked : (s.access n m o).checked = s.checked := rfl
@[simp] theorem access_probe : (s.access n m o).probe = s.probe := rfl
@[simp] theorem access_found : (s.access n m o).found = s.found := rfl
@[simp] theorem access_mark : (s.access n m o).mark = s.mark := rfl
@[simp] theorem access_banks : (s.access n m o).banks = s.banks := rfl
@[simp] theorem access_exBanks : (s.access n m o).exBanks = s.exBanks := rfl
@[simp] theorem access_svc : (s.access n m o).svc = s.svc := rfl
@[simp] theorem access_ports_ : (s.access n m o).ports_ = s.ports_ := rfl
@[simp] theorem access_free : (s.access n m o).free = s.free := rfl
@[simp] theorem access_ctxs : (s.access n m o).ctxs = s.ctxs := rfl
@[simp] theorem access_cores : (s.access n m o).cores = s.cores := rfl
@[simp] theorem access_rowLag : (s.access n m o).rowLag = s.rowLag := rfl
@[simp] theorem access_frames : (s.access n m o).frames = s.frames := rfl
@[simp] theorem access_cmode : (s.access n m o).cmode = s.cmode := rfl
@[simp] theorem access_stack : (s.access n m o).stack = s.stack := rfl
@[simp] theorem access_mem : (s.access n m o).mem = s.mem := rfl
@[simp] theorem access_slots : (s.access n m o).slots = s.slots := rfl
@[simp] theorem access_lines : (s.access n m o).lines = s.lines := rfl
@[simp] theorem access_lineWorld : (s.access n m o).lineWorld = s.lineWorld := rfl
@[simp] theorem access_bad : (s.access n m o).bad = s.bad := rfl
@[simp] theorem access_badMeta : (s.access n m o).badMeta = s.badMeta := rfl
@[simp] theorem access_peels : (s.access n m o).peels = s.peels := rfl
@[simp] theorem access_gtab : (s.access n m o).gtab = s.gtab := rfl
@[simp] theorem access_chans : (s.access n m o).chans = s.chans := rfl
@[simp] theorem access_parts : (s.access n m o).parts = s.parts := rfl
@[simp] theorem access_queues : (s.access n m o).queues = s.queues := rfl
@[simp] theorem access_selected : (s.access n m o).selected = s.selected := rfl
@[simp] theorem access_placed : (s.access n m o).placed = s.placed := rfl
@[simp] theorem access_rr : (s.access n m o).rr = s.rr := rfl
@[simp] theorem access_jobs : (s.access n m o).jobs = s.jobs := rfl
@[simp] theorem access_nextJob : (s.access n m o).nextJob = s.nextJob := rfl
@[simp] theorem access_jobOrder : (s.access n m o).jobOrder = s.jobOrder := rfl
@[simp] theorem access_events : (s.access n m o).events = s.events := rfl
@[simp] theorem access_waitEv : (s.access n m o).waitEv = s.waitEv := rfl
@[simp] theorem access_lateEv : (s.access n m o).lateEv = s.lateEv := rfl
@[simp] theorem access_logKeys : (s.access n m o).logKeys = s.logKeys := rfl
@[simp] theorem access_dropped : (s.access n m o).dropped = s.dropped := rfl
@[simp] theorem access_scrubs : (s.access n m o).scrubs = s.scrubs := rfl
@[simp] theorem access_scrubWait : (s.access n m o).scrubWait = s.scrubWait := rfl
@[simp] theorem access_refused : (s.access n m o).refused = s.refused := rfl
@[simp] theorem access_ranges : (s.access n m o).ranges = s.ranges := rfl
@[simp] theorem access_pages : (s.access n m o).pages = s.pages := rfl
@[simp] theorem access_invals : (s.access n m o).invals = s.invals := rfl
@[simp] theorem access_waiting : (s.access n m o).waiting = s.waiting := rfl
@[simp] theorem access_world : (s.access n m o).world = s.world := rfl
@[simp] theorem access_dedup : (s.access n m o).dedup = s.dedup := rfl
@[simp] theorem access_ports : (s.access n m o).ports = s.ports := rfl
@[simp] theorem access_arrayLog : (s.access n m o).arrayLog = s.arrayLog := rfl
@[simp] theorem access_busLog : (s.access n m o).busLog = s.busLog := rfl
@[simp] theorem access_spadLog : (s.access n m o).spadLog = s.spadLog := rfl
@[simp] theorem access_linkLog : (s.access n m o).linkLog = s.linkLog := rfl
@[simp] theorem access_secLog : (s.access n m o).secLog = s.secLog := rfl
@[simp] theorem access_perf : (s.access n m o).perf = s.perf := rfl
@[simp] theorem access_tickLog2 : (s.access n m o).tickLog2 = s.tickLog2 := rfl
@[simp] theorem access_tickNow : (s.access n m o).tickNow = s.tickNow := rfl
@[simp] theorem access_tickBusy : (s.access n m o).tickBusy = s.tickBusy := rfl
@[simp] theorem access_powerLimit : (s.access n m o).powerLimit = s.powerLimit := rfl
@[simp] theorem access_qmap : (s.access n m o).qmap = s.qmap := rfl
@[simp] theorem access_module : (s.access n m o).module = s.module := rfl
@[simp] theorem access_winMap : (s.access n m o).winMap = s.winMap := rfl
@[simp] theorem access_mrs : (s.access n m o).mrs = s.mrs := rfl
@[simp] theorem access_svn : (s.access n m o).svn = s.svn := rfl
@[simp] theorem access_accepted : (s.access n m o).accepted = s.accepted := rfl
@[simp] theorem access_bootA : (s.access n m o).bootA = s.bootA := rfl
@[simp] theorem access_bootB : (s.access n m o).bootB = s.bootB := rfl
@[simp] theorem access_reloading : (s.access n m o).reloading = s.reloading := rfl
@[simp] theorem access_bootFail : (s.access n m o).bootFail = s.bootFail := rfl
@[simp] theorem access_identity : (s.access n m o).identity = s.identity := rfl
@[simp] theorem access_report : (s.access n m o).report = s.report := rfl
@[simp] theorem access_readBack : (s.access n m o).readBack = s.readBack := rfl
@[simp] theorem access_mailbox : (s.access n m o).mailbox = s.mailbox := rfl
@[simp] theorem access_secBox : (s.access n m o).secBox = s.secBox := rfl
@[simp] theorem access_fromQueue : (s.access n m o).fromQueue = s.fromQueue := rfl
@[simp] theorem access_identityPub : (s.access n m o).identityPub = s.identityPub := rfl
@[simp] theorem access_identityCert : (s.access n m o).identityCert = s.identityCert := rfl
@[simp] theorem access_flowLow : (s.access n m o).flowLow = s.flowLow := rfl
@[simp] theorem access_ctx : (s.access n m o).ctx c2 = s.ctx c2 := rfl
@[simp] theorem access_core : (s.access n m o).core c2 n2 = s.core c2 n2 := rfl
@[simp] theorem access_stackAt : (s.access n m o).stackAt n2 = s.stackAt n2 := rfl
@[simp] theorem access_part : (s.access n m o).part n2 = s.part n2 := rfl
@[simp] theorem access_job : (s.access n m o).job n2 = s.job n2 := rfl
@[simp] theorem access_chan : (s.access n m o).chan n2 = s.chan n2 := rfl
@[simp] theorem access_peel : (s.access n m o).peel n2 = s.peel n2 := rfl
@[simp] theorem access_queue : (s.access n m o).queue n2 = s.queue n2 := rfl
@[simp] theorem access_port : (s.access n m o).port n2 = s.port n2 := rfl
@[simp] theorem access_gent : (s.access n m o).gent n2 = s.gent n2 := rfl
@[simp] theorem access_slot : (s.access n m o).slot n2 = s.slot n2 := rfl
@[simp] theorem access_line : (s.access n m o).line n2 = s.line n2 := rfl
@[simp] theorem access_ring : (s.access n m o).ring m2 n2 = s.ring m2 n2 := rfl
@[simp] theorem access_perfAt : (s.access n m o).perfAt n2 = s.perfAt n2 := rfl
@[simp] theorem access_byte : (s.access n m o).byte a2 = s.byte a2 := rfl
@[simp] theorem access_load : (s.access n m o).load a2 n2 = s.load a2 n2 := rfl
@[simp] theorem access_me : (s.access n m o).me = s.me := rfl
@[simp] theorem access_myCtx : (s.access n m o).myCtx = s.myCtx := rfl
@[simp] theorem access_clk : (s.access n m o).clk = s.clk := rfl

@[simp] theorem bump_now : (s.bump).now = s.now := rfl
@[simp] theorem bump_cycleBase : (s.bump).cycleBase = s.cycleBase := rfl
@[simp] theorem bump_agenda : (s.bump).agenda = s.agenda := rfl
@[simp] theorem bump_cur : (s.bump).cur = s.cur := rfl
@[simp] theorem bump_arg : (s.bump).arg = s.arg := rfl
@[simp] theorem bump_ord : (s.bump).ord = s.ord := rfl
@[simp] theorem bump_checked : (s.bump).checked = s.checked := rfl
@[simp] theorem bump_probe : (s.bump).probe = s.probe := rfl
@[simp] theorem bump_found : (s.bump).found = s.found := rfl
@[simp] theorem bump_mark : (s.bump).mark = s.mark := rfl
@[simp] theorem bump_banks : (s.bump).banks = s.banks := rfl
@[simp] theorem bump_exBanks : (s.bump).exBanks = s.exBanks := rfl
@[simp] theorem bump_svc : (s.bump).svc = s.svc := rfl
@[simp] theorem bump_ports_ : (s.bump).ports_ = s.ports_ := rfl
@[simp] theorem bump_free : (s.bump).free = s.free := rfl
@[simp] theorem bump_ctxs : (s.bump).ctxs = s.ctxs := rfl
@[simp] theorem bump_cores : (s.bump).cores = s.cores := rfl
@[simp] theorem bump_rowLag : (s.bump).rowLag = s.rowLag := rfl
@[simp] theorem bump_frames : (s.bump).frames = s.frames := rfl
@[simp] theorem bump_cmode : (s.bump).cmode = s.cmode := rfl
@[simp] theorem bump_stack : (s.bump).stack = s.stack := rfl
@[simp] theorem bump_mem : (s.bump).mem = s.mem := rfl
@[simp] theorem bump_slots : (s.bump).slots = s.slots := rfl
@[simp] theorem bump_lines : (s.bump).lines = s.lines := rfl
@[simp] theorem bump_lineWorld : (s.bump).lineWorld = s.lineWorld := rfl
@[simp] theorem bump_bad : (s.bump).bad = s.bad := rfl
@[simp] theorem bump_badMeta : (s.bump).badMeta = s.badMeta := rfl
@[simp] theorem bump_peels : (s.bump).peels = s.peels := rfl
@[simp] theorem bump_gtab : (s.bump).gtab = s.gtab := rfl
@[simp] theorem bump_chans : (s.bump).chans = s.chans := rfl
@[simp] theorem bump_parts : (s.bump).parts = s.parts := rfl
@[simp] theorem bump_queues : (s.bump).queues = s.queues := rfl
@[simp] theorem bump_selected : (s.bump).selected = s.selected := rfl
@[simp] theorem bump_placed : (s.bump).placed = s.placed := rfl
@[simp] theorem bump_rr : (s.bump).rr = s.rr := rfl
@[simp] theorem bump_jobs : (s.bump).jobs = s.jobs := rfl
@[simp] theorem bump_nextJob : (s.bump).nextJob = s.nextJob := rfl
@[simp] theorem bump_jobOrder : (s.bump).jobOrder = s.jobOrder := rfl
@[simp] theorem bump_events : (s.bump).events = s.events := rfl
@[simp] theorem bump_waitEv : (s.bump).waitEv = s.waitEv := rfl
@[simp] theorem bump_lateEv : (s.bump).lateEv = s.lateEv := rfl
@[simp] theorem bump_logKeys : (s.bump).logKeys = s.logKeys := rfl
@[simp] theorem bump_dropped : (s.bump).dropped = s.dropped := rfl
@[simp] theorem bump_scrubs : (s.bump).scrubs = s.scrubs := rfl
@[simp] theorem bump_scrubWait : (s.bump).scrubWait = s.scrubWait := rfl
@[simp] theorem bump_refused : (s.bump).refused = s.refused := rfl
@[simp] theorem bump_ranges : (s.bump).ranges = s.ranges := rfl
@[simp] theorem bump_pages : (s.bump).pages = s.pages := rfl
@[simp] theorem bump_invals : (s.bump).invals = s.invals := rfl
@[simp] theorem bump_waiting : (s.bump).waiting = s.waiting := rfl
@[simp] theorem bump_world : (s.bump).world = s.world := rfl
@[simp] theorem bump_dedup : (s.bump).dedup = s.dedup := rfl
@[simp] theorem bump_ports : (s.bump).ports = s.ports := rfl
@[simp] theorem bump_arrayLog : (s.bump).arrayLog = s.arrayLog := rfl
@[simp] theorem bump_busLog : (s.bump).busLog = s.busLog := rfl
@[simp] theorem bump_spadLog : (s.bump).spadLog = s.spadLog := rfl
@[simp] theorem bump_linkLog : (s.bump).linkLog = s.linkLog := rfl
@[simp] theorem bump_secLog : (s.bump).secLog = s.secLog := rfl
@[simp] theorem bump_perf : (s.bump).perf = s.perf := rfl
@[simp] theorem bump_tickLog2 : (s.bump).tickLog2 = s.tickLog2 := rfl
@[simp] theorem bump_tickNow : (s.bump).tickNow = s.tickNow := rfl
@[simp] theorem bump_tickBusy : (s.bump).tickBusy = s.tickBusy := rfl
@[simp] theorem bump_powerLimit : (s.bump).powerLimit = s.powerLimit := rfl
@[simp] theorem bump_qmap : (s.bump).qmap = s.qmap := rfl
@[simp] theorem bump_module : (s.bump).module = s.module := rfl
@[simp] theorem bump_winMap : (s.bump).winMap = s.winMap := rfl
@[simp] theorem bump_mrs : (s.bump).mrs = s.mrs := rfl
@[simp] theorem bump_svn : (s.bump).svn = s.svn := rfl
@[simp] theorem bump_accepted : (s.bump).accepted = s.accepted := rfl
@[simp] theorem bump_bootA : (s.bump).bootA = s.bootA := rfl
@[simp] theorem bump_bootB : (s.bump).bootB = s.bootB := rfl
@[simp] theorem bump_reloading : (s.bump).reloading = s.reloading := rfl
@[simp] theorem bump_bootFail : (s.bump).bootFail = s.bootFail := rfl
@[simp] theorem bump_identity : (s.bump).identity = s.identity := rfl
@[simp] theorem bump_report : (s.bump).report = s.report := rfl
@[simp] theorem bump_readBack : (s.bump).readBack = s.readBack := rfl
@[simp] theorem bump_mailbox : (s.bump).mailbox = s.mailbox := rfl
@[simp] theorem bump_secBox : (s.bump).secBox = s.secBox := rfl
@[simp] theorem bump_fromQueue : (s.bump).fromQueue = s.fromQueue := rfl
@[simp] theorem bump_identityPub : (s.bump).identityPub = s.identityPub := rfl
@[simp] theorem bump_identityCert : (s.bump).identityCert = s.identityCert := rfl
@[simp] theorem bump_flowLow : (s.bump).flowLow = s.flowLow := rfl
@[simp] theorem bump_ctx : (s.bump).ctx c2 = s.ctx c2 := rfl
@[simp] theorem bump_core : (s.bump).core c2 n2 = s.core c2 n2 := rfl
@[simp] theorem bump_stackAt : (s.bump).stackAt n2 = s.stackAt n2 := rfl
@[simp] theorem bump_part : (s.bump).part n2 = s.part n2 := rfl
@[simp] theorem bump_job : (s.bump).job n2 = s.job n2 := rfl
@[simp] theorem bump_chan : (s.bump).chan n2 = s.chan n2 := rfl
@[simp] theorem bump_peel : (s.bump).peel n2 = s.peel n2 := rfl
@[simp] theorem bump_queue : (s.bump).queue n2 = s.queue n2 := rfl
@[simp] theorem bump_port : (s.bump).port n2 = s.port n2 := rfl
@[simp] theorem bump_gent : (s.bump).gent n2 = s.gent n2 := rfl
@[simp] theorem bump_slot : (s.bump).slot n2 = s.slot n2 := rfl
@[simp] theorem bump_line : (s.bump).line n2 = s.line n2 := rfl
@[simp] theorem bump_ring : (s.bump).ring m2 n2 = s.ring m2 n2 := rfl
@[simp] theorem bump_perfAt : (s.bump).perfAt n2 = s.perfAt n2 := rfl
@[simp] theorem bump_byte : (s.bump).byte a2 = s.byte a2 := rfl
@[simp] theorem bump_load : (s.bump).load a2 n2 = s.load a2 n2 := rfl
@[simp] theorem bump_me : (s.bump).me = s.me := rfl
@[simp] theorem bump_myCtx : (s.bump).myCtx = s.myCtx := rfl
@[simp] theorem bump_clk : (s.bump).clk = s.clk := rfl

@[simp] theorem modFlight_now : (s.modFlight n gf).now = s.now := rfl
@[simp] theorem modFlight_cycleBase : (s.modFlight n gf).cycleBase = s.cycleBase := rfl
@[simp] theorem modFlight_cur : (s.modFlight n gf).cur = s.cur := rfl
@[simp] theorem modFlight_arg : (s.modFlight n gf).arg = s.arg := rfl
@[simp] theorem modFlight_ord : (s.modFlight n gf).ord = s.ord := rfl
@[simp] theorem modFlight_checked : (s.modFlight n gf).checked = s.checked := rfl
@[simp] theorem modFlight_probe : (s.modFlight n gf).probe = s.probe := rfl
@[simp] theorem modFlight_found : (s.modFlight n gf).found = s.found := rfl
@[simp] theorem modFlight_nextId : (s.modFlight n gf).nextId = s.nextId := rfl
@[simp] theorem modFlight_mark : (s.modFlight n gf).mark = s.mark := rfl
@[simp] theorem modFlight_banks : (s.modFlight n gf).banks = s.banks := rfl
@[simp] theorem modFlight_exBanks : (s.modFlight n gf).exBanks = s.exBanks := rfl
@[simp] theorem modFlight_svc : (s.modFlight n gf).svc = s.svc := rfl
@[simp] theorem modFlight_ports_ : (s.modFlight n gf).ports_ = s.ports_ := rfl
@[simp] theorem modFlight_free : (s.modFlight n gf).free = s.free := rfl
@[simp] theorem modFlight_ctxs : (s.modFlight n gf).ctxs = s.ctxs := rfl
@[simp] theorem modFlight_cores : (s.modFlight n gf).cores = s.cores := rfl
@[simp] theorem modFlight_rowLag : (s.modFlight n gf).rowLag = s.rowLag := rfl
@[simp] theorem modFlight_frames : (s.modFlight n gf).frames = s.frames := rfl
@[simp] theorem modFlight_cmode : (s.modFlight n gf).cmode = s.cmode := rfl
@[simp] theorem modFlight_stack : (s.modFlight n gf).stack = s.stack := rfl
@[simp] theorem modFlight_mem : (s.modFlight n gf).mem = s.mem := rfl
@[simp] theorem modFlight_slots : (s.modFlight n gf).slots = s.slots := rfl
@[simp] theorem modFlight_lines : (s.modFlight n gf).lines = s.lines := rfl
@[simp] theorem modFlight_lineWorld : (s.modFlight n gf).lineWorld = s.lineWorld := rfl
@[simp] theorem modFlight_bad : (s.modFlight n gf).bad = s.bad := rfl
@[simp] theorem modFlight_badMeta : (s.modFlight n gf).badMeta = s.badMeta := rfl
@[simp] theorem modFlight_peels : (s.modFlight n gf).peels = s.peels := rfl
@[simp] theorem modFlight_gtab : (s.modFlight n gf).gtab = s.gtab := rfl
@[simp] theorem modFlight_chans : (s.modFlight n gf).chans = s.chans := rfl
@[simp] theorem modFlight_parts : (s.modFlight n gf).parts = s.parts := rfl
@[simp] theorem modFlight_queues : (s.modFlight n gf).queues = s.queues := rfl
@[simp] theorem modFlight_selected : (s.modFlight n gf).selected = s.selected := rfl
@[simp] theorem modFlight_placed : (s.modFlight n gf).placed = s.placed := rfl
@[simp] theorem modFlight_rr : (s.modFlight n gf).rr = s.rr := rfl
@[simp] theorem modFlight_jobs : (s.modFlight n gf).jobs = s.jobs := rfl
@[simp] theorem modFlight_nextJob : (s.modFlight n gf).nextJob = s.nextJob := rfl
@[simp] theorem modFlight_jobOrder : (s.modFlight n gf).jobOrder = s.jobOrder := rfl
@[simp] theorem modFlight_events : (s.modFlight n gf).events = s.events := rfl
@[simp] theorem modFlight_waitEv : (s.modFlight n gf).waitEv = s.waitEv := rfl
@[simp] theorem modFlight_lateEv : (s.modFlight n gf).lateEv = s.lateEv := rfl
@[simp] theorem modFlight_logKeys : (s.modFlight n gf).logKeys = s.logKeys := rfl
@[simp] theorem modFlight_dropped : (s.modFlight n gf).dropped = s.dropped := rfl
@[simp] theorem modFlight_scrubs : (s.modFlight n gf).scrubs = s.scrubs := rfl
@[simp] theorem modFlight_scrubWait : (s.modFlight n gf).scrubWait = s.scrubWait := rfl
@[simp] theorem modFlight_refused : (s.modFlight n gf).refused = s.refused := rfl
@[simp] theorem modFlight_ranges : (s.modFlight n gf).ranges = s.ranges := rfl
@[simp] theorem modFlight_pages : (s.modFlight n gf).pages = s.pages := rfl
@[simp] theorem modFlight_invals : (s.modFlight n gf).invals = s.invals := rfl
@[simp] theorem modFlight_waiting : (s.modFlight n gf).waiting = s.waiting := rfl
@[simp] theorem modFlight_world : (s.modFlight n gf).world = s.world := rfl
@[simp] theorem modFlight_dedup : (s.modFlight n gf).dedup = s.dedup := rfl
@[simp] theorem modFlight_ports : (s.modFlight n gf).ports = s.ports := rfl
@[simp] theorem modFlight_arrayLog : (s.modFlight n gf).arrayLog = s.arrayLog := rfl
@[simp] theorem modFlight_busLog : (s.modFlight n gf).busLog = s.busLog := rfl
@[simp] theorem modFlight_spadLog : (s.modFlight n gf).spadLog = s.spadLog := rfl
@[simp] theorem modFlight_linkLog : (s.modFlight n gf).linkLog = s.linkLog := rfl
@[simp] theorem modFlight_secLog : (s.modFlight n gf).secLog = s.secLog := rfl
@[simp] theorem modFlight_perf : (s.modFlight n gf).perf = s.perf := rfl
@[simp] theorem modFlight_tickLog2 : (s.modFlight n gf).tickLog2 = s.tickLog2 := rfl
@[simp] theorem modFlight_tickNow : (s.modFlight n gf).tickNow = s.tickNow := rfl
@[simp] theorem modFlight_tickBusy : (s.modFlight n gf).tickBusy = s.tickBusy := rfl
@[simp] theorem modFlight_powerLimit : (s.modFlight n gf).powerLimit = s.powerLimit := rfl
@[simp] theorem modFlight_qmap : (s.modFlight n gf).qmap = s.qmap := rfl
@[simp] theorem modFlight_module : (s.modFlight n gf).module = s.module := rfl
@[simp] theorem modFlight_winMap : (s.modFlight n gf).winMap = s.winMap := rfl
@[simp] theorem modFlight_mrs : (s.modFlight n gf).mrs = s.mrs := rfl
@[simp] theorem modFlight_svn : (s.modFlight n gf).svn = s.svn := rfl
@[simp] theorem modFlight_accepted : (s.modFlight n gf).accepted = s.accepted := rfl
@[simp] theorem modFlight_bootA : (s.modFlight n gf).bootA = s.bootA := rfl
@[simp] theorem modFlight_bootB : (s.modFlight n gf).bootB = s.bootB := rfl
@[simp] theorem modFlight_reloading : (s.modFlight n gf).reloading = s.reloading := rfl
@[simp] theorem modFlight_bootFail : (s.modFlight n gf).bootFail = s.bootFail := rfl
@[simp] theorem modFlight_identity : (s.modFlight n gf).identity = s.identity := rfl
@[simp] theorem modFlight_report : (s.modFlight n gf).report = s.report := rfl
@[simp] theorem modFlight_readBack : (s.modFlight n gf).readBack = s.readBack := rfl
@[simp] theorem modFlight_mailbox : (s.modFlight n gf).mailbox = s.mailbox := rfl
@[simp] theorem modFlight_secBox : (s.modFlight n gf).secBox = s.secBox := rfl
@[simp] theorem modFlight_fromQueue : (s.modFlight n gf).fromQueue = s.fromQueue := rfl
@[simp] theorem modFlight_identityPub : (s.modFlight n gf).identityPub = s.identityPub := rfl
@[simp] theorem modFlight_identityCert : (s.modFlight n gf).identityCert = s.identityCert := rfl
@[simp] theorem modFlight_flowLow : (s.modFlight n gf).flowLow = s.flowLow := rfl
@[simp] theorem modFlight_ctx : (s.modFlight n gf).ctx c2 = s.ctx c2 := rfl
@[simp] theorem modFlight_core : (s.modFlight n gf).core c2 n2 = s.core c2 n2 := rfl
@[simp] theorem modFlight_stackAt : (s.modFlight n gf).stackAt n2 = s.stackAt n2 := rfl
@[simp] theorem modFlight_part : (s.modFlight n gf).part n2 = s.part n2 := rfl
@[simp] theorem modFlight_job : (s.modFlight n gf).job n2 = s.job n2 := rfl
@[simp] theorem modFlight_chan : (s.modFlight n gf).chan n2 = s.chan n2 := rfl
@[simp] theorem modFlight_peel : (s.modFlight n gf).peel n2 = s.peel n2 := rfl
@[simp] theorem modFlight_queue : (s.modFlight n gf).queue n2 = s.queue n2 := rfl
@[simp] theorem modFlight_port : (s.modFlight n gf).port n2 = s.port n2 := rfl
@[simp] theorem modFlight_gent : (s.modFlight n gf).gent n2 = s.gent n2 := rfl
@[simp] theorem modFlight_slot : (s.modFlight n gf).slot n2 = s.slot n2 := rfl
@[simp] theorem modFlight_line : (s.modFlight n gf).line n2 = s.line n2 := rfl
@[simp] theorem modFlight_ring : (s.modFlight n gf).ring m2 n2 = s.ring m2 n2 := rfl
@[simp] theorem modFlight_perfAt : (s.modFlight n gf).perfAt n2 = s.perfAt n2 := rfl
@[simp] theorem modFlight_byte : (s.modFlight n gf).byte a2 = s.byte a2 := rfl
@[simp] theorem modFlight_load : (s.modFlight n gf).load a2 n2 = s.load a2 n2 := rfl
@[simp] theorem modFlight_me : (s.modFlight n gf).me = s.me := rfl
@[simp] theorem modFlight_myCtx : (s.modFlight n gf).myCtx = s.myCtx := rfl
@[simp] theorem modFlight_clk : (s.modFlight n gf).clk = s.clk := rfl

@[simp] theorem modMat_now : (s.modMat n gx).now = s.now := rfl
@[simp] theorem modMat_cycleBase : (s.modMat n gx).cycleBase = s.cycleBase := rfl
@[simp] theorem modMat_cur : (s.modMat n gx).cur = s.cur := rfl
@[simp] theorem modMat_arg : (s.modMat n gx).arg = s.arg := rfl
@[simp] theorem modMat_ord : (s.modMat n gx).ord = s.ord := rfl
@[simp] theorem modMat_checked : (s.modMat n gx).checked = s.checked := rfl
@[simp] theorem modMat_probe : (s.modMat n gx).probe = s.probe := rfl
@[simp] theorem modMat_found : (s.modMat n gx).found = s.found := rfl
@[simp] theorem modMat_nextId : (s.modMat n gx).nextId = s.nextId := rfl
@[simp] theorem modMat_mark : (s.modMat n gx).mark = s.mark := rfl
@[simp] theorem modMat_banks : (s.modMat n gx).banks = s.banks := rfl
@[simp] theorem modMat_exBanks : (s.modMat n gx).exBanks = s.exBanks := rfl
@[simp] theorem modMat_svc : (s.modMat n gx).svc = s.svc := rfl
@[simp] theorem modMat_ports_ : (s.modMat n gx).ports_ = s.ports_ := rfl
@[simp] theorem modMat_free : (s.modMat n gx).free = s.free := rfl
@[simp] theorem modMat_ctxs : (s.modMat n gx).ctxs = s.ctxs := rfl
@[simp] theorem modMat_cores : (s.modMat n gx).cores = s.cores := rfl
@[simp] theorem modMat_rowLag : (s.modMat n gx).rowLag = s.rowLag := rfl
@[simp] theorem modMat_frames : (s.modMat n gx).frames = s.frames := rfl
@[simp] theorem modMat_cmode : (s.modMat n gx).cmode = s.cmode := rfl
@[simp] theorem modMat_stack : (s.modMat n gx).stack = s.stack := rfl
@[simp] theorem modMat_mem : (s.modMat n gx).mem = s.mem := rfl
@[simp] theorem modMat_slots : (s.modMat n gx).slots = s.slots := rfl
@[simp] theorem modMat_lines : (s.modMat n gx).lines = s.lines := rfl
@[simp] theorem modMat_lineWorld : (s.modMat n gx).lineWorld = s.lineWorld := rfl
@[simp] theorem modMat_bad : (s.modMat n gx).bad = s.bad := rfl
@[simp] theorem modMat_badMeta : (s.modMat n gx).badMeta = s.badMeta := rfl
@[simp] theorem modMat_peels : (s.modMat n gx).peels = s.peels := rfl
@[simp] theorem modMat_gtab : (s.modMat n gx).gtab = s.gtab := rfl
@[simp] theorem modMat_chans : (s.modMat n gx).chans = s.chans := rfl
@[simp] theorem modMat_parts : (s.modMat n gx).parts = s.parts := rfl
@[simp] theorem modMat_queues : (s.modMat n gx).queues = s.queues := rfl
@[simp] theorem modMat_selected : (s.modMat n gx).selected = s.selected := rfl
@[simp] theorem modMat_placed : (s.modMat n gx).placed = s.placed := rfl
@[simp] theorem modMat_rr : (s.modMat n gx).rr = s.rr := rfl
@[simp] theorem modMat_jobs : (s.modMat n gx).jobs = s.jobs := rfl
@[simp] theorem modMat_nextJob : (s.modMat n gx).nextJob = s.nextJob := rfl
@[simp] theorem modMat_jobOrder : (s.modMat n gx).jobOrder = s.jobOrder := rfl
@[simp] theorem modMat_events : (s.modMat n gx).events = s.events := rfl
@[simp] theorem modMat_waitEv : (s.modMat n gx).waitEv = s.waitEv := rfl
@[simp] theorem modMat_lateEv : (s.modMat n gx).lateEv = s.lateEv := rfl
@[simp] theorem modMat_logKeys : (s.modMat n gx).logKeys = s.logKeys := rfl
@[simp] theorem modMat_dropped : (s.modMat n gx).dropped = s.dropped := rfl
@[simp] theorem modMat_scrubs : (s.modMat n gx).scrubs = s.scrubs := rfl
@[simp] theorem modMat_scrubWait : (s.modMat n gx).scrubWait = s.scrubWait := rfl
@[simp] theorem modMat_refused : (s.modMat n gx).refused = s.refused := rfl
@[simp] theorem modMat_ranges : (s.modMat n gx).ranges = s.ranges := rfl
@[simp] theorem modMat_pages : (s.modMat n gx).pages = s.pages := rfl
@[simp] theorem modMat_invals : (s.modMat n gx).invals = s.invals := rfl
@[simp] theorem modMat_waiting : (s.modMat n gx).waiting = s.waiting := rfl
@[simp] theorem modMat_world : (s.modMat n gx).world = s.world := rfl
@[simp] theorem modMat_dedup : (s.modMat n gx).dedup = s.dedup := rfl
@[simp] theorem modMat_ports : (s.modMat n gx).ports = s.ports := rfl
@[simp] theorem modMat_arrayLog : (s.modMat n gx).arrayLog = s.arrayLog := rfl
@[simp] theorem modMat_busLog : (s.modMat n gx).busLog = s.busLog := rfl
@[simp] theorem modMat_spadLog : (s.modMat n gx).spadLog = s.spadLog := rfl
@[simp] theorem modMat_linkLog : (s.modMat n gx).linkLog = s.linkLog := rfl
@[simp] theorem modMat_secLog : (s.modMat n gx).secLog = s.secLog := rfl
@[simp] theorem modMat_perf : (s.modMat n gx).perf = s.perf := rfl
@[simp] theorem modMat_tickLog2 : (s.modMat n gx).tickLog2 = s.tickLog2 := rfl
@[simp] theorem modMat_tickNow : (s.modMat n gx).tickNow = s.tickNow := rfl
@[simp] theorem modMat_tickBusy : (s.modMat n gx).tickBusy = s.tickBusy := rfl
@[simp] theorem modMat_powerLimit : (s.modMat n gx).powerLimit = s.powerLimit := rfl
@[simp] theorem modMat_qmap : (s.modMat n gx).qmap = s.qmap := rfl
@[simp] theorem modMat_module : (s.modMat n gx).module = s.module := rfl
@[simp] theorem modMat_winMap : (s.modMat n gx).winMap = s.winMap := rfl
@[simp] theorem modMat_mrs : (s.modMat n gx).mrs = s.mrs := rfl
@[simp] theorem modMat_svn : (s.modMat n gx).svn = s.svn := rfl
@[simp] theorem modMat_accepted : (s.modMat n gx).accepted = s.accepted := rfl
@[simp] theorem modMat_bootA : (s.modMat n gx).bootA = s.bootA := rfl
@[simp] theorem modMat_bootB : (s.modMat n gx).bootB = s.bootB := rfl
@[simp] theorem modMat_reloading : (s.modMat n gx).reloading = s.reloading := rfl
@[simp] theorem modMat_bootFail : (s.modMat n gx).bootFail = s.bootFail := rfl
@[simp] theorem modMat_identity : (s.modMat n gx).identity = s.identity := rfl
@[simp] theorem modMat_report : (s.modMat n gx).report = s.report := rfl
@[simp] theorem modMat_readBack : (s.modMat n gx).readBack = s.readBack := rfl
@[simp] theorem modMat_mailbox : (s.modMat n gx).mailbox = s.mailbox := rfl
@[simp] theorem modMat_secBox : (s.modMat n gx).secBox = s.secBox := rfl
@[simp] theorem modMat_fromQueue : (s.modMat n gx).fromQueue = s.fromQueue := rfl
@[simp] theorem modMat_identityPub : (s.modMat n gx).identityPub = s.identityPub := rfl
@[simp] theorem modMat_identityCert : (s.modMat n gx).identityCert = s.identityCert := rfl
@[simp] theorem modMat_flowLow : (s.modMat n gx).flowLow = s.flowLow := rfl
@[simp] theorem modMat_ctx : (s.modMat n gx).ctx c2 = s.ctx c2 := rfl
@[simp] theorem modMat_core : (s.modMat n gx).core c2 n2 = s.core c2 n2 := rfl
@[simp] theorem modMat_stackAt : (s.modMat n gx).stackAt n2 = s.stackAt n2 := rfl
@[simp] theorem modMat_part : (s.modMat n gx).part n2 = s.part n2 := rfl
@[simp] theorem modMat_job : (s.modMat n gx).job n2 = s.job n2 := rfl
@[simp] theorem modMat_chan : (s.modMat n gx).chan n2 = s.chan n2 := rfl
@[simp] theorem modMat_peel : (s.modMat n gx).peel n2 = s.peel n2 := rfl
@[simp] theorem modMat_queue : (s.modMat n gx).queue n2 = s.queue n2 := rfl
@[simp] theorem modMat_port : (s.modMat n gx).port n2 = s.port n2 := rfl
@[simp] theorem modMat_gent : (s.modMat n gx).gent n2 = s.gent n2 := rfl
@[simp] theorem modMat_slot : (s.modMat n gx).slot n2 = s.slot n2 := rfl
@[simp] theorem modMat_line : (s.modMat n gx).line n2 = s.line n2 := rfl
@[simp] theorem modMat_ring : (s.modMat n gx).ring m2 n2 = s.ring m2 n2 := rfl
@[simp] theorem modMat_perfAt : (s.modMat n gx).perfAt n2 = s.perfAt n2 := rfl
@[simp] theorem modMat_byte : (s.modMat n gx).byte a2 = s.byte a2 := rfl
@[simp] theorem modMat_load : (s.modMat n gx).load a2 n2 = s.load a2 n2 := rfl
@[simp] theorem modMat_me : (s.modMat n gx).me = s.me := rfl
@[simp] theorem modMat_myCtx : (s.modMat n gx).myCtx = s.myCtx := rfl
@[simp] theorem modMat_clk : (s.modMat n gx).clk = s.clk := rfl

@[simp] theorem dropFlight_now : (s.dropFlight n).now = s.now := rfl
@[simp] theorem dropFlight_cycleBase : (s.dropFlight n).cycleBase = s.cycleBase := rfl
@[simp] theorem dropFlight_cur : (s.dropFlight n).cur = s.cur := rfl
@[simp] theorem dropFlight_arg : (s.dropFlight n).arg = s.arg := rfl
@[simp] theorem dropFlight_ord : (s.dropFlight n).ord = s.ord := rfl
@[simp] theorem dropFlight_checked : (s.dropFlight n).checked = s.checked := rfl
@[simp] theorem dropFlight_probe : (s.dropFlight n).probe = s.probe := rfl
@[simp] theorem dropFlight_found : (s.dropFlight n).found = s.found := rfl
@[simp] theorem dropFlight_nextId : (s.dropFlight n).nextId = s.nextId := rfl
@[simp] theorem dropFlight_mark : (s.dropFlight n).mark = s.mark := rfl
@[simp] theorem dropFlight_banks : (s.dropFlight n).banks = s.banks := rfl
@[simp] theorem dropFlight_exBanks : (s.dropFlight n).exBanks = s.exBanks := rfl
@[simp] theorem dropFlight_svc : (s.dropFlight n).svc = s.svc := rfl
@[simp] theorem dropFlight_ports_ : (s.dropFlight n).ports_ = s.ports_ := rfl
@[simp] theorem dropFlight_free : (s.dropFlight n).free = s.free := rfl
@[simp] theorem dropFlight_ctxs : (s.dropFlight n).ctxs = s.ctxs := rfl
@[simp] theorem dropFlight_cores : (s.dropFlight n).cores = s.cores := rfl
@[simp] theorem dropFlight_rowLag : (s.dropFlight n).rowLag = s.rowLag := rfl
@[simp] theorem dropFlight_frames : (s.dropFlight n).frames = s.frames := rfl
@[simp] theorem dropFlight_cmode : (s.dropFlight n).cmode = s.cmode := rfl
@[simp] theorem dropFlight_stack : (s.dropFlight n).stack = s.stack := rfl
@[simp] theorem dropFlight_mem : (s.dropFlight n).mem = s.mem := rfl
@[simp] theorem dropFlight_slots : (s.dropFlight n).slots = s.slots := rfl
@[simp] theorem dropFlight_lines : (s.dropFlight n).lines = s.lines := rfl
@[simp] theorem dropFlight_lineWorld : (s.dropFlight n).lineWorld = s.lineWorld := rfl
@[simp] theorem dropFlight_bad : (s.dropFlight n).bad = s.bad := rfl
@[simp] theorem dropFlight_badMeta : (s.dropFlight n).badMeta = s.badMeta := rfl
@[simp] theorem dropFlight_peels : (s.dropFlight n).peels = s.peels := rfl
@[simp] theorem dropFlight_gtab : (s.dropFlight n).gtab = s.gtab := rfl
@[simp] theorem dropFlight_chans : (s.dropFlight n).chans = s.chans := rfl
@[simp] theorem dropFlight_parts : (s.dropFlight n).parts = s.parts := rfl
@[simp] theorem dropFlight_queues : (s.dropFlight n).queues = s.queues := rfl
@[simp] theorem dropFlight_selected : (s.dropFlight n).selected = s.selected := rfl
@[simp] theorem dropFlight_placed : (s.dropFlight n).placed = s.placed := rfl
@[simp] theorem dropFlight_rr : (s.dropFlight n).rr = s.rr := rfl
@[simp] theorem dropFlight_jobs : (s.dropFlight n).jobs = s.jobs := rfl
@[simp] theorem dropFlight_nextJob : (s.dropFlight n).nextJob = s.nextJob := rfl
@[simp] theorem dropFlight_jobOrder : (s.dropFlight n).jobOrder = s.jobOrder := rfl
@[simp] theorem dropFlight_events : (s.dropFlight n).events = s.events := rfl
@[simp] theorem dropFlight_waitEv : (s.dropFlight n).waitEv = s.waitEv := rfl
@[simp] theorem dropFlight_lateEv : (s.dropFlight n).lateEv = s.lateEv := rfl
@[simp] theorem dropFlight_logKeys : (s.dropFlight n).logKeys = s.logKeys := rfl
@[simp] theorem dropFlight_dropped : (s.dropFlight n).dropped = s.dropped := rfl
@[simp] theorem dropFlight_scrubs : (s.dropFlight n).scrubs = s.scrubs := rfl
@[simp] theorem dropFlight_scrubWait : (s.dropFlight n).scrubWait = s.scrubWait := rfl
@[simp] theorem dropFlight_refused : (s.dropFlight n).refused = s.refused := rfl
@[simp] theorem dropFlight_ranges : (s.dropFlight n).ranges = s.ranges := rfl
@[simp] theorem dropFlight_pages : (s.dropFlight n).pages = s.pages := rfl
@[simp] theorem dropFlight_invals : (s.dropFlight n).invals = s.invals := rfl
@[simp] theorem dropFlight_waiting : (s.dropFlight n).waiting = s.waiting := rfl
@[simp] theorem dropFlight_world : (s.dropFlight n).world = s.world := rfl
@[simp] theorem dropFlight_dedup : (s.dropFlight n).dedup = s.dedup := rfl
@[simp] theorem dropFlight_ports : (s.dropFlight n).ports = s.ports := rfl
@[simp] theorem dropFlight_arrayLog : (s.dropFlight n).arrayLog = s.arrayLog := rfl
@[simp] theorem dropFlight_busLog : (s.dropFlight n).busLog = s.busLog := rfl
@[simp] theorem dropFlight_spadLog : (s.dropFlight n).spadLog = s.spadLog := rfl
@[simp] theorem dropFlight_linkLog : (s.dropFlight n).linkLog = s.linkLog := rfl
@[simp] theorem dropFlight_secLog : (s.dropFlight n).secLog = s.secLog := rfl
@[simp] theorem dropFlight_perf : (s.dropFlight n).perf = s.perf := rfl
@[simp] theorem dropFlight_tickLog2 : (s.dropFlight n).tickLog2 = s.tickLog2 := rfl
@[simp] theorem dropFlight_tickNow : (s.dropFlight n).tickNow = s.tickNow := rfl
@[simp] theorem dropFlight_tickBusy : (s.dropFlight n).tickBusy = s.tickBusy := rfl
@[simp] theorem dropFlight_powerLimit : (s.dropFlight n).powerLimit = s.powerLimit := rfl
@[simp] theorem dropFlight_qmap : (s.dropFlight n).qmap = s.qmap := rfl
@[simp] theorem dropFlight_module : (s.dropFlight n).module = s.module := rfl
@[simp] theorem dropFlight_winMap : (s.dropFlight n).winMap = s.winMap := rfl
@[simp] theorem dropFlight_mrs : (s.dropFlight n).mrs = s.mrs := rfl
@[simp] theorem dropFlight_svn : (s.dropFlight n).svn = s.svn := rfl
@[simp] theorem dropFlight_accepted : (s.dropFlight n).accepted = s.accepted := rfl
@[simp] theorem dropFlight_bootA : (s.dropFlight n).bootA = s.bootA := rfl
@[simp] theorem dropFlight_bootB : (s.dropFlight n).bootB = s.bootB := rfl
@[simp] theorem dropFlight_reloading : (s.dropFlight n).reloading = s.reloading := rfl
@[simp] theorem dropFlight_bootFail : (s.dropFlight n).bootFail = s.bootFail := rfl
@[simp] theorem dropFlight_identity : (s.dropFlight n).identity = s.identity := rfl
@[simp] theorem dropFlight_report : (s.dropFlight n).report = s.report := rfl
@[simp] theorem dropFlight_readBack : (s.dropFlight n).readBack = s.readBack := rfl
@[simp] theorem dropFlight_mailbox : (s.dropFlight n).mailbox = s.mailbox := rfl
@[simp] theorem dropFlight_secBox : (s.dropFlight n).secBox = s.secBox := rfl
@[simp] theorem dropFlight_fromQueue : (s.dropFlight n).fromQueue = s.fromQueue := rfl
@[simp] theorem dropFlight_identityPub : (s.dropFlight n).identityPub = s.identityPub := rfl
@[simp] theorem dropFlight_identityCert : (s.dropFlight n).identityCert = s.identityCert := rfl
@[simp] theorem dropFlight_flowLow : (s.dropFlight n).flowLow = s.flowLow := rfl
@[simp] theorem dropFlight_ctx : (s.dropFlight n).ctx c2 = s.ctx c2 := rfl
@[simp] theorem dropFlight_core : (s.dropFlight n).core c2 n2 = s.core c2 n2 := rfl
@[simp] theorem dropFlight_stackAt : (s.dropFlight n).stackAt n2 = s.stackAt n2 := rfl
@[simp] theorem dropFlight_part : (s.dropFlight n).part n2 = s.part n2 := rfl
@[simp] theorem dropFlight_job : (s.dropFlight n).job n2 = s.job n2 := rfl
@[simp] theorem dropFlight_chan : (s.dropFlight n).chan n2 = s.chan n2 := rfl
@[simp] theorem dropFlight_peel : (s.dropFlight n).peel n2 = s.peel n2 := rfl
@[simp] theorem dropFlight_queue : (s.dropFlight n).queue n2 = s.queue n2 := rfl
@[simp] theorem dropFlight_port : (s.dropFlight n).port n2 = s.port n2 := rfl
@[simp] theorem dropFlight_gent : (s.dropFlight n).gent n2 = s.gent n2 := rfl
@[simp] theorem dropFlight_slot : (s.dropFlight n).slot n2 = s.slot n2 := rfl
@[simp] theorem dropFlight_line : (s.dropFlight n).line n2 = s.line n2 := rfl
@[simp] theorem dropFlight_ring : (s.dropFlight n).ring m2 n2 = s.ring m2 n2 := rfl
@[simp] theorem dropFlight_perfAt : (s.dropFlight n).perfAt n2 = s.perfAt n2 := rfl
@[simp] theorem dropFlight_byte : (s.dropFlight n).byte a2 = s.byte a2 := rfl
@[simp] theorem dropFlight_load : (s.dropFlight n).load a2 n2 = s.load a2 n2 := rfl
@[simp] theorem dropFlight_me : (s.dropFlight n).me = s.me := rfl
@[simp] theorem dropFlight_myCtx : (s.dropFlight n).myCtx = s.myCtx := rfl
@[simp] theorem dropFlight_clk : (s.dropFlight n).clk = s.clk := rfl

@[simp] theorem store_now : (s.store m n a).now = s.now := rfl
@[simp] theorem store_cycleBase : (s.store m n a).cycleBase = s.cycleBase := rfl
@[simp] theorem store_agenda : (s.store m n a).agenda = s.agenda := rfl
@[simp] theorem store_cur : (s.store m n a).cur = s.cur := rfl
@[simp] theorem store_arg : (s.store m n a).arg = s.arg := rfl
@[simp] theorem store_ord : (s.store m n a).ord = s.ord := rfl
@[simp] theorem store_checked : (s.store m n a).checked = s.checked := rfl
@[simp] theorem store_probe : (s.store m n a).probe = s.probe := rfl
@[simp] theorem store_found : (s.store m n a).found = s.found := rfl
@[simp] theorem store_nextId : (s.store m n a).nextId = s.nextId := rfl
@[simp] theorem store_mark : (s.store m n a).mark = s.mark := rfl
@[simp] theorem store_banks : (s.store m n a).banks = s.banks := rfl
@[simp] theorem store_exBanks : (s.store m n a).exBanks = s.exBanks := rfl
@[simp] theorem store_svc : (s.store m n a).svc = s.svc := rfl
@[simp] theorem store_ports_ : (s.store m n a).ports_ = s.ports_ := rfl
@[simp] theorem store_free : (s.store m n a).free = s.free := rfl
@[simp] theorem store_ctxs : (s.store m n a).ctxs = s.ctxs := rfl
@[simp] theorem store_cores : (s.store m n a).cores = s.cores := rfl
@[simp] theorem store_rowLag : (s.store m n a).rowLag = s.rowLag := rfl
@[simp] theorem store_frames : (s.store m n a).frames = s.frames := rfl
@[simp] theorem store_cmode : (s.store m n a).cmode = s.cmode := rfl
@[simp] theorem store_stack : (s.store m n a).stack = s.stack := rfl
@[simp] theorem store_slots : (s.store m n a).slots = s.slots := rfl
@[simp] theorem store_lines : (s.store m n a).lines = s.lines := rfl
@[simp] theorem store_lineWorld : (s.store m n a).lineWorld = s.lineWorld := rfl
@[simp] theorem store_badMeta : (s.store m n a).badMeta = s.badMeta := rfl
@[simp] theorem store_peels : (s.store m n a).peels = s.peels := rfl
@[simp] theorem store_gtab : (s.store m n a).gtab = s.gtab := rfl
@[simp] theorem store_chans : (s.store m n a).chans = s.chans := rfl
@[simp] theorem store_parts : (s.store m n a).parts = s.parts := rfl
@[simp] theorem store_queues : (s.store m n a).queues = s.queues := rfl
@[simp] theorem store_selected : (s.store m n a).selected = s.selected := rfl
@[simp] theorem store_placed : (s.store m n a).placed = s.placed := rfl
@[simp] theorem store_rr : (s.store m n a).rr = s.rr := rfl
@[simp] theorem store_jobs : (s.store m n a).jobs = s.jobs := rfl
@[simp] theorem store_nextJob : (s.store m n a).nextJob = s.nextJob := rfl
@[simp] theorem store_jobOrder : (s.store m n a).jobOrder = s.jobOrder := rfl
@[simp] theorem store_events : (s.store m n a).events = s.events := rfl
@[simp] theorem store_waitEv : (s.store m n a).waitEv = s.waitEv := rfl
@[simp] theorem store_lateEv : (s.store m n a).lateEv = s.lateEv := rfl
@[simp] theorem store_logKeys : (s.store m n a).logKeys = s.logKeys := rfl
@[simp] theorem store_dropped : (s.store m n a).dropped = s.dropped := rfl
@[simp] theorem store_scrubs : (s.store m n a).scrubs = s.scrubs := rfl
@[simp] theorem store_scrubWait : (s.store m n a).scrubWait = s.scrubWait := rfl
@[simp] theorem store_refused : (s.store m n a).refused = s.refused := rfl
@[simp] theorem store_ranges : (s.store m n a).ranges = s.ranges := rfl
@[simp] theorem store_pages : (s.store m n a).pages = s.pages := rfl
@[simp] theorem store_invals : (s.store m n a).invals = s.invals := rfl
@[simp] theorem store_waiting : (s.store m n a).waiting = s.waiting := rfl
@[simp] theorem store_world : (s.store m n a).world = s.world := rfl
@[simp] theorem store_dedup : (s.store m n a).dedup = s.dedup := rfl
@[simp] theorem store_ports : (s.store m n a).ports = s.ports := rfl
@[simp] theorem store_arrayLog : (s.store m n a).arrayLog = s.arrayLog := rfl
@[simp] theorem store_busLog : (s.store m n a).busLog = s.busLog := rfl
@[simp] theorem store_spadLog : (s.store m n a).spadLog = s.spadLog := rfl
@[simp] theorem store_linkLog : (s.store m n a).linkLog = s.linkLog := rfl
@[simp] theorem store_secLog : (s.store m n a).secLog = s.secLog := rfl
@[simp] theorem store_perf : (s.store m n a).perf = s.perf := rfl
@[simp] theorem store_tickLog2 : (s.store m n a).tickLog2 = s.tickLog2 := rfl
@[simp] theorem store_tickNow : (s.store m n a).tickNow = s.tickNow := rfl
@[simp] theorem store_tickBusy : (s.store m n a).tickBusy = s.tickBusy := rfl
@[simp] theorem store_powerLimit : (s.store m n a).powerLimit = s.powerLimit := rfl
@[simp] theorem store_qmap : (s.store m n a).qmap = s.qmap := rfl
@[simp] theorem store_module : (s.store m n a).module = s.module := rfl
@[simp] theorem store_winMap : (s.store m n a).winMap = s.winMap := rfl
@[simp] theorem store_mrs : (s.store m n a).mrs = s.mrs := rfl
@[simp] theorem store_svn : (s.store m n a).svn = s.svn := rfl
@[simp] theorem store_accepted : (s.store m n a).accepted = s.accepted := rfl
@[simp] theorem store_bootA : (s.store m n a).bootA = s.bootA := rfl
@[simp] theorem store_bootB : (s.store m n a).bootB = s.bootB := rfl
@[simp] theorem store_reloading : (s.store m n a).reloading = s.reloading := rfl
@[simp] theorem store_bootFail : (s.store m n a).bootFail = s.bootFail := rfl
@[simp] theorem store_identity : (s.store m n a).identity = s.identity := rfl
@[simp] theorem store_report : (s.store m n a).report = s.report := rfl
@[simp] theorem store_readBack : (s.store m n a).readBack = s.readBack := rfl
@[simp] theorem store_mailbox : (s.store m n a).mailbox = s.mailbox := rfl
@[simp] theorem store_secBox : (s.store m n a).secBox = s.secBox := rfl
@[simp] theorem store_fromQueue : (s.store m n a).fromQueue = s.fromQueue := rfl
@[simp] theorem store_identityPub : (s.store m n a).identityPub = s.identityPub := rfl
@[simp] theorem store_identityCert : (s.store m n a).identityCert = s.identityCert := rfl
@[simp] theorem store_flowLow : (s.store m n a).flowLow = s.flowLow := rfl
@[simp] theorem store_ctx : (s.store m n a).ctx c2 = s.ctx c2 := rfl
@[simp] theorem store_core : (s.store m n a).core c2 n2 = s.core c2 n2 := rfl
@[simp] theorem store_stackAt : (s.store m n a).stackAt n2 = s.stackAt n2 := rfl
@[simp] theorem store_part : (s.store m n a).part n2 = s.part n2 := rfl
@[simp] theorem store_job : (s.store m n a).job n2 = s.job n2 := rfl
@[simp] theorem store_chan : (s.store m n a).chan n2 = s.chan n2 := rfl
@[simp] theorem store_peel : (s.store m n a).peel n2 = s.peel n2 := rfl
@[simp] theorem store_queue : (s.store m n a).queue n2 = s.queue n2 := rfl
@[simp] theorem store_port : (s.store m n a).port n2 = s.port n2 := rfl
@[simp] theorem store_gent : (s.store m n a).gent n2 = s.gent n2 := rfl
@[simp] theorem store_slot : (s.store m n a).slot n2 = s.slot n2 := rfl
@[simp] theorem store_line : (s.store m n a).line n2 = s.line n2 := rfl
@[simp] theorem store_ring : (s.store m n a).ring m2 n2 = s.ring m2 n2 := rfl
@[simp] theorem store_perfAt : (s.store m n a).perfAt n2 = s.perfAt n2 := rfl
@[simp] theorem store_me : (s.store m n a).me = s.me := rfl
@[simp] theorem store_myCtx : (s.store m n a).myCtx = s.myCtx := rfl
@[simp] theorem store_clk : (s.store m n a).clk = s.clk := rfl

end

/-! ### What an update sets -/

section
variable (s : State) (c c2 n n2 : Nat)

theorem ctx_setCtx (x : Ctx) : (s.setCtx c x).ctx c2 = if c2 = c then x else s.ctx c2 := Tbl.get_put ..
@[simp] theorem ctx_setCtx_same (x : Ctx) : (s.setCtx c x).ctx c = x := Tbl.get_put_same ..
theorem ctx_modCtx (f : Ctx → Ctx) : (s.modCtx c f).ctx c2 = if c2 = c then f (s.ctx c) else s.ctx c2 := Tbl.get_put ..
@[simp] theorem ctx_modCtx_same (f : Ctx → Ctx) : (s.modCtx c f).ctx c = f (s.ctx c) := Tbl.get_put_same ..
theorem core_setCore (y : CoreCtx) : (s.setCore c n y).core c2 n2 = if coreKey c2 n2 = coreKey c n then y else s.core c2 n2 :=
  Tbl.get_put ..
@[simp] theorem core_setCore_same (y : CoreCtx) : (s.setCore c n y).core c n = y := Tbl.get_put_same ..
theorem core_modCore (f : CoreCtx → CoreCtx) :
    (s.modCore c n f).core c2 n2 = if coreKey c2 n2 = coreKey c n then f (s.core c n) else s.core c2 n2 := Tbl.get_put ..
@[simp] theorem core_modCore_same (f : CoreCtx → CoreCtx) : (s.modCore c n f).core c n = f (s.core c n) := Tbl.get_put_same ..

theorem stackAt_modStack (f : Stack → Stack) : (s.modStack n f).stackAt n2 = if n2 = n then f (s.stackAt n) else s.stackAt n2 := Tbl.get_put ..
@[simp] theorem stackAt_modStack_same (f : Stack → Stack) : (s.modStack n f).stackAt n = f (s.stackAt n) := Tbl.get_put_same ..
theorem part_modPart (f : Part → Part) : (s.modPart n f).part n2 = if n2 = n then f (s.part n) else s.part n2 := Tbl.get_put ..
@[simp] theorem part_modPart_same (f : Part → Part) : (s.modPart n f).part n = f (s.part n) := Tbl.get_put_same ..
theorem job_modJob (f : Job → Job) : (s.modJob n f).job n2 = if n2 = n then f (s.job n) else s.job n2 := Tbl.get_put ..
@[simp] theorem job_modJob_same (f : Job → Job) : (s.modJob n f).job n = f (s.job n) := Tbl.get_put_same ..
theorem chan_modChan (f : Chan → Chan) : (s.modChan n f).chan n2 = if n2 = n then f (s.chan n) else s.chan n2 := Tbl.get_put ..
@[simp] theorem chan_modChan_same (f : Chan → Chan) : (s.modChan n f).chan n = f (s.chan n) := Tbl.get_put_same ..
theorem peel_modPeel (f : Peel → Peel) : (s.modPeel n f).peel n2 = if n2 = n then f (s.peel n) else s.peel n2 := Tbl.get_put ..
@[simp] theorem peel_modPeel_same (f : Peel → Peel) : (s.modPeel n f).peel n = f (s.peel n) := Tbl.get_put_same ..
theorem queue_modQueue (f : LQueue → LQueue) : (s.modQueue n f).queue n2 = if n2 = n then f (s.queue n) else s.queue n2 := Tbl.get_put ..
@[simp] theorem queue_modQueue_same (f : LQueue → LQueue) : (s.modQueue n f).queue n = f (s.queue n) := Tbl.get_put_same ..
theorem port_modPort (f : Port → Port) : (s.modPort n f).port n2 = if n2 = n then f (s.port n) else s.port n2 := Tbl.get_put ..
@[simp] theorem port_modPort_same (f : Port → Port) : (s.modPort n f).port n = f (s.port n) := Tbl.get_put_same ..
theorem gent_modGent (f : GEnt → GEnt) : (s.modGent n f).gent n2 = if n2 = n then f (s.gent n) else s.gent n2 := Tbl.get_put ..
@[simp] theorem gent_modGent_same (f : GEnt → GEnt) : (s.modGent n f).gent n = f (s.gent n) := Tbl.get_put_same ..
theorem slot_modSlot (f : SlotMeta → SlotMeta) : (s.modSlot n f).slot n2 = if n2 = n then f (s.slot n) else s.slot n2 := Tbl.get_put ..
@[simp] theorem slot_modSlot_same (f : SlotMeta → SlotMeta) : (s.modSlot n f).slot n = f (s.slot n) := Tbl.get_put_same ..

@[simp] theorem line_setLineVer_version (v : BitVec 32) : ((s.setLineVer n v).line n).version = v := Tbl.get_put_same ..
@[simp] theorem line_setLineVer_world (v : BitVec 32) : ((s.setLineVer n v).line n2).world = (s.line n2).world := rfl
@[simp] theorem line_setLineWorld_version (w : Bool) : ((s.setLineWorld n n2 w).line c).version = (s.line c).version := rfl
theorem perfAt_setPerf (x : Perf) : (s.setPerf n x).perfAt n2 = if n2 = n then x else s.perfAt n2 := Tbl.get_put ..
@[simp] theorem bump_nextId : s.bump.nextId = s.nextId + 1 := rfl
@[simp] theorem after_nextId (k : Clk) (u : Cursor) (i : Instr) : (s.after k n u c i).nextId = s.nextId + 1 := rfl
@[simp] theorem after_agenda (k : Clk) (u : Cursor) (i : Instr) : (s.after k n u c i).agenda =
    s.agenda ++ [{ clk := k, due := s.clkNow k + n, ord := s.nextId, cur := u, arg := c, act := i }] := rfl
@[simp] theorem repost_agenda (k : Clk) (i : Instr) : (s.repost k n c i).agenda =
    s.agenda ++ [{ clk := k, due := s.clkNow k + n, ord := s.ord, cur := s.cur, arg := c, act := i }] := rfl

end

end Sys2Proof.Machine.State
end

