-- ==== Sys2Proof/Laws/Words.lean ====
section
/-! SUPPORT. What the shared operations of the words do: the shape of a word, a result, an access, a trap, a store. -/

namespace Sys2Proof.Machine.State

open Sys2Proof

/-! ### The shape of a word -/

theorem word_go {s : State} {h : Hd} (r : Runs s h) {chk : State → Option Trap} {eff : State → State} (c : chk s = none) :
    s.word h chk eff = .next (eff s) := by
  simp [word, r.1, r.2.1, show s.early _ = none from r.2.2, c]

theorem word_trap {s : State} {h : Hd} (r : Runs s h) {chk : State → Option Trap} {eff : State → State} {t : Trap}
    (c : chk s = some t) : s.word h chk eff = .next (s.takeTrap t) := by
  simp [word, r.1, r.2.1, show s.early _ = none from r.2.2, c]

theorem word_off {s : State} {h : Hd} (j : s.myCtx.job ≠ 0) (e : Settled s [.p h.p.toNat]) (g : s.guard h = false) {chk : State → Option Trap} {eff : State → State} :
    s.word h chk eff = .next (s.tally s.cur.ctx s.cur.col 6 1) := by
  simp [word, j, g, show s.early _ = none from e]

/-- A guard read early traps, whether it would hold or not (R277). -/
theorem word_early {s : State} {h : Hd} (j : s.myCtx.job ≠ 0) (e : ¬ Settled s [.p h.p.toNat]) {chk : State → Option Trap}
    {eff : State → State} : s.word h chk eff = .next (s.takeTrap (.sched 1)) := by
  have : (s.early [.p h.p.toNat]).isSome = true := Option.isSome_iff_ne_none.mpr e
  simp [word, j, this]

theorem rowWord_go {s : State} {h : Hd} (r : RunsHead s h) {chk : State → Option Trap} {eff : State → State} (c : chk s = none) :
    s.rowWord h chk eff = .next (eff s) := by
  simp [rowWord, r.1.1, r.2, word_go r.1 c]

theorem rowWord_trap {s : State} {h : Hd} (r : RunsHead s h) {chk : State → Option Trap} {eff : State → State} {t : Trap}
    (c : chk s = some t) : s.rowWord h chk eff = .next (s.takeTrap t) := by
  simp [rowWord, r.1.1, r.2, word_trap r.1 c]

theorem rowWord_other {s : State} {h : Hd} (j : s.myCtx.job ≠ 0) (n : s.cur.col ≠ 0) {chk : State → Option Trap} {eff : State → State} :
    s.rowWord h chk eff = .next s := by
  simp [rowWord, j, n]

/-- A word whose context holds a job goes on: it reads its guard early, is nullified, takes a trap or has its effect. -/
theorem word_cases {s t : State} {h : Hd} {chk : State → Option Trap} {eff : State → State} (e : s.word h chk eff = .next t) :
    (¬ Settled s [.p h.p.toNat] ∧ t = s.takeTrap (.sched 1)) ∨
      (Settled s [.p h.p.toNat] ∧ s.guard h = false ∧ t = s.tally s.cur.ctx s.cur.col 6 1) ∨
      (Runs s h ∧ ∃ p, chk s = some p ∧ t = s.takeTrap p) ∨ (Runs s h ∧ chk s = none ∧ t = eff s) := by
  unfold word at e
  split at e
  · simp at e
  · rename_i j
    split at e
    · rename_i q
      exact .inl ⟨Option.isSome_iff_ne_none.mp q, by simpa using e.symm⟩
    · rename_i q
      have q : Settled s [.p h.p.toNat] := by simpa [Settled] using q
      split at e
      · rename_i g
        split at e
        · rename_i p c
          exact .inr (.inr (.inl ⟨⟨j, g, q⟩, p, c, by simpa using e.symm⟩))
        · rename_i c
          exact .inr (.inr (.inr ⟨⟨j, g, q⟩, c, by simpa using e.symm⟩))
      · rename_i g
        exact .inr (.inl ⟨q, by simpa using g, by simpa using e.symm⟩)

/-! ### Results and accesses -/

theorem landId_eq (s : State) (id n : Nat) (ws : List RegWrite) (fl : BitVec 5) : s.landId id n ws fl = withResult s id n ws fl := rfl

theorem land_eq (s : State) (n : Nat) (ws : List RegWrite) (fl : BitVec 5) : s.land n ws fl = withResult s 0 n ws fl := rfl

theorem access_eq (s : State) (n id : Nat) (o : AccessOp) :
    s.access n id o = withEntry s n 0 (.deferredAccessPerform { id := id, op := o }) := rfl

theorem access_enters (s : State) (n id : Nat) (o : AccessOp) : Enters s (s.access n id o) n id o :=
  ⟨_, by simp [access, afterMe, after]; exact .inr rfl, rfl, rfl, rfl, rfl⟩

theorem landId_lands (s : State) (id n : Nat) (ws : List RegWrite) (fl : BitVec 5) : Lands s (s.landId id n ws fl) n id ws fl :=
  ⟨_, by simp [landId, afterMe, after]; exact .inr rfl, rfl, rfl, rfl, rfl⟩

theorem withResult_same (s : State) (id n : Nat) (ws : List RegWrite) (fl : BitVec 5) : SameData s (withResult s id n ws fl) :=
  ⟨rfl, fun _ => rfl⟩

/-! ### Counters -/

/-- Counting an event changes the performance counters alone. -/
theorem tally_eq (s : State) (c col code n : Nat) : ∃ p, s.tally c col code n = { s with perf := p } := by
  unfold tally
  split
  · exact ⟨s.perf, rfl⟩
  · generalize List.range 8 = l
    suffices ∀ t : State, (∃ p, t = { s with perf := p }) → ∃ p, l.foldl _ t = { s with perf := p } from this s ⟨s.perf, rfl⟩
    induction l with
    | nil => exact fun t h => h
    | cons i l ih =>
      rintro t ⟨p, rfl⟩
      rw [List.foldl_cons]
      apply ih
      dsimp only
      split_ifs
      all_goals exact ⟨_, rfl⟩

theorem tally_none (s : State) (c col code n : Nat) (h : s.perf.rows = []) : s.tally c col code n = s := by
  simp [tally, h]

@[simp] theorem tally_cores (s : State) (c col code n : Nat) : (s.tally c col code n).cores = s.cores := by
  obtain ⟨p, h⟩ := tally_eq s c col code n; rw [h]
@[simp] theorem tally_mem (s : State) (c col code n : Nat) : (s.tally c col code n).mem = s.mem := by
  obtain ⟨p, h⟩ := tally_eq s c col code n; rw [h]
@[simp] theorem tally_ctxs (s : State) (c col code n : Nat) : (s.tally c col code n).ctxs = s.ctxs := by
  obtain ⟨p, h⟩ := tally_eq s c col code n; rw [h]
@[simp] theorem tally_jobs (s : State) (c col code n : Nat) : (s.tally c col code n).jobs = s.jobs := by
  obtain ⟨p, h⟩ := tally_eq s c col code n; rw [h]
@[simp] theorem tally_agenda (s : State) (c col code n : Nat) : (s.tally c col code n).agenda = s.agenda := by
  obtain ⟨p, h⟩ := tally_eq s c col code n; rw [h]

/-! ### Traps: no register and no byte changes -/

/-- A fold of steps that keep a measure keeps it. -/
theorem foldl_keeps {α β : Type} (m : State → β) (f : State → α → State) (h : ∀ t x, m (f t x) = m t) (l : List α) (s : State) :
    m (l.foldl f s) = m s := by
  induction l generalizing s with
  | nil => rfl
  | cons x l ih => rw [List.foldl_cons, ih, h]

/-- What a freeze of one context keeps. -/
theorem freezeCtx_keeps {β : Type} (m : State → β) (hs : ∀ s n f, m (modStack s n f) = m s)
    (hc : ∀ s n f, m (modChan s n f) = m s) (ha : ∀ s k n c a i, m (after s k n c a i) = m s) (hx : ∀ s c x, m (setCtx s c x) = m s)
    (hg : ∀ (s : State) l, m { s with agenda := l } = m s) (s : State) (c back : Nat) (b : BitVec 5) :
    m (s.freezeCtx c back b) = m s := by
  unfold freezeCtx
  dsimp only
  split
  · rfl
  · rw [hx]
    generalize (if (s.part (s.partOf c)).still = true then 0 else back) = bp
    split
    · rw [hg]
      apply foldl_keeps
      intro t e
      split <;> simp [hs]
    · rw [foldl_keeps m _ ?_, hg]
      · apply foldl_keeps
        intro t e
        split <;> simp [hs]
      · intro t e
        split <;> simp [ha, hc]

@[simp] theorem freezeCtx_cores (s : State) (c back : Nat) (b : BitVec 5) : (s.freezeCtx c back b).cores = s.cores :=
  freezeCtx_keeps State.cores (fun _ _ _ => rfl) (fun _ _ _ => rfl) (fun _ _ _ _ _ _ => rfl) (fun _ _ _ => rfl) (fun _ _ => rfl) ..
@[simp] theorem freezeCtx_mem (s : State) (c back : Nat) (b : BitVec 5) : (s.freezeCtx c back b).mem = s.mem :=
  freezeCtx_keeps State.mem (fun _ _ _ => rfl) (fun _ _ _ => rfl) (fun _ _ _ _ _ _ => rfl) (fun _ _ _ => rfl) (fun _ _ => rfl) ..
@[simp] theorem freezeCtx_jobs (s : State) (c back : Nat) (b : BitVec 5) : (s.freezeCtx c back b).jobs = s.jobs :=
  freezeCtx_keeps State.jobs (fun _ _ _ => rfl) (fun _ _ _ => rfl) (fun _ _ _ _ _ _ => rfl) (fun _ _ _ => rfl) (fun _ _ => rfl) ..

/-- What the freeze of a job keeps. -/
theorem freezeJob_keeps {β : Type} (m : State → β) (hf : ∀ s c b k, m (freezeCtx s c b k) = m s) (hx : ∀ s c x, m (setCtx s c x) = m s)
    (hg : ∀ (s : State) l, m { s with agenda := l } = m s) (s : State) (j back first : Nat) (bits : BitVec 5) :
    m (s.freezeJob j back first bits) = m s := by
  unfold freezeJob
  rw [foldl_keeps m _ (fun t c => hf ..)]
  unfold dropRestart
  rw [foldl_keeps m _ (fun t c => by unfold modCtx; rw [hx]), hg]

@[simp] theorem freezeJob_cores (s : State) (j back first : Nat) (bits : BitVec 5) : (s.freezeJob j back first bits).cores = s.cores :=
  freezeJob_keeps State.cores freezeCtx_cores (fun _ _ _ => rfl) (fun _ _ => rfl) ..
@[simp] theorem freezeJob_mem (s : State) (j back first : Nat) (bits : BitVec 5) : (s.freezeJob j back first bits).mem = s.mem :=
  freezeJob_keeps State.mem freezeCtx_mem (fun _ _ _ => rfl) (fun _ _ => rfl) ..

/-- What keeping a withheld refresh keeps. -/
theorem keepOverdue_keeps {β : Type} (m : State → β) (hc : ∀ s n f, m (modChan s n f) = m s) (s : State) (c : Nat) (t : State) :
    m (s.keepOverdue c t) = m t := foldl_keeps m _ (fun _ _ => hc ..) ..
@[simp] theorem keepOverdue_cores (s : State) (c : Nat) (t : State) : (s.keepOverdue c t).cores = t.cores :=
  keepOverdue_keeps State.cores (fun _ _ _ => rfl) ..
@[simp] theorem keepOverdue_mem (s : State) (c : Nat) (t : State) : (s.keepOverdue c t).mem = t.mem :=
  keepOverdue_keeps State.mem (fun _ _ _ => rfl) ..

@[simp] theorem startSave_cores (s : State) (j : Nat) : (s.startSave j).cores = s.cores := rfl
@[simp] theorem startSave_mem (s : State) (j : Nat) : (s.startSave j).mem = s.mem := rfl
@[simp] theorem logSecure_cores (s : State) (c col j : Nat) : (s.logSecure c col j).cores = s.cores := rfl
@[simp] theorem logSecure_mem (s : State) (c col j : Nat) : (s.logSecure c col j).mem = s.mem := rfl

@[simp] theorem freezeTrap_cores (s : State) (cur : Cursor) (t : Trap) (slot : Slot) (back : Nat) (a : Word) :
    (s.freezeTrap cur t slot back a).cores = s.cores := by
  unfold freezeTrap
  dsimp only
  split
  · rfl
  · split_ifs <;> simp
@[simp] theorem freezeTrap_mem (s : State) (cur : Cursor) (t : Trap) (slot : Slot) (back : Nat) (a : Word) :
    (s.freezeTrap cur t slot back a).mem = s.mem := by
  unfold freezeTrap
  dsimp only
  split
  · rfl
  · split_ifs <;> simp

@[simp] theorem trapAt_cores (s : State) (d : Bool) (cur : Cursor) (slot : Slot) (t : Trap) : (s.trapAt d cur slot t).cores = s.cores := by
  unfold trapAt
  split
  · rfl
  · split <;> simp
@[simp] theorem trapAt_mem (s : State) (d : Bool) (cur : Cursor) (slot : Slot) (t : Trap) : (s.trapAt d cur slot t).mem = s.mem := by
  unfold trapAt
  split
  · rfl
  · split <;> simp

/-- A trap changes no register and no byte. -/
theorem takeTrap_same (s : State) (t : Trap) : SameData s (s.takeTrap t) :=
  ⟨trapAt_cores .., fun a => by simp [takeTrap, byte]⟩

@[simp] theorem takeDeferred_cores (s : State) (cur : Cursor) (slot : Slot) (c b : Nat) :
    (s.takeDeferred cur slot c b).cores = s.cores := by
  unfold takeDeferred
  split
  · simp
  · dsimp only; split <;> rfl
@[simp] theorem takeDeferred_mem (s : State) (cur : Cursor) (slot : Slot) (c b : Nat) :
    (s.takeDeferred cur slot c b).mem = s.mem := by
  unfold takeDeferred
  split
  · simp
  · dsimp only; split <;> rfl

@[simp] theorem blame_cores (s : State) (acc : List (Nat × Nat)) : (s.blame acc).cores = s.cores := by
  unfold blame
  split
  · exact foldl_keeps State.cores _ (fun t e => trapAt_cores ..) _ s
  · rfl
@[simp] theorem blame_mem (s : State) (acc : List (Nat × Nat)) : (s.blame acc).mem = s.mem := by
  unfold blame
  split
  · exact foldl_keeps State.mem _ (fun t e => trapAt_mem ..) _ s
  · rfl

/-- The conflicts that an access raises change no register and no byte. -/
theorem placeAcc_same (s : State) (acc : List (Nat × Nat)) : SameData s (s.placeAcc acc) :=
  ⟨blame_cores .., fun a => by simp [placeAcc, byte]⟩

/-- Where no later word of the cycle meets the accesses, placing them changes nothing. -/
theorem placeAcc_quiet {s : State} {acc : List (Nat × Nat)} (h : NoLater s acc) : s.placeAcc acc = s := by
  unfold placeAcc blame
  rcases h with h | h
  · simp [h]
  · have : (s.clashes ((acc.map fun x => (x.1, bankOfSlot x.2)).eraseDups)).filter (fun e => !(s.ahead e)) = [] := by
      rw [List.filter_eq_nil_iff]
      intro e he
      simp [h e he]
    simp [this]

/-! ### Register writes -/

/-- A write of a scalar register; s0 stays (R49). -/
theorem write_s (k : CoreCtx) (n m : Nat) (x : Word) :
    (CoreCtx.write k (.s n x)).s.get 0#64 m = if m = n ∧ n ≠ 0 then x else k.s.get 0#64 m := by
  by_cases h : n = 0 <;> simp [CoreCtx.write, h, Tbl.get_put]

/-- A write of a vector register under a mask of bits (R298). -/
theorem write_v (k : CoreCtx) (n j : Nat) (m x : Block) :
    (CoreCtx.write k (.v n m x)).v.get 0#32768 j = if j = n then merged (k.v.get 0#32768 n) m x else k.v.get 0#32768 j := by
  simp [CoreCtx.write, merged, Tbl.get_put]

/-- A write of a mask register under a mask of bits; k0 stays (R50). -/
theorem write_k (k : CoreCtx) (n j : Nat) (m x : Mask) :
    (CoreCtx.write k (.k n m x)).k.get 0#1024 j = if j = n ∧ n ≠ 0 then merged (k.k.get 0#1024 n) m x else k.k.get 0#1024 j := by
  by_cases h : n = 0 <;> simp [CoreCtx.write, merged, h, Tbl.get_put]

end Sys2Proof.Machine.State
end

