-- ==== Sys2Proof/Laws/Vector.lean ====
section
/-! SUPPORT. Register images as packed fields, and what the shared operations of the scalar and vector words leave. -/

namespace Sys2Proof.Machine

open Sys2Proof State

/-! ### Packed fields -/

theorem packList_get (w : Nat) (l : List Nat) (i : Nat) : packList w l / 2 ^ (w * i) % 2 ^ w = l.getD i 0 % 2 ^ w := by
  have pos : 0 < 2 ^ w := Nat.two_pow_pos w
  induction l generalizing i with
  | nil => simp [packList]
  | cons x l ih =>
    have e : packList w (x :: l) = x % 2 ^ w + packList w l * 2 ^ w := by simp [packList, Nat.shiftLeft_eq]
    rw [e]
    cases i with
    | zero => simp
    | succ i =>
      have : 2 ^ (w * (i + 1)) = 2 ^ w * 2 ^ (w * i) := by rw [← Nat.pow_add]; congr 1; ring
      rw [this, ← Nat.div_div_eq_div_mul, Nat.add_mul_div_right _ _ pos, Nat.div_eq_of_lt (Nat.mod_lt _ pos), Nat.zero_add, ih]
      simp

theorem packFrom_lt (w : Nat) (f : Nat → Nat) (n : Nat) : packFrom w f n < 2 ^ (w * n) := by
  induction n with
  | zero => simp [packFrom]
  | succ n ih =>
    have h : f n % 2 ^ w + 1 ≤ 2 ^ w := Nat.mod_lt _ (Nat.two_pow_pos w)
    have e : 2 ^ (w * (n + 1)) = 2 ^ w * 2 ^ (w * n) := by rw [← Nat.pow_add]; congr 1; ring
    simp only [packFrom, Nat.shiftLeft_eq, e]
    nlinarith [Nat.mul_le_mul_right (2 ^ (w * n)) h]

theorem packFrom_get (w : Nat) (f : Nat → Nat) (n i : Nat) (h : i < n) :
    packFrom w f n / 2 ^ (w * i) % 2 ^ w = f i % 2 ^ w := by
  induction n with
  | zero => omega
  | succ n ih =>
    simp only [packFrom, Nat.shiftLeft_eq]
    rcases Nat.lt_succ_iff_lt_or_eq.1 h with h | rfl
    · have e : 2 ^ (w * n) = 2 ^ (w * i) * (2 ^ w * 2 ^ (w * (n - i - 1))) := by
        rw [← Nat.pow_add, ← Nat.pow_add]; congr 1
        obtain ⟨k, rfl⟩ := Nat.exists_eq_add_of_lt h
        rw [show i + k + 1 - i - 1 = k by omega]; ring
      rw [e, show f n % 2 ^ w * (2 ^ (w * i) * (2 ^ w * 2 ^ (w * (n - i - 1)))) =
        2 ^ (w * i) * (2 ^ w * (f n % 2 ^ w * 2 ^ (w * (n - i - 1)))) by ring,
        Nat.add_mul_div_left _ _ (Nat.two_pow_pos _), Nat.add_mul_mod_self_left, ih h]
    · rw [Nat.add_mul_div_right _ _ (Nat.two_pow_pos _), Nat.div_eq_of_lt (packFrom_lt ..)]
      simp

/-! ### Elements of a register image -/

theorem perRow_mul {w : Nat} (h : IsWidth w) : w * perRow w = 2048 := by
  rcases h with rfl | rfl | rfl | rfl <;> rfl

theorem tyBits_width (t : BitVec 2) : IsWidth (tyBits t) := by
  unfold tyBits IsWidth
  split <;> simp

/-- An element is its field of the packed number. -/
theorem elem_ofNat {w : Nat} (h : IsWidth w) (x : Nat) {r j : Nat} (hr : r < 16) (hj : j < perRow w) :
    elem w (BitVec.ofNat 32768 x) r j = x / 2 ^ (w * (perRow w * r + j)) % 2 ^ w := by
  have e : elemPos w r j = w * (perRow w * r + j) := by
    unfold elemPos; rw [Nat.mul_add, ← Nat.mul_assoc, perRow_mul h]
  have hp : elemPos w r j + w ≤ 32768 := by
    have : w * j + w ≤ 2048 := by
      have := Nat.mul_le_mul_left w (Nat.succ_le_of_lt hj)
      rwa [perRow_mul h, Nat.mul_succ] at this
    unfold elemPos; omega
  unfold elem
  rw [← e, BitVec.toNat_ofNat, Nat.shiftRight_eq_div_pow]
  have : 2 ^ 32768 = 2 ^ elemPos w r j * (2 ^ w * 2 ^ (32768 - elemPos w r j - w)) := by
    rw [← Nat.pow_add, ← Nat.pow_add]; congr 1; omega
  rw [this, Nat.mod_mul_right_div_self, Nat.mod_mul_right_mod]

theorem elem_packList {w : Nat} (h : IsWidth w) (l : List Nat) {r j : Nat} (hr : r < 16) (hj : j < perRow w) :
    elem w (BitVec.ofNat 32768 (packList w l)) r j = l.getD (perRow w * r + j) 0 % 2 ^ w := by
  rw [elem_ofNat h _ hr hj, packList_get]

theorem elem_packBlock {w : Nat} (h : IsWidth w) (f : Nat → Nat → Nat) {r j : Nat} (hr : r < 16) (hj : j < perRow w) :
    elem w (packBlock w f) r j = f r j % 2 ^ w := by
  have hp : 0 < perRow w := Nat.lt_of_le_of_lt (Nat.zero_le j) hj
  unfold packBlock
  rw [elem_ofNat h _ hr hj, packFrom_get]
  · simp only [Nat.mul_add_div hp, Nat.div_eq_of_lt hj, Nat.mul_add_mod, Nat.mod_eq_of_lt hj, Nat.add_zero]
  · nlinarith [Nat.mul_le_mul_left (perRow w) (Nat.succ_le_of_lt hr)]

theorem flats_length (w : Nat) : (flats w).length = 16 * perRow w := by simp [flats]

theorem flats_get {w r j : Nat} (hr : r < 16) (hj : j < perRow w) : (flats w)[perRow w * r + j]? = some (r, j) := by
  have hp : 0 < perRow w := Nat.lt_of_le_of_lt (Nat.zero_le j) hj
  have hlt : perRow w * r + j < 16 * perRow w := by nlinarith [Nat.mul_le_mul_left (perRow w) (Nat.succ_le_of_lt hr)]
  simp [flats, List.getElem?_range hlt, Nat.mul_add_div hp, Nat.div_eq_of_lt hj, Nat.mod_eq_of_lt hj]

/-- What an elementwise result writes: the value at every selected element, and no other bit (R298). -/
theorem lanes_law {w : Nat} (h : IsWidth w) (k : Mask) (d : Nat) (f : Nat → Nat → Nat × BitVec 5) :
    ∃ m x, lanes w k d f = ([.v d m x], laneFlags w k fun r j => (f r j).2) ∧ ∀ r < 16, ∀ j < perRow w,
      elem w m r j = (if sel k w r j then 2 ^ w - 1 else 0) ∧ (sel k w r j → elem w x r j = (f r j).1 % 2 ^ w) := by
  have zip : (flats w).zip ((flats w).map fun p => if sel k w p.1 p.2 then f p.1 p.2 else (0, 0#5)) =
      (flats w).map fun p => (p, if sel k w p.1 p.2 then f p.1 p.2 else (0, 0#5)) := by
    generalize flats w = l
    induction l with
    | nil => rfl
    | cons p l ih => simp [ih]
  refine ⟨_, _, rfl.trans (congrArg₂ Prod.mk rfl ?_), ?_⟩
  · show orFlags _ = _
    unfold laneFlags
    rw [zip, List.map_map]
    congr 1
    refine List.map_congr_left fun p _ => ?_
    dsimp only [Function.comp]
    split <;> simp_all
  · intro r hr j hj
    have g := flats_get hr hj
    refine ⟨?_, fun hs => ?_⟩
    · rw [elem_packList h _ hr hj, zip, List.map_map]
      simp only [List.getD_eq_getElem?_getD, List.getElem?_map, g, Option.map_some, Option.getD_some, Function.comp]
      split
      · exact Nat.mod_eq_of_lt (Nat.sub_lt (Nat.two_pow_pos w) Nat.one_pos)
      · exact Nat.zero_mod _
    · rw [elem_packList h _ hr hj, List.map_map]
      simp [List.getD_eq_getElem?_getD, List.getElem?_map, g, hs]

/-! ### Shared operations of the words -/

theorem scalarWord_eq {s : State} {h : Hd} {rd : List Reg} (r : Runs s h) (st : Settled s rd) (lat : Nat)
    (res : State → List RegWrite × BitVec 5) :
    scalarWord h lat rd res s = .next (withResult s 0 lat (res s).1 (res s).2) :=
  word_go (chk := fun s => s.early rd) r st

theorem scalarInt_eq {s : State} {h : Hd} {rd : List Reg} (r : Runs s h) (st : Settled s rd) (lat : Nat) (d : BitVec 5)
    (x : State → Word) : scalarInt h lat d rd x s = .next (withResult s 0 lat [.s d.toNat (x s)] 0#5) :=
  scalarWord_eq r st lat fun s => ([.s d.toNat (x s)], 0#5)

theorem vecWord_eq {s : State} {h : Hd} {rd : List Reg} (r : Runs s h) (st : Settled s rd) (lat : Nat)
    (res : State → List RegWrite × BitVec 5) :
    vecWord h lat rd res s = .next (withResult s 0 lat (res s).1 (res s).2) :=
  word_go (chk := fun s => s.early rd) r st

/-- An elementwise word writes its value at every selected element and nothing else. -/
theorem vecWord_lanes {s : State} {h : Hd} {rd : List Reg} (r : Runs s h) (st : Settled s rd) (lat w d : Nat) (hw : IsWidth w) (k : Mask)
    (f : Nat → Nat → Nat × BitVec 5) (res : State → List RegWrite × BitVec 5) (e : res s = lanes w k d f) :
    ∃ u, vecWord h lat rd res s = .next u ∧
      Elementwise s u lat w d k (fun r j => (f r j).1) (laneFlags w k fun r j => (f r j).2) := by
  obtain ⟨m, x, hl, he⟩ := lanes_law hw k d f
  exact ⟨_, vecWord_eq r st lat res, m, x, by rw [e, hl], he⟩

/-- A scalar load with a good address and nothing in the way: its access and its landing are entered, nothing else changes but
what the placing of the access does (R285). -/
theorem scalarLoad_eq {s : State} {h : Hd} (r : Runs s h) {d a : BitVec 5} {i : BitVec 8} {z : Nat} {sg : Bool}
    (c : scalarAccess s (memEa s a i z) z 2 a [] false = none) : scalarLoad h d a i z sg s =
    .next (((s.bump.placeAcc [(2, slotOf (valOf (s.ownAddr (memEa s a i z) z)))]).access 2 s.nextId
      (.load (valOf (s.ownAddr (memEa s a i z) z)) z sg d.toNat)).landId s.nextId 4 [.s d.toNat 0#64] 0#5) := word_go r c

/-- The same of a store. -/
theorem scalarStore_eq {s : State} {h : Hd} (r : Runs s h) {d a : BitVec 5} {i : BitVec 8} {z : Nat}
    (c : scalarAccess s (memEa s a i z) z 2 a [.s d.toNat] false = none) : scalarStore h d a i z s =
    .next ((s.placeAcc [(2, slotOf (valOf (s.ownAddr (memEa s a i z) z)))]).access 2 0
      (.store { addr := valOf (s.ownAddr (memEa s a i z) z), len := z, val := (s.rs d).toNat % 2 ^ (8 * z) })) := word_go r c

end Sys2Proof.Machine
end

