-- ==== Sys2Proof/Tests/Slice0.lean ====
section
/-! SUPPORT. Tests: ill-formed instructions are refused, every word decodes to what it stands for, single steps on small states give
the values of the spec, and every statement's hypotheses are met together. -/

open Sys2Proof Sys2Proof.Machine Sys2Proof.Machine.State

namespace Sys2Proof.Tests

set_option Elab.async false

/-! ### Small states -/

/-- S = 1, unguarded. -/
def U : Hd := ⟨true, false, 0#3⟩
/-- S = 1, under the guard !p0, which never holds. -/
def off : Hd := ⟨true, true, 0#3⟩
/-- Job 1 runs in the P context of brim row 0, its head core executes a one-word bundle at word address 1,024. -/
def base : State :=
  { State.reset with
    cur := { ctx := 0, col := 0, slot := .vec0, bundle := 1024, nw := 1, timed := true, cmode := false, seq := 1 }
    jobs := Tbl.empty.put Job.init 1 { Job.init with record := 65536#2048, state := .running, slabs := BitVec.allOnes 24576, extent := 8192 }
    ctxs := Tbl.empty.put Ctx.init 0 { Ctx.init with job := 1, timed := true, pc := 1025 } }
/-- The same with TIMED = 0. -/
def loose : State := { base with cur := { base.cur with timed := false } }
/-- Core 3 of the row executes. -/
def other : State := { base with cur := { base.cur with col := 3 } }
/-- The Q context of the row executes for the job. -/
def asQ : State :=
  { base with cur := { base.cur with ctx := 1, timed := false }, ctxs := Tbl.empty.put Ctx.init 1 { Ctx.init with job := 1, pc := 1025 } }
/-- The base state with other registers on the executing core. -/
def regs (f : CoreCtx → CoreCtx) : State := base.modCore 0 0 f
/-- s1 and s2. -/
def two (x y : Word) : State := regs fun k => { k with s := ⟨[(1, x), (2, y)]⟩ }
/-- v1, v2 and the mask k1. -/
def vecs (x y : Block) (m : Mask) : State := regs fun k => { k with v := ⟨[(1, x), (2, y)]⟩, k := ⟨[(1, m)]⟩ }
/-- The base state with another row context. -/
def inRow (f : Ctx → Ctx) : State := base.modCtx 0 f
/-- A scratchpad address of the executing core's own stack. -/
def spad (n : Nat) : Word := BitVec.ofNat 64 (2 ^ 63 + 2 ^ 32 + n)

/-- The result that the last entry of a next state lands: its cycle, its writes and its flags. -/
def flight (o : Host.Outcome State Fault Refusal) : Option (Nat × List RegWrite × BitVec 5) := match o with
  | .next t => match t.agenda.getLast? with
    | some e => match e.act with
      | .resultLanding f => some (e.due, f.writes, f.flags)
      | _ => none
    | none => none
  | _ => none
/-- One element of the first vector write of that result: its mask and its value. -/
def lane (o : Host.Outcome State Fault Refusal) (w r j : Nat) : Option (Nat × Nat) := match flight o with
  | some (_, .v _ m x :: _, _) => some (elem w m r j, elem w x r j)
  | _ => none
/-- A measure of a next state. -/
def after? {α : Type} (o : Host.Outcome State Fault Refusal) (f : State → α) : Option α := match o with
  | .next t => some (f t)
  | _ => none
/-- CAUSE and subcode of the trap that a next state has taken. -/
def trapped (o : Host.Outcome State Fault Refusal) : Option (Nat × Nat) :=
  after? o fun t => ((t.ctx 0).trapinfo.toNat % 256, (t.ctx 0).trapinfo.toNat / 256 % 256)

/-! ### Decoding -/

/-- Words of the integer words, from the encodings of R260 to R264 and the entries' examples. -/
theorem test_decode_integer :
    decodeWord 0x80001844#32 = .ok (.add U 3 1 2 false) ∧
    decodeWord 0x8001214D#32 = .ok (.sub U 4 5 6 true) ∧
    decodeWord 0x80023A12#32 = .ok (.mul U 7 8 9 false) ∧
    decodeWord 0x8003298F#32 = .ok (.mulh U 5 6 7 true) ∧
    decodeWord 0x800452D8#32 = .ok (.div U 10 11 12 false) ∧
    decodeWord 0x80052213#32 = .ok (.divu U 4 8 9 true) ∧
    decodeWord 0x80066B9F#32 = .ok (.rem U 13 14 15 true) ∧
    decodeWord 0x80078464#32 = .ok (.remu U 16 17 18 false) ∧
    decodeWord 0x80089D2B#32 = .ok (.and U 19 20 21 true) ∧
    decodeWord 0x8009B5F0#32 = .ok (.or U 22 23 24 false) ∧
    decodeWord 0x800ACEB7#32 = .ok (.xor U 25 26 27 true) ∧
    decodeWord 0x800BE77C#32 = .ok (.shl U 28 29 30 false) ∧
    decodeWord 0x800CF845#32 = .ok (.shr U 31 1 2 true) ∧
    decodeWord 0x800D190A#32 = .ok (.sar U 3 4 5 false) ∧
    decodeWord 0x800E31D1#32 = .ok (.min U 6 7 8 true) ∧
    decodeWord 0x800F4A96#32 = .ok (.max U 9 10 11 false) ∧
    decodeWord 0x801011C0#32 = .ok (.clz U 2 7 false) ∧
    decodeWord 0x80111A01#32 = .ok (.popc U 3 8 true) := by
  decide

/-- Words of the immediate words, from the encodings of R260 to R264 and the entries' examples. -/
theorem test_decode_immediate :
    decodeWord 0x820041FF#32 = .ok (.addi U 2 1 0xFF) ∧
    decodeWord 0x82006301#32 = .ok (.addi U 3 3 1) ∧
    decodeWord 0x82048580#32 = .ok (.muli U 4 5 0x80) ∧
    decodeWord 0x8208857F#32 = .ok (.andi U 4 5 0x7f) ∧
    decodeWord 0x820C8511#32 = .ok (.ori U 4 5 0x11) ∧
    decodeWord 0x821085FE#32 = .ok (.xori U 4 5 0xfe) ∧
    decodeWord 0x8214C721#32 = .ok (.shli U 6 7 33) ∧
    decodeWord 0x8218C721#32 = .ok (.shri U 6 7 33) ∧
    decodeWord 0x821CC721#32 = .ok (.sari U 6 7 33) ∧
    decodeWord 0x8407FFFE#32 = .ok (.li U 7 0xFFFE) ∧
    decodeWord 0x8607BEEF#32 = .ok (.lis U 7 0xBEEF) := by
  decide

/-- Words of the floating words, from the encodings of R260 to R264 and the entries' examples. -/
theorem test_decode_floating :
    decodeWord 0x88000886#32 = .ok (.fadd U 1 2 3 false) ∧
    decodeWord 0x8801214D#32 = .ok (.fsub U 4 5 6 true) ∧
    decodeWord 0x88023A12#32 = .ok (.fmul U 7 8 9 false) ∧
    decodeWord 0x880352D8#32 = .ok (.fma U 10 11 12 false) ∧
    decodeWord 0x88047B1C#32 = .ok (.fdiv U 15 12 14 false) ∧
    decodeWord 0x88060887#32 = .ok (.fmin U 1 2 3 true) ∧
    decodeWord 0x8807214C#32 = .ok (.fmax U 4 5 6 false) ∧
    decodeWord 0x88081043#32 = .ok (.fcvtif U 2 1 1 true) ∧
    decodeWord 0x88093A06#32 = .ok (.fcvtfi U 7 8 3 false) ∧
    decodeWord 0x88051901#32 = .ok (.fsqrt U 3 4 true) ∧
    decodeWord 0x880A2980#32 = .ok (.fcvtw U 5 6 false) ∧
    decodeWord 0x880B3A01#32 = .ok (.fclass U 7 8 true) := by
  decide

/-- Words of the scalar memory words, from the encodings of R260 to R264 and the entries' examples. -/
theorem test_decode_scalar_memory :
    decodeWord 0x8A00C402#32 = .ok (.ld U 6 4 2) ∧
    decodeWord 0x8A05A500#32 = .ok (.lw U 13 5 0) ∧
    decodeWord 0x8A08E8FF#32 = .ok (.lwu U 7 8 0xFF) ∧
    decodeWord 0x8A0D2A01#32 = .ok (.st U 9 10 1) ∧
    decodeWord 0x8A10C4FE#32 = .ok (.sw U 6 4 0xFE) := by
  decide

/-- Words of the atomic words, from the encodings of R260 to R264 and the entries' examples. -/
theorem test_decode_atomic :
    decodeWord 0x8C00290C#32 = .ok (.amoadd U 0 5 4 6 false) ∧
    decodeWord 0x8C05290D#32 = .ok (.amoand U 1 5 4 6 true) ∧
    decodeWord 0x8C0A290C#32 = .ok (.amoor U 2 5 4 6 false) ∧
    decodeWord 0x8C0F290D#32 = .ok (.amoxor U 3 5 4 6 true) ∧
    decodeWord 0x8C10290C#32 = .ok (.amomin U 0 5 4 6 false) ∧
    decodeWord 0x8C15290D#32 = .ok (.amomax U 1 5 4 6 true) ∧
    decodeWord 0x8C1A290C#32 = .ok (.amoswap U 2 5 4 6 false) ∧
    decodeWord 0x8C1F290D#32 = .ok (.amocas U 3 5 4 6 true) := by
  decide

/-- Words of the transfer words, from the encodings of R260 to R264 and the entries' examples. -/
theorem test_decode_transfer :
    decodeWord 0x8E000002#32 = .ok (.j U 2) ∧
    decodeWord 0x8E046005#32 = .ok (.jz U 3 5) ∧
    decodeWord 0x8E087FFA#32 = .ok (.jnz U 3 0x1FFA) ∧
    decodeWord 0x8E0C4007#32 = .ok (.jp U 2 7) ∧
    decodeWord 0x8E104005#32 = .ok (.jany true 2 5) ∧
    decodeWord 0x8E147FFF#32 = .ok (.jall true 3 0x1FFF) ∧
    decodeWord 0x8E1BE028#32 = .ok (.call U 31 40) ∧
    decodeWord 0x8E1FE000#32 = .ok (.ret U 31) ∧
    decodeWord 0x90000503#32 = .ok (.loop U 5 3) ∧
    decodeWord 0x90046404#32 = .ok (.loopi U 3 4 4) ∧
    decodeWord 0x90080000#32 = .ok (.lbrk U) := by
  decide

/-- Words of the predicate words, from the encodings of R260 to R264 and the entries' examples. -/
theorem test_decode_predicate :
    decodeWord 0x92000844#32 = .ok (.peq U 1 1 2 false) ∧
    decodeWord 0x92011045#32 = .ok (.pne U 2 1 2 true) ∧
    decodeWord 0x92021844#32 = .ok (.plt U 3 1 2 false) ∧
    decodeWord 0x92032045#32 = .ok (.ple U 4 1 2 true) ∧
    decodeWord 0x92042844#32 = .ok (.pltu U 5 1 2 false) ∧
    decodeWord 0x92053045#32 = .ok (.pfeq U 6 1 2 true) ∧
    decodeWord 0x9206081A#32 = .ok (.pflt U 1 0 13 false) ∧
    decodeWord 0x92070886#32 = .ok (.pand U 1 2 3) ∧
    decodeWord 0x9208214C#32 = .ok (.por U 4 5 6) ∧
    decodeWord 0x92093840#32 = .ok (.pnot U 7 1) := by
  decide

/-- Words of the vector integer words, from the encodings of R260 to R264 and the entries' examples. -/
theorem test_decode_vector_integer :
    decodeWord 0xA0001235#32 = .ok (.vadd U 1 2 3 1 1) ∧
    decodeWord 0xA0011246#32 = .ok (.vsub U 1 2 4 1 2) ∧
    decodeWord 0xA002125B#32 = .ok (.vmul U 1 2 5 2 3) ∧
    decodeWord 0xA003126C#32 = .ok (.vmin U 1 2 6 3 0) ∧
    decodeWord 0xA0041271#32 = .ok (.vmax U 1 2 7 0 1) ∧
    decodeWord 0xA0051206#32 = .ok (.vand U 1 2 0 1 2) ∧
    decodeWord 0xA006121B#32 = .ok (.vor U 1 2 1 2 3) ∧
    decodeWord 0xA007122C#32 = .ok (.vxor U 1 2 2 3 0) ∧
    decodeWord 0xA0081231#32 = .ok (.vshl U 1 2 3 0 1) ∧
    decodeWord 0xA0091246#32 = .ok (.vshr U 1 2 4 1 2) ∧
    decodeWord 0xA00A125B#32 = .ok (.vsar U 1 2 5 2 3) ∧
    decodeWord 0xA00BB9A8#32 = .ok (.vceq U 11 9 10 2 0) ∧
    decodeWord 0xA00C1271#32 = .ok (.vclt U 1 2 7 0 1) ∧
    decodeWord 0xA00D4562#32 = .ok (.vsel U 4 5 6 0 2) := by
  decide

/-- Words of the vector floating words, from the encodings of R260 to R264 and the entries' examples. -/
theorem test_decode_vector_floating :
    decodeWord 0xA20089A1#32 = .ok (.vfadd U 8 9 10 0 1) ∧
    decodeWord 0xA20189B6#32 = .ok (.vfsub U 8 9 11 1 2) ∧
    decodeWord 0xA20289CB#32 = .ok (.vfmul U 8 9 12 2 3) ∧
    decodeWord 0xA2031230#32 = .ok (.vfma U 1 2 3 0 0) ∧
    decodeWord 0xA20489A1#32 = .ok (.vfmin U 8 9 10 0 1) ∧
    decodeWord 0xA20589B6#32 = .ok (.vfmax U 8 9 11 1 2) ∧
    decodeWord 0xA20689CB#32 = .ok (.vfdiv U 8 9 12 2 3) ∧
    decodeWord 0xA2079A0D#32 = .ok (.vfsqrt U 9 10 3 1) ∧
    decodeWord 0xA2089A01#32 = .ok (.vfrsq U 9 10 0 1) ∧
    decodeWord 0xA2095600#32 = .ok (.vfexp2 U 5 6 0 0) ∧
    decodeWord 0xA20A9A09#32 = .ok (.vflog2 U 9 10 2 1) ∧
    decodeWord 0xA20B89DC#32 = .ok (.vfceq U 8 9 13 3 0) ∧
    decodeWord 0xA20CACDD#32 = .ok (.vfclt U 10 12 13 3 1) ∧
    decodeWord 0xA20D89B6#32 = .ok (.vfcle U 8 9 11 1 2) := by
  decide

/-- Words of the vector conversion words, from the encodings of R260 to R264 and the entries' examples. -/
theorem test_decode_vector_conversion :
    decodeWord 0xA4001291#32 = .ok (.vcvt U 1 2 9 0 1) ∧
    decodeWord 0xA4013476#32 = .ok (.vcvti U 3 4 7 1 2) ∧
    decodeWord 0xA40256CB#32 = .ok (.vcvtf U 5 6 12 2 3) ∧
    decodeWord 0xA4031232#32 = .ok (.vqmx U 1 2 3 0 2) ∧
    decodeWord 0xA4044564#32 = .ok (.vdqmx U 4 5 6 1 0) := by
  decide

/-- Words of the vector axis words, from the encodings of R260 to R264 and the entries' examples. -/
theorem test_decode_vector_axis :
    decodeWord 0xA6001230#32 = .ok (.vrotr U 1 2 3 0 0) ∧
    decodeWord 0xA6019AB4#32 = .ok (.vbcr U 9 10 11 1 0) ∧
    decodeWord 0xA6024504#32 = .ok (.vsumr U 4 5 false 1 0) ∧
    decodeWord 0xA6034510#32 = .ok (.vmaxr U 4 5 true 0 0) ∧
    decodeWord 0xA6046700#32 = .ok (.vscanr U 6 7 false 0 0) ∧
    decodeWord 0xA6056120#32 = .ok (.vlrecr U 6 1 2 0 0) ∧
    decodeWord 0xA8001230#32 = .ok (.vrotc U 1 2 3 0 0) ∧
    decodeWord 0xA8019AB0#32 = .ok (.vbcc U 9 10 11 0 0) ∧
    decodeWord 0xA8022308#32 = .ok (.vsumc U 2 3 false 2 0) ∧
    decodeWord 0xA8032318#32 = .ok (.vmaxc U 2 3 true 2 0) ∧
    decodeWord 0xA8042300#32 = .ok (.vscanc U 2 3 false 0 0) ∧
    decodeWord 0xA8052304#32 = .ok (.vtrn U 2 3 1 0) := by
  decide

/-- Words of the attention and sparse words, from the encodings of R260 to R264 and the entries' examples. -/
theorem test_decode_attention_and_sparse :
    decodeWord 0xAA000240#32 = .ok (.vmerge3 U 0 2 4) ∧
    decodeWord 0xAA011231#32 = .ok (.vtmask U 1 2 3 1) ∧
    decodeWord 0xAA024570#32 = .ok (.vsmx U 4 5 7) ∧
    decodeWord 0xAE002120#32 = .ok (.visect U 2 1 2) ∧
    decodeWord 0xAE013401#32 = .ok (.vcomp U 3 4 0 1) ∧
    decodeWord 0xAE023401#32 = .ok (.vexpd U 3 4 0 1) ∧
    decodeWord 0xAE034501#32 = .ok (.vconf U 4 5 0 1) ∧
    decodeWord 0xAE046120#32 = .ok (.vsegs U 6 1 2 0 0) := by
  decide

/-- Words of the vector memory words, from the encodings of R260 to R264 and the entries' examples. -/
theorem test_decode_vector_memory :
    decodeWord 0xAC001200#32 = .ok (.vld U 1 4 0 0) ∧
    decodeWord 0xAC019310#32 = .ok (.vst U 9 6 2 0) ∧
    decodeWord 0xAC022508#32 = .ok (.vldt U 2 10 1 0) ∧
    decodeWord 0xAC033290#32 = .ok (.vlds U 3 5 2 0) ∧
    decodeWord 0xAC04C2BA#32 = .ok (.vsts U 12 5 7 1) ∧
    decodeWord 0xAC054428#32 = .ok (.vgath U 4 8 5 0) ∧
    decodeWord 0xAC06643C#32 = .ok (.vscat U 6 8 7 2) ∧
    decodeWord 0xAC079450#32 = .ok (.vscatc U 9 8 10 0) ∧
    decodeWord 0xAC081410#32 = .ok (.vscadd U 1 8 2 0) := by
  decide

/-- Words of the vector move words, from the encodings of R260 to R264 and the entries' examples. -/
theorem test_decode_vector_move :
    decodeWord 0xB0001203#32 = .ok (.vmov U 1 2 0 3) ∧
    decodeWord 0xB0019254#32 = .ok (.vmovx U 9 2 5 1 0) ∧
    decodeWord 0xB0023FF4#32 = .ok (.vsplat U 3 0xFF 1 0) ∧
    decodeWord 0xB0034570#32 = .ok (.vins U 4 5 7 0) ∧
    decodeWord 0xB0044570#32 = .ok (.vext U 4 5 7 0) ∧
    decodeWord 0xB0057000#32 = .ok (.vrand U 7 0) := by
  decide

/-- Words of the mask words, from the encodings of R260 to R264 and the entries' examples. -/
theorem test_decode_mask :
    decodeWord 0xB2008500#32 = .ok (.kand U 4 1 2) ∧
    decodeWord 0xB2018500#32 = .ok (.kor U 4 1 2) ∧
    decodeWord 0xB2029280#32 = .ok (.kxor U 4 4 5) ∧
    decodeWord 0xB2036C00#32 = .ok (.knot U 3 3) ∧
    decodeWord 0xB204C800#32 = .ok (.kpop U 6 2) ∧
    decodeWord 0xB2053C00#32 = .ok (.kfirst U 1 7) ∧
    decodeWord 0xB206A024#32 = .ok (.kset U 5 9) := by
  decide

/-- Words of the matrix words, from the encodings of R260 to R264 and the entries' examples. -/
theorem test_decode_matrix :
    decodeWord 0xC00010A2#32 = .ok (.mma U 0 4 5 2) ∧
    decodeWord 0xC00290A4#32 = .ok (.mmaz U 1 4 5 4) ∧
    decodeWord 0xC00518E0#32 = .ok (.mmat U 2 6 7 0) ∧
    decodeWord 0xC0062122#32 = .ok (.mwin U 0 8 9 2) ∧
    decodeWord 0xC00990A8#32 = .ok (.mmax U 3 4 5 8) ∧
    decodeWord 0xC2002961#32 = .ok (.mcsr U 0 10 11 1) ∧
    decodeWord 0xC202A960#32 = .ok (.mbsr U 1 10 11 0) ∧
    decodeWord 0xC20531A4#32 = .ok (.m24 U 2 12 13 4) ∧
    decodeWord 0xC4008061#32 = .ok (.zrd U 1 3 1) ∧
    decodeWord 0xC4028120#32 = .ok (.zwr U 1 9 0) ∧
    decodeWord 0xC4050000#32 = .ok (.zclr U 2) ∧
    decodeWord 0xC4069001#32 = .ok (.esld U 1 4 1) ∧
    decodeWord 0xC6000002#32 = .ok (.amode U 2) ∧
    decodeWord 0xC60218E5#32 = .ok (.mshape U 6 7 5) := by
  decide

/-- Words of the exchange words, from the encodings of R260 to R264 and the entries' examples. -/
theorem test_decode_exchange :
    decodeWord 0xD0002143#32 = .ok (.xch U 4 5 3) ∧
    decodeWord 0xD00021A1#32 = .ok (.xch U 4 6 0x21) ∧
    decodeWord 0xD001214C#32 = .ok (.xchc U 4 5 6) ∧
    decodeWord 0xD0021200#32 = .ok (.xcht U 2 8 0) ∧
    decodeWord 0xD0032000#32 = .ok (.xrot U 4) ∧
    decodeWord 0xD0042240#32 = .ok (.xver U 4 9) ∧
    decodeWord 0xD0042241#32 = .ok (.xverRead U 4 9) := by
  decide

/-- Words of the peel message words, from the encodings of R260 to R264 and the entries' examples. -/
theorem test_decode_peel_message :
    decodeWord 0xD2002001#32 = .ok (.send U 4 1) ∧
    decodeWord 0xD2011001#32 = .ok (.recv U 2 1) ∧
    decodeWord 0xD2021805#32 = .ok (.vfpush U 3 5) ∧
    decodeWord 0xD2034800#32 = .ok (.vfpop U 9 0) ∧
    decodeWord 0xD2043800#32 = .ok (.vffree U 7) := by
  decide

/-- Words of the channel words, from the encodings of R260 to R264 and the entries' examples. -/
theorem test_decode_channel :
    decodeWord 0xD4014043#32 = .ok (.dact U 10 0x43) ∧
    decodeWord 0xD4054000#32 = .ok (.drd U 10) ∧
    decodeWord 0xD4094000#32 = .ok (.dwr U 10) ∧
    decodeWord 0xD40D4006#32 = .ok (.dpre U 10 6) ∧
    decodeWord 0xD4114000#32 = .ok (.dprea U 10) ∧
    decodeWord 0xD4154000#32 = .ok (.dref U 10) := by
  decide

/-- Words of the ring words, from the encodings of R260 to R264 and the entries' examples. -/
theorem test_decode_ring :
    decodeWord 0xD6002143#32 = .ok (.ssbind U 4 5 3) ∧
    decodeWord 0xD6010183#32 = .ok (.ssadv U 6 3) ∧
    decodeWord 0xD6020183#32 = .ok (.ssroll U 6 3) ∧
    decodeWord 0xD6033985#32 = .ok (.ssfork U 7 6 5) ∧
    decodeWord 0xD6040005#32 = .ok (.ssdrop U 5) ∧
    decodeWord 0xD6054183#32 = .ok (.ssfind U 8 6 3) := by
  decide

/-- Words of the global words, from the encodings of R260 to R264 and the entries' examples. -/
theorem test_decode_global :
    decodeWord 0xD8001930#32 = .ok (.gld U 3 4 3) ∧
    decodeWord 0xD8012900#32 = .ok (.gst U 5 4 0) ∧
    decodeWord 0xD8022900#32 = .ok (.gacq U 5 4) ∧
    decodeWord 0xD8032900#32 = .ok (.grel U 5 4) ∧
    decodeWord 0xD8042918#32 = .ok (.gamo U 5 4 0x18) ∧
    decodeWord 0xD8051107#32 = .ok (.gmrg U 1 4 7) ∧
    decodeWord 0xDA002141#32 = .ok (.agset U 4 5 1) ∧
    decodeWord 0xDA0131C1#32 = .ok (.agen U 6 7 1) := by
  decide

/-- Words of the system words, from the encodings of R260 to R264 and the entries' examples. -/
theorem test_decode_system :
    decodeWord 0xF0000007#32 = .ok (.syscall U 7) ∧
    decodeWord 0xF0010020#32 = .ok (.trapi U 32) ∧
    decodeWord 0xF00B0028#32 = .ok (.yield U 40) ∧
    decodeWord 0xF0020008#32 = .ok (.fence U 4) ∧
    decodeWord 0xF0030000#32 = .ok (.realign U) ∧
    decodeWord 0xF0040142#32 = .ok (.waitk U 5 1) ∧
    decodeWord 0xF0050000#32 = .ok (.halt U) ∧
    decodeWord 0xF0061804#32 = .ok (.getc U 3 0x4) ∧
    decodeWord 0xF0074813#32 = .ok (.setc U 9 0x13) ∧
    decodeWord 0xF0082003#32 = .ok (.setb U 4 0x3) ∧
    decodeWord 0xF0092003#32 = .ok (.clrb U 4 0x3) ∧
    decodeWord 0xF00A310A#32 = .ok (.launch U 6 4 5) ∧
    decodeWord 0xFE0003FF#32 = .ok (.hdr true 1023) := by
  decide

/-- The worked words of R262: a header, and a guarded word of a bundle that goes on. -/
theorem test_decode_bundle :
    decodeWord 0x7E000003#32 = .ok (.hdr false 3) ∧ decodeWord 0x00001845#32 = .ok (.add ⟨false, false, 0⟩ 3 1 2 true) ∧
    decodeWord 0x22401230#32 = .ok (.vfadd ⟨false, false, 2⟩ 1 2 3 0 0) ∧ decodeWord 0xA0009AB0#32 = .ok (.vadd U 9 10 11 0 0) := by
  decide

/-- A word of a reserved major, one of another, and a reserved FN (R264, R266). -/
theorem test_decode_reserved :
    decodeWord 0x94000000#32 = .error .major ∧ decodeWord 0x80120000#32 ≠ .error .major ∧ (decodeWord 0x80120000#32).isOk = false := by
  decide

/-! ### Well-formedness: one ill-formed term for each check -/

/-- Scalar words: a kind past 3, a predicate past p7 (R261, R283, R290, R293). -/
theorem test_ill_formed_scalar : ∀ i ∈ [Instr.fcvtif U 1 2 4 true, .fcvtfi U 1 2 4 false, .jp U 8 0, .jany true 8 0, .jall true 8 0,
    .peq U 8 1 2 true, .pne U 8 1 2 true, .plt U 8 1 2 true, .ple U 8 1 2 true, .pltu U 8 1 2 true, .pfeq U 8 1 2 true,
    .pflt U 8 1 2 true, .pand U 8 1 2, .pand U 1 8 2, .pand U 1 2 8, .por U 8 1 2, .por U 1 8 2, .por U 1 2 8, .pnot U 8 1,
    .pnot U 1 8], i.wellFormed = false := by decide

/-- Vector words across the clusters (R53, R297). -/
theorem test_ill_formed_clusters : ∀ i ∈ [Instr.vadd U 1 9 2 0 0, .vadd U 1 2 9 0 0, .vfma U 9 1 10 0 0, .vfsqrt U 1 9 0 0,
    .vcvt U 1 9 0 0 0, .vdqmx U 1 9 2 0 0, .vrotr U 1 2 9 0 0, .vsumc U 1 9 true 0 0, .vtrn U 1 9 0 0, .vmerge3 U 0 8 2,
    .vtmask U 1 2 9 0, .vsmx U 4 5 15, .vgath U 1 4 9 0, .vscat U 1 4 9 0, .vscatc U 1 4 9 0, .vscadd U 1 4 9 0, .visect U 2 9 1,
    .vcomp U 1 9 0 0, .vexpd U 1 9 0 0, .vconf U 1 9 0 0, .vsegs U 1 9 2 0 0, .vmov U 1 9 0 0, .vmovx U 1 2 0 0 0, .vins U 1 9 0 0,
    .vext U 1 9 0 0], i.wellFormed = false := by decide

/-- Reserved values of vector words (R303 to R307, R311, R326, R328, R329, R331, R333). -/
theorem test_ill_formed_vector : ∀ i ∈ [Instr.vcvt U 1 2 6 0 0, .vcvti U 1 2 8 0 0, .vcvtf U 1 2 7 0 0, .vqmx U 1 2 3 3 0,
    .vqmx U 1 2 3 0 3, .vqmx U 1 2 1 0 0, .vdqmx U 1 2 3 3 0, .vlrecr U 1 2 3 1 0, .vmerge3 U 1 2 4, .vmerge3 U 0 3 4,
    .vmerge3 U 0 2 5, .vsmx U 4 5 6, .vsmx U 5 4 5, .vldt U 1 31 0 0, .visect U 3 1 2, .visect U 0 1 2, .vconf U 1 2 1 0,
    .vsegs U 1 2 3 2 0, .vmovx U 9 2 1 0 0, .vmovx U 9 2 1 2 0], i.wellFormed = false := by decide

/-- Reserved values of the matrix words (R189, R334, R343, R346 to R351). -/
theorem test_ill_formed_matrix : ∀ i ∈ [Instr.mma U 0 1 2 10, .mmaz U 0 1 2 10, .mmat U 0 1 2 31, .mwin U 0 1 2 10, .mwin U 0 1 2 1,
    .mwin U 0 1 2 6, .mmax U 0 1 2 5, .mmax U 0 1 2 9, .mcsr U 0 1 2 4, .mbsr U 0 1 2 4, .m24 U 0 1 2 1, .m24 U 0 1 2 6, .zrd U 0 1 2,
    .zwr U 0 1 2, .esld U 0 1 3, .amode U 3, .mshape U 1 2 8], i.wellFormed = false := by decide

/-- Reserved values of the peel and system words (R361, R366, R376, R377, R380, R382, R390, R392). -/
theorem test_ill_formed_peel : ∀ i ∈ [Instr.xcht U 31 1 0, .send U 1 16, .recv U 1 0, .ssfind U 1 2 0x30, .ssfind U 1 0 0x10,
    .gld U 16 1 1, .gst U 16 1 1, .gamo U 31 1 7, .gmrg U 0 31 0, .fence U 5, .waitk U 1 2], i.wellFormed = false := by decide

/-! ### Single steps: scalar words -/

/-- 0x7FFFFFFF + 1 wraps at 32 bits and sign-extends; 0 - 1 at 64 (R277, R278). -/
theorem test_add_sub_wrap :
    flight (exec (.add U 3 1 2 false) (two 0x7FFFFFFF 1)) = some (1, [.s 3 0xFFFFFFFF80000000], 0) ∧
    flight (exec (.sub U 1 1 2 true) (two 0 1)) = some (1, [.s 1 0xFFFFFFFFFFFFFFFF], 0) := by decide
/-- The high half of -2^63 times 2 is -1, the low half 0 (R278). -/
theorem test_mul_halves :
    flight (exec (.mulh U 3 1 2 true) (two 0x8000000000000000 2)) = some (3, [.s 3 0xFFFFFFFFFFFFFFFF], 0) ∧
    flight (exec (.mul U 3 1 2 true) (two 0x8000000000000000 2)) = some (3, [.s 3 0], 0) := by decide
/-- The table of R279: a divisor of 0, and m over -1. -/
theorem test_division_corners :
    [(exec (.div U 3 1 2 false) (two 7 0)),
      (exec (.divu U 3 1 2 false) (two 7 0)),
      (exec (.rem U 3 1 2 true) (two 7 0)),
      (exec (.remu U 3 1 2 true) (two 7 0)),
      (exec (.div U 3 1 2 false) (two 0x80000000 0xFFFFFFFF)),
      (exec (.rem U 3 1 2 false) (two 0x80000000 0xFFFFFFFF))].map flight =
    [some (14, [.s 3 0xFFFFFFFFFFFFFFFF], 0), some (14, [.s 3 0xFFFFFFFFFFFFFFFF], 0), some (14, [.s 3 7], 0), some (14, [.s 3 7], 0), some (14, [.s 3 0xFFFFFFFF80000000], 0), some (14, [.s 3 0], 0)] := by decide
/-- -7 over 2 truncates to -3 with remainder -1; unsigned at 32 bits (R278). -/
theorem test_division_truncates :
    flight (exec (.div U 3 1 2 true) (two 0xFFFFFFFFFFFFFFF9 2)) = some (14, [.s 3 0xFFFFFFFFFFFFFFFD], 0) ∧
    flight (exec (.rem U 3 1 2 true) (two 0xFFFFFFFFFFFFFFF9 2)) = some (14, [.s 3 0xFFFFFFFFFFFFFFFF], 0) ∧
    flight (exec (.divu U 3 1 2 false) (two 0xFFFFFFF9 2)) = some (14, [.s 3 0x7FFFFFFC], 0) ∧
    flight (exec (.remu U 3 1 2 false) (two 0xFFFFFFF9 2)) = some (14, [.s 3 1], 0) := by decide
/-- A shift by 33 at 32 bits moves by 1 (R278). -/
theorem test_shifts :
    flight (exec (.shl U 3 1 2 false) (two 0x40000000 33)) = some (1, [.s 3 0xFFFFFFFF80000000], 0) ∧
    flight (exec (.shr U 3 1 2 false) (two 0x80000000 33)) = some (1, [.s 3 0x40000000], 0) ∧
    flight (exec (.sar U 3 1 2 false) (two 0x80000000 33)) = some (1, [.s 3 0xFFFFFFFFC0000000], 0) := by decide
/-- Counts: no bit set, and 32 of a 32-bit word (R278). -/
theorem test_counts :
    flight (exec (.clz U 3 1 false) (two 0 0)) = some (1, [.s 3 32], 0) ∧
    flight (exec (.clz U 3 1 true) (two 1 0)) = some (1, [.s 3 63], 0) ∧
    flight (exec (.popc U 3 1 false) (two 0xFFFFFFFFFFFFFFFF 0)) = some (1, [.s 3 32], 0) := by decide
/-- The logic words, and the signed choices (R278). -/
theorem test_logic_and_choice :
    [(exec (.and U 3 1 2 true) (two 0xC 0xA)),
      (exec (.or U 3 1 2 true) (two 0xC 0xA)),
      (exec (.xor U 3 1 2 false) (two 0x8000000C 0xA)),
      (exec (.min U 3 1 2 true) (two 0xFFFFFFFFFFFFFFFF 0)),
      (exec (.max U 3 1 2 false) (two 0xFFFFFFFF 0))].map flight =
    [some (1, [.s 3 8], 0), some (1, [.s 3 14], 0), some (1, [.s 3 0xFFFFFFFF80000006], 0), some (1, [.s 3 0xFFFFFFFFFFFFFFFF], 0), some (1, [.s 3 0], 0)] := by decide
/-- Immediates sign-extend; LIS shifts its register (R280, R281). -/
theorem test_immediates :
    [(exec (.addi U 3 1 0xFF) (two 0 0)),
      (exec (.muli U 3 1 0x80) (two 2 0)),
      (exec (.andi U 3 1 0xF0) (two 0x1FF 0)),
      (exec (.ori U 3 1 0x0F) (two 0x100 0)),
      (exec (.xori U 3 1 0xFF) (two 0 0)),
      (exec (.shli U 3 1 63) (two 1 0)),
      (exec (.shri U 3 1 63) (two 0x8000000000000000 0)),
      (exec (.sari U 3 1 63) (two 0x8000000000000000 0)),
      (exec (.li U 7 0xFFFE) base),
      (exec (.lis U 1 0x4567) (two 0x0123 0))].map flight =
    [some (1, [.s 3 0xFFFFFFFFFFFFFFFF], 0), some (3, [.s 3 0xFFFFFFFFFFFFFF00], 0), some (1, [.s 3 0x1F0], 0), some (1, [.s 3 0x10F], 0), some (1, [.s 3 0xFFFFFFFFFFFFFFFF], 0), some (1, [.s 3 0x8000000000000000], 0), some (1, [.s 3 1], 0), some (1, [.s 3 0xFFFFFFFFFFFFFFFF], 0), some (1, [.s 7 0xFFFFFFFFFFFFFFFE], 0), some (1, [.s 1 0x01234567], 0)] := by decide
/-- 1.0 over +0 is infinite with DZ at 14; 1 + 2 = 3; 2 times 3; the root of 4 (R282, R195). -/
theorem test_floating :
    [(exec (.fdiv U 3 1 2 false) (two 0x3F800000 0)),
      (exec (.fadd U 3 1 2 false) (two 0x3F800000 0x40000000)),
      (exec (.fsub U 3 1 2 true) (two 0x3FF0000000000000 0x3FF0000000000000)),
      (exec (.fmul U 3 1 2 false) (two 0x40000000 0x40400000)),
      (exec (.fsqrt U 3 1 false) (two 0x40800000 0)),
      (exec (.fma U 2 1 1 false) (two 0x40000000 0x3F800000))].map flight =
    [some (14, [.s 3 0x7F800000], 8), some (4, [.s 3 0x40400000], 0), some (5, [.s 3 0], 0), some (4, [.s 3 0x40C00000], 0), some (14, [.s 3 0x40000000], 0), some (4, [.s 2 0x40A00000], 0)] := by decide +kernel
/-- FMIN of a quiet NaN and 2.0 gives 2.0 silently, of a signalling one with NV; FCLASS does not signal (R282, R284). -/
theorem test_floating_nan :
    flight (exec (.fmin U 3 1 2 false) (two 0x7FC00000 0x40000000)) = some (4, [.s 3 0x40000000], 0) ∧
    flight (exec (.fmax U 3 1 2 false) (two 0x7F800001 0x40000000)) = some (4, [.s 3 0x40000000], 16) ∧
    flight (exec (.fclass U 3 1 false) (two 0x7F800001 0)) = some (4, [.s 3 0x100], 0) ∧
    flight (exec (.fclass U 3 1 true) (two 0x8000000000000000 0)) = some (5, [.s 3 8], 0) := by decide +kernel
/-- Conversions: 2^64 - 1 rounds to 2^64; -1.0 to an unsigned integer saturates; f32 1.5 widens (R283). -/
theorem test_conversions :
    flight (exec (.fcvtif U 3 1 1 true) (two 0xFFFFFFFFFFFFFFFF 0)) = some (5, [.s 3 0x43F0000000000000], 1) ∧
    flight (exec (.fcvtfi U 3 1 3 false) (two 0xBF800000 0)) = some (4, [.s 3 0], 16) ∧
    flight (exec (.fcvtw U 3 1 true) (two 0x3FC00000 0)) = some (5, [.s 3 0x3FF8000000000000], 0) := by decide +kernel
/-- The predicate words: signed and unsigned orders, quiet and signalling compares, p0 (R293). -/
theorem test_predicates :
    [(exec (.plt U 1 1 2 true) (two 0xFFFFFFFFFFFFFFFF 0)),
      (exec (.pltu U 1 1 2 true) (two 0xFFFFFFFFFFFFFFFF 0)),
      (exec (.peq U 1 1 2 false) (two 0x100000000 0)),
      (exec (.pne U 1 1 2 true) (two 0x100000000 0)),
      (exec (.ple U 1 1 2 true) (two 5 5)),
      (exec (.pfeq U 1 1 2 false) (two 0x80000000 0)),
      (exec (.pflt U 1 1 2 false) (two 0x7FC00000 0)),
      (exec (.pand U 1 0 1) base),
      (exec (.por U 1 0 1) base),
      (exec (.pnot U 1 0) base)].map flight =
    [some (1, [.p 1 true], 0), some (1, [.p 1 false], 0), some (1, [.p 1 true], 0), some (1, [.p 1 true], 0), some (1, [.p 1 true], 0), some (1, [.p 1 true], 0), some (1, [.p 1 false], 16), some (1, [.p 1 false], 0), some (1, [.p 1 true], 0), some (1, [.p 1 false], 0)] := by decide +kernel
/-- A word whose guard does not hold leaves the state (R22). -/
theorem test_nullified : after? (exec (.add off 3 1 2 true) (two 1 1)) (fun t => decide (t = two 1 1)) = some true := by decide +kernel

/-! ### Single steps: control -/

/-- Transfers: the target issues 4 cycles on; JZ falls through; CALL links the next bundle (R20, R289, R290). -/
theorem test_transfers :
    after? (exec (.j U 0x1FFF) base) (fun t => ((t.ctx 0).pc, (t.ctx 0).due)) = some (1023, 4) ∧
    after? (exec (.jz U 1 5) (two 1 0)) (fun t => (t.ctx 0).pc) = some 1025 ∧ after? (exec (.jnz U 1 5) (two 1 0)) (fun t => (t.ctx 0).pc) = some 1029 ∧
    after? (exec (.jp U 0 5) base) (fun t => (t.ctx 0).pc) = some 1029 ∧ after? (exec (.ret U 1) (two 77 0)) (fun t => (t.ctx 0).pc) = some 77 ∧
    flight (exec (.call U 31 5) base) = some (1, [.s 31 1025], 0) ∧ after? (exec (.call U 31 5) base) (fun t => (t.ctx 0).pc) = some 1029 := by
  decide +kernel
/-- The votes are gathered, and one of them decides JANY (R290). -/
theorem test_votes :
    after? (exec (.jany true 0 5) base) (fun t => (t.ctx 0).wait) = some (.vote false 1029 0 [true]) ∧
    after? (exec (.jall true 1 5) (other.modCtx 0 fun x => { x with wait := .vote true 1029 0 [true] })) (fun t => (t.ctx 0).wait) =
      some (.vote true 1029 0 [true, false]) := by decide +kernel
/-- LOOP pushes, LOOPI with a count of 0 skips, LBRK of nothing is illegal (R291, R292). -/
theorem test_loops :
    after? (exec (.loop U 1 3) (two 9 0)) (fun t => (t.ctx 0).loops) = some [{ count := 9, start := 1025, stop := 1027 }] ∧
    after? (exec (.loopi U 3 4 4) base) (fun t => ((t.ctx 0).loops.map LoopLvl.count)) = some [100] ∧
    after? (exec (.loopi U 0 0 4) base) (fun t => (t.ctx 0).loops) = some [] ∧ trapped (exec (.lbrk U) base) = some (1, 0) := by decide +kernel

/-! ### Single steps: vector words -/

/-- 0xFFFF + 2 wraps in its element; the elements that k1 leaves out are not written (R298). -/
theorem test_vadd : lane (exec (.vadd U 3 1 2 1 1) (vecs 0xFFFF 2 1)) 16 0 0 = some (0xFFFF, 1) ∧
    (lane (exec (.vadd U 3 1 2 1 1) (vecs 0xFFFF 2 1)) 16 0 2).map Prod.fst = some 0 := by decide +kernel
/-- -1 is below 0 in the signed choice, 0 in the unsigned shift (R298). -/
theorem test_vmin : lane (exec (.vmin U 3 1 2 2 0) (vecs 0xFF 0 0)) 8 0 0 = some (0xFF, 0xFF) := by decide +kernel
/-- 1.0 + 2.0 in f32, and 1.0 over 0 with DZ (R300). -/
theorem test_vfadd : lane (exec (.vfadd U 3 1 2 0 1) (vecs 0x3F800000 0x40000000 1)) 32 0 0 = some (0xFFFFFFFF, 0x40400000) := by decide +kernel
theorem test_vfdiv : (flight (exec (.vfdiv U 3 1 2 0 1) (vecs 0x3F800000 0 1))).map (fun x => (x.1, x.2.2)) = some (24, 8) := by decide +kernel
/-- VROTR by 1 takes the last element of the row to the front (R306). -/
theorem test_vrotr : lane (exec (.vrotr U 3 1 2 0 0) (vecs (7#32768 <<< 2016) 1 0)) 32 0 0 = some (0xFFFFFFFF, 7) := by decide +kernel
/-- VSUMR of the four elements of R209's example, and its scan (R208, R209). -/
theorem test_vsumr : lane (exec (.vsumr U 3 1 false 0 1) (vecs 0x3F8000003F8000004B8000003F800000 0 1)) 32 0 0 = some (0xFFFFFFFF, 0x4B800001) := by
  decide +kernel
theorem test_vscanr : lane (exec (.vscanr U 3 1 false 0 0) (vecs 0x3F8000003F8000004B8000003F800000 0 0)) 32 0 3 = some (0xFFFFFFFF, 0x4B800001) := by
  decide +kernel
/-- VTRN takes element (0, 1) to (1, 0) (R309). -/
theorem test_vtrn : lane (exec (.vtrn U 3 1 0 0) (vecs (5#32768 <<< 32) 0 0)) 32 1 0 = some (0xFFFFFFFF, 5) := by decide +kernel
/-- VSPLAT of -1, and VINS into row 7 (R310). -/
theorem test_vsplat : lane (exec (.vsplat U 3 0xFF 1 0) base) 16 15 127 = some (0xFFFF, 0xFFFF) := by decide +kernel
theorem test_vins : lane (exec (.vins U 3 1 7 0) (vecs 9 0 0)) 32 7 0 = some (0xFFFFFFFF, 9) := by decide +kernel
/-- The streams of R326's example: bits 1 and 3 of both masks, and p6. -/
theorem test_visect : flight (exec (.visect U 2 1 2) (vecs
      (BitVec.ofNat 32768 (2 ^ 32768 - 1 - (2 ^ 128 - 1) + 0x0000000F000000090000000700000003))
      (BitVec.ofNat 32768 (2 ^ 32768 - 1 - (2 ^ 160 - 1) + 0x000000140000000F000000080000000700000002)) 0)) =
    some (16, [.k 2 (BitVec.allOnes 1024) 10, .k 3 (BitVec.allOnes 1024) 10, .p 6 true], 0) := by decide +kernel
/-- VCOMP of that example moves 7 and 15 to the front and puts zeros behind (R327). -/
theorem test_vcomp : lane (exec (.vcomp U 3 1 0 1) (vecs 0x0000000F000000090000000700000003 0 10)) 32 0 1 = some (0xFFFFFFFF, 15) ∧
    lane (exec (.vcomp U 3 1 0 1) (vecs 0x0000000F000000090000000700000003 0 10)) 32 0 2 = some (0xFFFFFFFF, 0) := by decide +kernel
/-- The mask words: 70 ones give bits 0 to 69; the lowest bit; the scalar in every row (R313, R314). -/
theorem test_masks :
    flight (exec (.kpop U 6 1) (vecs 0 0 (BitVec.ofNat 1024 ((2 ^ 70 - 1) * 2 ^ 900)))) = some (2, [.k 6 (BitVec.allOnes 1024) (BitVec.ofNat 1024 (2 ^ 70 - 1))], 0) ∧
    flight (exec (.kfirst U 2 1) (vecs 0 0 24)) = some (2, [.k 2 (BitVec.allOnes 1024) 8], 0) ∧
    flight (exec (.kand U 2 1 0) (vecs 0 0 24)) = some (2, [.k 2 (BitVec.allOnes 1024) 24], 0) := by decide +kernel
/-- R203's example: the exact sum 2 in BF16, the tree's 1 with NX in FP32. -/
theorem test_matrix_sums :
    exactAcc [(.num false 1 12, .num false 1 12), (.num false 1 0, .num false 1 0), (.num true 1 12, .num false 1 12), (.num false 1 0, .num false 1 0)] 0 =
      (0x40000000, 0) := by decide +kernel
/-- R206's example: the scale of 3.0, its code, and the code of -infinity, with OF and NX. -/
theorem test_quantise : (fun q : Nat × List Nat × BitVec 5 => (q.1, q.2.1.take 3, q.2.2))
    (quantBlock 8 6 ([(Fmt.f32.dec 0x40400000, .rne), (Fmt.f32.dec 0x3C23D70A, .rne), (.inf true, .rne)] ++ List.replicate 29 (.num false 0 0, .rne))) =
    (0x80, [0x60, 0, 0x80], 5) := by decide +kernel
/-- R193's example: with U = 0xBFFF the value 1 + 2^-9 stays at 1.0, with 0xC000 it rises. -/
theorem test_stochastic : cvtFp .bf16 (.sr 0xBFFF) (Fmt.f32.dec 0x3F804000) = (0x3F80, 1) ∧
    cvtFp .bf16 (.sr 0xC000) (Fmt.f32.dec 0x3F804000) = (0x3F81, 1) := by decide +kernel

/-! ### Single steps: memory, array, peel and system words -/

/-- The pending entries of a next state: when each is due, and what it is. -/
def pending (o : Host.Outcome State Fault Refusal) : Option (List (Nat × Instr)) := after? o fun t => t.agenda.map fun e => (e.due, e.act)

/-- LD with an offset of 2 eight-byte units: the access at 2, the landing at 4; a base of 4 is misaligned (R285, R286). -/
theorem test_ld : pending (exec (.ld U 3 1 2) (two (spad 8192) 0)) =
    some [(2, .deferredAccessPerform ⟨1, .load 8208 8 false 3⟩), (4, .resultLanding ⟨1, Slot.vec0.port, [.s 3 0], 0, 0, false, false⟩)] := by
  decide +kernel
/-- In a window of its bank it is a schedule fault (R105). -/
theorem test_ld_window : trapped (exec (.ld U 3 1 2) (two (spad 0) 0)) = some (3, 4) := by decide +kernel
theorem test_ld_misaligned : trapped (exec (.ld U 3 1 2) (two (spad 4) 0)) = some (5, 0) ∧
    trapped (exec (.ld U 3 1 2) (two 16 0)) = some (5, 0) := by decide +kernel
/-- SW stores the low 32 bits, its offset counts in fours (R285). -/
theorem test_sw : pending (exec (.sw U 2 1 0xFE) (two (spad 8200) 0x1122334455667788)) =
    some [(2, .deferredAccessPerform ⟨0, .store ⟨8192, 4, 0x55667788⟩⟩)] := by decide +kernel
/-- The store performs byte by byte, lowest first, and a load of 4 bytes sign-extends (R7, R285). -/
theorem test_store_performs : after? (exec (.deferredAccessPerform ⟨0, .store ⟨8, 4, 0x85667788⟩⟩) base) (fun t =>
    (t.byte 8, t.byte 11, t.byte 12, t.load 8 4)) = some (0x88, 0x85, 0, 0x85667788) := by decide +kernel
theorem test_load_performs : pending (exec (.deferredAccessPerform ⟨7, .load 8 4 true 3⟩)
    ((base.store 8 4 0x85667788).landId 7 2 [.s 3 0] 0)) = some [(2, .resultLanding ⟨7, Slot.vec0.port, [.s 3 0xFFFFFFFF85667788], 0, 0, false, false⟩)] := by
  decide +kernel
/-- AMOCAS that matches stores, and gives the old value (R287). -/
theorem test_amocas : after? (exec (.deferredAccessPerform ⟨0, .amo 7 8 false 5 0 3⟩) base) (fun t => t.load 8 8) = some 5 ∧
    after? (exec (.deferredAccessPerform ⟨0, .amo 7 8 false 5 1 3⟩) base) (fun t => t.load 8 8) = some 0 := by decide +kernel
/-- A result for s0 is dropped and takes its port (R49). -/
theorem test_landing : after? (exec (.resultLanding ⟨0, 1, [.s 0 5, .s 4 6], 8, 0, false, false⟩) base) (fun t =>
    ((t.core 0 0).s.get 0 0, (t.core 0 0).s.get 0 4, (t.core 0 0).flags, t.ports_)) = some (0, 6, 8, [1]) := by decide +kernel
/-- ZCLR lands 2 on; AMODE enters its write; MSHAPE holds its shape for the third bundle (R350, R351). -/
theorem test_array_words :
    flight (exec (.zclr U 2) base) = some (2, [.z 2 0 (BitVec.allOnes 65536)], 0) ∧
    pending (exec (.amode U 2) base) = some [(1, .amodeWrite 2)] ∧
    after? (exec (.mshape U 1 2 5) (two 3 4)) (fun t => (t.core 0 0).pendH.map fun p => (p.1, p.2.2)) = some [(5, 4)] := by decide +kernel
/-- R384's example: 3 strides of 8,192 from 0x20_0000, and 4,096 is past the end. -/
theorem test_agen :
    let g : State → State := fun s => s.modCore 0 0 fun k => { k with g := ⟨[(1, BitVec.ofNat 128 (0x200000 + 8192 * 2 ^ 64 + 4096 * 2 ^ 96))]⟩ }
    flight (exec (.agen U 6 1 1) (g (two 3 0))) = some (2, [.s 6 0x206000], 0) ∧ trapped (exec (.agen U 6 1 1) (g (two 4096 0))) = some (5, 0) := by
  decide +kernel
/-- SYSCALL takes trap 0x0E and TRAPI trap 0x0D; a continue goes past them (R231, R389). -/
theorem test_syscall : trapped (exec (.syscall U 7) base) = some (14, 0) ∧ trapped (exec (.trapi U 7) base) = some (13, 0) ∧
    after? (exec (.syscall U 7) (inRow fun x => { x with past := some 1 })) (fun t => (t.ctx 0).past) = some none := by decide +kernel
/-- HALT ends the row 30 cycles on; WAITK and REALIGN wait (R391 to R393). -/
theorem test_waits : after? (exec (.halt U) base) (fun t => (t.ctx 0).haltAt) = some (some 30) ∧
    after? (exec (.realign U) base) (fun t => (t.ctx 0).wait) = some (.realign 0) ∧
    after? (exec (.waitk U 1 1) (two 9 0)) (fun t => (t.ctx 0).wait) = some (.waitStep 9 0) := by decide +kernel
/-- GETC of RETRYLIM reads 3 after reset; SETC of a number that names nothing is illegal (R77, R386). -/
theorem test_getc : flight (exec (.getc U 3 0x051) base) = some (1, [.s 3 3], 0) ∧ trapped (exec (.setc U 3 0x7FF) base) = some (1, 0) := by
  decide +kernel
/-- SETC of RETRYLIM is privileged; a SETC of FLAGS lands on its five bits (R67, R77). -/
theorem test_setc : trapped (exec (.setc U 1 0x051) (two 1 0)) = some (2, 0) ∧
    flight (exec (.setc U 1 0x003) (two 0xFF 0)) = some (1, [.ctl 3 0x1F 0x1F], 0) := by decide +kernel
/-- A bind, an advance and a find of a ring (R162, R372, R373). -/
theorem test_ring : (fun r : Ring => (r.head, (r.slot 1).key, r.keyed 5)) (ringOf (ringDo (ringDo Tbl.empty (.bind 3 0 0 3 4 1 false)) (.adv 3 5 false)) 3) =
    (1, 5, some 1) := by decide +kernel
/-- RECV in an untimed context is a schedule fault of subcode 9 (R24). -/
theorem test_timed_only : trapped (exec (.recv U 1 1) loose) = some (3, 9) := by decide +kernel
/-- A word of a context without a job is no execution: the fault of the model. -/
theorem test_no_context : (match exec (.add U 1 1 1 true) State.reset with | .fault .noContext => true | _ => false) = true := by decide
/-- A far access past the last block is no place: the fault of the model (R82). -/
theorem test_no_address : (match exec (.hostFarMemoryAccess ⟨.hart 63, false, .dma false⟩ (2 ^ 41) 1 0) State.reset with | .fault .noAddress => true | _ => false) = true := by
  decide +kernel

/-! ### The hypotheses of the statements are met -/

theorem witness_EncodedInstructionsDecode :
    (Instr.add U 3 1 2 false).wellFormed = true ∧ encode (.add U 3 1 2 false) = some 0x80001844 := by decide
theorem witness_DecodedWordsReencode : decodeWord 0x80001844 = .ok (.add U 3 1 2 false) := by decide
theorem witness_ReservedMajorsAreRefused : majSlot (majOf 0x94000000) = none ∧ decodeWord 0x94000000 = .error .major := by decide
/-- A word placed by withFetchWord is the next piece of work. -/
theorem witness_StepRunsDecodedInstruction : let s := State.reset.withFetchWord 32 0x80001844
    s.checked = true ∧ (match s.nextTask with | some (.issue c) => c == 0 | _ => false) = true ∧
    s.imageWord (s.ctx 0).job (s.ctx 0).pc = some 0x80001844 ∧ decodeWord 0x80001844 = .ok (.add U 3 1 2 false) ∧
    (match s.checkIssue 0 with | .go _ _ => true | _ => false) = true := by decide +kernel
/-- A cycle with a trap (an illegal word at its issue), one without, a cycle with an entry due and one with nothing left. -/
theorem witness_StepChecksRunsOrAdvances_trap : let s := { State.reset.withFetchWord 32 0x80120000 with checked := false }
    s.checked = false ∧ s.cycleTrap.isSome = true := by decide +kernel
theorem witness_StepChecksRunsOrAdvances_clear : State.reset.checked = false ∧ State.reset.cycleTrap = none := by decide +kernel
theorem witness_StepChecksRunsOrAdvances_entry : let s := { base.land 0 [.s 1 0] 0 with checked := true }
    s.checked = true ∧ (match s.nextTask with | some (.entry _) => true | _ => false) = true := by decide +kernel
theorem witness_StepChecksRunsOrAdvances_advance : let s := { State.reset with checked := true, agenda := [] }
    s.checked = true ∧ s.nextTask.isNone = true := by decide +kernel
theorem witness_StepKeepsMemoryCanonical : Memory.wf State.reset.mem = true ∧
    (match step State.reset with | .next _ => true | _ => false) = true := by decide +kernel

theorem witness_IntegerWordsGiveTheirResults : Runs base U ∧ Settled base [.s 1, .s 2] := by
  simp only [Runs, Settled]; decide
theorem witness_DivisionNeverTraps : Runs (two 0x80000000 0xFFFFFFFF) U ∧ Settled (two 0x80000000 0xFFFFFFFF) [.s 1, .s 2] := by
  simp only [Runs, Settled]; decide
theorem witness_ShiftsAndCountsGiveTheirResults : Runs base U ∧ Settled base [.s 31, .s 0] ∧ Settled base [.s 31] := by
  simp only [Runs, Settled]; decide
theorem witness_ImmediatesGiveTheirResults : Runs base U ∧ Settled base [.s 1] ∧ Settled base [.s 31] := by
  simp only [Runs, Settled]; decide
theorem witness_FloatingWordsGiveTheirResults : Runs base U ∧ Settled base [.s 1, .s 2] ∧ Settled base [.s 1, .s 2, .s 3] ∧ Settled base [.s 1] := by
  simp only [Runs, Settled]; decide
theorem witness_ClassMaskHasOneBit : Runs base U ∧ Settled base [.s 1] := by simp only [Runs, Settled]; decide
/-- Outside SR; in SR with one row of random bits; in SR with none. -/
theorem witness_ScalarConversionsGiveTheirResults :
    (Runs base U ∧ Settled base [.s 1] ∧ base.me.round ≠ 4#3) ∧
    (let s := regs fun k => { k with round := 4, randFill := 1 }
     Runs s U ∧ Settled s [.s 1] ∧ s.me.round = 4#3 ∧ s.me.randFill ≠ 0) ∧
    (let s := regs fun k => { k with round := 4 }
     Runs s U ∧ Settled s [.s 1] ∧ s.me.round = 4#3 ∧ s.me.randFill = 0) := by
  simp only [Runs, Settled]; decide
/-- 1 and 1 + 2^-24 round in f32 without overflow, the second inexactly. -/
theorem witness_RoundingIsCorrect : 0 < 1 ∧ (roundFp .f32 .rne false 1 0).2 &&& flOF = 0#5 ∧
    (roundFp .f32 .rne true 16777217 (-24)).2 &&& flOF = 0#5 ∧ (roundFp .f32 .rne true 16777217 (-24)).2 &&& flNX ≠ 0#5 := by decide +kernel
/-- A NaN, infinities, zeros, numbers. -/
theorem witness_ArithmeticFollowsItsRules : (Fmt.f32.dec 0x7FC00000).isNan = true ∧ (Fp.inf true).isInf = true ∧
    (Fp.num false 0 0).isZero = true ∧ (∃ a m e, Fmt.f32.dec 0x3F800000 = .num a m e) :=
  ⟨by decide +kernel, by decide, by decide, _, _, _, rfl⟩
theorem witness_PredicateWordsGiveTheirBits : Runs base U ∧ Settled base [.s 1, .s 2] ∧ Settled base [.p 7, .p 0] ∧ Settled base [.p 7] := by
  simp only [Runs, Settled]; decide
theorem witness_ScalarResultsLandInTheirRegister : isQ base.cur.ctx = false := by decide
theorem witness_TransfersGoToTheirTargets :
    (Runs base U ∧ base.cur.col = 0 ∧ Settled base [.s 31] ∧ Settled base [.p 1]) ∧ Runs other U ∧ other.cur.col ≠ 0 := by
  simp only [Runs, Settled]; decide
theorem witness_WordsThatDoNothing : (other.myCtx.job ≠ 0 ∧ other.cur.col ≠ 0) ∧
    base.myCtx.job ≠ 0 ∧ base.guard off = false ∧ base.perf.rows = [] := by decide
/-- The head core, core 3 of a row that votes, and votes of which one, none and all hold. -/
theorem witness_RowVotesDecideTheTransfer :
    (base.myCtx.job ≠ 0 ∧ Settled base [.p 1] ∧ base.cur.col = 0) ∧
    (let s := other.modCtx 0 fun x => { x with wait := .vote true 1029 0 [true] }
     s.myCtx.job ≠ 0 ∧ Settled s [.p 1] ∧ s.cur.col ≠ 0 ∧ s.myCtx.wait = .vote true 1029 0 [true]) ∧
    (let s := base.modCtx 0 fun x => { x with wait := .vote false 1029 0 [true, false] }
     (s.ctx s.arg).wait = .vote false 1029 0 [true, false] ∧ (∃ x ∈ [true, false], x = true) ∧ ¬ (∀ x ∈ [true, false], x = true)) := by
  simp only [Settled]; decide
/-- A body that ends before it begins, a count of 0, a first and a fifth level, a pop of nothing and of one level. -/
theorem witness_LoopWordsKeepTheStack :
    let l : LoopLvl := { count := 2, start := 1025, stop := 1024 }
    let four := inRow fun x => { x with loops := [l, l, l, l] }
    (RunsHead base U ∧ Settled base [.s 1]) ∧ (0#8).toInt < base.cur.nw ∧ base.cur.nw ≤ (1#8).toInt ∧ (base.rs 1).setWidth 32 = 0#32 ∧
    ((two 9 0).rs 1).setWidth 32 ≠ 0#32 ∧ base.myCtx.loops.length < 4 ∧ (RunsHead four U ∧ 4 ≤ four.myCtx.loops.length) ∧
    base.myCtx.loops = [] ∧ four.myCtx.loops = l :: [l, l, l] := by
  simp only [RunsHead, Runs, Settled]; decide
/-- Two levels end here, the inner one for the last time; one level ends elsewhere; every level is done. -/
theorem witness_LoopEndCountsDown :
    let d : LoopLvl := { count := 1, start := 1023, stop := 1024 }
    let m : LoopLvl := { count := 3, start := 1022, stop := 1024 }
    let e : LoopLvl := { count := 3, start := 1022, stop := 1030 }
    (let s := inRow fun x => { x with loops := [d, m] }
     (s.ctx s.arg).loops = [d] ++ [m] ∧ (∀ l ∈ [d], l.stop = s.cur.bundle ∧ l.count = 1#32) ∧ (s.ctx s.arg).moved = false ∧
       m.stop = s.cur.bundle ∧ m.count ≠ 1#32) ∧
    (let s := inRow fun x => { x with loops := [d, e] }
     (s.ctx s.arg).loops = [d] ++ [e] ∧ (∀ l ∈ [d], l.stop = s.cur.bundle ∧ l.count = 1#32) ∧ e.stop ≠ s.cur.bundle) ∧
    (let s := inRow fun x => { x with loops := [d], moved := true }
     (s.ctx s.arg).loops = [d] ++ [] ∧ (∀ l ∈ [d], l.stop = s.cur.bundle ∧ l.count = 1#32) ∧ (s.ctx s.arg).moved = true) := by
  decide

/-- The registers that the vector words read are settled on the base state, in SR mode too. -/
theorem witness_VectorIntegerWords : Runs base U ∧ Settled base [.v 1, .v 2, .k 3] := by simp only [Runs, Settled]; decide
theorem witness_VectorFloatingWords : Runs base U ∧ Settled base [.v 1, .v 2, .k 0] ∧ Settled base [.v 1, .v 2, .v 3, .k 1] ∧ Settled base [.v 15, .k 3] := by
  simp only [Runs, Settled]; decide
theorem witness_VectorConversions :
    (Runs base U ∧ Settled base [.v 1, .k 1] ∧ Settled base [.v 1, .v 2, .k 1] ∧ base.me.round ≠ 4#3) ∧
    (let s := regs fun k => { k with round := 4, randFill := 16 }
     Runs s U ∧ Settled s [.v 1, .k 1] ∧ s.me.round = 4#3 ∧ 16 ≤ s.me.randFill) ∧
    (let s := regs fun k => { k with round := 4, randFill := 15 }
     Runs s U ∧ Settled s [.v 1, .k 1] ∧ s.me.round = 4#3 ∧ s.me.randFill < 16) := by
  simp only [Runs, Settled]; decide
theorem witness_MicroscaledQuantisation : (Runs base U ∧ Settled base [.v 1] ∧ base.me.round ≠ 4#3) ∧
    (let s := regs fun k => { k with round := 4, randFill := 16 }
     Runs s U ∧ Settled s [.v 1] ∧ s.me.round = 4#3 ∧ 16 ≤ s.me.randFill) := by
  simp only [Runs, Settled]; decide
theorem witness_RowAxisWords : Runs base U ∧ Settled base [.v 1, .v 2, .k 1] ∧ Settled base [.v 1, .k 1] ∧ Settled base [.v 1, .v 2, .v 3, .k 1] := by
  simp only [Runs, Settled]; decide
theorem witness_ColumnAxisWords : Runs base U ∧ Settled base [.v 1, .v 2, .k 1] ∧ Settled base [.v 1, .k 1] := by
  simp only [Runs, Settled]; decide
theorem witness_VectorMoves : (Runs base U ∧ Settled base [.v 1, .k 1] ∧ Settled base [.k 1] ∧ base.me.randFill < 16) ∧
    (let s := regs fun k => { k with randFill := 16 }
     Runs s U ∧ Settled s [.k 1] ∧ 16 ≤ s.me.randFill) := by
  simp only [Runs, Settled]; decide
theorem witness_MaskWords : Runs base U ∧ Settled base [.k 1, .k 2] ∧ Settled base [.k 7] ∧ Settled base [.s 9] := by
  simp only [Runs, Settled]; decide

/-- An aligned address of a slab of the job, by number and by bit 32; a slab of the other world that the job has not; one of its own world
that it has not; a misaligned address and one past the slabs. -/
theorem witness_ScratchpadAddressesAreChecked :
    let good := fun (ea : Word) (z : Nat) => ea.getLsbD 63 = true ∧ ea.toNat / 2 ^ 33 % 2 ^ 30 = 0 ∧ ea.toNat % 2 ^ 24 < 0x1800000 ∧
      (ea.getLsbD 32 = true ∨ ea.toNat / 2 ^ 24 % 2 ^ 8 = base.myStack) ∧ ea.toNat % 2 ^ 24 % z = 0
    let bare := { base with jobs := Tbl.empty.put Job.init 1 { (base.job 1) with slabs := 0 } }
    let far := { bare with world := bare.world.put false (hwKey (.slab 0 63)) true }
    let other := { base with world := base.world.put false (hwKey (.slab 0 63)) true }
    (good (spad 16777208) 8 ∧ good 0x8000000000FFFFF8 8 ∧ (base.job base.myCtx.job).slabs.getLsbD (96 * base.myStack + 63) = true ∧
      base.worldOf (.slab base.myStack 63) = base.myCtx.world ∧ other.worldOf (.slab other.myStack 63) ≠ other.myCtx.world) ∧
    ((far.job far.myCtx.job).slabs.getLsbD (96 * far.myStack + 63) = false ∧ far.worldOf (.slab far.myStack 63) ≠ far.myCtx.world) ∧
    ((bare.job bare.myCtx.job).slabs.getLsbD (96 * bare.myStack + 63) = false ∧ bare.worldOf (.slab bare.myStack 63) = bare.myCtx.world) ∧
    ¬ good (spad 4) 8 ∧ ¬ good 0x4000000000000000 8 := by decide +kernel
/-- A load, a store and the atomics in a free bank; a release of an untimed context; an address that fails. -/
theorem witness_ScalarMemoryWords :
    let s := two (spad 8192) 7
    (Runs s U ∧ Settled s [.s 1] ∧ s.ownAddr (s.rs 1) 8 = .ok 8192 ∧ Settled s [.s 2] ∧ Settled s [.s 2, .s 3] ∧
      s.accessTrap [(2, slotOf 8192)] = none ∧ s.accessTrap [(4, slotOf 8192)] = none ∧
      (s.timed = true ∧ relReady s s.cur (touchedWrites s s.cur.ctx) = true)) ∧
    ({ s with cur := { s.cur with timed := false } }).timed = false ∧ ({ s with cur := { s.cur with timed := false } }).accessTrap [(4, slotOf 8192)] = none ∧
    s.ownAddr (s.rs 0) 8 = .error .translation := by
  simp only [Runs, Settled]; decide +kernel
/-- Memory as at reset; a load in a timed context, an untimed one that may go, one whose bank serves another. -/
theorem witness_AccessesPerform :
    let op := AccessOp.load 8192 8 false 3
    (Memory.wf base.mem = true ∧ base.bad.rows = [] ∧ base.timed = true) ∧
    (loose.timed = false ∧ mustWait loose { id := 5, op := op } = false ∧ Memory.wf loose.mem = true) ∧
    (let s := { loose with banks := (opBanks op).map fun b => (b, other.cur) }
     s.timed = false ∧ mustWait s { id := 5, op := op } = true) := by decide +kernel
theorem witness_SparseAndAttentionWords : Runs base U ∧ Settled base [.v 1, .v 2] ∧ Settled base [.v 1, .k 1] ∧ Settled base [.v 1, .v 2, .k 1] ∧
    Settled base [.v 1, .v 2, .v 3, .v 4] := by simp only [Runs, Settled]; decide
theorem witness_VconfMarksRepeats : (Instr.vconf U 1 2 0 3).wellFormed = true ∧ Runs base U ∧ Settled base [.v 2, .k 3] := by
  simp only [Runs, Settled]; decide

/-- Every access of a list has an address. -/
theorem accs_of {s : State} {l : List VAcc} (h : (l.all fun a => match a.flat s with | .ok _ => true | _ => false) = true) :
    ∀ a ∈ l, ∃ f, a.flat s = .ok f := fun a ha => by
  have := List.all_eq_true.mp h a ha
  cases e : a.flat s with
  | ok f => exact ⟨f, rfl⟩
  | error t => rw [e] at this; cases this
/-- s1 names block 2 of the own stack, v2 indexes its words, h3 walks 2 x 2 bytes of it, k1 selects the first and the last container. -/
def vmem : State := regs fun k => { k with
  s := ⟨[(1, spad 8192), (2, 0)]⟩, v := ⟨[(2, 5)]⟩, k := ⟨[(1, BitVec.ofNat 1024 (2 ^ 1023 + 1))]⟩,
  h := ⟨[(3, shapeOf 0x0040000100020002 0)]⟩ }
theorem witness_VectorMemoryWords_block : Runs vmem U ∧ Settled vmem [.s 1, .k 1] ∧ Settled vmem [.v 2] ∧ (vmem.rs 1).toNat % 4096 = 0 ∧
    AccsOk vmem false (blockAccs vmem 1 0 1) ∧ (blockAccs vmem 1 0 1).length = 2 :=
  ⟨by simp only [Runs, Settled]; decide, by simp only [Settled]; decide, by simp only [Settled]; decide, by decide +kernel,
    ⟨accs_of (by decide +kernel), by decide +kernel⟩, by decide +kernel⟩
theorem witness_VectorMemoryWords_tagged : Settled vmem [.s 2] ∧ ∃ f, ({ row := 0, ea := blockEa vmem 1 0, pos := 0, len := 4 } : VAcc).flat vmem = .ok f ∧
    vmem.ctxLock (slotOf f) 0 = false ∧ (vmem.slot (slotOf f)).lock = false ∧ vmem.badMeta.get 0 (slotOf f) = 0 ∧ (vmem.slot (slotOf f)).tag = (vmem.rs 2).setWidth 8 :=
  ⟨by simp only [Settled]; decide, 8192, by decide +kernel⟩
theorem witness_VectorMemoryWords_walk : Settled vmem [.s 1, .h 3, .k 1] ∧ (vmem.rs 1).toNat % shapeE (vmem.rh 3) = 0 ∧
    AccsOk vmem false (walkAccs vmem 1 (vmem.rh 3) (vmem.rk 1)) ∧ (walkAccs vmem 1 (vmem.rh 3) (vmem.rk 1)) ≠ [] :=
  ⟨by simp only [Settled]; decide, by decide +kernel, ⟨accs_of (by decide +kernel), by decide +kernel⟩, by decide +kernel⟩
theorem witness_VectorMemoryWords_index : Settled vmem [.s 1, .v 2, .k 1] ∧ (vmem.rs 1).toNat % 4 = 0 ∧
    AccsOk vmem true (indexAccs vmem 1 2 1) ∧ AccsOk vmem true (firstOnly (indexAccs vmem 1 2 1)) ∧ (firstOnly (indexAccs vmem 1 2 1)).length = 2 :=
  ⟨by simp only [Settled]; decide, by decide +kernel, ⟨accs_of (by decide +kernel), by decide +kernel⟩,
    ⟨accs_of (by decide +kernel), by decide +kernel⟩, by decide +kernel⟩

/-- Every row read of a list has an address. -/
theorem reads_of {l : List MRead} (h : (l.all fun r => match r.addr with | .ok _ => true | _ => false) = true) :
    ∀ r ∈ l, ∃ g, r.addr = .ok g := fun r hr => by
  have := List.all_eq_true.mp h r hr
  cases e : r.addr with
  | ok f => exact ⟨f, rfl⟩
  | error t => rw [e] at this; cases this
/-- s1 names an input block and s2 a weight block; h0 walks one tap. -/
def mat : State := regs fun k => { k with s := ⟨[(1, spad 8192), (2, spad 20480)]⟩, h := ⟨[(0, shapeOf 0x0000008000200001 0x11110000)]⟩ }
theorem witness_MatrixCommands :
    let r := denseReads mat (mat.rs 1) (mat.rs 2) 0
    mat.myCtx.job ≠ 0 ∧ Runs mat U ∧ (mat.guard off = false ∧ Settled mat [.p 0]) ∧ ownSpad mat (mat.rs 1) = none ∧ Settled mat [.s 1, .s 2, .e 0, .e 1, .e 2, .e 3, .h 0] ∧
    (∀ x ∈ r, ∃ g, x.addr = .ok g) ∧ mat.accessTrap (readSlots r) = none ∧ (mat.arrayEnd mat.cur.ctx mat.cur.col 0 (denseOcc 0)).bad = false :=
  ⟨by decide, by simp only [Runs, Settled]; decide, by simp only [Settled]; decide, by decide +kernel, by simp only [Settled]; decide, reads_of (by decide +kernel), by decide +kernel, by decide +kernel⟩
theorem witness_MatrixCommands_others :
    let a := mat.rs 1
    let b := mat.rs 2
    (∀ l ∈ [winReads mat a b (mat.rh 0) 0, csrReads mat a b, m24Reads mat a b], (∀ x ∈ l, ∃ g, x.addr = .ok g) ∧ l ≠ [] ∧
      mat.accessTrap (readSlots l) = none) ∧ (mat.arrayEnd mat.cur.ctx mat.cur.col 0 64).bad = false := by
  refine ⟨?_, by decide +kernel⟩
  intro l hl
  simp only [List.mem_cons, List.not_mem_nil, or_false] at hl
  rcases hl with rfl | rfl | rfl
  · exact ⟨reads_of (by decide +kernel), by intro h; have := congrArg List.length h; revert this; decide +kernel, by decide +kernel⟩
  · exact ⟨reads_of (by decide +kernel), by intro h; have := congrArg List.length h; revert this; decide +kernel, by decide +kernel⟩
  · exact ⟨reads_of (by decide +kernel), by intro h; have := congrArg List.length h; revert this; decide +kernel, by decide +kernel⟩
/-- A command of a P context whose port is free; finite products and accumulators whose sum is not 0, and is. -/
theorem witness_MatrixResultsLand : (isQ base.cur.ctx = false ∧ portKey base.cur base.cur.slot.port ∉ base.ports_ ∧ zPending loose 3 = false) ∧ (∃ a m e, Fmt.f32.dec 0x3F800000 = .num a m e) ∧
    (2 ≤ 5 ∧ 5 ≤ 9) ∧ (Fmt.f32.dec 0x3F800000).value + ([] : List Rat).sum ≠ 0 ∧ (Fmt.f32.dec 0).value + ([] : List Rat).sum = 0 := by
  refine ⟨by decide, ⟨_, _, _, rfl⟩, by decide, by decide +kernel, by decide +kernel⟩
theorem witness_AccumulatorAndModeWords : let s := two (spad 8192) 3
    Runs s U ∧ Settled s [.z 3] ∧ Settled s [.v 1] ∧ Settled s [.s 1] ∧ Settled s [.s 1, .s 2] ∧ (1#5).toNat < 2 ∧
    s.ownAddr (s.rs 1) 128 = .ok 8192 ∧ s.ownAddr (s.rs 1) 256 = .ok 8192 ∧ s.accessTrap [(2, slotOf 8192)] = none ∧
    dieOf s.cur.ctx = 0 ∧ isQ s.cur.ctx = false ∧ stackForeign s s.myStack = false := by
  simp only [Runs, Settled]; decide +kernel
/-- A cached range of the row: the first MiB of the job maps to memory level l of module 5. -/
def ranged (l : Nat) (s : State) : State :=
  { s with ranges := Tbl.empty.put none 0 (some (1, [BitVec.ofNat 256 (2 ^ 84 + 7 * 2 ^ 192 + l * 2 ^ 196 + 5 * 2 ^ 198)])) }
/-- The word stands in the first peel slot; s1 and s2 name blocks 2 and 4 of the own stack, s3 a virtual block. -/
def peel (s : State) : State := { s with cur := { s.cur with slot := .peel0 } }
def blocks (s : State) : State := peel (s.modCore 0 0 fun k => { k with s := ⟨[(1, spad 8192), (2, spad 16384), (3, 0x1000)]⟩ })
/-- Channel 0 belongs to context 0. -/
def owned (s : State) : State := { s with chans := Tbl.empty.put Chan.init 0 { Chan.init with owner := some 0, job := 1 } }
/-- An exchange of two blocks that starts, in an untimed context and in a timed one; one that waits for its engine; one that needs a walk;
the conditional and the transforming ones; a rotation in column mode; one with tower memory. -/
theorem witness_ExchangeWordsStartOrWait :
    let s := blocks loose
    let pl : XchPlan := { a := .s 0 2, b := .s 0 4, n := 2, stepped := false }
    let rot : State := { blocks base with cur := { (blocks base).cur with cmode := true } }
    (Runs s U ∧ Settled s [.s 1, .s 2, .s 3]) ∧
    (s.xchTrap false 1 (s.rs 1) (s.rs 2) 1 0#64 = none ∧ s.xchPlan false 1 (s.rs 1) (s.rs 2) 1 = .ok pl ∧
      s.xchBlocked s.wordPeel (s.newPeel 1 (s.rs 1) (s.rs 2) pl 0#32 0#64) = false) ∧
    (let s := blocks base
     s.xchTrap false 1 (s.rs 1) (s.rs 2) 1 0#64 = none ∧ s.xchPlan false 1 (s.rs 1) (s.rs 2) 1 = .ok pl ∧
      s.xchBlocked s.wordPeel (s.newPeel 1 (s.rs 1) (s.rs 2) pl 0#32 0#64) = false) ∧
    (let s := { s with peels := s.peels.put Peel.init s.wordPeel { Peel.init with kind := 1, a := .s 0 8, b := .s 0 10, n := 1 } }
     s.xchTrap false 1 (s.rs 1) (s.rs 2) 1 0#64 = none ∧ s.xchPlan false 1 (s.rs 1) (s.rs 2) 1 = .ok pl ∧
      s.xchBlocked s.wordPeel (s.newPeel 1 (s.rs 1) (s.rs 2) pl 0#32 0#64) = true) ∧
    (s.xchTrap false 1 (s.rs 3) (s.rs 2) 0 0#64 = none ∧ s.xchPlan false 1 (s.rs 3) (s.rs 2) 0 = .error none) ∧
    (s.xchTrap false 3 (s.rs 1) (s.rs 2) 0 (s.rs 2) = none ∧ s.xchPlan false 3 (s.rs 1) (s.rs 2) 0 = .ok { pl with n := 1 }) ∧
    (let s := ranged 0 (owned s)
     s.xchTrap false 2 (s.rs 2) (s.rs 3) 0 0#64 = none ∧ s.xchPlan false 2 (s.rs 2) (s.rs 3) 0 =
      .ok { a := .s 0 4, b := .t [1], n := 1, stepped := false }) ∧
    (s.sideS (s.rs 1) 64 = .ok (.s 0 2) ∧ s.sideS (s.rs 2) 64 = .ok (.s 0 4)) ∧
    (rot.cur.col = 0 ∧ rot.timed = true ∧ rot.cur.cmode = true ∧ rot.engineHeld rot.wordPeel = false ∧ rotSide rot (rot.rs 1) = .ok (.s 0 2) ∧
      let p := rotPeel rot (rot.rs 1) (.s 0 2)
      rot.xchSched true rot.wordPeel (rotSlots p) (portCycles p rot.clk) = none) ∧
    other.cur.col ≠ 0 := by
  simp only [Runs, Settled]; decide +kernel
/-- The crown context of the stack belongs to the job too. -/
def pair (f : Stack → Stack) : State :=
  { (blocks base).modCtx 32 (fun x => { x with job := 1, timed := true }) with stack := Tbl.empty.put Stack.init 0 (f Stack.init) }
theorem witness_PeelWordsGiveTheirResults :
    let s := pair id
    let full := pair fun k => { k with down := { k.down with rows := [(7, -6), (8, 0)] } }
    let g : State := s.modCore 0 0 fun k => { k with g := ⟨[(1, BitVec.ofNat 128 (0x200000 + 64 * 2 ^ 64 + 3 * 2 ^ 96))]⟩, s := ⟨[(1, spad 8192), (2, 2), (3, 3)]⟩ }
    (Runs s U ∧ Settled s [.s 1] ∧ Settled s [.s 2] ∧ Settled s [.v 1] ∧ Settled s [.s 1, .s 2] ∧ Settled s [.s 2, .g 1]) ∧
    (xverSlot s (s.rs 1) = .ok 2 ∧ s.ctxLock 2 2 = false ∧ s.accessTrap [(2, 2)] = none) ∧
    (s.ownAddr (s.rs 1) 4096 = .ok 8192 ∧ partnerTrap s (clusterP s false) = none ∧ partnerTrap s (clusterP s true) = none ∧ s.timed = true ∧
      s.accessTrap (sendSlots 8192) = none ∧ s.cur.cmode = false ∧ (s.ctx (clusterP s true)).frz = none) ∧
    (fifoTrap s = none ∧ occupancy (fifoOut s) (myDom s) < 16) ∧
    (fifoTrap full = none ∧ (fifoIn full).rows = (7, -6) :: [(8, 0)] ∧ -6 + 6 ≤ myDom full) ∧
    ((g.rg 1).toNat / 2 ^ 96 ≤ (g.rs 3).toNat ∧ (g.rs 2).toNat < (g.rg 1).toNat / 2 ^ 96) := by
  simp only [Runs, Settled]; decide +kernel

/-- An exchange of T block 0 with block 2 is bound to channel 0, which context 0 owns and whose counters have run out; bank 0 is open. -/
def chan (f : Chan → Chan) (p : Peel → Peel) : State :=
  { peel loose with
    chans := Tbl.empty.put Chan.init 0 (f { Chan.init with owner := some 0, job := 1, clk := 5000, binds := [0] })
    peels := Tbl.empty.put Peel.init 0 (p { Peel.init with kind := 1, a := .t [0], b := .s 0 2, n := 1, start := 0, chA := some 0, cur := (peel loose).cur })
    rowLag := Tbl.empty, agenda := [], now := 5000 }
theorem witness_ChannelCommandsIssue :
    let o := fun (x : Chan) => { x with rows := ⟨[(0, 1)]⟩ }
    let closed := chan id id
    let opened := chan o id
    let read := chan o fun p => { p with rdA := 1, rdAt := [(0, 0, 4000)] }
    let q : State := { asQ with chans := Tbl.empty.put Chan.init 0 { Chan.init with owner := some 1, job := 1, guard := some ⟨[], 0, 5792⟩ } }
    (Runs closed U ∧ Settled closed [.s 0]) ∧
    (cmdHeld closed 0 = false ∧ cmdTrap closed 0 (.dact 0 0 0) = none ∧ (bindsSeen closed 0)[0]? = some 0) ∧
    (cmdTrap opened 0 .drd = none ∧ binding0 opened 0 = some 0) ∧
    (cmdTrap read 0 .dwr = none ∧ binding0 read 0 = some 0 ∧ read.timed = false) ∧
    (cmdTrap opened 0 (.dpre 0) = none ∧ (opened.chan 0).rows.get 0 0 ≠ 0) ∧ cmdTrap opened 0 .dprea = none ∧
    (cmdTrap closed 0 .dref = none) ∧ (let s := chan (fun x => { x with progPhase := 1 }) id; cmdTrap s 0 .dref = none ∧ (s.chan 0).progPhase ≠ 0) ∧
    (Runs q U ∧ cmdHeld q 0 = true) ∧ cmdTrap closed 288 .dref = some .channel := by
  simp only [Runs, Settled]; decide +kernel
/-- Ring table words: one that meets no fault and one that does (an empty entry); a table with a bound entry. -/
theorem witness_RingWordsKeepTheTables :
    let s := (blocks base).modCore 0 0 fun k => { k with s := ⟨[(1, spad 8192), (2, 0x0000000700000001)]⟩ }
    let t := ringDo Tbl.empty (.bind 3 2 1 1 7 1 false)
    (Runs s U ∧ Settled s [.s 1, .s 2] ∧ Settled s [.s 2]) ∧ bindBase s 1 2 = .ok 2 ∧ ringCheck s (bindOp s 2 3 2) = none ∧
    ringCheck s (.find 3 0 1 0 true) = none ∧ ringCheck s (.drop 3) = none ∧
    ringCheck s (.adv 3 0 false) = some .ringFault ∧ ringCheck s (.roll 3 0) = some .ringFault ∧ ringCheck s (.fork 3 4 0) = some .ringFault ∧
    (ringOf t 3).next = some 1 ∧ (ringOf t 3).keyed 7 = some 0 := by
  simp only [Runs, Settled]; decide +kernel

/-- A window of module 5 backs the address in s3. -/
def window (s : State) : State := ranged 2 (blocks s)
/-- What GlobalWordsTakeAnEntry assumes of one word that can go. -/
def goes (s : State) (w : Instr) : Bool := match gReqOf w (gVals s w) with
  | some q => q.addr == s.rs 3 && gAddrTrap s false q == none && (!q.stepped || s.timed) && gBusyTrap s q == none &&
    (match gPlace s false q with
    | .ok p => !(gBlocked s q p)
    | .error _ => false)
  | none => false
theorem witness_GlobalWordsTakeAnEntry :
    let s := window loose
    let gld := Instr.gld U 1 3 0
    let grel := Instr.grel U 1 3
    (Runs s U ∧ Settled s [.s 3, .v 1, .v 2, .v 3, .s 1, .s 2, .s 4]) ∧
    (∀ w ∈ [gld, .gld U 1 3 3, .gst U 1 3 0, .gst U 1 3 1, .gacq U 1 3, .grel U 1 3, .gamo U 1 3 15, .gmrg U 1 3 2], w ≠ .gld U 1 3 3 → goes s w = true) ∧
    (goes (window base) (.gld U 1 3 3) = true ∧ goes (window base) grel = true) ∧
    (let s := s.modCore 0 0 fun k => { k with acqs := [{ s.cur with seq := 0 }] }
     ∃ q p, gReqOf gld (gVals s gld) = some q ∧ gAddrTrap s false q = none ∧ gPlace s false q = .ok p ∧ q.rel = false ∧ gBlocked s q p = true) ∧
    (∃ q, gReqOf grel (gVals s grel) = some q ∧ q.rel = true ∧ s.timed = false) ∧
    (let s := blocks loose
     ∃ q, gReqOf gld (gVals s gld) = some q ∧ gAddrTrap s false q = none ∧ gBusyTrap s q = none ∧ gPlace s false q = .error none) ∧
    (let w := Instr.gld U 1 2 0
     ∃ q, gReqOf w (gVals s w) = some q ∧ gAddrTrap s false q = some .translation) := by
  refine ⟨by simp only [Runs, Settled]; decide +kernel, by decide +kernel, by decide +kernel,
    ⟨_, ⟨2, 5, 0x1000⟩, rfl, by decide +kernel, by decide +kernel, by decide +kernel, by decide +kernel⟩,
    ⟨_, rfl, by decide +kernel, by decide +kernel⟩, ⟨_, rfl, by decide +kernel, by decide +kernel, by decide +kernel⟩, ⟨_, rfl, by decide +kernel⟩⟩

/-- The checks that come before TIMED pass; both contexts of the stack's FIFOs belong to the job. -/
theorem witness_TimedOperationsNeedTimed :
    let s := ranged 2 (blocks { pair id with cur := { base.cur with timed := false } })
    let xq := Instr.gld U 1 3 2
    (Runs s U ∧ Settled s [.s 1] ∧ Settled s [.s 1, .s 3] ∧ Settled s [.s 3] ∧ Settled s [.v 1]) ∧ s.timed = false ∧ s.ownAddr (s.rs 1) 4096 = .ok 8192 ∧
    partnerTrap s (clusterP s false) = none ∧ (s.cur.col = 0 ∧ s.peelTrap = none ∧ rotSide s (s.rs 1) = .ok (.s 0 2)) ∧
    (partnerTrap s (crownP s.myStack) = none ∧ dieOf s.cur.ctx = 0 ∧ isQ s.cur.ctx = false) ∧
    s.xchPlan false 1 (s.rs 1) (s.rs 3) 32 = .ok { a := .s 0 2, b := .d [(5, 0x1000)], n := 1, stepped := true } ∧
    s.linkTrap s.myCtx.world 5 = none ∧
    (∃ q, gReqOf xq (gVals s xq) = some q ∧ gPlace s false q = .ok ⟨2, 5, 0x1000⟩) ∧ (2#2).getLsbD 1 = true := by
  refine ⟨by simp only [Runs, Settled]; decide +kernel, by decide +kernel, by decide +kernel, by decide +kernel, by decide +kernel,
    by decide +kernel, by decide +kernel, by decide +kernel, ⟨_, rfl, by decide +kernel⟩, by decide⟩
/-- The Q context of a row whose Q contexts share a job. -/
theorem witness_TimedOperationsNeedTimed_q :
    let s : State := { asQ with ctxs := (asQ.ctxs.put Ctx.init 0 { Ctx.init with job := 1 }).put Ctx.init 32 { Ctx.init with job := 1 } }
    Runs s U ∧ s.timed = false ∧ isQ s.cur.ctx = true ∧ (s.ctx (brimP s.myStack)).job ≠ 0 ∧
      (s.ctx (brimP s.myStack)).job = (s.ctx (crownP s.myStack)).job := by
  simp only [Runs, Settled]; decide +kernel

/-- The head core of a P row, timed and not; a continue; a Q row; a FENCE whose scope is done and one with an access pending. -/
theorem witness_SystemWords :
    let busy := { base.access 2 0 (.store ⟨8192, 8, 1⟩) with cur := { base.cur with bundle := 1025, seq := 2 } }
    (base.myCtx.job ≠ 0 ∧ RunsHead base U ∧ Settled base [.s 1] ∧ isQ base.cur.ctx = false ∧ base.myCtx.past ≠ some base.cur.seq) ∧
    (RunsHead loose U ∧ Runs loose U ∧ loose.timed = false) ∧
    (let s := inRow fun x => { x with past := some 1 }; RunsHead s U ∧ s.myCtx.past = some s.cur.seq) ∧ (RunsHead asQ U ∧ isQ asQ.cur.ctx = true) ∧
    (let s := { base with ctxs := base.ctxs.put Ctx.init 1 { Ctx.init with job := 1, wait := .yield 3 } }; (s.ctx (s.cur.ctx + 1)).wait = .yield 3) ∧
    (base.timed = true ∧ fenceDone base base.cur 4 base.mark = true) ∧ (busy.timed = true ∧ fenceDone busy busy.cur 0 busy.mark = false) := by
  simp only [RunsHead, Runs, Settled]; decide +kernel
/-- A core without privilege on the head column, one on another, a head core with privilege whose LAUNCH may go; numbers that name a
register and one that names none. -/
theorem witness_ControlRegisterWords :
    let p := (blocks base).modCtx 0 fun x => { x with priv := true }
    (Runs base U ∧ Settled base [.s 1] ∧ base.myCtx.priv = false ∧ base.cur.col = 0) ∧ (Runs other U ∧ other.cur.col ≠ 0) ∧
    ctlExists 0x010 = true ∧ ctlExists 0x005 = false ∧
    (Runs p U ∧ p.myCtx.priv = true ∧ p.ownAddr (p.rs 1) 256 = .ok 8192 ∧ launchTrap p 1 0 = none) := by
  simp only [Runs, Settled]; decide +kernel
/-- A core of a running job traps while a result of its is due; a command fails two minima; two traps meet in a cycle. -/
theorem witness_TrapsFreezeTheJob :
    let s := base.land 0 [.s 1 0] 0
    (s.probe = false ∧ s.myCtx.job ≠ 0 ∧ s.myCtx.frz = none ∧ (Trap.world).cause = 6 ∧ (s.ctx 0).job = s.myCtx.job ∧ (s.ctx 0).frz = none ∧
      ∃ d ∈ s.agenda, d.cur.ctx = 0 ∧ d.cur ≠ Cursor.none ∧ runsOn d = false ∧ d.act ∉ [.singleStepTrap, .jobRestart, .programRefreshDebtWrap, .randomQueueRefill]) ∧
    (let c := chan (fun x => { x with rfc := 6000, lastPre := 6000 }) id; guardFails c 0 .dref = [3, 12] ∧ guardTrap c 0 .dref = some (.timing 3)) ∧
    (∃ f, firstFound [⟨1, base.cur, 7, 0, .nowhere, false, 3, none⟩, ⟨0, base.cur, 5, 0, .vec0, false, 4, none⟩] = some f ∧ f.cls = 0) :=
  ⟨⟨by decide +kernel, by decide +kernel, by decide +kernel, by decide, rfl, by decide +kernel, _, List.mem_append_right _ List.mem_cons_self,
    by decide +kernel, by decide +kernel, by decide +kernel, by decide +kernel⟩, by decide +kernel, _, rfl, rfl⟩

/-- The writers of each register; a shape pending; a bit of TOUCHED with no write outstanding and one with; a window; a row that waits for
its last report, for its first, and a FENCE that has to wait. -/
theorem witness_CoreEventsTakeEffect :
    (Runs base U ∧ Settled base [.s 2] ∧ dieOf base.cur.ctx ≠ 1 ∧ isQ base.cur.ctx = false ∧ stackWorldBad base base.myStack false = false ∧
      base.cur.col = 0) ∧
    (let s := inRow fun x => { x with priv := true }
     s.myCtx.priv = true ∧ stackWorldBad s s.myStack ((s.rs 2).getLsbD 1) = false ∧ stackWorldBad s s.myStack false = false) ∧
    (let s := { inRow fun x => { x with unacked := [⟨7, 3⟩], clears := [(9, [])] } with arg := 9 }
     (1#35 <<< 7).getLsbD 7 = true ∧ (∃ u ∈ s.myCtx.unacked, u.slice = 7) ∧ (∀ u ∈ s.myCtx.unacked, u.slice = 7 → u.id < s.arg) ∧
       (s.arg, []) ∈ s.myCtx.clears) ∧
    (2#2 ≠ 3#2) ∧ portTaken base (portKey base.cur 0) (portRank base.cur.ctx false) = false ∧
    portTaken { base with ports_ := [portKey base.cur 0] } (portKey base.cur 0) (portRank base.cur.ctx true) = true ∧
    (let l := (List.range 15).map fun i => (i, 0)
     let s := { inRow fun x => { x with wait := .fence 0 0 l } with arg := 7 }
     s.myCtx.wait = .fence 0 0 l ∧ s.arg % 8 = 7 ∧ 15 ≤ l.length) ∧
    (let s := { inRow fun x => { x with wait := .fence 0 0 [] } with arg := 0 }
     s.myCtx.wait = .fence 0 0 [] ∧ s.waiting = [] ∧ fenceDone s s.cur (s.arg % 8) (s.arg / 8) = true ∧ ([] : List (Nat × Nat)).length < 15) ∧
    (let busy : State := { base.access 2 0 (.store ⟨8192, 8, 1⟩) with cur := { base.cur with bundle := 1025, seq := 2 }, arg := 8 * 2 ^ 20 }
     busy.arg % 8 ≠ 7 ∧ fenceDone busy busy.cur (busy.arg % 8) (busy.arg / 8) = false) := by
  simp only [Runs, Settled]; decide +kernel

/-- Exchanges under way: the last beat of a pair of XCH, one of a rotation, a pair of XCHT, in timed and untimed contexts. -/
theorem witness_ExchangesMoveTheirBlocks :
    let at_ := fun (s : State) (p : Peel) => { s with peels := Tbl.empty.put Peel.init 0 { p with cur := s.cur }, arg := 0 }
    let x : Peel := { Peel.init with kind := 1, a := .s 0 2, b := .s 0 4, n := 1, ptr := 63 }
    (∀ b ∈ [base, loose], let s := at_ b x
      Memory.wf s.mem = true ∧ (s.peel (s.myPeel s.arg)).kind = 1 ∧ (s.peel 0).state ≠ 1 ∧ (s.peel 0).pair = [] ∧
      (∀ q ∈ beatMetas (s.peel 0) 63, s.metaBad q = false) ∧
      s.badRows (sideAddr x.a 0 + 4032) 64 = [] ∧ s.badRows (sideAddr x.b 0 + 4032) 64 = [] ∧ sideAddr x.a 0 + 4096 ≤ sideAddr x.b 0 + 4032 ∧
      x.a.isS = true ∧ x.b.isS = true ∧ x.a.place 0 ≠ x.b.place 0) ∧
    (let s := at_ loose { x with ptr := 60 }
     let t := { s with exBanks := (pairBanks (s.peel 0) 0).map fun b => (b, 9) }
     crossWait s 0 (pairBanks (s.peel 0) 0) = 0 ∧ 0 < crossWait t 0 (pairBanks (t.peel 0) 0) ∧ t.timed = false) ∧
    (let s := at_ base { x with kind := 4, b := .s 0 2, ptr := 0 }
     (s.peel 0).kind = 4 ∧ (s.peel 0).pair = [] ∧ (s.peel 0).a = .s 0 2 ∧ s.timed = true ∧
      (∀ c < 16, s.badRows (4096 * (6144 * (0 / 16 * 16 + c) + 2) + 64 * 0) 64 = []) ∧ ∀ q ∈ beatMetas (s.peel 0) 0, s.metaBad q = false) ∧
    (let s := at_ loose { x with kind := 3 }
     (s.peel 0).kind = 3 ∧ crossWait s 0 (pairBanks (s.peel 0) 0) = 0) ∧
    sideAddr x.a 0 + 4096 ≤ sideAddr x.b 0 := by decide +kernel
/-- A waiting exchange that nothing blocks, and one that its engine blocks. -/
theorem witness_ExchangesMoveTheirBlocks_deferred :
    let s := blocks loose
    let p := s.newPeel 1 (s.rs 1) (s.rs 2) { a := .s 0 2, b := .s 0 4, n := 1, stepped := false } 0#32 0#64
    let w : Waiting := { id := 9, cur := s.cur, what := .exchange p s.wordPeel }
    let t : State := { s with waiting := [w], arg := 9 }
    let u := { t with peels := t.peels.put Peel.init t.wordPeel { Peel.init with kind := 1, a := .s 0 8, b := .s 0 10, n := 1 } }
    (t.waiting.find? (fun w => w.id == t.arg) = some w ∧ w.what = .exchange p s.wordPeel ∧ t.xchBlocked s.wordPeel p = false) ∧
    (u.waiting.find? (fun w => w.id == u.arg) = some w ∧ u.xchBlocked s.wordPeel p = true) := by
  refine ⟨⟨rfl, rfl, by decide +kernel⟩, rfl, by decide +kernel⟩
/-- A row arrives at a core whose RECV expects it now, at one that expects none; row 0 of a RECV, and row 1, do not come. -/
theorem witness_ExchangesMoveTheirBlocks_recv :
    let s := base.afterMe 0 (recvCode 3 1 0 0) .recvRowMissing
    let u : State := { s with cur := { s.cur with ctx := 0, col := 0, slot := .nowhere, bundle := s.lastBundleOf 0 0 } }
    let b : State := { base with cur := { base.cur with ctx := 0, col := 0, slot := .nowhere, bundle := base.lastBundleOf 0 0 } }
    (s.ports_.contains (8 * coreNo 0 0 + 6) = false ∧ arrivals u = [] ∧ (expects u 1 0 0).isSome = true) ∧
    (expects b 1 0 0 = none ∧ arrivals b = []) ∧
    arrivals { b with ord := 9, agenda := [⟨.chip, b.now, 3, b.cur, 0, .recvRowArrival 0 0 2 0 0 0⟩] } ≠ [] ∧
    recvCode 3 1 0 0 % 16 = 0 ∧ recvCode 3 1 0 1 % 16 ≠ 0 ∧
    (let p := { s with probe := true, arg := recvCode 3 1 0 0 }; p.probe = true ∧ p.myCtx.frz = none) := by decide +kernel

/-- Beats of an exchange between a tower block and the own stack: to stage, to compare with an expected version, to deliver, of an
abandoned exchange and of none. -/
theorem witness_ChannelEventsTakeEffect_beats :
    let none := chan id fun p => { p with kind := 0 }
    let gone := chan id fun p => { p with state := 1 }
    let kept := chan id fun p => { p with state := 3 }
    let x := chan id id
    let c := chan id fun p => { p with kind := 2, a := .s 0 2, b := .t [0], chA := Option.none, chB := some 0 }
    (none.peel 0).kind = 0 ∧ (gone.peel 0).state = 1 ∧ (kept.peel 0).state = 3 ∧
    ((x.peel 0).kind ≠ 0 ∧ (x.peel 0).state ≠ 1 ∧ x.arg ≠ 1 ∧ ({ x with arg := 1 }).arg = 1 ∧ x.badRows tBase 64 = [] ∧ (x.peel 0).state ≠ 3 ∧ (x.peel 0).chB = Option.none ∧
      crossWait x 0 (pairBanks (x.peel 0) 0) = 0 ∧ (∀ q ∈ beatMetas (x.peel 0) 63, x.metaBad q = false) ∧ x.badRows (spadAddr 0 8192) 64 = [] ∧ burstAt (x.peel 0) 0 15 = (true, 0, 15) ∧
      sideAddr (x.peel 0).b 0 + 64 ≤ sideAddr (x.peel 0).a 0) ∧
    ((c.peel 0).kind = 2 ∧ burstAt (c.peel 0) 0 0 = (false, 0, 0) ∧ (c.ctx (c.peel 0).cur.ctx).frz = Option.none) := by decide +kernel
/-- Channels whose debts are below and at 4, of a P owner and a Q owner; guard sequences, replays, repairs, scrubs. -/
theorem witness_ChannelEventsTakeEffect_accounts :
    let r : Replay := ⟨⟨0, 0, true, base.cur, 0, 1, 3, base.cur, []⟩, 3, 1, 3, false⟩
    let q := fun (x : Chan) => { x with owner := some 1 }
    let s := chan id id
    ((∀ y ∈ (s.chan 0).replays, y.sent.write = false) ∧ (s.chan 0).progDebt < 4 ∧ (s.chan 0).holdDebt < 4 ∧ s.reloading = false ∧ ({ s with reloading := true }).reloading = true ∧
      (s.chan 0).replays = [] ∧ (0 : Nat) < 256 ∧ (s.chan 300).owner = none ∧ (s.chan 0).owner = some 0) ∧
    (let s := chan (fun x => { x with progDebt := 4, holdDebt := 4 }) id
     ¬ (s.chan 0).progDebt < 4 ∧ 4 ≤ (s.chan 0).holdDebt ∧ (s.chan 0).owner = some 0 ∧ isQ 0 = false) ∧
    (let s := chan (fun x => { q x with progDebt := 4 }) id; ¬ (s.chan 0).progDebt < 4 ∧ (s.chan 0).owner = some 1 ∧ isQ 1 = true) ∧
    (let s := chan (fun x => { x with guard := some ⟨[], 0, 5000⟩ }) id
     ∃ g, (s.chan 0).guard = some g ∧ g.doneAt ≤ s.now ∧ ((s.chan 0).overdue && g.pays != 2) = false ∧ heldCmds s 0 = []) ∧
    (let s := chan (fun x => { q x with overdue := true, guard := some ⟨[], 0, 5000⟩ }) id
     ∃ g, (s.chan 0).guard = some g ∧ g.doneAt ≤ s.now ∧ ((s.chan 0).overdue && g.pays != 2 && (s.chan 0).owner.any isQ) = true) ∧
    (let s := { chan (fun x => { x with overdue := true }) id with arg := 512 }
     512 ≤ s.arg ∧ (s.chan (s.arg % 512)).overdue = true ∧ (s.chan (s.arg % 512)).guard = none) ∧
    (let s := chan (fun x => { x with replays := [r] }) id
     (∃ y ∈ (s.chan 0).replays, y.sent.write = true) ∧ (s.chan 0).replays = r :: [] ∧
     edgeFrom s 0 (realReady (timOf 0) (s.chan 0).cmds 2 r.sent.bank s.now) ≤ s.now + 2) ∧
    (let s := { chan (fun x => { x with replays := [r] }) id with now := 5001 }
     edgeFrom s 0 (realReady (timOf 0) (s.chan 0).cmds 2 r.sent.bank s.now) ≤ s.now) ∧
    (let s := chan (fun x => { x with lastScrub := some 1 }) id
     (s.chan 0).lastScrub = some 1 ∧ s.dom (s.partOf 0) < 1 + 65536) ∧
    (let s := chan (fun x => { x with lastScrub := some (-65536) }) id; -65536 + 65536 ≤ s.dom (s.partOf 0)) := by
  refine ⟨by decide +kernel, by decide +kernel, by decide +kernel, ⟨_, rfl, by decide +kernel, by decide +kernel, by decide +kernel⟩,
    ⟨_, rfl, by decide +kernel, by decide +kernel⟩, by decide +kernel, by decide +kernel, by decide +kernel, by decide +kernel, by decide +kernel⟩
/-- A burst fails that none replays; a lane test finds one lane with a spare free, with none free, and two lanes. -/
theorem witness_ChannelEventsTakeEffect_failures :
    let y : Sent := ⟨0, 0, true, base.cur, 0, 1, 3, base.cur, []⟩
    let r : Replay := ⟨y, 3, 1, 3, false⟩
    let s := chan (fun x => { x with sent := [y] }) id
    let t := chan (fun x => { x with replays := [r] }) id
    let u := chan (fun x => { x with replays := [r], soft := 0x8180 }) id
    (s.arg ≠ 1 ∧ (s.chan 0).replays.find? (fun x => x.sent.burst == 0 && x.sent.write == true) = none ∧ (s.chan 0).owner = some 0 ∧
      ((s.chan 0).sent.reverse.find? fun z => z.burst == 0 && z.write == true) = some y) ∧
    ((t.chan 0).replays = r :: [] ∧ ¬((t.chan 0).soft.getLsbD 7 = true ∧ (t.chan 0).soft.getLsbD 15 = true)) ∧
    ((u.chan 0).soft.getLsbD 7 = true ∧ (u.chan 0).soft.getLsbD 15 = true) ∧ ([2, 3] : List Nat).length ≠ 1 := by decide +kernel
/-- A pending load and a pending acquire that was refused. -/
theorem witness_GlobalEventsTakeEffect_replies :
    let g : GEnt := { GEnt.init with state := 1, cur := base.cur, wr := 5 }
    let s := { base with gtab := Tbl.empty.put GEnt.init (64 * coreKey 0 0 + 63) g }
    (s.gent (64 * coreKey 0 0 + 63)).state = 1#2 ∧ g.kind ≠ 4#8 ∧ ({ g with beats := 1 }).beats ≤ g.done + 1 ∧
      g.done + 1 < ({ g with beats := 64 }).beats ∧ (s.ctx g.cur.ctx).frz = none ∧ s.arg ≠ 1 ∧
    ({ s with probe := true }).probe = true ∧ g.cur.ctx = 0 := by decide +kernel
/-- Operations that waited: a load that may go and one that an acquire holds back, a walk, a release that is ready and one that is not. -/
theorem witness_GlobalEventsTakeEffect_waits :
    let s := window loose
    let gld := Instr.gld U 1 3 0
    let a : Access := { id := 4, op := .store ⟨8192, 8, 1⟩ }
    let at_ := fun (s : State) (w : WaitWhat) => { s with waiting := [⟨9, s.cur, w⟩], arg := 9 }
    (let t := at_ s (.gop gld (gVals s gld) 5 0x1000 [])
     let w := t.modCtx 0 fun x => { x with world := true }
     t.waiting.find? (fun w => w.id == t.arg) = some ⟨9, s.cur, .gop gld (gVals s gld) 5 0x1000 []⟩ ∧ goes t gld = true ∧
       t.linkTrap t.myCtx.world 5 = none ∧ w.linkTrap w.myCtx.world 5 = some .world ∧
       ∀ q ∈ gReqOf gld (gVals s gld), gBlocked t q ⟨2, 5, 0x1000⟩ = false ∧
       gBlocked (t.modCore 0 0 fun k => { k with acqs := [{ s.cur with seq := 0 }] }) q ⟨2, 5, 0x1000⟩ = true) ∧
    (let t := at_ (blocks loose) (.walk gld [0x1000])
     let u := { t with chans := t.chans.put Chan.init 256 { Chan.init with owner := some 2 } }
     t.waiting.find? (fun w => w.id == t.arg) = some ⟨9, s.cur, .walk gld [0x1000]⟩ ∧ t.walkVas true gld [0x1000] = [0x1000] ∧
       t.walkHeld t.cur.ctx 0x1000 = false ∧ u.walkHeld u.cur.ctx 0x1000 = true ∧
       (match u.xlate 0x1000 false false with | .walk => true | _ => false) = true) ∧
    (let g := Instr.grel U 1 3
     let t := at_ s (.grel g (gVals s g) 5 0x1000 [] [])
     let c : Cursor := { s.cur with bundle := 1025, seq := 2 }
     t.waiting.find? (fun w => w.id == t.arg) = some ⟨9, s.cur, .grel g (gVals s g) 5 0x1000 [] []⟩ ∧
       relReady { t with waiting := t.waiting.filter fun w => w.id != t.arg } s.cur [] = true ∧
       relReady (s.access 2 0 (.store ⟨8192, 8, 1⟩)) c [] = false ∧
       ∀ q ∈ gReqOf g (gVals s g), gBlocked { t with waiting := t.waiting.filter fun w => w.id != t.arg } q ⟨2, 5, 0x1000⟩ = false) ∧
    (let t := at_ s (.release a [])
     relReady { t with waiting := t.waiting.filter fun w => w.id != t.arg } s.cur [] = true) ∧
    (let c : Cursor := { s.cur with bundle := 1025, seq := 2 }
     let t := { s.access 2 0 (.store ⟨8192, 8, 1⟩) with waiting := [⟨9, c, .release a []⟩], arg := 9 }
     relReady { t with waiting := t.waiting.filter fun w => w.id != t.arg } c [] = false) := by
  decide +kernel
/-- Remote accesses to a mapped window, before its service window and in it, and to one that is not mapped. -/
theorem witness_GlobalEventsTakeEffect_remote :
    let r := fun (op : RemoteOp) => ({ srcModule := 3, srcEntry := 1, secure := false, offset := 262144 + 8, op := op, step := none, beat := 0 } : Remote)
    let s := { base with winMap := Tbl.empty.put none 1 (some (0, 0, false)) }
    let t := { s with now := 128 }
    (windowSlot s (r (.read 8)) = .ok 8 ∧ (r (.read 8)).step = none ∧ serves s (bankOfSlot (slotOf 8)) false = false) ∧
    (∀ op ∈ [RemoteOp.read 8, .write 8 5, .amo 0 true 1 0, .exchange 0 0, .merge 0 0 0 0 0 0],
      windowSlot t (r op) = .ok 8 ∧ remoteBusy t (r op) 8 = false ∧ servedFirst t (bankOfSlot (slotOf 8)) = false ∧
      serves t (bankOfSlot (slotOf 8)) true = true ∧ beatBad { t with svc := bankOfSlot (slotOf 8) :: t.svc } (r op) 8 = false) ∧
    beatBad { t with bad := Tbl.empty.put 0 0 3 } (r (.read 8)) 8 = true ∧ Memory.wf t.mem = true ∧ 64 * (r (.write 8 5)).beat < 8 ∧
    windowSlot base (r (.read 8)) = .error .remote ∧ windowSlot s { r (.read 8) with secure := true } = .error .world := by decide +kernel
/-- A first contribution is merged; a flit in a buffer, one replayed 16 times; a port of an idle module and of one with a live partition. -/
theorem witness_GlobalEventsTakeEffect_links :
    let f := fun (n : Nat) => ({ seq := 7, load := .ack 0 0, idx := 0, cnt := 1, sentAt := 0, replays := n } : Flit)
    let at_ := fun (n : Nat) => { base with ports := Tbl.empty.put Port.init 2 { Port.init with up := true, buf := [f n] }, arg := 32 * 7 + 2 }
    let live := { at_ 0 with parts := Tbl.empty.put Part.init 0 { Part.init with live := true } }
    ((at_ 0).port 2).held = [] ∧ ((at_ 0).port 2).buf.length < 512 ∧ (match admitMerge [] 0 3 1 0 with | .merge d => admitMerge d 0 3 1 0 | x => x) = .drop ∧
    ((at_ 16).port ((at_ 16).arg % 32)).buf.find? (fun g => g.seq == (at_ 16).arg / 32) = some (f 16) ∧
    ((at_ 15).port ((at_ 15).arg % 32)).buf.find? (fun g => g.seq == (at_ 15).arg / 32) = some (f 15) ∧
    (at_ 0).arg < 2 ^ 60 ∧ 2 ^ 60 ≤ 2 ^ 60 + (at_ 0).arg ∧ 17 < 18 ∧ 0 ≠ (at_ 0).module.toNat + 1 ∧ (at_ 0).bootFail = none ∧ ((at_ 0).port 2).up = true ∧ (base.port 2).up = false ∧
    (∀ x ∈ (at_ 0).parts.rows, x.2.live = false) ∧ ∃ x ∈ live.parts.rows, x.2.live = true := by
  refine ⟨by decide +kernel, by decide +kernel, by decide +kernel, by decide +kernel, by decide +kernel, by decide +kernel, by decide +kernel, by decide, by decide, by decide +kernel,
    by decide +kernel, by decide +kernel, by decide +kernel, ⟨(0, _), List.mem_cons_self, rfl⟩⟩

/-- A record of brim row 0 with its image in channel 257 and its save slabs in its map, and queues that store, reject and refuse. -/
def rec1 : BitVec 2048 := BitVec.ofNat 2048 (1 * 2 ^ 16 + 2 ^ 36 * 2 ^ 64 + 0x3000 * 2 ^ 576)
def queued (st : BitVec 8) (s : State) : State :=
  { s with queues := Tbl.empty.put LQueue.init 0 { LQueue.init with en := true, ents := [⟨0, rec1 ||| st.setWidth 2048, st, 0⟩], candSince := some 0 },
           jobs := Tbl.empty, ctxs := Tbl.empty,
           mem := ((List.range 16).foldl (fun t i => t.store (fBase + 0x3000 + 12 * i) 1 3) s).mem }
theorem witness_DispatchEventsTakeEffect_enqueue :
    let s := queued 0 base
    (s.queue 0).en = true ∧ enqueueCode s 0 rec1 = 0 ∧ enqueueCode s 0 0 = 4 ∧ enqueueCode s 1 rec1 = 0x101 ∧
    (let f := { s with queues := Tbl.empty.put LQueue.init 0 { LQueue.init with en := true, ents := List.replicate 32 ⟨0, rec1, 0, 0⟩ } }
     32 ≤ (f.queue 0).ents.length) ∧
    ((BitVec.allOnes 64).getLsbD 0 = true ∧ ({ s with qmap := Tbl.empty.put 0#64 1 1 }.qmap.get 0#64 1).getLsbD 0 = true ∧
      (s.qmap.get 0#64 2).getLsbD 0 = false) ∧
    (mapWaits s 0 rec1 = false ∧ mapWaits { s with chans := Tbl.empty.put Chan.init 256 { Chan.init with owner := some 2 } } 0 rec1 = true ∧
      HwBlock.vf 1 ∉ s.refused ∧ (s.queue 0).secure = false) ∧
    (∃ i < 64, (s.qmap.get 0#64 2).getLsbD i ≠ (1#64).getLsbD i ∧ (s.queue i).ents ≠ []) ∧
    (∀ i < 64, ((s.qmap.get 0#64 2).getLsbD i = (2#64).getLsbD i ∨ (s.queue i).ents = []) ∧ (s.queue i).secure = false) ∧
    (0x8000#64).getLsbD 15 = true := by
  refine ⟨by decide +kernel, by decide +kernel, by decide +kernel, by decide +kernel, by decide +kernel, by decide +kernel, by decide +kernel,
    ⟨0, by decide +kernel⟩, by decide +kernel, by decide⟩
/-- A candidate that is selected and placeable, one that a job's context blocks while level 7 is reached, a rejected head, a waiting job. -/
theorem witness_DispatchEventsTakeEffect_decide :
    let s := queued 0 base
    let e : QEntry := ⟨0, rec1, 0, 0⟩
    let x : Selected := ⟨0, 0, 0⟩
    let b : State := { s with now := 7340032, jobs := Tbl.empty.put Job.init 1 { Job.init with record := rec1, state := .running },
                              ctxs := Tbl.empty.put Ctx.init 0 { Ctx.init with job := 1 } }
    (choose s = some x ∧ choose base = none ∧ candidates base = [] ∧ s.placed = false ∧ s.selected = none) ∧
    ((select s).selected = some x ∧ selEntry s x = some e ∧ placeable s e = true ∧ recordReadable s e.record = true) ∧
    ((select b).selected = some x ∧ selEntry b x = some e ∧ placeable b e = false ∧ effective b (recPrio e.record) x.since = 7 ∧
      1 ∈ blockers b e.record ∧ recPrio (b.job 1).record < 7 ∧ (b.job 1).state = .running ∧ (b.job 1).stop = false) ∧
    (let r := queued 4 base; ∃ y, headEntry (r.queue 0).ents = some y ∧ y.status = 4#8) ∧ headEntry (s.queue 0).ents = some e ∧
    (let w := { b with arg := 1, jobs := Tbl.empty.put Job.init 1 { Job.init with record := rec1, state := .waiting } }
     (w.job w.arg).state = .waiting ∧ (w.job w.arg).record ≠ 0#2048 ∧ (s.job s.arg).record = 0#2048 ∧ 0 ∈ recCtxs (w.job w.arg).record) ∧
    ({ s with selected := some x }.selected = some x ∧ e.job = 0) ∧
    (let o := { s with chans := Tbl.empty.put Chan.init 257 { Chan.init with owner := some 2 } }
     placeable o e = true ∧ recordReadable o e.record = false) ∧
    (let o := { s with ctxs := Tbl.empty.put Ctx.init 1 { Ctx.init with job := 2, occ := [⟨0, 0, 9⟩] } }
     placeable o e = true ∧ qOccupied o e.record = true ∧ qOccupied s e.record = false) := by
  refine ⟨by decide +kernel, by decide +kernel, by decide +kernel, ⟨_, rfl, rfl⟩, by decide +kernel, by decide +kernel, by decide +kernel,
    by decide +kernel, by decide +kernel⟩

/-- Jobs that run, save, are frozen by a trap or out of their rows; a context that has not issued for 2^24 cycles. -/
theorem witness_StopEventsTakeEffect :
    let job := fun (st : JobState) (tr stop : Bool) =>
      { base with arg := 1, jobs := Tbl.empty.put Job.init 1 { Job.init with record := rec1, state := st, trapped := tr, stop := stop } }
    let z : Frz := ⟨0, 0, [(3, ⟨.row 0, 3, 1, base.cur, 0, .exchangeComplete⟩)], 1, 1#5, true, [], none, [], [], [], false, []⟩
    let ice := (job .frozen true false).modCtx 0 fun x => { x with frz := some z }
    let busy := { job .saving false true with agenda := [⟨.row 0, 3, 1, base.cur, 0, .drdBeatArrival 0 0 0 0⟩] }
    ((job .running false false).probe = false ∧ ((job .running false false).job 1).state = .running ∧ liveCtxs (job .running false false) 1 = 0 :: [] ∧
      stepAtF (job .running false false) [0] = none ∧ dogAtF (job .running false false) [0] = none ∧
      (job .running false false).ctxsOf 1 = 0 :: [] ∧ ((job .running false false).ctx 0).frz = none) ∧
    ((job .saving false false).job 1).stop = false ∧ (((job .saving false true).job 1).stop = true ∧ dramBusy (job .saving false true) 1 = false) ∧
    ((busy.job 1).stop = true ∧ dramBusy busy 1 = true ∧ launchBusy busy 1 = false) ∧ ¬ 1300 ≤ busy.arg / 2 ^ 42 ∧
    1300 ≤ (1 + 1300 * 2 ^ 42) / 2 ^ 42 ∧ (1 + 1300 * 2 ^ 42) % 2 ^ 42 = 1 ∧
    launchBusy { busy with agenda := [⟨.chip, 3, 1, base.cur, 0, .launchRecordWrite (.core 0 1 1) 0 0⟩] } 1 = true ∧
    ((ice.job 1).state = .frozen ∧ (ice.job 1).trapped = true ∧ eventWaits ice 1 = false ∧ (∀ c ∈ ice.ctxsOf 1, edited ice c = false) ∧
      0 ∈ ice.ctxsOf 1 ∧ z.state.getLsbD 2 = false ∧ heldByGate ice 0 = false ∧
      heldByGate { ice with stack := Tbl.empty.put Stack.init 15 { Stack.init with whole := { Stack.init.whole with gated := true } } } 0 = true) ∧
    (((job .preempted true true).job 1).state = .preempted ∧ ((job .preempted true true).job 1).trapped = true) ∧
    (let r := { ice with arg := 2 ^ 40 }; (r.ctx (r.arg - 2 ^ 40)).job ≠ 0 ∧ (r.ctx (r.arg - 2 ^ 40)).frz = some z ∧
      ∀ i ∈ z.items, i.2.act = .exchangeComplete) ∧
    (base.probe = false ∧ base.myCtx.job ≠ 0 ∧ base.myCtx.frz = none) ∧
    (let w := { inRow (fun x => { x with lastIssue := -16777217 }) with arg := 0 }
     w.dom (w.partOf w.arg) - (w.ctx w.arg).lastIssue = 16777217 ∧ (w.ctx w.arg).frz = none) ∧
    (base.dom (base.partOf 0) - (base.ctx 0).lastIssue ≠ 16777217) ∧
    (savedOwner ice 0 = some 1 ∧ recWorld (ice.job 1).record = false ∧ (ice.job 1).trapped = true) ∧ savedOwner base 0 = none ∧
    fieldOut (.s 32 0) = true ∧ slabDiffers ice 0 0 z 0 4096 = false ∧ slabDiffers ice 0 0 z (50 * 4096) (51 * 4096) = false ∧
    slabDiffers (ice.store (saveBase ice 0 0) 8 5) 0 0 z 0 4096 = true ∧
    slabDiffers (ice.store (saveBase ice 0 0 + 50 * 4096) 8 5) 0 0 z (50 * 4096) (51 * 4096) = true := by decide +kernel

/-- Stacks with and without a resident context, gated and not; a gate takes effect on the crown row of stack 255. -/
theorem witness_GateEventsTakeEffect :
    let g := fun (f : Gate → Gate) => { base with stack := Tbl.empty.put Stack.init 0 { Stack.init with whole := f Stack.init.whole, crown := f Stack.init.crown } }
    ((gateOf base 0 true).req = false ∧ (gateOf base 0 true).gated = false ∧ (gateOf base 0 true).gating = false ∧ (gateOf base 0 true).ungating = false) ∧
    ((gateCtxs 0 true).any fun c => (base.ctx c).job != 0) = true ∧ ((gateCtxs 0 false).any fun c => (base.ctx c).job != 0) = false ∧
    ((gateOf (g fun x => { x with req := true, gated := true }) 0 true).req = true ∧ (gateOf (g fun x => { x with req := true, gated := true }) 0 true).gated = true ∧
      (gateOf (g fun x => { x with req := true, gated := true }) 0 true).ungating = false) ∧
    (let s := { base with arg := 2 ^ 41 + 0 }; s.probe = false ∧ s.arg = 2 ^ 41 + 0 ∧ stepAtF s (gateCtxs 0 true) = none ∧ dogAtF s (gateCtxs 0 true) = none ∧ 0 ∈ gateCtxs 0 true ∧ (s.ctx 0).job ≠ 0 ∧
      (s.ctx 0).frz = none) ∧
    (let s := { base.modCtx 62 (fun x => { x with job := 1 }) with arg := 2 ^ 40 + 255 }
     s.arg = 2 ^ 40 + 255 ∧ 62 ∈ gateCtxs 255 false ∧ (s.ctx 62).job ≠ 0) ∧
    -- the whole stack's gate opens over a context that it froze and that is saved
    (let f : Frz := ⟨0, 0, [], 1, 4#5, true, [], none, [], [], [], false, []⟩
     let s := { (g fun x => { x with gated := true, ungating := true }).modCtx 0 fun x => { x with frz := some f } with arg := 0 }
     let u := modGate s 0 true fun x => { x with gated := false, ungating := false }
     (gateOf s 0 true).req = false ∧ 0 ∈ gateCtxs 0 true ∧ (s.ctx 0).frz = some f ∧ f.state.getLsbD 2 = true ∧ f.restart = none ∧ f.saved = true ∧
      heldByGate u 0 = false ∧ eventWaits s (s.ctx 0).job = false ∧ (s.job (s.ctx 0).job).state = .running) := by decide +kernel

/-- Blocks held and free, a scrub's last request, holders of a translation, registers with and without a job, far memory with and without
an owner, window entries, events, versions, measurements. -/
theorem witness_ManagementEventsTakeEffect :
    let s : State := { State.reset with jobs := Tbl.empty, ctxs := Tbl.empty }
    let full := { base with jobs := Tbl.empty.put Job.init 1 { (base.job 1) with record := rec1 } }
    (full.held (.slab 0 5) = true ∧ s.held (.slab 0 5) = false ∧ blockIs (.slab 0 5) = true ∧ blockIs (.slab 0 96) = false) ∧
    ((∀ r ∈ s.scrubs, r.blk = .slab 0 5 → r.started = true) ∧ ∀ r ∈ s.scrubWait, r.blk ≠ .slab 0 5) ∧
    (let v : Inval := ⟨3, [base.cur]⟩
     let p : State := { base with cur := Cursor.none, arg := 3, invals := [v], peels := Tbl.empty.put Peel.init 0 { Peel.init with kind := 1, cur := base.cur, tags := [4] } }
     p.cur = Cursor.none ∧ p.invals.find? (fun i => i.id == p.arg) = some v ∧ (∃ c ∈ v.holders, stillHolds p c = true) ∧
     ∀ c ∈ v.holders, stillHolds { p with peels := Tbl.empty } c = false) ∧
    base.cur ≠ Cursor.none ∧ s.arg ≠ 1 ∧ ((s.job 1).state ≠ .preempted ∧ s.ctxsOf 1 = []) ∧
    (let r : State := { s with arg := 1, ranges := Tbl.empty.put none 0 (some (1, [0])) }
     r.arg = 1 ∧ (r.chan 256).owner = none ∧ r.ranges.get none 0 = some (1, [0]) ∧
       ({ r with chans := Tbl.empty.put Chan.init 256 { Chan.init with owner := some 2 } }.chan 256).owner.isSome = true) ∧ (anyJob base = true ∧ anyJob s = false ∧ anyResident base = true ∧ anyResident s = false ∧ s.tickNow = s.tickNow) ∧
    (2 ^ 41 < 2 ^ 41 - 7 + 8 ∧ 2 ^ 41 - 8 + 8 ≤ 2 ^ 41 ∧
      (∀ b ∈ farBlocks 4090 8, (s.chan (256 + b / 16777216)).owner = none ∧ farSecure s b = false) ∧
      let o := { s with chans := Tbl.empty.put Chan.init 256 { Chan.init with owner := some 2 } }
      ∃ b ∈ farBlocks 4090 8, (o.chan (256 + b / 16777216)).owner.isSome = true) ∧
    (4095 < 4096 ∧ slabUsed s 255 95 = false ∧ slabUsed full 0 0 = true) ∧ s.events.length < 4095 ∧ ({ s with dropped := 1 }).dropped ≠ 0 ∧
    (let f := { base with ctxs := Tbl.empty.put Ctx.init 0 { Ctx.init with job := 1, frz := some ⟨0, 0, [], 0, 1, false, [], none, [(3, 0)], [], [], false, []⟩ } }
     f.evBlocked 4 0 = true ∧ base.evBlocked 4 0 = false) ∧
    (let a := { s with accepted := [s.svn] }; s.svn ∈ a.accepted ∧ a.svn ≤ s.svn ∧ s.svn ∉ s.accepted) ∧
    (full.job 1).record ≠ 0#2048 ∧ (full.job 1).state ≠ .ending ∧ (s.job 1).record = 0#2048 := by decide +kernel

/-- Units of the host die that reach far memory and units that do not. -/
theorem witness_ManagementEventsTakeEffect_host :
    let s : State := { State.reset with jobs := Tbl.empty, ctxs := Tbl.empty }
    (hostRefused s ⟨.hart 64, true, .dma false⟩ = true ∧ hostRefused s ⟨.hart 63, true, .dma false⟩ = false ∧
      hostRefused s ⟨.rootPort 3, true, .dma false⟩ = false ∧ hostRefused s ⟨.rootPort 3, true, .ats⟩ = true ∧ s.bootFail = none ∧
      .root 3 ∉ s.refused ∧ HwBlock.vf 255 ∉ s.refused) := by decide +kernel
/-- A holder of an invalidation that waits for an entry, in a frozen context and in one that runs. -/
theorem witness_ManagementEventsTakeEffect_revoked :
    let w : Waiting := ⟨9, base.cur, .gop (.gld U 1 3 0) [] 5 0 [4]⟩
    let v : Inval := ⟨3, [base.cur]⟩
    let f := { base with waiting := [w], cur := Cursor.none, arg := 3, invals := [v] }.modCtx 0 fun x =>
      { x with frz := some ⟨0, 0, [], 1, 1#5, true, [], none, [], [], [], false, []⟩ }
    f.invals.find? (fun i => i.id == f.arg) = some v ∧ w ∈ f.waiting ∧ w.cur ∈ v.holders ∧ waitTags w ≠ [] ∧ (f.ctx w.cur.ctx).frz.isSome = true ∧
      stillHolds { base with waiting := [w] } w.cur = true ∧ (base.ctx w.cur.ctx).frz = none := by decide +kernel

/-- Partitions whose rows wait for a tick or a step, that hold at a boundary, exceed a limit, run a guard sequence; sensors and power. -/
theorem witness_ClockEventsTakeEffect :
    let wait := fun (w : CtxWait) => { inRow (fun x => { x with wait := w }) with arg := 0 }
    let part := fun (f : Part → Part) => { base with arg := 0, parts := Tbl.empty.put Part.init 0 (f { Part.init with live := true }) }
    (let s := wait (.waitTick 0#64 5); s.releaseAt 0 = none ∧ (s.ctx 0).since ≤ s.rowClk (rowOf 0) ∧ 0 ∈ runningIn s 0 ∧ (s.ctx 0).wait = .waitTick 0#64 5 ∧ 0#64 ≤ (s.part 0).tick) ∧
    (let s := wait (.realign 5); 0 ∈ runningIn s 0 ∧ (s.ctx 0).wait = .realign 5) ∧
    (((part id).part 0).members = [] ∧ excess (part id) 0 = 0) ∧ ((part fun x => { x with members := [3] }).part 0).members ≠ [] ∧
    (let s := { part id with arg := 64 }; 64 ≤ s.arg) ∧
    (let x := (part fun x => { x with causes := [.boundary], boundary := some 0, ready := 1 })
     (x.part 0).causes.contains .boundary = true ∧ (x.part 0).boundary.isSome = true ∧ x.now < (x.part 0).ready) ∧
    (let x := { (part fun x => { x with causes := [.boundary], boundary := some 0 }) with arg := 64 }
     (x.part (x.arg % 64)).ready + excess x (x.arg % 64) ≤ x.now ∧ guardIn x 0 = false) ∧
    (wait .none).myCtx.wait = .none ∧
    (let s := { part id with now := 65536, arg := 128 }
     (s.part (s.arg % 64)).live = true ∧ s.stepDom 0 % 65536 = 0 ∧ 0 < s.stepDom 0) ∧ ¬ 0 < (part id).stepDom 0 ∧
    (let s := { part id with arg := 128 }; s.sideBad (localSide (s.peel (s.gent 0).dest)) (s.peel (s.gent 0).dest).n = false) ∧
    (let s := { part id with arg := 128, bad := Tbl.empty.put 0 0 3, peels := Tbl.empty.put Peel.init 0 { Peel.init with a := .s 0 0, b := .d [(5, 0)], n := 1 } }
     s.sideBad (localSide (s.peel (s.gent 0).dest)) (s.peel (s.gent 0).dest).n = true) ∧
    (let s := { wait (.waitStep 1#64 5) with now := 65536 }; 0 ∈ runningIn s 0 ∧ 1#64 ≤ (s.part 0).step + 1#64) ∧
    (let s := part fun x => { x with boundary := some 0 }; (s.part (s.arg % 64)).boundary = some (s.arg / 64) ∧
      (∃ r ∈ s.jobs.rows, r.2 = s.job r.1 ∧ r.2.part = 0 ∧ r.2.state = .running ∧ r.2.stop = false)) ∧
    ((part id).part 0).boundary ≠ some 0 ∧
    (let s := { part fun x => { x with limits := [(.power, 5)] } with now := 3600005 }; (.power, 5) ∈ (s.part 0).limits ∧ 5 + 3600000 ≤ s.now) ∧
    (let s := { part fun x => { x with limits := [(.power, 5)] } with now := 3600004 }
     (s.part 0).limits ≠ [] ∧ ∀ l ∈ (s.part 0).limits, s.now < l.2 + 3600000) ∧
    (guardIn (chan (fun x => { x with guard := some ⟨[], 0, 0⟩ }) id) 0 = true ∧ guardIn base 0 = false ∧ HoldCause.boundary ≠ .replay 0) ∧
    (0 < 95 ∧ sensorLimit 0 = some 1050) ∧ (State.reset.arg ≠ 1 ∧ ({ State.reset with arg := 1 }).arg = 1) := by decide +kernel
/-- A boundary with another module whose last transfer performs in this cycle, and one with a cycle to come. -/
theorem witness_ClockEventsTakeEffect_boundary :
    let r := fun (n : Nat) => ({ srcModule := 3, srcEntry := 1, secure := false, offset := 262144 + 8, op := .read n, step := some (0, 0, 0), beat := 0 } : Remote)
    let x := fun (n : Nat) => { base with
      parts := Tbl.empty.put Part.init 0 { Part.init with live := true, causes := [.boundary], boundary := some 0, members := [3], arrivals := [r n] },
      arg := 64, winMap := Tbl.empty.put none 1 (some (0, 0, false)) }
    ((x 8).part 0).olds = [] ∧ boundaryOrder ((x 8).part 0).arrivals = r 8 :: [] ∧ windowSlot (x 8) (r 8) = .ok 8 ∧ remoteBusy (x 8) (r 8) 8 = false ∧
      beatBad (x 8) (r 8) 8 = false ∧ ((boundaryCycle (x 8) 0).part 0).arrivals = [] ∧ ((boundaryCycle (x 65) 0).part 0).arrivals ≠ [] ∧
      ((x 8).part 0).members ≠ [] ∧ guardIn (boundaryCycle (x 8) 0) 0 = false := by decide +kernel
end Sys2Proof.Tests
end

section
/-! SUPPORT. The words that need TIMED = 1, in a context without it: each check that R443 ranks before the untimed use passes, so the
word takes schedule fault 9 (R24). -/

namespace Sys2Proof.Machine

open Sys2Proof State

/-! ### Lists of checks -/

@[simp] theorem State.firstTrap_none_cons (l : List (Option Trap)) : firstTrap (none :: l) = firstTrap l := rfl
@[simp] theorem State.firstTrap_some_cons (t : Trap) (l : List (Option Trap)) : firstTrap (some t :: l) = some t := rfl
@[simp] theorem State.addrTrap_none_none : addrTrap [none, none] = none := rfl
@[simp] theorem State.known_none (s : State) (l : List Reg) : s.known l none = none := by simp [known]
@[simp] theorem trapOf_ok {α : Type} (x : α) : trapOf (Except.ok x) = none := rfl

/-! ### The untimed use of a timed operation -/

/-- The word takes the schedule fault of R24, and no register and no byte changes. -/
def UntimedUse (s : State) (i : Instr) : Prop := ∃ t, exec i s = .next t ∧ t = s.takeTrap (.sched 9) ∧ SameData s t

theorem untimedUse_of_exec {s : State} {i : Instr} (e : exec i s = .next (s.takeTrap (.sched 9))) : UntimedUse s i :=
  ⟨_, e, rfl, takeTrap_same ..⟩

theorem send_untimed {s : State} {h : Hd} {x c : BitVec 5} {f : Nat} (r : Runs s h) (u : s.timed = false)
    (a : s.ownAddr (s.rs x) 4096 = .ok f) (p : partnerTrap s (clusterP s (c.getLsbD 4)) = none) : UntimedUse s (.send h x c) := by
  apply untimedUse_of_exec
  show execSend h x c s = _
  unfold execSend
  exact word_trap r (by simp [-BitVec.getLsbD_eq_getElem, u, a, p])

theorem recv_untimed {s : State} {h : Hd} {v : BitVec 4} {c : BitVec 5} (r : Runs s h) (u : s.timed = false) :
    UntimedUse s (.recv h v c) :=
  untimedUse_of_exec (show execRecv h v c s = _ from word_trap r (by simp [u]))

theorem xrot_untimed {s : State} {h : Hd} {x : BitVec 5} {a : Side} (r : RunsHead s h) (u : s.timed = false)
    (k : s.peelTrap = none) (e : rotSide s (s.rs x) = .ok a) : UntimedUse s (.xrot h x) :=
  untimedUse_of_exec (rowWord_trap r (by simp [u, k, e]))

/-! ### Vertical FIFOs -/

/-- The other end of the stack's FIFOs is a partner, or the ends belong to one job where a Q context executes (R142, R443). -/
def FifoEnds (s : State) : Prop :=
  partnerTrap s (if dieOf s.cur.ctx = 0 then crownP s.myStack else brimP s.myStack) = none ∧ isQ s.cur.ctx = false ∨
    isQ s.cur.ctx = true ∧ (s.ctx (brimP s.myStack)).job ≠ 0 ∧ (s.ctx (brimP s.myStack)).job = (s.ctx (crownP s.myStack)).job

theorem fifoTrap_untimed {s : State} (u : s.timed = false) (e : FifoEnds s) : fifoTrap s = some (.sched 9) := by
  rcases e with ⟨partner, p⟩ | ⟨q, held, shared⟩
  · simp [fifoTrap, u, p, partner]
  · have held' : (s.ctx (crownP s.myStack)).job ≠ 0 := shared ▸ held
    simp [fifoTrap, u, q, held', shared]

theorem vfpush_untimed {s : State} {h : Hd} {x c : BitVec 4} (r : Runs s h) (u : s.timed = false) (e : FifoEnds s) :
    UntimedUse s (.vfpush h x c) :=
  untimedUse_of_exec (show execVfpush h x c s = _ from word_trap r (by simp [fifoTrap_untimed u e]))

theorem vfpop_untimed {s : State} {h : Hd} {x c : BitVec 4} (r : Runs s h) (u : s.timed = false) (e : FifoEnds s) :
    UntimedUse s (.vfpop h x c) :=
  untimedUse_of_exec (show execVfpop h x c s = _ from word_trap r (by simp [fifoTrap_untimed u e]))

theorem vffree_untimed {s : State} {h : Hd} {x : BitVec 5} (r : Runs s h) (u : s.timed = false) (e : FifoEnds s) :
    UntimedUse s (.vffree h x) :=
  untimedUse_of_exec (show execVffree h x s = _ from word_trap r (fifoTrap_untimed u e))

/-! ### Exchanges -/

/-- What an exchange plan has settled: its sides, their pairing, and whether it is step-timed (R358). -/
theorem xchPlan_ok {s : State} {full : Bool} {kind : Nat} {sn sf : Word} {c : Nat} {pl : XchPlan}
    (e : s.xchPlan full kind sn sf c = .ok pl) :
    let n := s.xchPairs full kind sn sf c
    s.sideOf full sn n = .ok (pl.a, false) ∧ s.sideOf full sf n = .ok (pl.b, false) ∧ kindPairOk kind pl.a pl.b = true ∧
      pl.stepped = (decide (kind = 1) && (s.namesD full sn || s.namesD full sf) && c.testBit 5) := by
  simp only [xchPlan] at e
  split at e
  · cases e
  · split at e
    · rename_i a b ea eb
      obtain ⟨a, wa⟩ := a
      obtain ⟨b, wb⟩ := b
      split_ifs at e with pair world
      obtain ⟨rfl, rfl⟩ : wa = false ∧ wb = false := by simpa using world
      cases e
      exact ⟨ea, eb, by simpa using pair, rfl⟩
    all_goals cases e

theorem xchPairs_pos (s : State) (full : Bool) (kind : Nat) (sn sf : Word) (c : Nat) : 0 < s.xchPairs full kind sn sf c := by
  unfold xchPairs
  split_ifs <;> omega

/-- An operand names another module where its first block translates to one. -/
theorem namesD_iff {s : State} {full : Bool} {x : Word} :
    s.namesD full x = true ↔ x.getLsbD 63 = false ∧ ∃ y alien, s.xl1 full x.toNat true true = .done y alien ∧ y.level = 2 := by
  unfold namesD firstXl
  cases x.getLsbD 63
  · cases s.xl1 full x.toNat true true <;> simp
  · simp

/-- The side of an operand that names another module lies there, for its level is that of its first block. -/
theorem sideOf_isD {s : State} {full : Bool} {x : Word} {n : Nat} {a : Side} {w : Bool} (d : s.namesD full x = true) (hn : 0 < n)
    (e : s.sideOf full x n = .ok (a, w)) : a.isD = true := by
  obtain ⟨virt, y, alien, first, level⟩ := namesD_iff.mp d
  obtain ⟨m, rfl⟩ := Nat.exists_eq_succ_of_ne_zero hn.ne'
  simp only [sideOf, virt, sideV, List.range_succ_eq_map, List.map_cons, Nat.mul_zero, Nat.add_zero, first,
    List.filterMap_cons, List.headD_cons, level] at e
  simp only [Bool.false_eq_true, if_false] at e
  split_ifs at e
  cases e
  rfl

/-- A step-timed plan has a side on another module (R358). -/
theorem remote_of_stepped {s : State} {full : Bool} {kind : Nat} {sn sf : Word} {c : Nat} {pl : XchPlan}
    (e : s.xchPlan full kind sn sf c = .ok pl) (stepped : pl.stepped = true) : pl.a.isD = true ∨ pl.b.isD = true := by
  obtain ⟨sideA, sideB, -, step⟩ := xchPlan_ok e
  have pos := xchPairs_pos s full kind sn sf c
  obtain ⟨⟨-, named⟩, -⟩ : (kind = 1 ∧ (s.namesD full sn = true ∨ s.namesD full sf = true)) ∧ c.testBit 5 = true := by
    simpa [stepped] using step
  exact named.imp (fun d => sideOf_isD d pos sideA) (fun d => sideOf_isD d pos sideB)

theorem Side.isD_iff {x : Side} : x.isD = true ↔ ∃ l, x = .d l := by cases x <;> simp [Side.isD]

/-- A pairing with a side on another module uses no channel: the other side is one of S slots (R358). -/
theorem chan_none_of_pairOk {a b : Side} (p : pairOk a b = true) (d : a.isD = true ∨ b.isD = true) :
    a.chan = none ∧ b.chan = none := by
  rcases d with d | d <;> obtain ⟨l, rfl⟩ := Side.isD_iff.mp d
  · cases b with
    | s _ _ => exact ⟨rfl, rfl⟩
    | t _ | f _ | d _ => cases p
  · cases a with
    | s _ _ => exact ⟨rfl, rfl⟩
    | t _ | f _ | d _ => cases p

/-- A block on another module has no world bit here, so no pair with one differs (R88, R89). -/
theorem worldsDiffer_of_isD (s : State) {a b : Side} (d : a.isD = true ∨ b.isD = true) (j : Nat) :
    s.worldsDiffer a b j = false := by
  rcases d with d | d <;> obtain ⟨l, rfl⟩ := Side.isD_iff.mp d
  · rfl
  · simp [worldsDiffer, placeWorld]

/-- The first check that a step-timed plan fails in an untimed context is its untimed use. -/
theorem planTrap_untimed {s : State} {sn sf : Word} {c : Nat} {pl : XchPlan} (u : s.timed = false)
    (e : s.xchPlan false 1 sn sf c = .ok pl) (stepped : pl.stepped = true) (k : s.peelTrap = none)
    (links : ∀ l, pl.a = .d l ∨ pl.b = .d l → ∀ m ∈ l, s.linkTrap s.myCtx.world m.1 = none) : s.planTrap pl = some (.sched 9) := by
  have remote := remote_of_stepped e stepped
  obtain ⟨-, -, pair, -⟩ := xchPlan_ok e
  obtain ⟨chanA, chanB⟩ := chan_none_of_pairOk pair remote
  have sides : s.sidesTrap [pl.a, pl.b] pl.stepped = some (.sched 9) := by
    unfold sidesTrap
    rw [List.findSome?_eq_none_iff.mpr]
    · simp [chanA, chanB, k, u, stepped]
    · intro x hx
      split
      · exact List.findSome?_eq_none_iff.mpr (links _ (by simpa [eq_comm] using hx))
      · rfl
  simp [planTrap, worldsDiffer_of_isD s remote, sides]

theorem xch_untimed {s : State} {h : Hd} {x y : BitVec 5} {c : BitVec 6} {pl : XchPlan} (r : Runs s h) (u : s.timed = false)
    (st : Settled s [.s x.toNat, .s y.toNat]) (e : s.xchPlan false 1 (s.rs x) (s.rs y) c.toNat = .ok pl)
    (stepped : pl.stepped = true) (k : s.peelTrap = none)
    (links : ∀ l, pl.a = .d l ∨ pl.b = .d l → ∀ m ∈ l, s.linkTrap s.myCtx.world m.1 = none) : UntimedUse s (.xch h x y c) := by
  have early : s.early [.s x.toNat, .s y.toNat] = none := st
  have check : s.xchCheck 1 x y c.toNat [.s x.toNat, .s y.toNat] 0#64 = some (.sched 9) := by
    simp [xchCheck, early, xchTrap, e, planTrap_untimed u e stepped k links]
  exact untimedUse_of_exec (show execXch h x y c s = _ from word_trap r check)

/-! ### Global accesses -/

theorem gAddrTrap_of_place {s : State} {full : Bool} {q : GReq} {p : Xl} (e : gPlace s full q = .ok p) :
    gAddrTrap s full q = s.linkTrap s.myCtx.world p.module := by
  simp [gAddrTrap, e]

/-- A step-timed request whose address is good meets its untimed use first. -/
theorem gWord_untimed {s : State} {h : Hd} {i : Instr} {addr data : List Reg} {q : GReq} {p : Xl} (r : Runs s h)
    (u : s.timed = false) (e : exec i s = gWord h i addr data s) (req : gReqOf i (gVals s i) = some q) (stepped : q.stepped = true)
    (place : gPlace s false q = .ok p) (link : s.linkTrap s.myCtx.world p.module = none) : UntimedUse s i :=
  untimedUse_of_exec (e.trans (word_trap r (by simp [req, gAddrTrap_of_place place, link, stepped, u])))

theorem gld_stepped {h : Hd} {x y : BitVec 5} {c : BitVec 2} {v : List Word} {q : GReq} (e : gReqOf (.gld h x y c) v = some q) :
    q.stepped = c.getLsbD 1 := by
  cases e; rfl

theorem gst_stepped {h : Hd} {x y : BitVec 5} {c : BitVec 2} {v : List Word} {q : GReq} (e : gReqOf (.gst h x y c) v = some q) :
    q.stepped = c.getLsbD 1 := by
  cases e; rfl

end Sys2Proof.Machine

open Sys2Proof Sys2Proof.Machine Sys2Proof.Machine.State

/-- Settles O48: every check that comes before the untimed use passes under the statement's hypotheses, so each word takes schedule
fault 9, and a trap changes no register and no byte. A step-timed XCH has a side on another module, which uses no channel and has no
world bit of its own. -/
theorem timedOperationsNeedTimed : Obligations.TimedOperationsNeedTimed := by
  intro s h x y v r4 c c6 c2 f a runs untimed traps ends
  refine ⟨?send, ?recv, ?xrot, ?fifo, ?xch, ?global⟩
  case send => exact fun _ addr partner => send_untimed runs untimed addr partner
  case recv => exact recv_untimed runs untimed
  case xrot => exact fun head _ peel side => xrot_untimed ⟨runs, head⟩ untimed peel side
  case fifo =>
    intro e
    exact ⟨vfpush_untimed runs untimed e, vfpop_untimed runs untimed e, vffree_untimed runs untimed e⟩
  case xch => exact fun settled pl plan stepped peel links => xch_untimed runs untimed settled plan stepped peel links
  case global =>
    intro stepped _
    exact ⟨fun q p req place link => gWord_untimed runs untimed rfl req ((gld_stepped req).trans stepped) place link,
      fun _ q p req place link => gWord_untimed runs untimed rfl req ((gst_stepped req).trans stepped) place link⟩
end

section
/-! SUPPORT. The landing of a result through its free write port: what the port, the write, the flags and the return of an acquire's
value leave (R46, R47, R49, R67, R221). -/

namespace Sys2Proof.Machine

open Sys2Proof State

/-! ### Write ports -/

/-- No class comes before that of a P result at its scheduled cycle: only a result that went through its port takes it (R47). -/
theorem portTaken_first {s : State} {key : Nat} (free : key ∉ s.ports_) : portTaken s key 0 = false := by
  simp only [portTaken, Bool.or_eq_false_iff, List.any_eq_false]
  refine ⟨by simpa using free, fun e _ => ?_⟩
  cases portClass e <;> simp

theorem portRank_scheduled {c : Nat} (inP : isQ c = false) : portRank c false = 0 := by simp [portRank, inP]

/-! ### Acquires -/

/-- Waking the waiting operations enters work and does nothing else. -/
theorem wakeWaiting_keeps {β : Type} (m : State → β) (enters : ∀ s k n c a i, m (after s k n c a i) = m s) (s : State)
    (p : Waiting → Bool) (n : Waiting → Nat) : m (wakeWaiting s p n) = m s := by
  refine foldl_keeps m _ (fun t w => ?_) ..
  split
  · rfl
  · split
    · exact enters ..
    · exact enters ..
    · rfl

@[simp] theorem wakeWaiting_core (s : State) (p : Waiting → Bool) (n : Waiting → Nat) (c col : Nat) :
    (wakeWaiting s p n).core c col = s.core c col := wakeWaiting_keeps (fun t => t.core c col) (fun _ _ _ _ _ _ => rfl) ..

/-- The return of an acquire's value enters work and changes its core's list of acquires. -/
theorem dropAcq_keeps {β : Type} (m : State → β) (enters : ∀ s k n c a i, m (after s k n c a i) = m s)
    (core : ∀ s c col f, m (modCore s c col f) = m s) (s : State) (cur : Cursor) : m (dropAcq s cur) = m s := by
  unfold dropAcq
  split
  · rw [wakeWaiting_keeps m enters, core]
  · rfl

@[simp] theorem dropAcq_ports_ (s : State) (cur : Cursor) : (dropAcq s cur).ports_ = s.ports_ :=
  dropAcq_keeps State.ports_ (fun _ _ _ _ _ _ => rfl) (fun _ _ _ _ => rfl) ..
@[simp] theorem dropAcq_ctxs (s : State) (cur : Cursor) : (dropAcq s cur).ctxs = s.ctxs :=
  dropAcq_keeps State.ctxs (fun _ _ _ _ _ _ => rfl) (fun _ _ _ _ => rfl) ..
@[simp] theorem dropAcq_mem (s : State) (cur : Cursor) : (dropAcq s cur).mem = s.mem :=
  dropAcq_keeps State.mem (fun _ _ _ _ _ _ => rfl) (fun _ _ _ _ => rfl) ..

/-- The acquire leaves its core's list, and no register of that core changes (R221). -/
@[simp] theorem dropAcq_core_same (s : State) (cur : Cursor) : (dropAcq s cur).core cur.ctx cur.col =
    { s.core cur.ctx cur.col with acqs := (s.core cur.ctx cur.col).acqs.filter fun a => a != cur } := by
  unfold dropAcq
  split
  case isTrue => simp
  case isFalse absent =>
    have stays : (s.core cur.ctx cur.col).acqs.filter (fun a => a != cur) = (s.core cur.ctx cur.col).acqs :=
      List.filter_eq_self.mpr fun a mem => by
        simp only [bne_iff_ne]
        rintro rfl
        simp [mem] at absent
    rw [stays]

theorem dropAcq_core_other (s : State) (cur : Cursor) {c col : Nat} (other : coreKey c col ≠ coreKey cur.ctx cur.col) :
    (dropAcq s cur).core c col = s.core c col := by
  unfold dropAcq
  split
  · rw [wakeWaiting_core, core_modCore, if_neg other]
  · rfl

/-! ### The landing of one register -/

@[simp] theorem usePort_core (s : State) (key c col : Nat) : (usePort s key).core c col = s.core c col := rfl
@[simp] theorem usePort_ports_ (s : State) (key : Nat) : (usePort s key).ports_ = key :: s.ports_ := rfl
@[simp] theorem usePort_ctxs (s : State) (key : Nat) : (usePort s key).ctxs = s.ctxs := rfl
@[simp] theorem usePort_mem (s : State) (key : Nat) : (usePort s key).mem = s.mem := rfl

/-- The state in which a result of one register has landed on the executing core: its port is used, its register written, its flags
are raised, and what waited for it tries again (R46, R47, R67, R221). -/
def landed (s : State) (port : Nat) (w : RegWrite) (fl : BitVec 5) : State :=
  dropAcq (((usePort s (portKey s.cur port)).modCore s.cur.ctx s.cur.col fun k => CoreCtx.write k w).modCore s.cur.ctx s.cur.col
    fun k => { k with flags := k.flags ||| fl }) s.cur

/-- Every update but that of a control register is one of the core's own registers (R61). -/
theorem applyWrite_register {w : RegWrite} (register : ∀ n a b, w ≠ .ctl n a b) (s : State) (c col : Nat) :
    applyWrite s c col w = s.modCore c col fun k => CoreCtx.write k w := by
  cases w
  case ctl n a b => exact absurd rfl (register n a b)
  all_goals rfl

/-- A result at its scheduled cycle in a P context lands where no result went through its port before it (R47). -/
theorem exec_resultLanding_free {s : State} {f : Flight} {w : RegWrite} (inP : isQ s.cur.ctx = false) (one : f.writes = [w])
    (register : ∀ n a b, w ≠ .ctl n a b) (onTime : f.delay = 0) (free : portKey s.cur f.port ∉ s.ports_) :
    exec (.resultLanding f) s = .next (landed s f.port w f.flags) := by
  have notTaken : portTaken s (portKey s.cur f.port) (portRank s.cur.ctx (decide (f.delay ≠ 0))) = false := by
    simp only [onTime, ne_eq, not_true_eq_false, decide_false, portRank_scheduled inP, portTaken_first free]
  have port : noPort f = false := by simp [noPort, one]
  show execResultLanding f s = _
  unfold execResultLanding
  simp only [notTaken, port, one, Bool.and_false, Bool.false_eq_true, if_false, List.foldl_cons, List.foldl_nil,
    applyWrite_register register]
  rfl

section
variable (s : State) (port : Nat) (w : RegWrite) (fl : BitVec 5)

theorem landed_core_same : (landed s port w fl).core s.cur.ctx s.cur.col =
    { CoreCtx.write s.me w with
      flags := (CoreCtx.write s.me w).flags ||| fl
      acqs := (CoreCtx.write s.me w).acqs.filter fun a => a != s.cur } := by
  simp only [landed, dropAcq_core_same, core_modCore_same, usePort_core]
  rfl

theorem landed_core_other {c col : Nat} (other : coreKey c col ≠ coreKey s.cur.ctx s.cur.col) :
    (landed s port w fl).core c col = s.core c col := by
  simp only [landed, dropAcq_core_other _ _ other, core_modCore, if_neg other, usePort_core]

@[simp] theorem landed_ports_ : (landed s port w fl).ports_ = portKey s.cur port :: s.ports_ := by simp [landed]
@[simp] theorem landed_ctxs : (landed s port w fl).ctxs = s.ctxs := by simp [landed]
@[simp] theorem landed_mem : (landed s port w fl).mem = s.mem := by simp [landed]

end

@[simp] theorem write_s_flags (k : CoreCtx) (n : Nat) (x : Word) : (CoreCtx.write k (.s n x)).flags = k.flags := by
  by_cases h : n = 0 <;> simp [CoreCtx.write, h]
@[simp] theorem write_s_p (k : CoreCtx) (n : Nat) (x : Word) : (CoreCtx.write k (.s n x)).p = k.p := by
  by_cases h : n = 0 <;> simp [CoreCtx.write, h]

end Sys2Proof.Machine

open Sys2Proof Sys2Proof.Machine Sys2Proof.Machine.State

/-- Settles O20: the landing finds its port free, for no class comes before that of a P result on time, and the register write is that
of R49, which discards s0. -/
theorem scalarResultsLandInTheirRegister : Obligations.ScalarResultsLandInTheirRegister := by
  intro s id port n x fl inP free
  refine ⟨rfl, landed s port (.s n x) fl, exec_resultLanding_free inP rfl (by simp) rfl free, fun m => ?register, landed_ports_ ..,
    ?flags, ?predicates, fun c col _ other => landed_core_other s port _ fl other, landed_ctxs .., landed_mem ..⟩
  case register => rw [landed_core_same]; exact write_s s.me n m x
  case flags => rw [landed_core_same]; exact congrArg (· ||| fl) (write_s_flags s.me n x)
  case predicates => rw [landed_core_same]; exact write_s_p s.me n x
end

section
/-! SUPPORT. Division and remainder at both widths, as numbers (R277, R279). -/

namespace Sys2Proof.Machine

open Sys2Proof State

/-! ### Scalar integer words -/

/-- A scalar integer word of two registers lands the value of its operation at width W (R277). -/
theorem scalarInt_atWidth {s : State} {h : Hd} {d a b : BitVec 5} (r : Runs s h) (st : Settled s [.s a.toNat, .s b.toNat]) (lat : Nat)
    {f : (n : Nat) → BitVec n → BitVec n → BitVec n} {w : Bool} {v : Int} (e : atWidth w f (s.rs a) (s.rs b) = wrapped w v) :
    scalarInt h lat d [.s a.toNat, .s b.toNat] (fun s => atWidth w f (s.rs a) (s.rs b)) s =
      .next (withResult s 0 lat [.s d.toNat (wrapped w v)] 0#5) := by
  rw [scalarInt_eq r st, e]

/-- An operation that is g on signed numbers, wrapped to its width, is g on the signed registers at width W. -/
theorem atWidth_signed {f : (n : Nat) → BitVec n → BitVec n → BitVec n} {g : Nat → Int → Int → Int}
    (law : ∀ n, 0 < n → ∀ x y : BitVec n, f n x y = BitVec.ofInt n (g n x.toInt y.toInt)) (w : Bool) (x y : Word) :
    atWidth w f x y = wrapped w (g (bitsW w) (valS w x) (valS w y)) := by
  cases w
  case false => exact congrArg (BitVec.signExtend 64) (law 32 (by decide) (x.setWidth 32) (y.setWidth 32))
  case true => exact law 64 (by decide) x y

/-- The same of an operation that is g on unsigned numbers. -/
theorem atWidth_unsigned {f : (n : Nat) → BitVec n → BitVec n → BitVec n} {g : Nat → Nat → Nat → Int}
    (law : ∀ n, ∀ x y : BitVec n, f n x y = BitVec.ofInt n (g n x.toNat y.toNat)) (w : Bool) (x y : Word) :
    atWidth w f x y = wrapped w (g (bitsW w) (valU w x) (valU w y)) := by
  cases w
  case false => exact congrArg (BitVec.signExtend 64) (law 32 (x.setWidth 32) (y.setWidth 32))
  case true => exact law 64 x y

/-! ### Quotients and remainders (R279) -/

/-- The signed quotient of n-bit numbers as R279 tables it. -/
def quotS (n : Nat) (x y : Int) : Int := if y = 0 then -1 else if x = -(2 ^ (n - 1)) ∧ y = -1 then -(2 ^ (n - 1)) else Int.tdiv x y
/-- The signed remainder of n-bit numbers as R279 tables it. -/
def modS (n : Nat) (x y : Int) : Int := if y = 0 then x else if x = -(2 ^ (n - 1)) ∧ y = -1 then 0 else Int.tmod x y
/-- The unsigned quotient of n-bit numbers as R279 tables it. -/
def quotU (n x y : Nat) : Int := if y = 0 then 2 ^ n - 1 else ((x / y : Nat) : Int)
/-- The unsigned remainder as R279 tables it. -/
def modU (x y : Nat) : Int := if y = 0 then (x : Int) else ((x % y : Nat) : Int)

theorem toInt_eq_zero_iff {n : Nat} (x : BitVec n) : x.toInt = 0 ↔ x = 0#n := by
  rw [← BitVec.toInt_zero (w := n), BitVec.toInt_inj]

theorem toNat_eq_zero_iff {n : Nat} (x : BitVec n) : x.toNat = 0 ↔ x = 0#n := by
  rw [← BitVec.toNat_inj, BitVec.toNat_zero]

theorem ofInt_toNat {n : Nat} (x : BitVec n) : BitVec.ofInt n (x.toNat : Int) = x := by
  rw [BitVec.ofInt_natCast, BitVec.ofNat_toNat, BitVec.setWidth_eq]

theorem eq_intMin_of_toInt {n : Nat} (pos : 0 < n) {x : BitVec n} (e : x.toInt = -(2 ^ (n - 1))) : x = BitVec.intMin n :=
  BitVec.eq_of_toInt_eq (e.trans (BitVec.toInt_intMin_of_pos pos).symm)

theorem eq_neg_one_of_toInt {n : Nat} (pos : 0 < n) {y : BitVec n} (e : y.toInt = -1) : y = -1#n := by
  refine BitVec.eq_of_toInt_eq ?_
  rw [e, BitVec.neg_one_eq_allOnes, BitVec.toInt_allOnes, if_pos pos]

/-- The quotient wraps where it overflows: the most negative number over -1 is itself. -/
theorem divS_eq (n : Nat) (pos : 0 < n) (x y : BitVec n) : divS n x y = BitVec.ofInt n (quotS n x.toInt y.toInt) := by
  unfold divS quotS
  simp only [toInt_eq_zero_iff]
  split_ifs with zero overflow
  · rw [← BitVec.ofInt_toInt (x := BitVec.allOnes n), BitVec.toInt_allOnes, if_pos pos]
  · obtain ⟨least, minusOne⟩ := overflow
    rw [← least, BitVec.ofInt_toInt, eq_intMin_of_toInt pos least, eq_neg_one_of_toInt pos minusOne, BitVec.intMin_sdiv_neg_one]
  · exact BitVec.eq_of_toInt_eq (by rw [BitVec.toInt_sdiv, BitVec.toInt_ofInt])

/-- A remainder never overflows: over -1 it is 0. -/
theorem remS_eq (n : Nat) (x y : BitVec n) : remS n x y = BitVec.ofInt n (modS n x.toInt y.toInt) := by
  have untabled : x.srem y = BitVec.ofInt n (x.toInt.tmod y.toInt) := by rw [← BitVec.toInt_srem, BitVec.ofInt_toInt]
  unfold remS modS
  simp only [toInt_eq_zero_iff]
  split_ifs with zero overflow
  · rw [BitVec.ofInt_toInt]
  · rw [untabled, overflow.2, Int.tmod_neg, Int.tmod_one]
  · exact untabled

theorem divU_eq (n : Nat) (x y : BitVec n) : divU n x y = BitVec.ofInt n (quotU n x.toNat y.toNat) := by
  unfold divU quotU
  simp only [toNat_eq_zero_iff]
  split_ifs with zero
  · have largest : ((2 : Int) ^ n - 1) = ((BitVec.allOnes n).toNat : Nat) := by
      rw [BitVec.toNat_allOnes, Nat.cast_sub Nat.one_le_two_pow]; norm_cast
    rw [largest, ofInt_toNat]
  · rw [← BitVec.toNat_udiv, ofInt_toNat, BitVec.udiv_eq]

theorem remU_eq (n : Nat) (x y : BitVec n) : remU n x y = BitVec.ofInt n (modU x.toNat y.toNat) := by
  unfold remU modU
  simp only [toNat_eq_zero_iff]
  split_ifs with zero
  · rw [ofInt_toNat]
  · rw [← BitVec.toNat_umod, ofInt_toNat, BitVec.umod_eq]

end Sys2Proof.Machine

open Sys2Proof Sys2Proof.Machine Sys2Proof.Machine.State

/-- Settles O11: a word that runs on settled registers lands its value 14 cycles on with no flag, and at each width that value is the
quotient or remainder of R279; the one quotient that overflows wraps to the most negative number again. -/
theorem divisionNeverTraps : Obligations.DivisionNeverTraps := by
  intro s h d a b w runs settled
  refine ⟨?div, ?divu, ?rem, ?remu⟩
  case div => exact scalarInt_atWidth runs settled 14 (atWidth_signed divS_eq w (s.rs a) (s.rs b))
  case divu => exact scalarInt_atWidth runs settled 14 (atWidth_unsigned divU_eq w (s.rs a) (s.rs b))
  case rem => exact scalarInt_atWidth runs settled 14 (atWidth_signed (fun n _ => remS_eq n) w (s.rs a) (s.rs b))
  case remu => exact scalarInt_atWidth runs settled 14 (atWidth_unsigned (fun n => remU_eq n) w (s.rs a) (s.rs b))
end

section
/-! SUPPORT. The class of a code by its sign, exponent and fraction fields (R187, R284). -/

namespace Sys2Proof.Machine

open Sys2Proof State

/-! ### Fields of a code -/

theorem Fmt.bits_pred (f : Fmt) : f.bits - 1 = f.fb + f.eb := by simp only [Fmt.bits]; omega

/-- The highest bit of a number says whether it reaches that power of two. -/
theorem testBit_top {k c : Nat} (small : c < 2 ^ (k + 1)) : c.testBit k = decide (2 ^ k ≤ c) := by
  by_cases reach : 2 ^ k ≤ c
  case pos => rw [Nat.testBit_of_two_pow_le_and_two_pow_add_one_gt reach small, decide_eq_true reach]
  case neg => rw [Nat.testBit_lt_two_pow (Nat.lt_of_not_le reach), decide_eq_false reach]

/-- A code decodes by its sign, its exponent field and its fraction field, in a format that is not FP8 (R187). -/
theorem Fmt.dec_fields {f : Fmt} (wide : f.isFp8 = false) {c : Nat} (code : c < 2 ^ f.bits) : f.dec c =
    if c / 2 ^ f.fb % 2 ^ f.eb = 2 ^ f.eb - 1 then
      if c % 2 ^ f.fb = 0 then .inf (decide (2 ^ (f.bits - 1) ≤ c)) else .nan (decide (c % 2 ^ f.fb < 2 ^ (f.fb - 1)))
    else if c / 2 ^ f.fb % 2 ^ f.eb = 0 then
      .num (decide (2 ^ (f.bits - 1) ≤ c)) (c % 2 ^ f.fb) (1 - (f.bias : Int) - f.fb)
    else .num (decide (2 ^ (f.bits - 1) ≤ c)) (2 ^ f.fb + c % 2 ^ f.fb)
      (((c / 2 ^ f.fb % 2 ^ f.eb : Nat) : Int) - f.bias - f.fb) := by
  have notE4m3 : f ≠ .e4m3 := by rintro rfl; cases wide
  have sign : c.testBit (f.bits - 1) = decide (2 ^ (f.bits - 1) ≤ c) :=
    testBit_top (by rwa [show f.bits - 1 + 1 = f.bits by simp only [Fmt.bits]; omega])
  have quiet : (c % 2 ^ f.fb).testBit (f.fb - 1) = !decide (c % 2 ^ f.fb < 2 ^ (f.fb - 1)) := by
    rw [testBit_top, ← decide_not]
    · simp only [Nat.not_lt]
    · rw [show f.fb - 1 + 1 = f.fb by cases f <;> rfl]
      exact Nat.mod_lt _ (Nat.two_pow_pos _)
  have exponent : c % 2 ^ (f.bits - 1) / 2 ^ f.fb = c / 2 ^ f.fb % 2 ^ f.eb := by
    rw [Fmt.bits_pred, Nat.pow_add, Nat.mod_mul_right_div_self]
  have fraction : c % 2 ^ (f.bits - 1) % 2 ^ f.fb = c % 2 ^ f.fb := by
    rw [Fmt.bits_pred, Nat.pow_add, Nat.mod_mul_right_mod]
  unfold Fmt.dec
  simp only [if_neg notE4m3, sign, exponent, fraction, quiet, wide, Bool.not_false, Bool.true_and, Bool.not_not]

/-! ### The class -/

/-- The class bit of a code by its fields, as R284 tables it. -/
def fieldClass (f : Fmt) (c : Nat) : Nat :=
  let neg := decide (2 ^ (f.bits - 1) ≤ c)
  let ex := c / 2 ^ f.fb % 2 ^ f.eb
  let fr := c % 2 ^ f.fb
  if ex = 2 ^ f.eb - 1 then
    (if fr = 0 then (if neg then 0 else 7) else if fr < 2 ^ (f.fb - 1) then 8 else 9)
  else if ex = 0 then
    (if fr = 0 then (if neg then 3 else 4) else if neg then 2 else 5)
  else if neg then 1 else 6

theorem classBit_inf {f : Fmt} {c : Nat} {neg : Bool} (e : f.dec c = .inf neg) : classBit f c = if neg then 0 else 7 := by
  unfold classBit; rw [e]; cases neg <;> rfl

theorem classBit_nan {f : Fmt} {c : Nat} {sig : Bool} (e : f.dec c = .nan sig) : classBit f c = if sig then 8 else 9 := by
  unfold classBit; rw [e]; cases sig <;> rfl

/-- A magnitude below the leading 1 is a zero or subnormal. -/
theorem classBit_low {f : Fmt} {c m : Nat} {neg : Bool} {k : Int} (e : f.dec c = .num neg m k) (low : m < 2 ^ f.fb) :
    classBit f c = if m = 0 then (if neg then 3 else 4) else if neg then 2 else 5 := by
  unfold classBit; rw [e]; dsimp only; rw [if_pos low]

/-- A magnitude with the leading 1 is normal. -/
theorem classBit_normal {f : Fmt} {c m : Nat} {neg : Bool} {k : Int} (e : f.dec c = .num neg (2 ^ f.fb + m) k) :
    classBit f c = if neg then 1 else 6 := by
  have nonzero : 2 ^ f.fb + m ≠ 0 := Nat.ne_of_gt (Nat.add_pos_left (Nat.two_pow_pos _) m)
  unfold classBit; rw [e]; dsimp only; rw [if_neg nonzero, if_neg (Nat.not_lt.mpr (Nat.le_add_right ..))]

/-- The class of the decoded value is that of the fields: an exponent field of ones holds the infinities and NaNs, one of zeros the
zeros and subnormals. -/
theorem classBit_eq_fieldClass {f : Fmt} (wide : f.isFp8 = false) {c : Nat} (code : c < 2 ^ f.bits) :
    classBit f c = fieldClass f c := by
  have decodes := Fmt.dec_fields wide code
  unfold fieldClass
  dsimp only
  by_cases ones : c / 2 ^ f.fb % 2 ^ f.eb = 2 ^ f.eb - 1
  · rw [if_pos ones] at decodes ⊢
    by_cases infinite : c % 2 ^ f.fb = 0
    · rw [if_pos infinite] at decodes ⊢
      exact classBit_inf decodes
    · rw [if_neg infinite] at decodes ⊢
      simpa only [decide_eq_true_eq] using classBit_nan decodes
  · rw [if_neg ones] at decodes ⊢
    by_cases zeros : c / 2 ^ f.fb % 2 ^ f.eb = 0
    · rw [if_pos zeros] at decodes ⊢
      exact classBit_low decodes (Nat.mod_lt _ (Nat.two_pow_pos _))
    · rw [if_neg zeros] at decodes ⊢
      exact classBit_normal decodes

theorem wFmt_isFp8 (w : Bool) : (wFmt w).isFp8 = false := by cases w <;> rfl

theorem fcode_lt (w : Bool) (x : Word) : fcode w x < 2 ^ (wFmt w).bits := Nat.mod_lt _ (Nat.two_pow_pos _)

/-- The code that a register holds at width W is its unsigned number at that width. -/
theorem fcode_eq_valU (w : Bool) (x : Word) : fcode w x = valU w x := by
  cases w
  case false => exact (BitVec.toNat_setWidth 32 x).symm
  case true => exact Nat.mod_eq_of_lt x.isLt

end Sys2Proof.Machine

open Sys2Proof Sys2Proof.Machine Sys2Proof.Machine.State

/-- Settles O15: the mask is 2 to the class of the decoded operand, and that class is the one its fields give. -/
theorem classMaskHasOneBit : Obligations.ClassMaskHasOneBit := by
  intro s h d a w runs settled
  have same : classBit (wFmt w) (fcode w (s.rs a)) = fieldClass (wFmt w) (valU w (s.rs a)) := by
    rw [classBit_eq_fieldClass (wFmt_isFp8 w) (fcode_lt w _), fcode_eq_valU]
  have lands : exec (.fclass h d a w) s =
      .next (withResult s 0 (fpLat w) [.s d.toNat (BitVec.ofNat 64 (2 ^ classBit (wFmt w) (fcode w (s.rs a))))] 0#5) :=
    scalarWord_eq runs settled (fpLat w) fun s => ([.s d.toNat (BitVec.ofNat 64 (2 ^ classBit (wFmt w) (fcode w (s.rs a))))], 0#5)
  rw [same] at lands
  exact lands
end

section
/-! SUPPORT. The repeated positions of a stream and the mask that marks them (R52, R54, R328). -/

namespace Sys2Proof.Machine

open Sys2Proof State

/-! ### Flat positions -/

theorem perRow_pos {w : Nat} (h : IsWidth w) : 0 < perRow w := by
  rcases h with rfl | rfl | rfl | rfl <;> decide

/-- The bits of the rows above a flat position and those before it in its own row are its elements' widths together. -/
theorem elemPos_flat {w : Nat} (h : IsWidth w) (p : Nat) : elemPos w (p / perRow w) (p % perRow w) = w * p := by
  calc elemPos w (p / perRow w) (p % perRow w)
      = w * (perRow w * (p / perRow w) + p % perRow w) := by
        rw [elemPos, Nat.mul_add, ← Nat.mul_assoc, perRow_mul h]
    _ = w * p := by rw [Nat.div_add_mod]

/-- An element's flat position may be counted on from row 0 (R52). -/
theorem elem_flat {w : Nat} (h : IsWidth w) (v : Block) (p : Nat) :
    elem w v (p / perRow w) (p % perRow w) = elem w v 0 p := by
  have row0 : elemPos w 0 p = w * p := by rw [elemPos, Nat.mul_zero, Nat.zero_add]
  rw [elem, elem, elemPos_flat h, row0]

/-- The mask bit of a flat position is that of the container in which it begins, counted on from row 0 (R54). -/
theorem sel_flat {w : Nat} (h : IsWidth w) (m : Mask) (p : Nat) : sel m w (p / perRow w) (p % perRow w) = sel m w 0 p := by
  have pos := elemPos_flat h p
  have container : 64 * (p / perRow w) + w * (p % perRow w) / 32 = 64 * 0 + w * p / 32 := by
    rw [elemPos] at pos
    omega
  rw [sel, sel, container]

/-- The stream of a register under a mask: for each flat position, whether it is selected and its value. -/
def stream (m : Mask) (w : Nat) (v : Block) : List (Bool × Nat) :=
  (flats w).map fun p => (sel m w p.1 p.2, elem w v p.1 p.2)

theorem stream_getElem? {w : Nat} (h : IsWidth w) (m : Mask) (v : Block) {p : Nat} (inRange : p < 16 * perRow w) :
    (stream m w v)[p]? = some (sel m w 0 p, elem w v 0 p) := by
  simp [stream, flats, List.getElem?_range inRange, sel_flat h, elem_flat h]

/-! ### Repeated positions -/

/-- A position is marked when it is selected and its value has been seen or stands at an earlier selected position. -/
theorem repeats_getElem?_eq_true (l : List (Bool × Nat)) (seen : List Nat) (p : Nat) :
    (repeats l seen)[p]? = some true ↔
      ∃ x, l[p]? = some (true, x) ∧ (x ∈ seen ∨ ∃ q < p, l[q]? = some (true, x)) := by
  induction l generalizing seen p with
  | nil => simp [repeats]
  | cons e r ih =>
    obtain ⟨b, y⟩ := e
    cases p with
    | zero => cases b <;> simp [repeats]
    | succ p =>
      have tail : (repeats ((b, y) :: r) seen)[p + 1]? = (repeats r (if b then y :: seen else seen))[p]? := rfl
      have seen_cons (x : Nat) : x ∈ (if b then y :: seen else seen) ↔ x ∈ seen ∨ (b, y) = (true, x) := by
        cases b
        case false => simp
        case true => simp [or_comm, eq_comm]
      simp only [tail, ih, seen_cons, Nat.exists_lt_succ_left, List.getElem?_cons_zero, List.getElem?_cons_succ,
        Option.some.injEq, or_assoc]

/-- The marks of a register's stream, in terms of the register and the mask (R328). -/
theorem repeats_stream {w : Nat} (h : IsWidth w) (m : Mask) (v : Block) {p : Nat} (inRange : p < 16 * perRow w) :
    (repeats (stream m w v) [])[p]? = some true ↔
      sel m w 0 p = true ∧ ∃ q < p, sel m w 0 q = true ∧ elem w v 0 q = elem w v 0 p := by
  have earlier (x : Nat) : (∃ q < p, (stream m w v)[q]? = some (true, x)) ↔ ∃ q < p, sel m w 0 q = true ∧ elem w v 0 q = x :=
    exists_congr fun q => and_congr_right fun before => by
      rw [stream_getElem? h m v (before.trans inRange), Option.some.injEq, Prod.mk.injEq]
  simp only [repeats_getElem?_eq_true, stream_getElem? h m v inRange, earlier, List.not_mem_nil, false_or, Option.some.injEq,
    Prod.mk.injEq]
  constructor
  · rintro ⟨x, ⟨selected, rfl⟩, repeated⟩
    exact ⟨selected, repeated⟩
  · rintro ⟨selected, repeated⟩
    exact ⟨_, ⟨selected, rfl⟩, repeated⟩

/-! ### The mask of the marks -/

theorem maskOf_getLsbD (l : List Bool) {i : Nat} (inMask : i < 1024) : (maskOf l).getLsbD i = true ↔ l[i]? = some true := by
  have digit := packList_get 1 (l.map fun b => if b then 1 else 0) i
  rw [Nat.one_mul, Nat.pow_one] at digit
  rw [maskOf, BitVec.getLsbD_ofNat, decide_eq_true inMask, Bool.true_and, Nat.testBit_eq_decide_div_mod_eq, digit,
    decide_eq_true_iff, List.getD_eq_getElem?_getD, List.getElem?_map]
  cases l[i]? with
  | none => simp
  | some b => cases b <;> simp

/-- In a list whose every member stands twice, both places of a pair hold its member. -/
theorem getElem?_flatMap_pair {α : Type} (l : List α) (p : Nat) {i : Nat} (place : i < 2) :
    (l.flatMap fun b => [b, b])[2 * p + i]? = l[p]? := by
  induction l generalizing p with
  | nil => rfl
  | cons b r ih =>
    cases p with
    | zero =>
      obtain rfl | rfl : i = 0 ∨ i = 1 := by omega
      · rfl
      · rfl
    | succ p =>
      rw [show 2 * (p + 1) + i = 2 * p + i + 2 by omega]
      exact ih p

/-- A mark stands at each container of its position: one for a 32-bit type, the pair for a 64-bit type (R54). -/
theorem containers_getElem? {w : Nat} (pairs : w = 32 ∨ w = 64) (l : List Bool) (p : Nat) {i : Nat} (part : i < w / 32) :
    (if w = 64 then l.flatMap fun b => [b, b] else l)[w / 32 * p + i]? = l[p]? := by
  rcases pairs with rfl | rfl
  · obtain rfl : i = 0 := by omega
    simp
  · exact getElem?_flatMap_pair l p part

/-- The mask of the repeated positions of a register's stream, as VCONF writes it. -/
def repeatMask (m : Mask) (w : Nat) (v : Block) : Mask :=
  maskOf (if w = 64 then (repeats (stream m w v) []).flatMap fun b => [b, b] else repeats (stream m w v) [])

/-- A bit of the mask of a 32-bit or 64-bit type says whether its position repeats an earlier one (R328). -/
theorem repeatMask_getLsbD {w : Nat} (pairs : w = 32 ∨ w = 64) (m : Mask) (v : Block) {p i : Nat} (inRange : p < 16 * perRow w)
    (part : i < w / 32) : (repeatMask m w v).getLsbD (w / 32 * p + i) = true ↔
      sel m w 0 p = true ∧ ∃ q < p, sel m w 0 q = true ∧ elem w v 0 q = elem w v 0 p := by
  have width : IsWidth w := Or.inr (Or.inr pairs)
  have containers : w / 32 * (16 * perRow w) = 1024 := by rcases pairs with rfl | rfl <;> rfl
  have inMask : w / 32 * p + i < 1024 := by nlinarith
  rw [repeatMask, maskOf_getLsbD _ inMask, containers_getElem? pairs _ p part, repeats_stream width m v inRange]

/-- VCONF works on i32 and i64 only (R328). -/
theorem vconf_width {h : Hd} {d a : BitVec 4} {t k : BitVec 2} (wf : (Instr.vconf h d a t k).wellFormed = true) :
    tyBits t = 32 ∨ tyBits t = 64 := by
  have fields : (oneSide d a && decide (t = 0#2 ∨ t = 3#2)) = true := wf
  obtain ⟨-, rfl | rfl⟩ : oneSide d a = true ∧ (t = 0#2 ∨ t = 3#2) := by simpa using fields
  · exact Or.inl rfl
  · exact Or.inr rfl

/-- VCONF lands the mask of the repeated positions, every bit of it written, 16 cycles on (R316, R328). -/
theorem exec_vconf {s : State} {h : Hd} {d a : BitVec 4} {t k : BitVec 2} (runs : Runs s h)
    (settled : Settled s [.v a.toNat, .k k.toNat]) : exec (.vconf h d a t k) s = .next (withResult s 0 16
      [.k (d.toNat % 8) (BitVec.allOnes 1024) (repeatMask (s.rk k.toNat) (tyBits t) (s.rv a.toNat))] 0#5) :=
  vecWord_eq runs settled 16 fun s =>
    ([.k (d.toNat % 8) (BitVec.allOnes 1024) (repeatMask (ks s k) (tyBits t) (s.rv a.toNat))], 0#5)

end Sys2Proof.Machine

open Sys2Proof Sys2Proof.Machine Sys2Proof.Machine.State

/-- Settles O38: the scan of the register's stream marks a position where an earlier selected one left its value, and the mask holds
that mark at each container of the position. -/
theorem vconfMarksRepeats : Obligations.VconfMarksRepeats := by
  intro s h d a t k wf runs settled
  exact ⟨_, exec_vconf runs settled, fun p inRange i part => repeatMask_getLsbD (vconf_width wf) _ _ inRange part⟩
end
